-- ==== Sys2Proof/Word.lean ====
section
/-!
DEFINITION. The byte, the two lines, and the pair of one thing for each line. Plain names only: every helper that a
repair might have to mend stands under Machine/.
-/

namespace Sys2Proof

/-- One byte of the window, of a frame or of a record. -/
abbrev Byte := BitVec 8

/-- The two half-duplex lines: Line A has index 0 and Line B index 1 (00_scope.md, Terms). -/
inductive Line where
  | a
  | b
  deriving DecidableEq, Repr

/-- The level of a pin. On RXD and TXD high is mark and low is space (section 6.2). -/
inductive Level where
  | low
  | high
  deriving DecidableEq, Repr

/-- One of something for each line. -/
structure PerLine (α : Type) where
  a : α
  b : α
  deriving DecidableEq, Repr

/-- The one that belongs to a line. -/
def PerLine.get {α : Type} (p : PerLine α) : Line → α
  | .a => p.a
  | .b => p.b

/-- Replace the one that belongs to a line. -/
def PerLine.set {α : Type} (p : PerLine α) (l : Line) (x : α) : PerLine α :=
  match l with
  | .a => { p with a := x }
  | .b => { p with b := x }

end Sys2Proof
end

