-- ==== Sys2Proof/Syntax.lean ====
section
/-!
DEFINITION. The commands of the block: one constructor for each row of spec/opcode_table.json, in the table's order,
with the operands the row's event carries. A command given by a write of its code to COMMAND carries none: PARAM and
the staging buffer, which it reads, are state.
-/

namespace Sys2Proof

/-- The LOW or the HIGH byte of the pending and enable bytes (R138). -/
inductive Half where
  | low
  | high
  deriving DecidableEq, Repr

/-- Every row of spec/opcode_table.json. -/
inductive Instr where
  /-- Command 0x01 (R114). -/
  | configureLine
  /-- Command 0x02 (R115). -/
  | readLineConfig
  /-- Command 0x03 (R131). -/
  | enableLine
  /-- Command 0x04 (R132). -/
  | disableLine
  /-- Command 0x10 (R7). -/
  | writeEntry
  /-- Command 0x11 (R10). -/
  | readEntry
  /-- Command 0x20 (R25). -/
  | setRoundMode
  /-- Command 0x21 (R26). -/
  | startRounds
  /-- Command 0x22 (R33). -/
  | haltRounds
  /-- Command 0x23 (R20). -/
  | setTiming
  /-- Command 0x30 (R42). -/
  | enqueueUrgent
  /-- Command 0x31 (R51). -/
  | flushUrgent
  /-- Command 0x32 (R124). -/
  | setBurst
  /-- Command 0x40 (R75). -/
  | releaseReply
  /-- Command 0x50 (R80). -/
  | setHealth
  /-- Command 0x51 (R91). -/
  | readNode
  /-- Command 0x52 (R89). -/
  | takeChange
  /-- Command 0x53 (R93). -/
  | clearNodeMap
  /-- Command 0xA5 (R167). -/
  | resetPart
  /-- A write to COMMAND of a code that is not a command (R160). -/
  | unknownCommand (code : Byte)
  /-- A write to COMMAND, other than of RESET PART, made while the decoder is EXECUTING (R159). -/
  | refusedBusy (code : Byte)
  /-- A write to a register with no row of its own (R151, R152, R153). -/
  | windowWrite (address : Fin 16) (value : Byte)
  /-- A write to STAGE POINTER (R155). -/
  | stagePointerWrite (value : Byte)
  /-- A write to STAGE DATA (R155). -/
  | stageDataWrite (value : Byte)
  /-- A read of STAGE DATA (R155). -/
  | stageDataRead
  /-- A write to REPLY POINTER (R73). -/
  | replyPointerWrite (value : Byte)
  /-- A read of REPLY DATA (R73). -/
  | replyDataRead
  /-- A read of RESET CAUSE (R154). -/
  | resetCauseRead
  /-- A write to PENDING LOW or PENDING HIGH (R142). -/
  | acknowledge (half : Half) (value : Byte)
  /-- A write to ENABLE LOW or ENABLE HIGH (R144). -/
  | interruptEnableWrite (half : Half) (value : Byte)
  /-- RESET sampled low on two consecutive CLKIN periods (R166). -/
  | hardwareReset
  /-- RESET sampled high on two consecutive CLKIN periods (R166). -/
  | hardwareResetEnd
  /-- SYNC has held `level` for two samples after a change (R22). -/
  | syncEdge (level : Level)
  /-- The receiver has sampled the first stop bit of a character: the data byte, the sampled parity bit (of no use
  under parity NONE) and the sample of the stop bit, from which the character's error follows (R100). -/
  | characterDelivered (line : Line) (data : Byte) (parityBit : Bool) (stop : Level)
  /-- The prescaler reaches the tick divisor (R19). -/
  | tick
  /-- A tick brings the line's round timer to 0 (R21). -/
  | roundTimerExpiry (line : Line)
  /-- The line's continuous gap runs out (R32). -/
  | continuousGapEnd (line : Line)
  /-- The line's quiet count reaches the quiet gap (R119). -/
  | quietGapEnd (line : Line)
  /-- The lead time has passed (R126). -/
  | leadEnd (line : Line)
  /-- The last stop bit of the request frame ends (R126). -/
  | sendingEnd (line : Line)
  /-- The lag time has passed (R103). -/
  | lagEnd (line : Line)
  /-- The reply timeout runs out (R108). -/
  | replyTimeout (line : Line)
  /-- Idle within the reply frame reaches the character gap limit (R110). -/
  | truncated (line : Line)
  /-- Idle while DISCARDING reaches the character gap limit (R111). -/
  | discardEnd (line : Line)
  /-- One visit of the CLEAR NODE MAP walk (R93). -/
  | clearWalkVisit
  /-- RXD falls from mark to space (R100). -/
  | rxdFall (line : Line)
  /-- RXD is sampled half a bit time after the fall, and the sample is `level` (R100). -/
  | midStartSample (line : Line) (level : Level)
  /-- RXD reaches mark after being held at space (R100, R101). -/
  | rxdReturnToMark (line : Line)
  /-- CLKIN stops (R171). -/
  | clkinStop
  /-- CLKIN runs again (R171). -/
  | clkinRestart
  /-- After a hardware reset, SYNC has held `level` for two samples for the first time (R172). -/
  | syncFirstStableLevel (level : Level)
  deriving DecidableEq, Repr

end Sys2Proof
end

