-- ==== Sys2Proof/Decode.lean ====
section
/-!
DEFINITION. The command a word spells by the bits of spec/opcode_table.json. No row of that table gives bits, so no
word spells a command; commands come from outside through the queue (log 18).
-/

namespace Sys2Proof

/-- No row of the table has bits: every word spells nothing. -/
def decodeTableWord (_nbits _w : Nat) : Option Instr := none

end Sys2Proof
end

