-- ==== Sys2Proof/Config.lean ====
section
/-!
DEFINITION. What the spec leaves to the part. It fixes every quantity by a setting or a reset value, so there is one
free value only.
-/

namespace Sys2Proof

/-- FREE VALUE (log 4). Events of the part that fall in one CLKIN period may be taken in either order (R36, R71, R94,
R134 to R136). The number, drawn afresh by `State.freeIndex`, picks one of the orders; nothing constrains it. -/
opaque Config.clockOrder : Nat → Nat

end Sys2Proof
end

