-- ==== Sys2Proof/Machine/State.lean ====
section
/-!
DEFINITION. The state of the block, as plain data, and its value right after reset. One type for each kind of record
the spec names, one structure for each of the nine blocks of 00_scope.md, and the queue of waiting commands.
-/

namespace Sys2Proof.Machine

/-! ### Counts of bit times (R98, R171) -/

/-- Whole bit times counted so far, and the CLKIN periods of the bit time under way (log 17). -/
structure BitCount where
  bits : Nat
  periods : Nat
  deriving DecidableEq, Repr

/-- A count that has just started. -/
def BitCount.zero : BitCount := { bits := 0, periods := 0 }

/-! ### Schedule Table (R1) -/

/-- How the Reply Store keeps an entry's records (R2). -/
inductive Policy where
  | keepAll
  | latest
  deriving DecidableEq, Repr

/-- The LEN a reply must carry (R3). -/
inductive ReplyExpectation where
  | any
  | exactly (length : Nat)
  deriving DecidableEq, Repr

/-- The fields an entry and an urgent request share (R1, R40). The request length is the payload's length. -/
structure Request where
  address : Byte
  command : Byte
  payload : List Byte
  expectation : ReplyExpectation
  timeout : Nat
  retryLimit : Nat
  deriving DecidableEq, Repr

/-- One record of the Schedule Table (R1). -/
structure Entry where
  enabled : Bool
  line : Line
  policy : Policy
  request : Request
  divisor : Nat
  phase : Nat
  deriving DecidableEq, Repr

/-- An entry after either reset (R4). -/
def Entry.reset : Entry :=
  { enabled := false
    line := .a
    policy := .keepAll
    request :=
      { address := 0, command := 0, payload := [], expectation := .exactly 0, timeout := 0, retryLimit := 0 }
    divisor := 1
    phase := 0 }

/-! ### Round Controllers (R18) -/

/-- The round states of section 2.1. -/
inductive RoundState where
  | stopped
  | armed
  | running
  | halting
  deriving DecidableEq, Repr

/-- What starts rounds (R18). -/
inductive TriggerSource where
  | soft
  | timer
  | sync
  deriving DecidableEq, Repr

/-- Which edges of SYNC are triggers (R22). -/
inductive SyncEdge where
  | rising
  | falling
  | both
  deriving DecidableEq, Repr

/-- What follows a round (R31). -/
inductive RoundMode where
  | single
  | continuous
  deriving DecidableEq, Repr

/-- The round mode settings of one controller (R18). -/
structure RoundSettings where
  source : TriggerSource
  edge : SyncEdge
  mode : RoundMode
  period : Nat
  deriving DecidableEq, Repr

/-- One Round Controller (R18). A timer of `none` is stopped, a gap of `none` is idle. -/
structure Controller where
  state : RoundState
  settings : RoundSettings
  timer : Option Nat
  roundNumber : Byte
  cursor : Nat
  exhausted : Bool
  gap : Option BitCount
  routineInFlight : Bool
  deriving DecidableEq, Repr

/-- A controller after either reset (R18). -/
def Controller.reset : Controller :=
  { state := .stopped
    settings := { source := .soft, edge := .rising, mode := .single, period := 1000 }
    timer := none
    roundNumber := 0
    cursor := 0
    exhausted := false
    gap := none
    routineInFlight := false }

/-- The Time Base (R19). -/
structure TimeBase where
  divisor : Nat
  prescaler : Nat
  deriving DecidableEq, Repr

/-- The Time Base after either reset (R19). -/
def TimeBase.reset : TimeBase := { divisor := 4096, prescaler := 0 }

/-! ### Urgent Queue (R39) -/

/-- The state of an occupied slot (R39). -/
inductive SlotState where
  | queued
  | inFlight
  deriving DecidableEq, Repr

/-- One occupied slot: the request of R40 and the slot's state. -/
structure Slot where
  tag : Byte
  line : Line
  request : Request
  state : SlotState
  deriving DecidableEq, Repr

/-! ### Line Engines (R116) -/

/-- The parity settings (R113). -/
inductive Parity where
  | none
  | even
  | odd
  deriving DecidableEq, Repr

/-- A line configuration record (R113). -/
structure LineConfig where
  divisor : Nat
  parity : Parity
  stopBits : Nat
  lead : Nat
  lag : Nat
  quietGap : Nat
  gapLimit : Nat
  deriving DecidableEq, Repr

/-- A line configuration after either reset (R113). -/
def LineConfig.reset : LineConfig :=
  { divisor := 48, parity := .none, stopBits := 1, lead := 1, lag := 1, quietGap := 16, gapLimit := 4 }

/-- The nine line states, in the order of their codes (R117). -/
inductive LineState where
  | disabled
  | quiet
  | ready
  | lead
  | sending
  | lag
  | awaiting
  | receiving
  | discarding
  deriving DecidableEq, Repr

/-- The ten outcome codes (R128). -/
inductive OutcomeCode where
  | ok
  | nodeFault
  | sent
  | noReply
  | charError
  | checkError
  | badFrame
  | truncated
  | aborted
  | cancelled
  deriving DecidableEq, Repr

/-- The kind and id of an exchange, and what only a routine snapshot holds (R118, R12). -/
inductive Work where
  | routine (entry : Fin 32) (policy : Policy) (round : Byte)
  | urgent (tag : Byte)
  deriving DecidableEq, Repr

/-- The reply frame being assembled (R118): characters taken so far, the running CRC, and STATUS, LEN and payload once
received. -/
structure Assembly where
  position : Nat
  crc : Byte
  status : Byte
  length : Nat
  payload : List Byte
  deriving DecidableEq, Repr

/-- An empty reply assembly, with the CRC at its starting value (R107, R118). -/
def Assembly.empty : Assembly := { position := 0, crc := 0xFF, status := 0, length := 0, payload := [] }

/-- The context of the exchange in flight (R118): kind, id and snapshot, attempts begun, pending outcome and reply
assembly. The snapshot's line is the engine's own, since an engine takes only work of its line (R28, R47). -/
structure Exchange where
  work : Work
  request : Request
  attempts : Nat
  pendingOutcome : Option OutcomeCode
  assembly : Assembly
  deriving DecidableEq, Repr

/-- What the receiver of a line is doing (R100 to R102). -/
inductive Receiver where
  /-- Off: the line is DISABLED or DE is asserted (R102). -/
  | off
  /-- Waiting for a fall (R100). -/
  | waiting
  /-- A fall has been seen and its mid-start sample is to come (R100). -/
  | fallSeen
  /-- A character is under way (R100). -/
  | character
  /-- After a framing error: RXD must first be sampled at mark (R100). -/
  | held
  deriving DecidableEq, Repr

/-- One Line Engine (R116), with its receiver and the level of its RXD pin as last reported (log 5). The receiver counts
CLKIN periods from a fall to the mid-start sample and from each sample to the next, and keeps the samples of the
character under way, its data bits first (R98, R100, log 17). -/
structure Engine where
  state : LineState
  config : LineConfig
  exchange : Option Exchange
  urgentCount : Nat
  quietCount : BitCount
  timeCount : Option BitCount
  bitsSent : BitCount
  idleCount : BitCount
  receiver : Receiver
  sampleCount : Nat
  samples : List Level
  rxd : Level
  deriving DecidableEq, Repr

/-- An engine after either reset (R113, R116), with its RXD pin at a given level: a reset does not move the pin. -/
def Engine.reset (rxd : Level) : Engine :=
  { state := .disabled
    config := LineConfig.reset
    exchange := none
    urgentCount := 0
    quietCount := BitCount.zero
    timeCount := none
    bitsSent := BitCount.zero
    idleCount := BitCount.zero
    receiver := .off
    sampleCount := 0
    samples := []
    rxd := rxd }

/-! ### Reply Store (R57) -/

/-- Whether a record comes from an entry or from an urgent request (R58). -/
inductive RecordSource where
  | routine
  | urgent
  deriving DecidableEq, Repr

/-- What a valid reply gives to a record: node status and payload (R58, R112). -/
structure Reply where
  status : Byte
  payload : List Byte
  deriving DecidableEq, Repr

/-- A reply record (R58). The reply fields are absent together: reply-present is whether `reply` is there. -/
structure Record where
  source : RecordSource
  line : Line
  id : Byte
  address : Byte
  command : Byte
  outcome : OutcomeCode
  attempts : Nat
  reply : Option Reply
  round : Byte
  missed : Nat
  deriving DecidableEq, Repr

/-! ### Node Health Map (R79) -/

/-- The states of a node record (R79). -/
inductive NodeState where
  | unknown
  | online
  | suspect
  | offline
  deriving DecidableEq, Repr

/-- A node record (R79). A last outcome of `none` is NONE. -/
structure NodeRecord where
  state : NodeState
  failures : Nat
  lastOutcome : Option OutcomeCode
  countdown : Nat
  changed : Bool
  deriving DecidableEq, Repr

/-- A node record after either reset (R79). -/
def NodeRecord.reset : NodeRecord :=
  { state := .unknown, failures := 0, lastOutcome := none, countdown := 0, changed := false }

/-- The health thresholds S, O and V (R80). -/
structure Thresholds where
  suspect : Nat
  offline : Nat
  revival : Nat
  deriving DecidableEq, Repr

/-- The thresholds after either reset (R80). -/
def Thresholds.reset : Thresholds := { suspect := 2, offline := 4, revival := 8 }

/-! ### Interrupt Unit (R139) -/

/-- The ten latched pending flags (R138, R139). -/
structure Latched where
  overrun : Bool
  commandDone : Bool
  stray : PerLine Bool
  roundEnd : PerLine Bool
  late : PerLine Bool
  halted : PerLine Bool
  deriving DecidableEq, Repr

/-- The latched flags and the two enable bytes of six flags each (R139). -/
structure InterruptUnit where
  latched : Latched
  enableLow : BitVec 6
  enableHigh : BitVec 6
  deriving DecidableEq, Repr

/-- The Interrupt Unit after either reset (R139). -/
def InterruptUnit.reset : InterruptUnit :=
  { latched :=
      { overrun := false
        commandDone := false
        stray := ⟨false, false⟩
        roundEnd := ⟨false, false⟩
        late := ⟨false, false⟩
        halted := ⟨false, false⟩ }
    enableLow := 0
    enableHigh := 0 }

/-! ### Host Port (R151) -/

/-- The result codes, in the order of their values (R158). -/
inductive ResultCode where
  | none
  | done
  | state
  | range
  | full
  | room
  | empty
  | unknown
  deriving DecidableEq, Repr

/-- The reset cause (R154). -/
inductive ResetCause where
  | none
  | pin
  | command
  deriving DecidableEq, Repr

/-- The command decoder (R157). While EXECUTING it holds the next visit of the CLEAR NODE MAP walk, counted from 0 in
key order (R93). -/
inductive Decoder where
  | idle
  | executing (visit : Fin 252)
  deriving DecidableEq, Repr

/-- The Host Port (R151 to R159). -/
structure HostPort where
  staging : Vector Byte 32
  stagePointer : Fin 32
  replyPointer : Fin 32
  param : Byte
  decoder : Decoder
  result : ResultCode
  refusedBusy : Bool
  resetCause : ResetCause
  lastRead : Byte
  deriving DecidableEq, Repr

/-! ### The whole block -/

/-- The state of the block. -/
structure State where
  port : HostPort
  table : Vector Entry 32
  rounds : PerLine Controller
  timeBase : TimeBase
  syncLevel : Option Level
  urgent : List Slot
  engines : PerLine Engine
  burstLimit : Nat
  store : List Record
  missed : Vector Nat 32
  nodes : PerLine (Vector NodeRecord 126)
  health : Thresholds
  interrupts : InterruptUnit
  resetHeld : Bool
  clkinRunning : Bool
  freeIndex : Nat
  pending : List Instr
  deriving DecidableEq, Repr

/-- Why the machine stops. The spec gives the part no fault (log 19): nothing raises one, so there is no constructor,
which is safe. -/
inductive Fault : Type where
  deriving DecidableEq, Repr

/-- Why a command is rejected. Only an arm of exec without a meaning raises it, and there is none left; stopping there
would be safe. -/
inductive Refusal : Type where
  /-- The command has no meaning yet. -/
  | notModelled (mnemonic : String)
  deriving DecidableEq, Repr

/-- The machine right after its first hardware reset has ended: every block at the reset value of its own rule, the
reset cause 1 and RESULT NONE (R166, R168), no stable level of SYNC taken yet (R172), nothing waiting. -/
def State.reset : State :=
  { port :=
      { staging := Vector.replicate 32 0
        stagePointer := 0
        replyPointer := 0
        param := 0
        decoder := .idle
        result := .none
        refusedBusy := false
        resetCause := .pin
        lastRead := 0 }
    table := Vector.replicate 32 Entry.reset
    rounds := ⟨Controller.reset, Controller.reset⟩
    timeBase := TimeBase.reset
    syncLevel := none
    urgent := []
    engines := ⟨Engine.reset .high, Engine.reset .high⟩
    burstLimit := 2
    store := []
    missed := Vector.replicate 32 0
    nodes := ⟨Vector.replicate 126 NodeRecord.reset, Vector.replicate 126 NodeRecord.reset⟩
    health := Thresholds.reset
    interrupts := InterruptUnit.reset
    resetHeld := false
    clkinRunning := true
    freeIndex := 0
    pending := [] }

end Sys2Proof.Machine
end

