-- ==== Sys2Proof/Machine/Ops.lean ====
section
/-!
DEFINITION. The named reads and updates of State, the gates every event passes (CLKIN, RESET, the command decoder),
and the setting of the latched interrupt sources. Everything else is written over these.
-/

namespace Sys2Proof.Machine

/-! ### Reads and updates, one for each field of State -/

def State.setPort (s : State) (p : HostPort) : State := { s with port := p }

def State.setTable (s : State) (t : Vector Entry 32) : State := { s with table := t }

/-- The Round Controller of a line. -/
def State.controller (s : State) (l : Line) : Controller := s.rounds.get l

def State.setController (s : State) (l : Line) (c : Controller) : State := { s with rounds := s.rounds.set l c }

def State.setTimeBase (s : State) (t : TimeBase) : State := { s with timeBase := t }

def State.setSyncLevel (s : State) (v : Option Level) : State := { s with syncLevel := v }

def State.setUrgent (s : State) (q : List Slot) : State := { s with urgent := q }

/-- The Line Engine of a line. -/
def State.engine (s : State) (l : Line) : Engine := s.engines.get l

def State.setEngine (s : State) (l : Line) (e : Engine) : State := { s with engines := s.engines.set l e }

def State.setBurstLimit (s : State) (n : Nat) : State := { s with burstLimit := n }

def State.setStore (s : State) (r : List Record) : State := { s with store := r }

def State.setMissed (s : State) (m : Vector Nat 32) : State := { s with missed := m }

/-- The node record keyed by a line and an address; index 0 is address 0x01 (R79). -/
def State.node (s : State) (l : Line) (i : Fin 126) : NodeRecord := (s.nodes.get l)[i]

def State.setNode (s : State) (l : Line) (i : Fin 126) (r : NodeRecord) : State :=
  { s with nodes := s.nodes.set l ((s.nodes.get l).set i r) }

def State.setHealth (s : State) (t : Thresholds) : State := { s with health := t }

def State.setInterrupts (s : State) (u : InterruptUnit) : State := { s with interrupts := u }

def State.setResetHeld (s : State) (b : Bool) : State := { s with resetHeld := b }

def State.setClkinRunning (s : State) (b : Bool) : State := { s with clkinRunning := b }

def State.setFreeIndex (s : State) (n : Nat) : State := { s with freeIndex := n }

def State.setPending (s : State) (q : List Instr) : State := { s with pending := q }

/-! ### Gates -/

/-- While CLKIN is stopped the part takes no event (R171). -/
def clocked (f : State → State) (s : State) : State := if s.clkinRunning then f s else s

/-- While RESET is held the part takes no access and no event of its own either (R166). -/
def working (f : State → State) (s : State) : State := if s.clkinRunning && !s.resetHeld then f s else s

/-- The byte a read drives on D0 to D7 (R152). -/
def driveData (v : Byte) (s : State) : State := s.setPort { s.port with lastRead := v }

/-- A read of the window: while RESET is held it returns 0x00 and has no other effect (R152, R166). -/
def readAccess (f : State → State) (s : State) : State :=
  clocked (fun s => if s.resetHeld then driveData 0 s else f s) s

/-- Whether the decoder is EXECUTING (R157). -/
def State.busy (s : State) : Bool :=
  match s.port.decoder with
  | .idle => false
  | .executing _ => true

def setRefusedBusy (b : Bool) (s : State) : State := s.setPort { s.port with refusedBusy := b }

/-- A write of a command's code to COMMAND. In IDLE it is taken, which clears REFUSED_BUSY (R157); in EXECUTING it is
refused, which sets REFUSED_BUSY and does nothing else (R159). -/
def commandAccess (f : State → State) (s : State) : State :=
  working (fun s => if s.busy then setRefusedBusy true s else f (setRefusedBusy false s)) s

/-- Write RESULT (R158). -/
def giveResult (r : ResultCode) (s : State) : State := s.setPort { s.port with result := r }

/-- A loading command writes all 32 staging bytes and sets the staging pointer to 0 (R156). -/
def loadStaging (image : Vector Byte 32) (s : State) : State :=
  s.setPort { s.port with staging := image, stagePointer := 0 }

/-! ### Latched interrupt sources (R140): setting one that is pending leaves it pending -/

def setLatched (f : Latched → Latched) (s : State) : State :=
  s.setInterrupts { s.interrupts with latched := f s.interrupts.latched }

/-- A routine record was dropped (R77). -/
def setOverrun (s : State) : State := setLatched (fun p => { p with overrun := true }) s

/-- A CLEAR NODE MAP walk has ended (R93). -/
def setCommandDone (s : State) : State := setLatched (fun p => { p with commandDone := true }) s

/-- A stray character was heard (R120). -/
def setStray (l : Line) (s : State) : State := setLatched (fun p => { p with stray := p.stray.set l true }) s

/-- A round of the line has ended (R31). -/
def setRoundEnd (l : Line) (s : State) : State := setLatched (fun p => { p with roundEnd := p.roundEnd.set l true }) s

/-- A trigger came too early (R24). -/
def setLate (l : Line) (s : State) : State := setLatched (fun p => { p with late := p.late.set l true }) s

/-- The line's controller was stopped by a halt or a disable (R33 to R35). -/
def setHalted (l : Line) (s : State) : State := setLatched (fun p => { p with halted := p.halted.set l true }) s

end Sys2Proof.Machine
end

