-- ==== Sys2Proof/Machine/Operands.lean ====
section
/-!
DEFINITION. What PARAM and the staging buffer mean to the commands, and the byte images of records: every layout of
R90, R113, R163, R164 and R165, with the range checks of R8, R25, R43, R80 and R114.
-/

namespace Sys2Proof.Machine

/-! ### Bytes -/

/-- A two-byte field, little-endian (00_scope.md, Conventions). -/
def word16 (low high : Byte) : Nat := low.toNat + 256 * high.toNat

def lowByte (n : Nat) : Byte := BitVec.ofNat 8 n

def highByte (n : Nat) : Byte := BitVec.ofNat 8 (n / 256)

/-- A 32-byte image: the bytes given, then 0x00. -/
def imageOf (bytes : List Byte) : Vector Byte 32 := Vector.ofFn fun i => bytes.getD i.val 0

/-- PARAM as a line selector: 0 Line A, 1 Line B, anything else out of range (R25, R114). -/
def lineOfParam (p : Byte) : Option Line := if p = 0 then some .a else if p = 1 then some .b else none

/-- PARAM as an entry number (R7, R10). -/
def entryOfParam (p : Byte) : Option (Fin 32) := if h : p.toNat < 32 then some ⟨p.toNat, h⟩ else none

/-- The index of a line (00_scope.md, Terms). -/
def lineBit : Line → Nat
  | .a => 0
  | .b => 1

def lineOfBit (b : Bool) : Line := if b then .b else .a

/-! ### Entries and requests (R163) -/

/-- Staging byte 4: 0 to 16, or 0xFF for ANY (R8, R43). -/
def expectationOfByte (b : Byte) : Option ReplyExpectation :=
  if b = 0xFF then some .any else if b.toNat ≤ 16 then some (.exactly b.toNat) else none

def expectationByte : ReplyExpectation → Byte
  | .any => 0xFF
  | .exactly n => BitVec.ofNat 8 n

/-- The fields shared by an entry and an urgent request, with the range checks common to R8 and R43. -/
def requestOfStaging (v : Vector Byte 32) : Option Request :=
  match expectationOfByte v[4] with
  | none => none
  | some expectation =>
    if 1 ≤ v[1].toNat ∧ v[1].toNat ≤ 0x7F ∧ v[3].toNat ≤ 16 ∧ 16 ≤ word16 v[5] v[6] ∧ word16 v[5] v[6] ≤ 4095 ∧
        v[7].toNat % 16 ≤ 3 then
      some
        { address := v[1]
          command := v[2]
          payload := (v.toList.drop 8).take v[3].toNat
          expectation := expectation
          timeout := word16 v[5] v[6]
          retryLimit := v[7].toNat % 16 }
    else none

/-- The entry an image commits, with phase 0, or none where a field is out of range (R7, R8, R163). -/
def entryOfStaging (v : Vector Byte 32) : Option Entry :=
  (requestOfStaging v).map fun request =>
    { enabled := v[0].getLsbD 0
      line := lineOfBit (v[0].getLsbD 1)
      policy := if v[0].getLsbD 2 then .latest else .keepAll
      request := request
      divisor := v[7].toNat / 16 + 1
      phase := 0 }

/-- The QUEUED slot an image enqueues, or none where a field is out of range (R40, R43, R163). -/
def slotOfStaging (v : Vector Byte 32) : Option Slot :=
  (requestOfStaging v).map fun request =>
    { tag := v[24], line := lineOfBit (v[0].getLsbD 1), request := request, state := .queued }

def Policy.bit : Policy → Nat
  | .keepAll => 0
  | .latest => 1

/-- The image READ ENTRY writes (R10, R163). -/
def entryImage (e : Entry) : Vector Byte 32 :=
  imageOf
    ([BitVec.ofNat 8 (e.enabled.toNat + 2 * lineBit e.line + 4 * e.policy.bit), e.request.address, e.request.command,
        BitVec.ofNat 8 e.request.payload.length, expectationByte e.request.expectation, lowByte e.request.timeout,
        highByte e.request.timeout, BitVec.ofNat 8 (e.request.retryLimit + 16 * (e.divisor - 1))] ++
      (e.request.payload ++ List.replicate (16 - e.request.payload.length) 0) ++ [0, BitVec.ofNat 8 e.phase])

/-! ### Line configuration (R113, R114) -/

def parityOfByte (b : Byte) : Option Parity :=
  if b = 0 then some .none else if b = 1 then some .even else if b = 2 then some .odd else none

def Parity.code : Parity → Byte
  | .none => 0
  | .even => 1
  | .odd => 2

/-- The configuration in staging bytes 0 to 7, or none where a field is out of range (R114). -/
def lineConfigOfStaging (v : Vector Byte 32) : Option LineConfig :=
  match parityOfByte v[2] with
  | none => none
  | some parity =>
    if 1 ≤ word16 v[0] v[1] ∧ word16 v[0] v[1] ≤ 4095 ∧ (v[3].toNat = 1 ∨ v[3].toNat = 2) ∧ v[4].toNat ≤ 15 ∧
        v[5].toNat ≤ 15 ∧ 4 ≤ v[6].toNat ∧ 2 ≤ v[7].toNat ∧ v[7].toNat ≤ 31 then
      some
        { divisor := word16 v[0] v[1]
          parity := parity
          stopBits := v[3].toNat
          lead := v[4].toNat
          lag := v[5].toNat
          quietGap := v[6].toNat
          gapLimit := v[7].toNat }
    else none

/-- The image READ LINE CONFIG writes (R113, R115). -/
def lineConfigImage (c : LineConfig) : Vector Byte 32 :=
  imageOf
    [lowByte c.divisor, highByte c.divisor, c.parity.code, BitVec.ofNat 8 c.stopBits, BitVec.ofNat 8 c.lead,
      BitVec.ofNat 8 c.lag, BitVec.ofNat 8 c.quietGap, BitVec.ofNat 8 c.gapLimit]

/-! ### Round mode and the two- and three-byte settings -/

def sourceOfByte (b : Byte) : Option TriggerSource :=
  if b = 0 then some .soft else if b = 1 then some .timer else if b = 2 then some .sync else none

def edgeOfByte (b : Byte) : Option SyncEdge :=
  if b = 0 then some .rising else if b = 1 then some .falling else if b = 2 then some .both else none

def modeOfByte (b : Byte) : Option RoundMode :=
  if b = 0 then some .single else if b = 1 then some .continuous else none

/-- The round mode settings in staging bytes 0 to 4, or none where one is out of range (R25, R164). -/
def roundSettingsOfStaging (v : Vector Byte 32) : Option RoundSettings :=
  match sourceOfByte v[0], edgeOfByte v[1], modeOfByte v[2] with
  | some source, some edge, some mode =>
    if word16 v[3] v[4] = 0 then none
    else some { source := source, edge := edge, mode := mode, period := word16 v[3] v[4] }
  | _, _, _ => none

/-- The tick divisor in staging bytes 0 and 1, or none where it is below 256 (R20). -/
def tickDivisorOfStaging (v : Vector Byte 32) : Option Nat :=
  if word16 v[0] v[1] < 256 then none else some (word16 v[0] v[1])

/-- The thresholds in staging bytes 0 to 2, or none where they are out of range (R80). -/
def thresholdsOfStaging (v : Vector Byte 32) : Option Thresholds :=
  if 1 ≤ v[0].toNat ∧ v[0].toNat < v[1].toNat ∧ v[1].toNat ≤ 15 ∧ 1 ≤ v[2].toNat then
    some { suspect := v[0].toNat, offline := v[1].toNat, revival := v[2].toNat }
  else none

/-! ### Codes -/

/-- The outcome codes of R128. -/
def OutcomeCode.code : OutcomeCode → Byte
  | .ok => 0x00
  | .nodeFault => 0x01
  | .sent => 0x02
  | .noReply => 0x10
  | .charError => 0x11
  | .checkError => 0x12
  | .badFrame => 0x13
  | .truncated => 0x14
  | .aborted => 0x30
  | .cancelled => 0x31

/-- The result codes of R158. -/
def ResultCode.code : ResultCode → Byte
  | .none => 0x00
  | .done => 0x01
  | .state => 0x02
  | .range => 0x03
  | .full => 0x04
  | .room => 0x05
  | .empty => 0x06
  | .unknown => 0x07

/-- The reset causes of R154. -/
def ResetCause.code : ResetCause → Byte
  | .none => 0
  | .pin => 1
  | .command => 2

/-! ### Node records (R90, R91) -/

/-- The record of an individual address, 0x01 to 0x7E; the broadcast address and the others have none (R79). -/
def nodeIndex (address : Byte) : Option (Fin 126) :=
  if h : 1 ≤ address.toNat ∧ address.toNat ≤ 126 then some ⟨address.toNat - 1, by omega⟩ else none

/-- PARAM as a node key: the address in bits 0 to 6 and the line in bit 7 (R91). -/
def nodeOfParam (p : Byte) : Option (Line × Fin 126) :=
  (nodeIndex (p &&& 0x7F)).map fun i => (lineOfBit (p.getLsbD 7), i)

def NodeState.code : NodeState → Byte
  | .unknown => 0
  | .online => 1
  | .suspect => 2
  | .offline => 3

/-- The image of a node record (R90). -/
def nodeImage (l : Line) (i : Fin 126) (r : NodeRecord) : Vector Byte 32 :=
  imageOf
    [BitVec.ofNat 8 (i.val + 1 + 128 * lineBit l), r.state.code, BitVec.ofNat 8 r.failures,
      (match r.lastOutcome with
        | some o => o.code
        | none => 0xFF),
      BitVec.ofNat 8 r.countdown, BitVec.ofNat 8 r.changed.toNat]

/-! ### Reply records (R165) -/

def RecordSource.bit : RecordSource → Nat
  | .routine => 0
  | .urgent => 1

/-- The node status of a record's image; 0x00 when absent (R58, R165). -/
def Record.statusByte (r : Record) : Byte :=
  match r.reply with
  | some y => y.status
  | none => 0

/-- The payload of a record; empty when no valid reply arrived (R58). -/
def Record.payload (r : Record) : List Byte :=
  match r.reply with
  | some y => y.payload
  | none => []

/-- The image of a reply record, 10 + payload length bytes (R165). -/
def recordImage (r : Record) : List Byte :=
  [BitVec.ofNat 8 (128 * r.source.bit + 64 * lineBit r.line + r.reply.isSome.toNat), r.id, r.address, r.command,
    r.outcome.code, BitVec.ofNat 8 r.attempts, r.statusByte, r.round, BitVec.ofNat 8 r.missed,
    BitVec.ofNat 8 r.payload.length] ++ r.payload

/-- The byte REPLY DATA returns at a pointer: the head's image byte, or 0x00 past its end or with no record (R73). -/
def replyByte (store : List Record) (pointer : Fin 32) : Byte :=
  match store with
  | [] => 0
  | head :: _ => (recordImage head).getD pointer.val 0

end Sys2Proof.Machine
end

