-- ==== Sys2Proof/Machine/Frames.lean ====
section
/-!
DEFINITION. Characters and frames: the CRC-8, the request frame and the levels it puts on TXD, the error of a received
character, the judging of a reply, and the pins of a line.
-/

namespace Sys2Proof.Machine

/-! ### CRC-8 (R107) -/

/-- One step of the CRC register. -/
def crcStep (r : Byte) : Byte := if r.msb then (r <<< 1) ^^^ 0x07 else r <<< 1

/-- The register after one more covered byte: exclusive-or, then eight steps. -/
def crcByte (r b : Byte) : Byte :=
  crcStep (crcStep (crcStep (crcStep (crcStep (crcStep (crcStep (crcStep (r ^^^ b))))))))

/-- The CRC over covered bytes in frame order, from 0xFF. -/
def crc8 (bytes : List Byte) : Byte := bytes.foldl crcByte 0xFF

/-! ### The request frame (R104) -/

/-- The covered characters of a request: ADDR, CMD, LEN and PAYLOAD. -/
def requestBody (q : Request) : List Byte :=
  [q.address, q.command, BitVec.ofNat 8 q.payload.length] ++ q.payload

/-- The characters of a request frame. -/
def requestFrame (q : Request) : List Byte := [0x3C] ++ requestBody q ++ [crc8 (requestBody q)]

/-! ### Characters on the wire (R99, R100) -/

/-- Whether a byte holds an odd number of ones. -/
def oddOnes (b : Byte) : Bool :=
  ((((((b.getLsbD 0 != b.getLsbD 1) != b.getLsbD 2) != b.getLsbD 3) != b.getLsbD 4) != b.getLsbD 5) != b.getLsbD 6)
    != b.getLsbD 7

/-- The parity bit of a character, where the setting has one (R99). -/
def parityBitOf : Parity → Byte → Option Bool
  | .none, _ => none
  | .even, b => some (oddOnes b)
  | .odd, b => some !oddOnes b

def levelOf (bit : Bool) : Level := if bit then .high else .low

/-- The levels of one character, one bit time each: start bit, data least significant first, parity, stop (R99). -/
def characterLevels (c : LineConfig) (b : Byte) : List Level :=
  [.low] ++ (List.range 8).map (fun k => levelOf (b.getLsbD k)) ++
    ((parityBitOf c.parity b).toList.map levelOf) ++ List.replicate c.stopBits .high

/-- The levels of a request frame, its characters back to back (R99, R103). -/
def frameLevels (c : LineConfig) (q : Request) : List Level := (requestFrame q).flatMap (characterLevels c)

/-- A received character has an error: its stop bit was sampled at space, or its parity bit is not the one the setting
asks for (R100). -/
def characterError (c : LineConfig) (data : Byte) (parityBit : Bool) (stop : Level) : Bool :=
  stop == .low ||
    match parityBitOf c.parity data with
    | none => false
    | some expected => parityBit != expected

/-- The bit a sampled level stands for. -/
def bitOf (level : Level) : Bool := level == .high

/-- What the receiver makes of its mid-bit samples of one character, the start bit first (R100): the data byte, the
parity bit where the setting has one, and the first stop bit. They are the operands of CHARACTER_DELIVERED. A start bit
sampled at mark is no character, and a second stop bit is not sampled. -/
def sampleCharacter (parity : Parity) : List Level → Option (Byte × Bool × Level)
  | .low :: d0 :: d1 :: d2 :: d3 :: d4 :: d5 :: d6 :: d7 :: rest =>
    let data := BitVec.ofNat 8
      ((bitOf d0).toNat + 2 * (bitOf d1).toNat + 4 * (bitOf d2).toNat + 8 * (bitOf d3).toNat + 16 * (bitOf d4).toNat +
        32 * (bitOf d5).toNat + 64 * (bitOf d6).toNat + 128 * (bitOf d7).toNat)
    match parity, rest with
    | .none, stop :: _ => some (data, false, stop)
    | .even, p :: stop :: _ => some (data, bitOf p, stop)
    | .odd, p :: stop :: _ => some (data, bitOf p, stop)
    | _, _ => none
  | _ => none

/-! ### Pins of a line (R103, R117) -/

/-- DE is asserted in LEAD, SENDING and LAG only. -/
def Engine.de (e : Engine) : Bool :=
  match e.state with
  | .lead | .sending | .lag => true
  | .disabled | .quiet | .ready | .awaiting | .receiving | .discarding => false

/-- TXD is at mark, but in SENDING, where it is at the bit in progress of the request frame. -/
def Engine.txd (e : Engine) : Level :=
  match e.state, e.exchange with
  | .sending, some x => (frameLevels e.config x.request).getD e.bitsSent.bits .high
  | _, _ => .high

/-- The line is idle: the receiver is on, RXD at mark and no character under way or in question (R101). -/
def Engine.idle (e : Engine) : Bool := e.receiver == .waiting && e.rxd == .high

/-! ### Judging a reply (R109, R112) -/

/-- What one delivered character makes of the reply. -/
inductive Verdict where
  | goesOn (assembly : Assembly)
  | fails (outcome : OutcomeCode)
  | valid (reply : Reply)
  deriving DecidableEq, Repr

/-- The assembly with one more covered character. -/
def Assembly.cover (a : Assembly) (data : Byte) : Assembly :=
  { a with position := a.position + 1, crc := crcByte a.crc data }

/-- The assembly one position on, whether or not the character passes its check (R127): STATUS, LEN and each payload
byte are recorded, and the CRC is stepped over every covered character, which the LEAD and the CHECK are not (R105). -/
def Assembly.grow (a : Assembly) (data : Byte) : Assembly :=
  match a.position with
  | 0 => { a with position := 1 }
  | 1 | 2 => a.cover data
  | 3 => { a.cover data with status := data }
  | 4 => { a.cover data with length := data.toNat }
  | p =>
    if p < 5 + a.length then { a.cover data with payload := a.payload ++ [data] } else { a with position := p + 1 }

/-- Whether a LEN meets the reply expectation (R109). -/
def ReplyExpectation.accepts : ReplyExpectation → Nat → Bool
  | .any, _ => true
  | .exactly n, length => length == n

/-- The checks of R109 on the character at the next position, in the table's order; a CHECK that matches completes a
valid reply (R112). -/
def judge (q : Request) (a : Assembly) (data : Byte) (error : Bool) : Verdict :=
  if error then .fails .charError
  else
    match a.position with
    | 0 => if data = 0xC3 then .goesOn (a.grow data) else .fails .badFrame
    | 1 => if data = q.address then .goesOn (a.grow data) else .fails .badFrame
    | 2 => if data = q.command then .goesOn (a.grow data) else .fails .badFrame
    | 3 => .goesOn (a.grow data)
    | 4 =>
      if data.toNat ≤ 16 ∧ q.expectation.accepts data.toNat then .goesOn (a.grow data) else .fails .badFrame
    | p =>
      if p < 5 + a.length then .goesOn (a.grow data)
      else if data = a.crc then .valid { status := a.status, payload := a.payload }
      else .fails .checkError

end Sys2Proof.Machine
end

