-- ==== Sys2Proof/Machine/NodeOps.lean ====
section
/-!
DEFINITION. The Node Health Map: the update at completion, the offline query, the change set and the clear walk's
visits.
-/

namespace Sys2Proof.Machine

/-! ### The update at completion (R81 to R83) -/

/-- How an outcome updates a node record (R81, R128): `some true` a success, `some false` a failure, `none` not at
all. -/
def OutcomeCode.health : OutcomeCode → Option Bool
  | .ok | .nodeFault => some true
  | .noReply | .charError | .checkError | .badFrame | .truncated => some false
  | .sent | .aborted | .cancelled => none

/-- A success update (R82). -/
def NodeRecord.succeed (outcome : OutcomeCode) (r : NodeRecord) : NodeRecord :=
  { state := .online
    failures := 0
    lastOutcome := some outcome
    countdown := 0
    changed := r.changed || r.state != .online }

/-- A failure update under the thresholds (R83). -/
def NodeRecord.fail (t : Thresholds) (outcome : OutcomeCode) (r : NodeRecord) : NodeRecord :=
  let failures := min (r.failures + 1) 15
  if t.offline ≤ failures then
    { state := .offline
      failures := failures
      lastOutcome := some outcome
      countdown := t.revival
      changed := r.changed || r.state != .offline }
  else if t.suspect ≤ failures then
    { state := .suspect
      failures := failures
      lastOutcome := some outcome
      countdown := 0
      changed := r.changed || r.state != .suspect }
  else { r with failures := failures, lastOutcome := some outcome }

/-- The update a final outcome makes to a node record (R81). -/
def NodeRecord.update (t : Thresholds) (outcome : OutcomeCode) (r : NodeRecord) : NodeRecord :=
  match outcome.health with
  | some true => r.succeed outcome
  | some false => r.fail t outcome
  | none => r

/-- The map's part in a completion: the record of the line and address, if the address is an individual one (R81). -/
def updateNode (l : Line) (address : Byte) (outcome : OutcomeCode) (s : State) : State :=
  match nodeIndex address with
  | none => s
  | some i => s.setNode l i ((s.node l i).update s.health outcome)

/-! ### The offline query (R28, R29, R85) -/

/-- Whether a due entry for an address may make its exchange. A record that is not OFFLINE is not asked; an OFFLINE one
refuses while its countdown is above 0, lowering it by one, and allows the probe at 0. -/
def offlineQuery (l : Line) (address : Byte) (s : State) : State × Bool :=
  match nodeIndex address with
  | none => (s, true)
  | some i =>
    if (s.node l i).state = .offline ∧ 0 < (s.node l i).countdown then
      (s.setNode l i { s.node l i with countdown := (s.node l i).countdown - 1 }, false)
    else (s, true)

/-! ### The change set (R87, R89) -/

/-- The lowest address of one line in the change set. -/
def firstChanged (v : Vector NodeRecord 126) : Option (Fin 126) := (List.finRange 126).find? fun i => v[i].changed

/-- The first record of the change set in key order: Line A before Line B, lower address first (R87). -/
def State.firstChange (s : State) : Option (Line × Fin 126) :=
  match firstChanged s.nodes.a with
  | some i => some (.a, i)
  | none => (firstChanged s.nodes.b).map fun i => (.b, i)

/-! ### The clear walk (R93) -/

/-- The record a visit of the walk reaches, in key order. -/
def walkKey (visit : Fin 252) : Line × Fin 126 :=
  if h : visit.val < 126 then (.a, ⟨visit.val, h⟩) else (.b, ⟨visit.val - 126, by omega⟩)

/-- One visit: the record returns to its reset value and leaves the change set; the last visit sets COMMAND_DONE and
the decoder returns to IDLE. -/
def walkVisit (visit : Fin 252) (s : State) : State :=
  let s := s.setNode (walkKey visit).1 (walkKey visit).2 NodeRecord.reset
  if h : visit.val + 1 < 252 then s.setPort { s.port with decoder := .executing ⟨visit.val + 1, h⟩ }
  else setCommandDone (s.setPort { s.port with decoder := .idle })

/-- The walk's next visit, where a walk is running. -/
def walkStep (s : State) : State :=
  match s.port.decoder with
  | .idle => s
  | .executing visit => walkVisit visit s

end Sys2Proof.Machine
end

