-- ==== Sys2Proof/Machine/StoreOps.lean ====
section
/-!
DEFINITION. The Reply Store and the Urgent Queue: records made and appended, routine records kept, coalesced or
dropped, slots found, taken, freed and cancelled.
-/

namespace Sys2Proof.Machine

/-! ### Slots (R39, R47) -/

/-- The slot is QUEUED and names the line. -/
def Slot.waitsFor (l : Line) (x : Slot) : Bool := x.line == l && x.state == .queued

/-- The slot is IN_FLIGHT on the line. -/
def Slot.onLine (l : Line) (x : Slot) : Bool := x.line == l && x.state == .inFlight

/-- The oldest QUEUED slot of a line (R47). -/
def nextQueued (l : Line) (q : List Slot) : Option Slot := q.find? (Slot.waitsFor l)

/-- The queue with the oldest QUEUED slot of a line made IN_FLIGHT, in its place (R47). -/
def markInFlight (l : Line) : List Slot → List Slot
  | [] => []
  | x :: rest => if x.waitsFor l then { x with state := .inFlight } :: rest else x :: markInFlight l rest

/-- The queue without the line's IN_FLIGHT slot; the others close up in their order (R49). -/
def removeInFlight (l : Line) : List Slot → List Slot
  | [] => []
  | x :: rest => if x.onLine l then rest else x :: removeInFlight l rest

/-! ### Records (R50, R59) -/

/-- The record of an exchange. The missed count given counts for a routine record only (R50, R59). -/
def recordOf (l : Line) (x : Exchange) (outcome : OutcomeCode) (reply : Option Reply) (missed : Nat) : Record :=
  match x.work with
  | .routine entry _ round =>
    { source := .routine
      line := l
      id := BitVec.ofNat 8 entry.val
      address := x.request.address
      command := x.request.command
      outcome := outcome
      attempts := x.attempts
      reply := reply
      round := round
      missed := missed }
  | .urgent tag =>
    { source := .urgent
      line := l
      id := tag
      address := x.request.address
      command := x.request.command
      outcome := outcome
      attempts := x.attempts
      reply := reply
      round := 0
      missed := 0 }

/-- The record of a cancelled request (R50). -/
def cancelledRecord (x : Slot) : Record :=
  { source := .urgent
    line := x.line
    id := x.tag
    address := x.request.address
    command := x.request.command
    outcome := .cancelled
    attempts := 0
    reply := none
    round := 0
    missed := 0 }

/-! ### Appends (R61 to R67) -/

/-- Held plus reserved (R60). -/
def State.storeSum (s : State) : Nat := s.store.length + s.urgent.length

/-- A missed count, which saturates at 255 (R62). -/
def saturate255 (n : Nat) : Nat := min n 255

/-- The record is a routine record of the entry, whatever its line (R65). -/
def Record.ofEntry (entry : Fin 32) (r : Record) : Bool :=
  r.source == .routine && r.id == BitVec.ofNat 8 entry.val

/-- The records a coalescing append of the entry removes: those behind the head (R65, R68). -/
def candidates (entry : Fin 32) (store : List Record) : List Record := store.tail.filter (Record.ofEntry entry)

/-- The records that stay: the head, and those behind it that are no candidates (R65, R68). -/
def withoutCandidates (entry : Fin 32) (store : List Record) : List Record :=
  store.take 1 ++ store.tail.filter (fun r => !r.ofEntry entry)

/-- The missed count of a record appended by coalescing (R66). -/
def coalescedMissed (removed : List Record) (entryMissed : Nat) : Nat :=
  saturate255 ((removed.map (·.missed)).sum + removed.length + entryMissed)

/-- A routine append under KEEP_ALL: appended at the tail with room, dropped without it (R63, R64). -/
def appendKeepAll (entry : Fin 32) (make : Nat → Record) (s : State) : State :=
  if s.storeSum < 16 then
    (s.setStore (s.store ++ [make s.missed[entry]])).setMissed (s.missed.set entry 0)
  else setOverrun (s.setMissed (s.missed.set entry (saturate255 (s.missed[entry] + 1))))

/-- A routine append under the snapshot's policy (R63 to R67). -/
def appendRoutine (entry : Fin 32) (policy : Policy) (make : Nat → Record) (s : State) : State :=
  match policy with
  | .keepAll => appendKeepAll entry make s
  | .latest =>
    match candidates entry s.store with
    | [] => appendKeepAll entry make s
    | removed =>
      (s.setStore (withoutCandidates entry s.store ++ [make (coalescedMissed removed s.missed[entry])])).setMissed
        (s.missed.set entry 0)

/-- An urgent append: the line's IN_FLIGHT slot becomes a record, in one step (R61). -/
def appendUrgent (l : Line) (r : Record) (s : State) : State :=
  (s.setStore (s.store ++ [r])).setUrgent (removeInFlight l s.urgent)

/-- An exchange that has ended hands its record to the store (R130, R133). -/
def deliverRecord (l : Line) (x : Exchange) (outcome : OutcomeCode) (reply : Option Reply) (s : State) : State :=
  match x.work with
  | .routine entry policy _ => appendRoutine entry policy (recordOf l x outcome reply) s
  | .urgent _ => appendUrgent l (recordOf l x outcome reply 0) s

/-- The QUEUED slots of the selected lines are cancelled, oldest first, each leaving its record (R51, R52). -/
def cancelQueued (selected : Line → Bool) (s : State) : State :=
  let goes := fun x : Slot => selected x.line && x.state == .queued
  (s.setStore (s.store ++ (s.urgent.filter goes).map cancelledRecord)).setUrgent (s.urgent.filter fun x => !goes x)

end Sys2Proof.Machine
end

