-- ==== Sys2Proof/Machine/EngineOps.lean ====
section
/-!
DEFINITION. The Round Controllers and the Line Engines at work: rounds started, walked and ended, the choice, the
exchange from its start through its attempts to its completion, and its abort.
-/

namespace Sys2Proof.Machine

def State.updController (s : State) (l : Line) (f : Controller → Controller) : State :=
  s.setController l (f (s.controller l))

def State.updEngine (s : State) (l : Line) (f : Engine → Engine) : State := s.setEngine l (f (s.engine l))

/-! ### Round states -/

/-- The controller enters a round state. In STOPPED the round timer is stopped (R21). Leaving RUNNING sets the line's
consecutive-urgent count to 0 (R123). -/
def enterRoundState (l : Line) (new : RoundState) (s : State) : State :=
  let old := (s.controller l).state
  let s := s.updController l fun c => { c with state := new, timer := if new = .stopped then none else c.timer }
  if old = .running ∧ new ≠ .running then s.updEngine l fun e => { e with urgentCount := 0 } else s

/-- A round starts: number, cursor, walker and state of R23, and the continuous gap is idle again (R32). -/
def startRound (l : Line) (s : State) : State :=
  s.updController l fun c =>
    { c with state := .running, roundNumber := c.roundNumber + 1, cursor := 0, exhausted := false, gap := none }

/-- The state a finished round leaves its controller in (R31). -/
def stateAfterRound (c : RoundSettings) : RoundState :=
  match c.mode, c.source with
  | .continuous, _ => .running
  | .single, .soft => .stopped
  | .single, .timer => .armed
  | .single, .sync => .armed

/-- The walker is exhausted and the round ends (R28, R31); a CONTINUOUS controller begins its gap (R32). -/
def endRound (l : Line) (s : State) : State :=
  let settings := (s.controller l).settings
  let s := s.updController l fun c =>
    { c with cursor := 32, exhausted := true, gap := if settings.mode = .continuous then some BitCount.zero else none }
  enterRoundState l (stateAfterRound settings) (setRoundEnd l s)

/-! ### The walker (R6, R27, R28) -/

/-- The walker examines one entry: it passes it over, or steps its phase, and says whether it yields an exchange. -/
def visitEntry (l : Line) (i : Fin 32) (s : State) : State × Bool :=
  let e := s.table[i]
  if e.enabled = true ∧ e.line = l then
    if e.phase = 0 then
      let s := s.setTable (s.table.set i { e with phase := e.divisor - 1 })
      if e.request.address = 0x7F then (s, true) else offlineQuery l e.request.address s
    else (s.setTable (s.table.set i { e with phase := e.phase - 1 }), false)
  else (s, false)

/-- The scan over entries in rising order, ended by the first that yields (R28). -/
def scanEntries (l : Line) : List (Fin 32) → State → State × Option (Fin 32)
  | [], s => (s, none)
  | i :: rest, s =>
    match visitEntry l i s with
    | (s', true) => (s', some i)
    | (s', false) => scanEntries l rest s'

/-- The entries from the walker cursor up. -/
def entriesFrom (cursor : Nat) : List (Fin 32) := (List.finRange 32).drop cursor

/-- The controller answers an ask for routine work (R27): in RUNNING with the gap idle the walker scans, and hands over
the entry found (R30) or ends the round (R31). -/
def askWalker (l : Line) (s : State) : State × Option (Fin 32) :=
  if (s.controller l).state = .running ∧ (s.controller l).gap = none then
    match scanEntries l (entriesFrom (s.controller l).cursor) s with
    | (s', some i) =>
      (s'.updController l fun c => { c with cursor := i.val + 1, routineInFlight := true }, some i)
    | (s', none) => (endRound l s', none)
  else (s, none)

/-! ### Exchanges begin (R119, R125, R126) -/

/-- DE is asserted and the first start bit begins (R103). A character under way in the receiver is dropped (R102). -/
def Engine.enterSending (e : Engine) : Engine :=
  { e with state := .sending, timeCount := none, bitsSent := BitCount.zero, receiver := .off }

/-- DE is asserted for the lead time; a lead of 0 is passed through (R103, R117). -/
def Engine.enterLead (e : Engine) : Engine :=
  if e.config.lead = 0 then e.enterSending
  else { e with state := .lead, timeCount := some BitCount.zero, receiver := .off }

/-- The engine waits for a quiet gap (R119). -/
def Engine.enterQuiet (e : Engine) : Engine :=
  { e with state := .quiet, quietCount := BitCount.zero, timeCount := none }

/-- The consecutive-urgent count at the start of an exchange (R123). -/
def urgentCountAfter : Work → Nat → Nat
  | .routine _ _ _, _ => 0
  | .urgent _, n => min (n + 1) 4

/-- An exchange starts from a READY engine (R125). -/
def startExchange (l : Line) (work : Work) (request : Request) (s : State) : State :=
  s.updEngine l fun e =>
    { e with
      exchange :=
        some { work := work, request := request, attempts := 1, pendingOutcome := none, assembly := Assembly.empty }
      urgentCount := urgentCountAfter work e.urgentCount }.enterLead

/-- The oldest QUEUED request of the line, if any, is taken (R47). -/
def takeUrgent (l : Line) (s : State) : State :=
  match nextQueued l s.urgent with
  | none => s
  | some x => startExchange l (.urgent x.tag) x.request (s.setUrgent (markInFlight l s.urgent))

/-- The entry the walker has handed over is taken, with the round number of the round in progress (R12, R30). -/
def takeRoutine (l : Line) (i : Fin 32) (s : State) : State :=
  startExchange l (.routine i s.table[i].policy (s.controller l).roundNumber) s.table[i].request s

/-- The choice of an engine in READY, by the four steps of R122; in any other state there is none (R121). -/
def makeChoice (l : Line) (s : State) : State :=
  if (s.engine l).state = .ready then
    if (nextQueued l s.urgent).isSome = true ∧ (s.engine l).urgentCount < s.burstLimit then takeUrgent l s
    else
      match askWalker l s with
      | (s', some i) => takeRoutine l i s'
      | (s', none) => takeUrgent l s'
  else s

/-! ### Triggers (R21 to R24, R32) -/

/-- A round starts, and a READY engine makes its choice in the same event (R23, R121). -/
def startRoundAndChoose (l : Line) (s : State) : State := makeChoice l (startRound l s)

/-- A trigger reaches a controller (R23, R24). -/
def trigger (l : Line) (s : State) : State :=
  let settings := (s.controller l).settings
  match (s.controller l).state with
  | .armed =>
    startRoundAndChoose l
      (if settings.mode = .continuous ∧ settings.source = .timer then
        s.updController l fun c => { c with timer := none }
      else s)
  | .running => if settings.mode = .single then setLate l s else s
  | .stopped | .halting => s

/-- The round timer comes to 0: it is reloaded, and the expiry is a trigger (R21). A stopped timer does not expire. -/
def expireTimer (l : Line) (s : State) : State :=
  match (s.controller l).timer with
  | none => s
  | some _ => trigger l (s.updController l fun c => { c with timer := some c.settings.period })

/-- A tick reaches one round timer (R21). -/
def tickTimer (l : Line) (s : State) : State :=
  match (s.controller l).timer with
  | none => s
  | some n => if n ≤ 1 then expireTimer l s else s.updController l fun c => { c with timer := some (n - 1) }

/-- The prescaler returns to 0 and a tick goes to both controllers (R19). The two touch different state (R36). -/
def deliverTick (s : State) : State :=
  tickTimer .b (tickTimer .a (s.setTimeBase { s.timeBase with prescaler := 0 }))

/-- The continuous gap runs out and the next round starts (R32). -/
def endGap (l : Line) (s : State) : State :=
  match (s.controller l).gap with
  | none => s
  | some _ => startRoundAndChoose l s

/-- Whether an edge setting selects the edge that ends at a level (R22). -/
def SyncEdge.selects : SyncEdge → Level → Bool
  | .rising, level => level == .high
  | .falling, level => level == .low
  | .both, _ => true

/-- An edge of SYNC reaches one controller (R22). -/
def syncTrigger (l : Line) (level : Level) (s : State) : State :=
  let c := s.controller l
  if c.settings.source = .sync ∧ c.state ≠ .stopped ∧ c.settings.edge.selects level = true then trigger l s else s

/-- SYNC has held a level for two samples (R22, R172). The first such level after a hardware reset becomes the stable
level without an edge; a level that is already the stable one is no edge. -/
def syncLevelHeld (level : Level) (s : State) : State :=
  match s.syncLevel with
  | none => s.setSyncLevel (some level)
  | some old =>
    if old = level then s else syncTrigger .b level (syncTrigger .a level (s.setSyncLevel (some level)))

/-! ### Exchanges end (R128 to R130, R133) -/

/-- The retryable outcomes (R128). -/
def OutcomeCode.retryable : OutcomeCode → Bool
  | .noReply | .charError | .checkError | .badFrame | .truncated => true
  | .ok | .nodeFault | .sent | .aborted | .cancelled => false

/-- The completion of a routine exchange is reported to its controller, which may end a halt (R30, R34). -/
def reportCompletion (l : Line) (s : State) : State :=
  let s := s.updController l fun c => { c with routineInFlight := false }
  if (s.controller l).state = .halting then setHalted l (enterRoundState l .stopped s) else s

/-- The Round Controller's part in a completion: an urgent one makes no report (R130). -/
def reportOf (l : Line) (work : Work) (s : State) : State :=
  match work with
  | .routine _ _ _ => reportCompletion l s
  | .urgent _ => s

/-- The completion: Reply Store, Node Health Map, Round Controller, and then QUIET with no exchange (R130). -/
def completeExchange (l : Line) (x : Exchange) (outcome : OutcomeCode) (reply : Option Reply) (s : State) : State :=
  (reportOf l x.work (updateNode l x.request.address outcome (deliverRecord l x outcome reply s))).updEngine l
    fun e => { e.enterQuiet with exchange := none }

/-- An attempt ends: a retryable outcome with attempts left goes to QUIET with the exchange still in flight, any other
is the final outcome (R129). -/
def endAttempt (l : Line) (outcome : OutcomeCode) (reply : Option Reply) (s : State) : State :=
  match (s.engine l).exchange with
  | none => s
  | some x =>
    if outcome.retryable = true ∧ x.attempts ≤ x.request.retryLimit then
      s.updEngine l fun e =>
        { e.enterQuiet with exchange := some { x with pendingOutcome := none, assembly := Assembly.empty } }
    else completeExchange l x outcome reply s

/-- The exchange in flight, if any, is aborted (R133). -/
def abortExchange (l : Line) (s : State) : State :=
  match (s.engine l).exchange with
  | none => s
  | some x => (deliverRecord l x .aborted none s).updEngine l fun e => { e with exchange := none }

/-- DISABLE LINE forces the controller to STOPPED (R35). -/
def forceStop (l : Line) (s : State) : State :=
  if (s.controller l).state = .stopped then s
  else
    setHalted l
      (enterRoundState l .stopped (s.updController l fun c => { c with routineInFlight := false, gap := none }))

/-! ### Counts running out on a line -/

/-- The quiet count runs and may end: on an idle line, and between a fall and its mid-start sample, since a fall ends
the idle time only when it is confirmed (R101, R119, R135, log 14). -/
def Engine.quietMayEnd (e : Engine) : Bool := e.idle || e.receiver == .fallSeen

/-- The quiet count has reached the quiet gap (R119): a retry begins, or the engine is READY and chooses. -/
def quietGapDone (l : Line) (s : State) : State :=
  let e := s.engine l
  if e.state = .quiet ∧ e.quietMayEnd = true then
    let e := { e with quietCount := { bits := e.config.quietGap, periods := 0 } }
    match e.exchange with
    | some x =>
      s.setEngine l
        { e with
          exchange :=
            some
              { x with attempts := x.attempts + 1, pendingOutcome := none, assembly := Assembly.empty } }.enterLead
    | none => makeChoice l (s.setEngine l { e with state := .ready })
  else s

/-- The lead time has passed (R126). -/
def leadDone (l : Line) (s : State) : State :=
  if (s.engine l).state = .lead then s.updEngine l Engine.enterSending else s

/-- DE is released and the receiver turned on: a broadcast ends with SENT, any other request awaits its reply (R102,
R103, R106, R126). -/
def releaseDe (l : Line) (s : State) : State :=
  match (s.engine l).exchange with
  | none => s
  | some x =>
    let on := fun e : Engine => { e with receiver := .waiting, idleCount := BitCount.zero }
    if x.request.address = 0x7F then endAttempt l .sent none (s.updEngine l on)
    else s.updEngine l fun e => { on e with state := .awaiting, timeCount := some BitCount.zero }

/-- The last stop bit of the frame has ended (R126); a lag of 0 is passed through (R103, R117). -/
def sendingDone (l : Line) (s : State) : State :=
  if (s.engine l).state = .sending then
    if (s.engine l).config.lag = 0 then releaseDe l s
    else s.updEngine l fun e => { e with state := .lag, timeCount := some BitCount.zero }
  else s

/-- The lag time has passed (R126). -/
def lagDone (l : Line) (s : State) : State := if (s.engine l).state = .lag then releaseDe l s else s

/-- The reply timeout runs out; between a fall and its mid-start sample it is held (R108). -/
def replyTimeoutDone (l : Line) (s : State) : State :=
  if (s.engine l).state = .awaiting ∧ (s.engine l).receiver ≠ .fallSeen then endAttempt l .noReply none s else s

/-- Idle within the reply frame reaches the character gap limit (R110). -/
def gapLimitDone (l : Line) (s : State) : State :=
  if (s.engine l).state = .receiving ∧ (s.engine l).idle = true then endAttempt l .truncated none s else s

/-- Idle while DISCARDING reaches the character gap limit (R111). -/
def discardDone (l : Line) (s : State) : State :=
  if (s.engine l).state = .discarding ∧ (s.engine l).idle = true then
    match (s.engine l).exchange.bind (·.pendingOutcome) with
    | none => s
    | some outcome => endAttempt l outcome none s
  else s

/-! ### The receiver (R100, R101, R120, R127) -/

/-- RXD falls (R100). The receiver, where it waits for a fall, takes it as the beginning of a start bit and
counts from it to the mid-start sample (R98); that it does so also where the level held for RXD is space, with no return
to mark reported, is the model's choice (log 15). -/
def Engine.fall (e : Engine) : Engine :=
  if e.receiver = .waiting then { e with rxd := .low, receiver := .fallSeen, sampleCount := 0 }
  else { e with rxd := .low }

/-- RXD is at mark again (R100, R101). After space that was no character the receiver may wait for a fall, and idle
time starts. -/
def Engine.returnToMark (e : Engine) : Engine :=
  if e.receiver = .held ∨ (e.receiver = .waiting ∧ e.rxd = .low) then
    { e with
      rxd := .high
      receiver := .waiting
      idleCount := BitCount.zero
      quietCount := if e.state = .quiet then BitCount.zero else e.quietCount }
  else { e with rxd := .high }

/-- What a confirmed start bit makes of an engine (R119, R120, R127): AWAITING becomes RECEIVING and its timeout
stops, READY goes QUIET, and the quiet count and the idle count return to 0. -/
def Engine.confirmStart (e : Engine) : Engine :=
  let e :=
    { e with receiver := .character, sampleCount := 0, samples := [], rxd := .low, idleCount := BitCount.zero }
  match e.state with
  | .awaiting => { e with state := .receiving, timeCount := none }
  | .ready | .quiet => e.enterQuiet
  | .disabled | .lead | .sending | .lag | .receiving | .discarding => e

/-- The mid-start sample (R100): space confirms a character, mark marks a glitch and leaves the counts. -/
def Engine.midStart (level : Level) (e : Engine) : Engine :=
  if e.receiver = .fallSeen then
    match level with
    | .high => { e with receiver := .waiting, rxd := .high }
    | .low => e.confirmStart
  else e

/-- The receiver at the end of a character (R100, R101): idle time is counted from here, but after a framing error RXD
must return to mark first. -/
def Engine.endCharacter (stop : Level) (e : Engine) : Engine :=
  { e with
    receiver := if stop = .low then .held else .waiting
    rxd := stop
    idleCount := BitCount.zero
    quietCount := if e.state = .quiet then BitCount.zero else e.quietCount }

/-- A reply character is judged in RECEIVING (R109, R112, R127). The assembly grows by the character that fails its
check too (R127). -/
def judgeReply (l : Line) (data : Byte) (error : Bool) (s : State) : State :=
  match (s.engine l).exchange with
  | none => s
  | some x =>
    match judge x.request x.assembly data error with
    | .goesOn a => s.updEngine l fun e => { e with exchange := some { x with assembly := a } }
    | .fails outcome =>
      s.updEngine l fun e =>
        { e with
          state := .discarding
          exchange :=
            some
              { x with pendingOutcome := some outcome, assembly := x.assembly.grow data } }
    | .valid reply => endAttempt l (if reply.status = 0 then .ok else .nodeFault) (some reply) s

/-- A character is delivered (R100): stray in QUIET and READY (R120), judged in RECEIVING, dropped in DISCARDING
(R111). -/
def deliverCharacter (l : Line) (data : Byte) (parityBit : Bool) (stop : Level) (s : State) : State :=
  let e := s.engine l
  if e.receiver = .character then
    let s := s.setEngine l (e.endCharacter stop)
    match e.state with
    | .quiet | .ready => setStray l s
    | .receiving => judgeReply l data (characterError e.config data parityBit stop) s
    | .discarding | .disabled | .lead | .sending | .lag | .awaiting => s
  else s

end Sys2Proof.Machine
end

