-- ==== Sys2Proof/Machine/Clock.lean ====
section
/-!
DEFINITION. One CLKIN period (log 3): every count of the part moves, and the events this brings about happen, in an
order the spec leaves open (log 4).
-/

namespace Sys2Proof.Machine

/-! ### Counts of bit times (R98) -/

/-- The CLKIN periods of one bit time (R98). -/
def LineConfig.bitTime (c : LineConfig) : Nat := 16 * c.divisor

/-- A count one CLKIN period later. -/
def BitCount.advance (bitTime : Nat) (c : BitCount) : BitCount :=
  if bitTime ≤ c.periods + 1 then { bits := c.bits + 1, periods := 0 } else { c with periods := c.periods + 1 }

/-! ### What an engine counts in each state -/

/-- The line's counts one CLKIN period later: the lead, the bits sent, the lag, the reply timeout and the idle count
(both held between a fall and its mid-start sample, R108, R127), and the quiet count, which a fall leaves running until
it is confirmed (R101, R119, R135). -/
def Engine.countUp (e : Engine) : Engine :=
  let next := BitCount.advance e.config.bitTime
  match e.state with
  | .lead | .lag => { e with timeCount := e.timeCount.map next }
  | .sending => { e with bitsSent := next e.bitsSent }
  | .awaiting => if e.receiver = .fallSeen then e else { e with timeCount := e.timeCount.map next }
  | .quiet => if e.quietMayEnd then { e with quietCount := next e.quietCount } else e
  | .receiving | .discarding => if e.idle then { e with idleCount := next e.idleCount } else e
  | .disabled | .ready => e

/-- The receiver one CLKIN period later (R98, R100): from a fall it counts to the mid-start sample, and in a character
it samples RXD in the middle of each bit, one bit time after the sample before. That the sixteen samples of a bit begin
at the fall is a choice (log 13). -/
def Engine.sampleUp (e : Engine) : Engine :=
  match e.receiver with
  | .fallSeen => { e with sampleCount := e.sampleCount + 1 }
  | .character =>
    if e.config.bitTime ≤ e.sampleCount + 1 then { e with sampleCount := 0, samples := e.samples ++ [e.rxd] }
    else { e with sampleCount := e.sampleCount + 1 }
  | .off | .waiting | .held => e

/-- The engine one CLKIN period later. -/
def Engine.advance (e : Engine) : Engine := e.countUp.sampleUp

/-- Whether the time count has reached a limit. -/
def reached (c : Option BitCount) (limit : Nat) : Bool :=
  match c with
  | some n => limit ≤ n.bits
  | none => false

/-- The count of the engine's state has reached its end. -/
def Engine.countDone (e : Engine) : Bool :=
  match e.state with
  | .lead => reached e.timeCount e.config.lead
  | .lag => reached e.timeCount e.config.lag
  | .sending =>
    match e.exchange with
    | some x => (frameLevels e.config x.request).length ≤ e.bitsSent.bits
    | none => false
  | .awaiting =>
    match e.exchange with
    | some x => e.receiver != .fallSeen && reached e.timeCount x.request.timeout
    | none => false
  | .quiet => e.quietMayEnd && e.config.quietGap ≤ e.quietCount.bits
  | .receiving | .discarding => e.idle && e.config.gapLimit ≤ e.idleCount.bits
  | .disabled | .ready => false

/-- The row that the count of a line state ends in. -/
def LineState.countRow (l : Line) : LineState → Option Instr
  | .lead => some (.leadEnd l)
  | .sending => some (.sendingEnd l)
  | .lag => some (.lagEnd l)
  | .awaiting => some (.replyTimeout l)
  | .quiet => some (.quietGapEnd l)
  | .receiving => some (.truncated l)
  | .discarding => some (.discardEnd l)
  | .disabled | .ready => none

/-- The receiver's row, where a sample is due: the mid-start sample half a bit time after a fall, and the delivery of a
character at the sample of its first stop bit, with what its samples give (R98, R100). -/
def Engine.sampleRow (l : Line) (e : Engine) : Option Instr :=
  match e.receiver with
  | .fallSeen => if 8 * e.config.divisor ≤ e.sampleCount then some (.midStartSample l e.rxd) else none
  | .character =>
    match sampleCharacter e.config.parity (.low :: e.samples) with
    | some (data, parityBit, stop) => some (.characterDelivered l data parityBit stop)
    | none => none
  | .off | .waiting | .held => none

/-! ### The period -/

/-- What the rows do that a CLKIN period may bring about. -/
def happen (s : State) : Instr → State
  | .tick => deliverTick s
  | .clearWalkVisit => walkStep s
  | .leadEnd l => leadDone l s
  | .sendingEnd l => sendingDone l s
  | .lagEnd l => lagDone l s
  | .replyTimeout l => replyTimeoutDone l s
  | .quietGapEnd l => quietGapDone l s
  | .truncated l => gapLimitDone l s
  | .discardEnd l => discardDone l s
  | .continuousGapEnd l => endGap l s
  | .midStartSample l level => s.updEngine l (Engine.midStart level)
  | .characterDelivered l data parityBit stop => deliverCharacter l data parityBit stop s
  | _ => s

/-- The counts of one line, its continuous gap among them (R32), one CLKIN period later. -/
def advanceLine (l : Line) (s : State) : State :=
  (s.updController l fun c => { c with gap := c.gap.map (BitCount.advance (s.engine l).config.bitTime) }).updEngine l
    Engine.advance

/-- Every count one CLKIN period later (R19). -/
def advanceCounts (s : State) : State :=
  advanceLine .b
    (advanceLine .a (s.setTimeBase { s.timeBase with prescaler := s.timeBase.prescaler + 1 }))

/-- The rows of one line that are due: its count's, its receiver's and its continuous gap's. -/
def dueOnLine (l : Line) (s : State) : List Instr :=
  (if (s.engine l).countDone then ((s.engine l).state.countRow l).toList else []) ++ ((s.engine l).sampleRow l).toList ++
    (if reached (s.controller l).gap (s.engine l).config.quietGap then [.continuousGapEnd l] else [])

/-- The rows that are due after the counts have moved: a tick when the prescaler reaches the divisor (R19), a visit of a
running walk (R93), and each line's. -/
def dueRows (s : State) : List Instr :=
  (if s.timeBase.divisor ≤ s.timeBase.prescaler then [.tick] else []) ++
    (if s.busy then [.clearWalkVisit] else []) ++ dueOnLine .a s ++ dueOnLine .b s

/-- A list in the order a number picks: each of the list's orders is picked by some number. The fuel is the length. -/
def arrange {α : Type} : Nat → Nat → List α → List α
  | 0, _, xs => xs
  | _ + 1, _, [] => []
  | fuel + 1, k, x :: xs =>
    (x :: xs).getD (k % (xs.length + 1)) x ::
      arrange fuel (k / (xs.length + 1)) ((x :: xs).eraseIdx (k % (xs.length + 1)))

/-- The rows due happen one after another in the order picked. -/
def runDue (order : Nat) (s : State) : State := (arrange (dueRows s).length order (dueRows s)).foldl happen s

/-- One CLKIN period. While RESET is held the prescaler stays at 0 and nothing counts (R166); with CLKIN stopped there
is no period (R171). -/
def clkinPeriod (s : State) : State :=
  working (fun s => runDue (Config.clockOrder s.freeIndex) ((advanceCounts s).setFreeIndex (s.freeIndex + 1))) s

end Sys2Proof.Machine
end

