-- ==== Sys2Proof/Machine/Events.lean ====
section
/-!
DEFINITION. The events of the pins, the lines and the counts: one meaning for each row that is no host access.
A row whose count runs out brings that count to its end, whatever it stood at (log 1); an event that cannot come about
in the present state does nothing (log 2).
-/

namespace Sys2Proof.Machine

/-! ### Pins and clock -/

def execSyncEdge (level : Level) (s : State) : Host.Outcome State Fault Refusal :=
  .next (working (syncLevelHeld level) s)

/-- The edge detector takes its first stable level, where it has none yet (R172). -/
def takeFirstLevel (level : Level) (s : State) : State :=
  if s.syncLevel = none then s.setSyncLevel (some level) else s

def execSyncFirstStableLevel (level : Level) (s : State) : Host.Outcome State Fault Refusal :=
  .next (working (takeFirstLevel level) s)

/-- CLKIN stops, and every count and pin holds where it stands (R171). -/
def execClkinStop (s : State) : Host.Outcome State Fault Refusal := .next (s.setClkinRunning false)

/-- CLKIN runs again, and the part goes on from the state in which it stopped (R171). -/
def execClkinRestart (s : State) : Host.Outcome State Fault Refusal := .next (s.setClkinRunning true)

/-! ### The lines. The level of RXD is a pin and is followed while RESET is held too (log 5). -/

def execCharacterDelivered (line : Line) (data : Byte) (parityBit : Bool) (stop : Level) (s : State) :
    Host.Outcome State Fault Refusal :=
  .next (working (deliverCharacter line data parityBit stop) s)

/-- RXD falls (R100). That a fall while CLKIN is stopped (R171) leaves the level held for RXD as it was, so that the
receiver goes on with it after the restart, is the model's choice (log 22). -/
def execRxdFall (line : Line) (s : State) : Host.Outcome State Fault Refusal :=
  .next (clocked (fun s => s.updEngine line Engine.fall) s)

def execMidStartSample (line : Line) (level : Level) (s : State) : Host.Outcome State Fault Refusal :=
  .next (clocked (fun s => s.updEngine line (Engine.midStart level)) s)

/-- RXD is at mark again (R100, R101). That a return while CLKIN is stopped (R171) leaves the level held for RXD as it
was, so that the receiver goes on with it after the restart, is the model's choice (log 22). -/
def execRxdReturnToMark (line : Line) (s : State) : Host.Outcome State Fault Refusal :=
  .next (clocked (fun s => s.updEngine line Engine.returnToMark) s)

/-! ### Counts -/

def execTick (s : State) : Host.Outcome State Fault Refusal := .next (working deliverTick s)

def execRoundTimerExpiry (line : Line) (s : State) : Host.Outcome State Fault Refusal :=
  .next (working (expireTimer line) s)

def execContinuousGapEnd (line : Line) (s : State) : Host.Outcome State Fault Refusal := .next (working (endGap line) s)

def execQuietGapEnd (line : Line) (s : State) : Host.Outcome State Fault Refusal :=
  .next (working (quietGapDone line) s)

def execLeadEnd (line : Line) (s : State) : Host.Outcome State Fault Refusal := .next (working (leadDone line) s)

def execSendingEnd (line : Line) (s : State) : Host.Outcome State Fault Refusal := .next (working (sendingDone line) s)

def execLagEnd (line : Line) (s : State) : Host.Outcome State Fault Refusal := .next (working (lagDone line) s)

def execReplyTimeout (line : Line) (s : State) : Host.Outcome State Fault Refusal :=
  .next (working (replyTimeoutDone line) s)

def execTruncated (line : Line) (s : State) : Host.Outcome State Fault Refusal := .next (working (gapLimitDone line) s)

def execDiscardEnd (line : Line) (s : State) : Host.Outcome State Fault Refusal := .next (working (discardDone line) s)

def execClearWalkVisit (s : State) : Host.Outcome State Fault Refusal := .next (working walkStep s)

end Sys2Proof.Machine
end

