-- ==== Sys2Proof/Machine/Flags.lean ====
section
/-!
DEFINITION. The Interrupt Unit and every status reading of the window: pending bytes, enables, IRQ, STATUS, the line
status bytes, and the whole read column of R151.
-/

namespace Sys2Proof.Machine

/-! ### Pending, enables and IRQ -/

/-- Some record of the change set of one line (R87). -/
def anyChanged (v : Vector NodeRecord 126) : Bool := v.toList.any (·.changed)

/-- REPLY and STORE_NONEMPTY (R76). -/
def State.replyPending (s : State) : Bool := !s.store.isEmpty

/-- CHANGE and CHANGE_NONEMPTY (R88). -/
def State.changePending (s : State) : Bool := anyChanged s.nodes.a || anyChanged s.nodes.b

/-- Six flags as bits 0 to 5. -/
def sixBits (b0 b1 b2 b3 b4 b5 : Bool) : BitVec 6 :=
  BitVec.ofNat 6 (b0.toNat + 2 * b1.toNat + 4 * b2.toNat + 8 * b3.toNat + 16 * b4.toNat + 32 * b5.toNat)

/-- The sources of PENDING LOW (R138). -/
def State.pendingLow (s : State) : BitVec 6 :=
  let p := s.interrupts.latched
  sixBits s.replyPending s.changePending p.overrun p.commandDone p.stray.a p.stray.b

/-- The sources of PENDING HIGH (R138). -/
def State.pendingHigh (s : State) : BitVec 6 :=
  let p := s.interrupts.latched
  sixBits p.roundEnd.a p.late.a p.halted.a p.roundEnd.b p.late.b p.halted.b

/-- IRQ is asserted while a source is both pending and enabled (R145). -/
def State.irq (s : State) : Bool :=
  (s.pendingLow &&& s.interrupts.enableLow != 0) || (s.pendingHigh &&& s.interrupts.enableHigh != 0)

/-- A flag after an acknowledge: cleared where its bit is written as 1 (R142). -/
def ackFlag (flag : Bool) (value : Byte) (bit : Nat) : Bool := flag && !value.getLsbD bit

/-- The latched flags after a write to PENDING LOW; the level sources in bits 0 and 1 are ignored (R142). -/
def ackLow (value : Byte) (p : Latched) : Latched :=
  { p with
    overrun := ackFlag p.overrun value 2
    commandDone := ackFlag p.commandDone value 3
    stray := ⟨ackFlag p.stray.a value 4, ackFlag p.stray.b value 5⟩ }

/-- The latched flags after a write to PENDING HIGH (R142). -/
def ackHigh (value : Byte) (p : Latched) : Latched :=
  { p with
    roundEnd := ⟨ackFlag p.roundEnd.a value 0, ackFlag p.roundEnd.b value 3⟩
    late := ⟨ackFlag p.late.a value 1, ackFlag p.late.b value 4⟩
    halted := ⟨ackFlag p.halted.a value 2, ackFlag p.halted.b value 5⟩ }

/-- A write to one of the pending bytes (R142). -/
def acknowledgeSources (half : Half) (value : Byte) (s : State) : State :=
  match half with
  | .low => setLatched (ackLow value) s
  | .high => setLatched (ackHigh value) s

/-- A write to one of the enable bytes; bits 6 and 7 are ignored (R144). -/
def writeEnables (half : Half) (value : Byte) (s : State) : State :=
  match half with
  | .low => s.setInterrupts { s.interrupts with enableLow := value.setWidth 6 }
  | .high => s.setInterrupts { s.interrupts with enableHigh := value.setWidth 6 }

/-! ### Status readings -/

/-- STATUS (R147). -/
def State.statusByte (s : State) : Byte :=
  (sixBits s.busy s.port.refusedBusy s.irq s.replyPending s.changePending (s.urgent.length == 4)).setWidth 8

/-- The line state codes (R117). -/
def LineState.code : LineState → Nat
  | .disabled => 0
  | .quiet => 1
  | .ready => 2
  | .lead => 3
  | .sending => 4
  | .lag => 5
  | .awaiting => 6
  | .receiving => 7
  | .discarding => 8

/-- The round state codes (section 2.1). -/
def RoundState.code : RoundState → Nat
  | .stopped => 0
  | .armed => 1
  | .running => 2
  | .halting => 3

/-- The exchange field of a line status byte (R148). -/
def exchangeCode : Option Exchange → Nat
  | none => 0
  | some x =>
    match x.work with
    | .routine _ _ _ => 1
    | .urgent _ => 2

/-- LINE A STATUS and LINE B STATUS (R148). -/
def State.lineStatusByte (s : State) (l : Line) : Byte :=
  BitVec.ofNat 8
    ((s.engine l).state.code + 16 * (s.controller l).state.code + 64 * exchangeCode (s.engine l).exchange)

/-- What a read of each window address returns (R151), 0x00 while RESET is held (R166). The reads of STAGE DATA, REPLY
DATA and RESET CAUSE have an effect besides and are rows of the table; every other read leaves the part as it stands
(R152). With CLKIN stopped no access is seen (R171); that this gives the byte of the standing state then is the model's
choice (log 21). -/
def State.windowRead (s : State) (address : Fin 16) : Byte :=
  if s.resetHeld then 0
  else
    match address.val with
    | 0 => s.statusByte
    | 1 => s.port.result.code
    | 2 => s.port.param
    | 3 => BitVec.ofNat 8 s.urgent.length
    | 4 => s.pendingLow.setWidth 8
    | 5 => s.pendingHigh.setWidth 8
    | 6 => s.interrupts.enableLow.setWidth 8
    | 7 => s.interrupts.enableHigh.setWidth 8
    | 8 => BitVec.ofNat 8 s.port.stagePointer.val
    | 9 => s.port.staging[s.port.stagePointer]
    | 10 => BitVec.ofNat 8 s.port.replyPointer.val
    | 11 => replyByte s.store s.port.replyPointer
    | 12 => BitVec.ofNat 8 s.store.length
    | 13 => s.lineStatusByte .a
    | 14 => s.lineStatusByte .b
    | _ => s.port.resetCause.code

end Sys2Proof.Machine
end

