-- ==== Sys2Proof/Machine/LineCommands.lean ====
section
/-!
DEFINITION. The line commands: CONFIGURE LINE, READ LINE CONFIG, ENABLE LINE and DISABLE LINE.
-/

namespace Sys2Proof.Machine

/-- CONFIGURE LINE (R114): PARAM, then the fields, then the line state. -/
def configureLine (s : State) : State :=
  match lineOfParam s.port.param with
  | none => giveResult .range s
  | some l =>
    match lineConfigOfStaging s.port.staging with
    | none => giveResult .range s
    | some config =>
      if (s.engine l).state = .disabled then giveResult .done (s.updEngine l fun e => { e with config := config })
      else giveResult .state s

/-- READ LINE CONFIG (R115). -/
def readLineConfig (s : State) : State :=
  match lineOfParam s.port.param with
  | none => giveResult .range s
  | some l => giveResult .done (loadStaging (lineConfigImage (s.engine l).config) s)

/-- A DISABLED engine comes into use (R131): its receiver is on, its counts are 0 and it is in QUIET. -/
def Engine.enable (e : Engine) : Engine :=
  { e.enterQuiet with receiver := .waiting, idleCount := BitCount.zero, urgentCount := 0 }

/-- ENABLE LINE (R131). -/
def enableLine (s : State) : State :=
  match lineOfParam s.port.param with
  | none => giveResult .range s
  | some l =>
    if (s.engine l).state = .disabled then giveResult .done (s.updEngine l Engine.enable)
    else giveResult .state s

/-- The first part of a disable (R132): counts on the pins stop, and the receiver is off with its character dropped. -/
def Engine.letGo (e : Engine) : Engine := { e with receiver := .off, timeCount := none }

/-- The last part of a disable (R132). -/
def Engine.disable (e : Engine) : Engine := { e with urgentCount := 0, state := .disabled }

/-- A line that is not DISABLED is taken out of use, in the five parts of R132. -/
def disable (l : Line) (s : State) : State :=
  (cancelQueued (fun m => m == l) (forceStop l (abortExchange l (s.updEngine l Engine.letGo)))).updEngine l
    Engine.disable

/-- DISABLE LINE (R132). -/
def disableLine (s : State) : State :=
  match lineOfParam s.port.param with
  | none => giveResult .range s
  | some l => giveResult .done (if (s.engine l).state = .disabled then s else disable l s)

def execConfigureLine (s : State) : Host.Outcome State Fault Refusal := .next (commandAccess configureLine s)

def execReadLineConfig (s : State) : Host.Outcome State Fault Refusal := .next (commandAccess readLineConfig s)

def execEnableLine (s : State) : Host.Outcome State Fault Refusal := .next (commandAccess enableLine s)

def execDisableLine (s : State) : Host.Outcome State Fault Refusal := .next (commandAccess disableLine s)

end Sys2Proof.Machine
end

