-- ==== Sys2Proof/Machine/NodeCommands.lean ====
section
/-!
DEFINITION. The node health map commands: SET HEALTH, READ NODE, TAKE CHANGE and CLEAR NODE MAP.
-/

namespace Sys2Proof.Machine

/-- SET HEALTH (R80). -/
def setHealth (s : State) : State :=
  match thresholdsOfStaging s.port.staging with
  | none => giveResult .range s
  | some t => giveResult .done (s.setHealth t)

/-- READ NODE (R91). -/
def readNode (s : State) : State :=
  match nodeOfParam s.port.param with
  | none => giveResult .range s
  | some (l, i) => giveResult .done (loadStaging (nodeImage l i (s.node l i)) s)

/-- TAKE CHANGE (R89): the record leaves the set, and its image shows byte 5 as 0. -/
def takeChange (s : State) : State :=
  match s.firstChange with
  | none => giveResult .empty s
  | some (l, i) =>
    let r := { s.node l i with changed := false }
    giveResult .done (loadStaging (nodeImage l i r) (s.setNode l i r))

/-- CLEAR NODE MAP (R93): RESULT is DONE and the decoder EXECUTING, with the walk's first visit to come. -/
def clearNodeMap (s : State) : State :=
  giveResult .done (s.setPort { s.port with decoder := .executing 0 })

def execSetHealth (s : State) : Host.Outcome State Fault Refusal := .next (commandAccess setHealth s)

def execReadNode (s : State) : Host.Outcome State Fault Refusal := .next (commandAccess readNode s)

def execTakeChange (s : State) : Host.Outcome State Fault Refusal := .next (commandAccess takeChange s)

def execClearNodeMap (s : State) : Host.Outcome State Fault Refusal := .next (commandAccess clearNodeMap s)

end Sys2Proof.Machine
end

