-- ==== Sys2Proof/Machine/Resets.lean ====
section
/-!
DEFINITION. The two resets (R166 to R168): RESET PART, and the RESET pin going low and high.
-/

namespace Sys2Proof.Machine

/-- Every block takes its reset state (R166, R167 and the table of section 9.6). What is no block's stays: the pins, the
byte last read, the stable level of SYNC, the reset cause (R154 says when it changes), the queue and the free value's
counter. -/
def resetBlocks (s : State) : State :=
  { State.reset with
    port := { State.reset.port with resetCause := s.port.resetCause, lastRead := s.port.lastRead }
    engines := ⟨Engine.reset s.engines.a.rxd, Engine.reset s.engines.b.rxd⟩
    syncLevel := s.syncLevel
    resetHeld := s.resetHeld
    clkinRunning := s.clkinRunning
    freeIndex := s.freeIndex
    pending := s.pending }

/-- RESET PART (R167): the blocks, RESULT DONE and reset cause 2. -/
def resetPart (s : State) : State :=
  let s := resetBlocks s
  s.setPort { s.port with result := .done, resetCause := .command }

/-- A hardware reset begins, and holds the part (R166). The edge detector has no stable level until it ends (R172). -/
def beginHardwareReset (s : State) : State := ((resetBlocks s).setResetHeld true).setSyncLevel none

/-- A hardware reset ends: the reset cause becomes 1 and RESULT holds NONE (R154, R166). -/
def endHardwareReset (s : State) : State :=
  if s.resetHeld then
    (s.setResetHeld false).setPort { s.port with result := .none, resetCause := .pin }
  else s

/-- RESET PART is taken in IDLE and in EXECUTING (R159, R167). -/
def execResetPart (s : State) : Host.Outcome State Fault Refusal := .next (working resetPart s)

def execHardwareReset (s : State) : Host.Outcome State Fault Refusal := .next (clocked beginHardwareReset s)

def execHardwareResetEnd (s : State) : Host.Outcome State Fault Refusal := .next (clocked endHardwareReset s)

end Sys2Proof.Machine
end

