-- ==== Sys2Proof/Machine/RoundCommands.lean ====
section
/-!
DEFINITION. The round commands: SET ROUND MODE, START ROUNDS, HALT ROUNDS and SET TIMING.
-/

namespace Sys2Proof.Machine

/-- SET ROUND MODE (R25): PARAM, then the values, then the round state. -/
def setRoundMode (s : State) : State :=
  match lineOfParam s.port.param with
  | none => giveResult .range s
  | some l =>
    match roundSettingsOfStaging s.port.staging with
    | none => giveResult .range s
    | some settings =>
      if (s.controller l).state = .stopped then
        giveResult .done (s.updController l fun c => { c with settings := settings })
      else giveResult .state s

/-- What an accepted START ROUNDS does, by the trigger source (R26). -/
def beginRounds (l : Line) (s : State) : State :=
  match (s.controller l).settings.source with
  | .soft => startRoundAndChoose l s
  | .timer => s.updController l fun c => { c with state := .armed, timer := some c.settings.period }
  | .sync => s.updController l fun c => { c with state := .armed }

/-- START ROUNDS (R26): PARAM, then the line state, then the round state. -/
def startRounds (s : State) : State :=
  match lineOfParam s.port.param with
  | none => giveResult .range s
  | some l =>
    if (s.engine l).state = .disabled then giveResult .state s
    else if (s.controller l).state = .stopped then giveResult .done (beginRounds l s)
    else giveResult .state s

/-- A controller is asked to stop (R33). -/
def halt (l : Line) (s : State) : State :=
  match (s.controller l).state with
  | .stopped | .halting => s
  | .armed => setHalted l (enterRoundState l .stopped s)
  | .running =>
    if (s.controller l).routineInFlight = true then enterRoundState l .halting s
    else setHalted l (enterRoundState l .stopped (s.updController l fun c => { c with gap := none }))

/-- HALT ROUNDS (R33). -/
def haltRounds (s : State) : State :=
  match lineOfParam s.port.param with
  | none => giveResult .range s
  | some l => giveResult .done (halt l s)

/-- SET TIMING (R20): the value, then both round states. -/
def setTiming (s : State) : State :=
  match tickDivisorOfStaging s.port.staging with
  | none => giveResult .range s
  | some divisor =>
    if (s.controller .a).state = .stopped ∧ (s.controller .b).state = .stopped then
      giveResult .done (s.setTimeBase { divisor := divisor, prescaler := 0 })
    else giveResult .state s

def execSetRoundMode (s : State) : Host.Outcome State Fault Refusal := .next (commandAccess setRoundMode s)

def execStartRounds (s : State) : Host.Outcome State Fault Refusal := .next (commandAccess startRounds s)

def execHaltRounds (s : State) : Host.Outcome State Fault Refusal := .next (commandAccess haltRounds s)

def execSetTiming (s : State) : Host.Outcome State Fault Refusal := .next (commandAccess setTiming s)

end Sys2Proof.Machine
end

