-- ==== Sys2Proof/Machine/StoreCommands.lean ====
section
/-!
DEFINITION. The reply store command: RELEASE REPLY.
-/

namespace Sys2Proof.Machine

/-- RELEASE REPLY (R75). -/
def releaseReply (s : State) : State :=
  match s.store with
  | [] => giveResult .empty s
  | _ :: rest => giveResult .done ((s.setStore rest).setPort { s.port with replyPointer := 0 })

def execReleaseReply (s : State) : Host.Outcome State Fault Refusal := .next (commandAccess releaseReply s)

end Sys2Proof.Machine
end

