-- ==== Sys2Proof/Machine/TableCommands.lean ====
section
/-!
DEFINITION. The schedule table commands: WRITE ENTRY and READ ENTRY.
-/

namespace Sys2Proof.Machine

/-- WRITE ENTRY (R7, R8): PARAM, then the fields; every field is replaced and the phase set to 0. -/
def writeEntry (s : State) : State :=
  match entryOfParam s.port.param with
  | none => giveResult .range s
  | some i =>
    match entryOfStaging s.port.staging with
    | none => giveResult .range s
    | some e => giveResult .done (s.setTable (s.table.set i e))

/-- READ ENTRY (R10). -/
def readEntry (s : State) : State :=
  match entryOfParam s.port.param with
  | none => giveResult .range s
  | some i => giveResult .done (loadStaging (entryImage s.table[i]) s)

def execWriteEntry (s : State) : Host.Outcome State Fault Refusal := .next (commandAccess writeEntry s)

def execReadEntry (s : State) : Host.Outcome State Fault Refusal := .next (commandAccess readEntry s)

end Sys2Proof.Machine
end

