-- ==== Sys2Proof/Machine/UrgentCommands.lean ====
section
/-!
DEFINITION. The urgent queue commands: ENQUEUE URGENT, FLUSH URGENT and SET BURST.
-/

namespace Sys2Proof.Machine

/-- ENQUEUE URGENT (R42 to R44): the four tests in order, then the slot at the tail, and a READY engine chooses. That
the range test comes first on a staging buffer cleared by a reset too, where R173's example names STATE, is the model's
reading (log 20). -/
def enqueueUrgent (s : State) : State :=
  match slotOfStaging s.port.staging with
  | none => giveResult .range s
  | some slot =>
    if (s.engine slot.line).state = .disabled then giveResult .state s
    else if 4 ≤ s.urgent.length then giveResult .full s
    else if 16 ≤ s.storeSum then giveResult .room s
    else giveResult .done (makeChoice slot.line (s.setUrgent (s.urgent ++ [slot])))

/-- PARAM as a flush selector: 0 Line A, 1 Line B, 2 both (R51). -/
def flushSelection (p : Byte) : Option (Line → Bool) :=
  if p = 0 then some (fun l => l == .a)
  else if p = 1 then some (fun l => l == .b)
  else if p = 2 then some (fun _ => true)
  else none

/-- FLUSH URGENT (R51). -/
def flushUrgent (s : State) : State :=
  match flushSelection s.port.param with
  | none => giveResult .range s
  | some selected => giveResult .done (cancelQueued selected s)

/-- SET BURST (R124). -/
def setBurst (s : State) : State :=
  if 1 ≤ s.port.param.toNat ∧ s.port.param.toNat ≤ 4 then giveResult .done (s.setBurstLimit s.port.param.toNat)
  else giveResult .range s

def execEnqueueUrgent (s : State) : Host.Outcome State Fault Refusal := .next (commandAccess enqueueUrgent s)

def execFlushUrgent (s : State) : Host.Outcome State Fault Refusal := .next (commandAccess flushUrgent s)

def execSetBurst (s : State) : Host.Outcome State Fault Refusal := .next (commandAccess setBurst s)

end Sys2Proof.Machine
end

