-- ==== Sys2Proof/Machine/PortAccess.lean ====
section
/-!
DEFINITION. The accesses of the window: writes and reads of its registers (R151 to R155, R73, R142, R144), and the
writes to COMMAND that are refused (R159, R160).
-/

namespace Sys2Proof.Machine

/-! ### Registers -/

/-- A write to PARAM (R153). -/
def writeParam (v : Byte) (s : State) : State := s.setPort { s.port with param := v }

/-- A write to STAGE POINTER, modulo 32 (R155). -/
def writeStagePointer (v : Byte) (s : State) : State :=
  s.setPort { s.port with stagePointer := ⟨v.toNat % 32, Nat.mod_lt _ (by decide)⟩ }

/-- The staging pointer advances, wrapping from 31 to 0 (R155). -/
def advanceWrapping (p : Fin 32) : Fin 32 := ⟨(p.val + 1) % 32, Nat.mod_lt _ (by decide)⟩

/-- A write to STAGE DATA (R155). -/
def writeStageData (v : Byte) (s : State) : State :=
  s.setPort
    { s.port with
      staging := s.port.staging.set s.port.stagePointer v
      stagePointer := advanceWrapping s.port.stagePointer }

/-- A read of STAGE DATA (R155). -/
def readStageData (s : State) : State :=
  driveData s.port.staging[s.port.stagePointer]
    (s.setPort { s.port with stagePointer := advanceWrapping s.port.stagePointer })

/-- A write to REPLY POINTER, modulo 32 (R73). -/
def writeReplyPointer (v : Byte) (s : State) : State :=
  s.setPort { s.port with replyPointer := ⟨v.toNat % 32, Nat.mod_lt _ (by decide)⟩ }

/-- The reply pointer advances, stopping at 31 (R73). -/
def advanceStopping (p : Fin 32) : Fin 32 := if h : p.val + 1 < 32 then ⟨p.val + 1, h⟩ else p

/-- A read of REPLY DATA (R73). -/
def readReplyData (s : State) : State :=
  driveData (replyByte s.store s.port.replyPointer)
    (s.setPort { s.port with replyPointer := advanceStopping s.port.replyPointer })

/-- A read of RESET CAUSE (R154). -/
def readResetCause (s : State) : State :=
  driveData s.port.resetCause.code (s.setPort { s.port with resetCause := .none })

/-! ### COMMAND -/

/-- A code that is not a command is refused with UNKNOWN (R160). -/
def unknownCode (s : State) : State := giveResult .unknown s

/-- The command a code gives (R162); RESET PART apart, which is taken in every state of the decoder. -/
def commandOf (code : Byte) (s : State) : State :=
  match code.toNat with
  | 0x01 => configureLine s
  | 0x02 => readLineConfig s
  | 0x03 => enableLine s
  | 0x04 => disableLine s
  | 0x10 => writeEntry s
  | 0x11 => readEntry s
  | 0x20 => setRoundMode s
  | 0x21 => startRounds s
  | 0x22 => haltRounds s
  | 0x23 => setTiming s
  | 0x30 => enqueueUrgent s
  | 0x31 => flushUrgent s
  | 0x32 => setBurst s
  | 0x40 => releaseReply s
  | 0x50 => setHealth s
  | 0x51 => readNode s
  | 0x52 => takeChange s
  | 0x53 => clearNodeMap s
  | _ => unknownCode s

/-- A write of a code to COMMAND (R157, R159, R160, R167). -/
def writeCommand (code : Byte) (s : State) : State :=
  if code = 0xA5 then working resetPart s else commandAccess (commandOf code) s

/-- A write to a window address, by the write column of R151. -/
def windowWrite (address : Fin 16) (v : Byte) (s : State) : State :=
  match address.val with
  | 0 => writeCommand v s
  | 1 => working (writeParam v) s
  | 4 => working (acknowledgeSources .low v) s
  | 5 => working (acknowledgeSources .high v) s
  | 6 => working (writeEnables .low v) s
  | 7 => working (writeEnables .high v) s
  | 8 => working (writeStagePointer v) s
  | 9 => working (writeStageData v) s
  | 10 => working (writeReplyPointer v) s
  | _ => s

/-! ### Meanings -/

/-- The write is taken as the write of its code (log 9): with a code that is not a command, in IDLE, it is refused with
UNKNOWN (R160). -/
def execUnknownCommand (code : Byte) (s : State) : Host.Outcome State Fault Refusal := .next (writeCommand code s)

/-- The write is taken as the write of its code (log 9): in EXECUTING, and not of RESET PART, it is refused and sets
REFUSED_BUSY (R159). -/
def execRefusedBusy (code : Byte) (s : State) : Host.Outcome State Fault Refusal := .next (writeCommand code s)

def execWindowWrite (address : Fin 16) (value : Byte) (s : State) : Host.Outcome State Fault Refusal :=
  .next (windowWrite address value s)

def execStagePointerWrite (value : Byte) (s : State) : Host.Outcome State Fault Refusal :=
  .next (working (writeStagePointer value) s)

def execStageDataWrite (value : Byte) (s : State) : Host.Outcome State Fault Refusal :=
  .next (working (writeStageData value) s)

def execStageDataRead (s : State) : Host.Outcome State Fault Refusal := .next (readAccess readStageData s)

def execReplyPointerWrite (value : Byte) (s : State) : Host.Outcome State Fault Refusal :=
  .next (working (writeReplyPointer value) s)

def execReplyDataRead (s : State) : Host.Outcome State Fault Refusal := .next (readAccess readReplyData s)

def execResetCauseRead (s : State) : Host.Outcome State Fault Refusal := .next (readAccess readResetCause s)

def execAcknowledge (half : Half) (value : Byte) (s : State) : Host.Outcome State Fault Refusal :=
  .next (working (acknowledgeSources half value) s)

def execInterruptEnableWrite (half : Half) (value : Byte) (s : State) : Host.Outcome State Fault Refusal :=
  .next (working (writeEnables half value) s)

end Sys2Proof.Machine
end

