-- ==== Sys2Proof/Machine/Dispatch.lean ====
section
/-!
DEFINITION. exec: one arm for each row of spec/opcode_table.json, each a direct call of its meaning.
-/

namespace Sys2Proof.Machine

def exec (i : Instr) (s : State) : Host.Outcome State Fault Refusal :=
  match i with
  | .configureLine => Sys2Proof.Machine.execConfigureLine s
  | .readLineConfig => Sys2Proof.Machine.execReadLineConfig s
  | .enableLine => Sys2Proof.Machine.execEnableLine s
  | .disableLine => Sys2Proof.Machine.execDisableLine s
  | .writeEntry => Sys2Proof.Machine.execWriteEntry s
  | .readEntry => Sys2Proof.Machine.execReadEntry s
  | .setRoundMode => Sys2Proof.Machine.execSetRoundMode s
  | .startRounds => Sys2Proof.Machine.execStartRounds s
  | .haltRounds => Sys2Proof.Machine.execHaltRounds s
  | .setTiming => Sys2Proof.Machine.execSetTiming s
  | .enqueueUrgent => Sys2Proof.Machine.execEnqueueUrgent s
  | .flushUrgent => Sys2Proof.Machine.execFlushUrgent s
  | .setBurst => Sys2Proof.Machine.execSetBurst s
  | .releaseReply => Sys2Proof.Machine.execReleaseReply s
  | .setHealth => Sys2Proof.Machine.execSetHealth s
  | .readNode => Sys2Proof.Machine.execReadNode s
  | .takeChange => Sys2Proof.Machine.execTakeChange s
  | .clearNodeMap => Sys2Proof.Machine.execClearNodeMap s
  | .resetPart => Sys2Proof.Machine.execResetPart s
  | .unknownCommand code => Sys2Proof.Machine.execUnknownCommand code s
  | .refusedBusy code => Sys2Proof.Machine.execRefusedBusy code s
  | .windowWrite address value => Sys2Proof.Machine.execWindowWrite address value s
  | .stagePointerWrite value => Sys2Proof.Machine.execStagePointerWrite value s
  | .stageDataWrite value => Sys2Proof.Machine.execStageDataWrite value s
  | .stageDataRead => Sys2Proof.Machine.execStageDataRead s
  | .replyPointerWrite value => Sys2Proof.Machine.execReplyPointerWrite value s
  | .replyDataRead => Sys2Proof.Machine.execReplyDataRead s
  | .resetCauseRead => Sys2Proof.Machine.execResetCauseRead s
  | .acknowledge half value => Sys2Proof.Machine.execAcknowledge half value s
  | .interruptEnableWrite half value => Sys2Proof.Machine.execInterruptEnableWrite half value s
  | .hardwareReset => Sys2Proof.Machine.execHardwareReset s
  | .hardwareResetEnd => Sys2Proof.Machine.execHardwareResetEnd s
  | .syncEdge level => Sys2Proof.Machine.execSyncEdge level s
  | .characterDelivered line data parityBit stop => Sys2Proof.Machine.execCharacterDelivered line data parityBit stop s
  | .tick => Sys2Proof.Machine.execTick s
  | .roundTimerExpiry line => Sys2Proof.Machine.execRoundTimerExpiry line s
  | .continuousGapEnd line => Sys2Proof.Machine.execContinuousGapEnd line s
  | .quietGapEnd line => Sys2Proof.Machine.execQuietGapEnd line s
  | .leadEnd line => Sys2Proof.Machine.execLeadEnd line s
  | .sendingEnd line => Sys2Proof.Machine.execSendingEnd line s
  | .lagEnd line => Sys2Proof.Machine.execLagEnd line s
  | .replyTimeout line => Sys2Proof.Machine.execReplyTimeout line s
  | .truncated line => Sys2Proof.Machine.execTruncated line s
  | .discardEnd line => Sys2Proof.Machine.execDiscardEnd line s
  | .clearWalkVisit => Sys2Proof.Machine.execClearWalkVisit s
  | .rxdFall line => Sys2Proof.Machine.execRxdFall line s
  | .midStartSample line level => Sys2Proof.Machine.execMidStartSample line level s
  | .rxdReturnToMark line => Sys2Proof.Machine.execRxdReturnToMark line s
  | .clkinStop => Sys2Proof.Machine.execClkinStop s
  | .clkinRestart => Sys2Proof.Machine.execClkinRestart s
  | .syncFirstStableLevel level => Sys2Proof.Machine.execSyncFirstStableLevel level s

end Sys2Proof.Machine
end

