-- ==== Sys2Proof/Machine/Step.lean ====
section
/-!
DEFINITION. The step of the block: the command at the front of the queue, or one CLKIN period when none waits.
-/

namespace Sys2Proof.Machine

/-- Take the command at the front of the queue and run it on the rest of the state. With an empty queue one CLKIN
period passes (DESIGN CHOICE, log 3). -/
def step (s : State) : Host.Outcome State Fault Refusal :=
  match s.pending with
  | [] => .next (clkinPeriod s)
  | c :: rest => exec c (s.setPending rest)

/-- The command a word spells, put at the front of the queue; no row of the table gives bits, so no word spells one
(log 18). -/
def State.withFetchWord (s : State) (nbits w : Nat) : State :=
  match decodeTableWord nbits w with
  | none => s
  | some c => s.setPending (c :: s.pending)

end Sys2Proof.Machine
end

