-- ==== Sys2Proof/Safety.lean ====
section
/-!
DEFINITION. What a sound state is: the relations between fields that the spec says always hold, each stated as an
invariant of the step; and the words the statements are written in, said in records and lists and not by the
operations of the machine, but for runs of `exec` and `judge` and the pins.
-/

namespace Sys2Proof.Safety

open Sys2Proof.Machine

/-! ### Lines, controllers, queue and store agree (R34, R39, R60, R118, R132, R148) -/

/-- The exchange in flight, if any, is an urgent one. -/
def urgentOn (e : Engine) : Bool :=
  match e.exchange with
  | none => false
  | some x =>
    match x.work with
    | .urgent _ => true
    | .routine _ _ _ => false

/-- The exchange in flight, if any, is a routine one. -/
def routineOn (e : Engine) : Bool :=
  match e.exchange with
  | none => false
  | some x =>
    match x.work with
    | .urgent _ => false
    | .routine _ _ _ => true

/-- The states in which an attempt is on the line (R118). -/
def attemptOnLine : LineState → Bool
  | .lead | .sending | .lag | .awaiting | .receiving | .discarding => true
  | .disabled | .quiet | .ready => false

/-- One engine with its controller and its slots. -/
structure LineSound (e : Engine) (c : Controller) (slotLines inFlightLines : List Line) (l : Line) : Prop where
  /-- A DISABLED line has its controller STOPPED, no exchange and no slot (R132). -/
  disabled : e.state = .disabled → c.state = .stopped ∧ e.exchange = none ∧ l ∉ slotLines
  /-- An attempt on the line belongs to an exchange in flight (R118). -/
  attempt : attemptOnLine e.state = true → e.exchange.isSome = true
  /-- A READY engine has no exchange in flight (R118, R119). -/
  ready : e.state = .ready → e.exchange = none
  /-- While DISCARDING an outcome is pending (R111, R118). -/
  discarding : e.state = .discarding → ∃ x o, e.exchange = some x ∧ x.pendingOutcome = some o
  /-- The line has an IN_FLIGHT slot exactly while its exchange is urgent, and then one (R39, R56). -/
  inFlight : inFlightLines.count l = (urgentOn e).toNat
  /-- The controller's routine in flight item is set exactly while the exchange is a routine one (R30). -/
  routine : c.routineInFlight = routineOn e
  /-- A routine exchange is in flight only while the controller is RUNNING or HALTING (R34). -/
  running : c.routineInFlight = true → c.state = .running ∨ c.state = .halting
  /-- A HALTING controller waits for its routine exchange (R33). -/
  halting : c.state = .halting → c.routineInFlight = true
  /-- The continuous gap runs only in RUNNING, with no routine exchange (R32). -/
  gap : c.gap.isSome = true → c.state = .running ∧ c.routineInFlight = false

/-- The lines of the slots, and those of the IN_FLIGHT slots. -/
def slotLines (s : State) : List Line := s.urgent.map (·.line)

def inFlightLines (s : State) : List Line := (s.urgent.filter (·.state == .inFlight)).map (·.line)

/-- The receiver agrees with the line state (R102, R117): it is off exactly while the line is DISABLED or DE is asserted,
and a character is under way only in QUIET, RECEIVING or DISCARDING. -/
structure ReceiverSound (e : Engine) : Prop where
  off : e.receiver = .off ↔ e.state = .disabled ∨ e.state = .lead ∨ e.state = .sending ∨ e.state = .lag
  character : e.receiver = .character → e.state = .quiet ∨ e.state = .receiving ∨ e.state = .discarding

/-- Both lines and their receivers are sound, at most four slots are occupied, and held plus reserved never exceeds 16
(R39, R60). -/
structure LinesSound (s : State) : Prop where
  lineA : LineSound (s.engine .a) (s.controller .a) (slotLines s) (inFlightLines s) .a
  lineB : LineSound (s.engine .b) (s.controller .b) (slotLines s) (inFlightLines s) .b
  receivers : ∀ l, ReceiverSound (s.engine l)
  slots : s.urgent.length ≤ 4
  room : s.storeSum ≤ 16

/-! ### Node records (R84) -/

/-- The relations within one node record. -/
structure NodeSound (r : NodeRecord) : Prop where
  answered : r.lastOutcome = some .ok ∨ r.lastOutcome = some .nodeFault → r.failures = 0
  failing : r.state = .suspect ∨ r.state = .offline → 1 ≤ r.failures
  countdown : r.state ≠ .offline → r.countdown = 0
  failures : r.failures ≤ 15

/-- Every node record is sound. -/
def NodesSound (s : State) : Prop := ∀ l i, NodeSound (s.node l i)

/-! ### Schedule entries (R1, R5) -/

/-- The ranges of the fields an entry and a request share (R1, R40). -/
structure RequestInRange (q : Request) : Prop where
  address : 1 ≤ q.address.toNat ∧ q.address.toNat ≤ 0x7F
  length : q.payload.length ≤ 16
  expectation : ∀ n, q.expectation = .exactly n → n ≤ 16
  timeout : 16 ≤ q.timeout ∧ q.timeout ≤ 4095
  retryLimit : q.retryLimit ≤ 3

/-- The phase is below the divisor, which is 1 to 16; the other fields are in range, but for the address and the timeout
of an entry as it stands after a reset, which is not enabled (R1, R4, R5). -/
structure EntrySound (e : Entry) : Prop where
  phase : e.phase < e.divisor
  divisor : e.divisor ≤ 16
  length : e.request.payload.length ≤ 16
  expectation : ∀ n, e.request.expectation = .exactly n → n ≤ 16
  timeout : e.request.timeout ≤ 4095
  retryLimit : e.request.retryLimit ≤ 3
  request : e.enabled = true → RequestInRange e.request

/-- Every entry is sound. -/
def TableSound (s : State) : Prop := ∀ i : Fin 32, EntrySound s.table[i]

/-! ### Settings and counts (R18, R19, R62, R79, R80, R113, R116) -/

/-- A line configuration in range (R113). -/
structure ConfigInRange (c : LineConfig) : Prop where
  divisor : 1 ≤ c.divisor ∧ c.divisor ≤ 4095
  stopBits : c.stopBits = 1 ∨ c.stopBits = 2
  lead : c.lead ≤ 15
  lag : c.lag ≤ 15
  quietGap : 4 ≤ c.quietGap ∧ c.quietGap ≤ 255
  gapLimit : 2 ≤ c.gapLimit ∧ c.gapLimit ≤ 31

/-- Settings, round timers, walker cursors, prescaler, urgent counts, quiet counts, sample counts, thresholds, revival
countdowns and missed counts are in the ranges their rules give. -/
structure SettingsSound (s : State) : Prop where
  config : ∀ l, ConfigInRange (s.engine l).config
  period : ∀ l, 1 ≤ (s.controller l).settings.period ∧ (s.controller l).settings.period ≤ 65535
  timer : ∀ l n, (s.controller l).timer = some n → 1 ≤ n ∧ n ≤ 65535
  cursor : ∀ l, (s.controller l).cursor ≤ 32
  tickDivisor : 256 ≤ s.timeBase.divisor ∧ s.timeBase.divisor ≤ 65535
  prescaler : s.timeBase.prescaler < s.timeBase.divisor
  burst : 1 ≤ s.burstLimit ∧ s.burstLimit ≤ 4
  urgentCount : ∀ l, (s.engine l).urgentCount ≤ 4
  /-- The quiet count is 0 to 255, and in QUIET it has not reached the quiet gap (R116, R119). -/
  quietCount : ∀ l, (s.engine l).quietCount.bits ≤ 255 ∧
    ((s.engine l).state = .quiet → (s.engine l).quietCount.bits < (s.engine l).config.quietGap)
  /-- The receiver's count has not reached the sample it counts to, and the character under way is not complete (R98,
  R100). -/
  sampling : ∀ l, (s.engine l).state ≠ .disabled →
    ((s.engine l).receiver = .fallSeen → (s.engine l).sampleCount < 8 * (s.engine l).config.divisor) ∧
    ((s.engine l).receiver = .character → (s.engine l).sampleCount < 16 * (s.engine l).config.divisor ∧
      (s.engine l).samples.length < if (s.engine l).config.parity = .none then 9 else 10)
  thresholds : 1 ≤ s.health.suspect ∧ s.health.suspect < s.health.offline ∧ s.health.offline ≤ 15 ∧
    1 ≤ s.health.revival ∧ s.health.revival ≤ 255
  /-- The revival countdown is 0 to 255 (R79). -/
  countdown : ∀ l i, (s.node l i).countdown ≤ 255
  missed : ∀ i : Fin 32, s.missed[i] ≤ 255

/-! ### Exchanges, requests and records (R40, R58, R118, R129) -/

/-- The reply assembly while a reply is being received (R118): never past its CHECK, with the payload as long as its
position says. -/
structure AssemblySound (a : Assembly) : Prop where
  length : a.length ≤ 16
  payload : a.payload.length = a.position - 5
  bounded : 5 ≤ a.position → a.position ≤ 5 + a.length

/-- An exchange in flight: its request in range, its attempts 1 to retry limit + 1. -/
structure ExchangeSound (e : Engine) (x : Exchange) : Prop where
  request : RequestInRange x.request
  attempts : 1 ≤ x.attempts ∧ x.attempts ≤ x.request.retryLimit + 1
  /-- Between two attempts, another is left (R129). -/
  retry : e.state = .quiet → x.attempts ≤ x.request.retryLimit
  assembly : e.state ≠ .discarding → AssemblySound x.assembly

/-- A reply record (R58). -/
structure RecordSound (r : Record) : Prop where
  address : 1 ≤ r.address.toNat ∧ r.address.toNat ≤ 0x7F
  entry : r.source = .routine → r.id.toNat ≤ 31
  attempts : r.attempts ≤ 4
  cancelled : r.attempts = 0 ↔ r.outcome = .cancelled
  reply : r.reply.isSome = true ↔ (r.outcome = .ok ∨ r.outcome = .nodeFault)
  status : ∀ y, r.reply = some y → (r.outcome = .ok ↔ y.status = 0)
  payload : r.payload.length ≤ 16
  missed : r.missed ≤ 255
  urgent : r.source = .urgent → r.round = 0 ∧ r.missed = 0

/-- Entries, slots, exchanges, missed counts and records are sound. -/
structure RecordsSound (s : State) : Prop where
  table : TableSound s
  slots : ∀ x ∈ s.urgent, RequestInRange x.request
  exchanges : ∀ l x, (s.engine l).exchange = some x → ExchangeSound (s.engine l) x
  pendingOutcomes : ∀ l x o, (s.engine l).exchange = some x → x.pendingOutcome = some o →
    o = .charError ∨ o = .badFrame ∨ o = .checkError
  missed : ∀ i : Fin 32, s.missed[i] ≤ 255
  records : ∀ r ∈ s.store, RecordSound r

/-! ### The words of the statements -/

/-- CLKIN runs and RESET is not held: the part works (R166, R171). -/
abbrev Awake (s : State) : Prop := s.clkinRunning = true ∧ s.resetHeld = false

/-- The decoder is IDLE in a part that works: a command written is taken (R157). -/
abbrev TakesCommands (s : State) : Prop := Awake s ∧ s.port.decoder = .idle

/-- The state after a command with a result and no other effect: RESULT is written and REFUSED_BUSY is cleared
(R157). -/
abbrev answered (r : ResultCode) (s : State) : State :=
  { s with port := { s.port with result := r, refusedBusy := false } }

/-- The staging buffer loaded with an image, its pointer at 0 (R156). -/
abbrev loaded (image : Vector Byte 32) (s : State) : State :=
  { s with port := { s.port with staging := image, stagePointer := 0 } }

/-- The state with one engine replaced. -/
abbrev withEngine (s : State) (l : Line) (e : Engine) : State := { s with engines := s.engines.set l e }

/-- The state with one controller replaced. -/
abbrev withController (s : State) (l : Line) (c : Controller) : State := { s with rounds := s.rounds.set l c }

/-- The state with the latched sources replaced. -/
abbrev withLatched (s : State) (p : Latched) : State := { s with interrupts := { s.interrupts with latched := p } }

/-- The index a command's PARAM gives a line. -/
abbrev lineIndex : Line → Nat
  | .a => 0
  | .b => 1

/-- Written while the decoder is EXECUTING, the command sets REFUSED_BUSY and does nothing else (R159). -/
abbrev RefusedWhileBusy (c : Instr) : Prop :=
  ∀ s, Awake s → s.port.decoder ≠ .idle → exec c s = .next { s with port := { s.port with refusedBusy := true } }

/-- The commands of R162 but RESET PART, each a row of its own. -/
abbrev commandRows : List Instr :=
  [.configureLine, .readLineConfig, .enableLine, .disableLine, .writeEntry, .readEntry, .setRoundMode, .startRounds,
    .haltRounds, .setTiming, .enqueueUrgent, .flushUrgent, .setBurst, .releaseReply, .setHealth, .readNode,
    .takeChange, .clearNodeMap]

/-- A list of commands run one after another, while each gives a next state. -/
def execAll : List Instr → State → Option State
  | [], s => some s
  | c :: rest, s =>
    match exec c s with
    | .next t => execAll rest t
    | .fault _ => none
    | .refused _ => none

/-- A value of two staging bytes, little-endian (00_scope.md, Conventions). -/
abbrev twoBytes (v : Vector Byte 32) (i j : Fin 32) : Nat := v[i].toNat + 256 * v[j].toNat

/-- A controller as a started round leaves it (R23): number, cursor, walker, state, and the gap idle (R32). -/
abbrev roundStarted (c : Controller) : Controller :=
  { c with state := .running, roundNumber := c.roundNumber + 1, cursor := 0, exhausted := false, gap := none }

/-- An engine as it starts an attempt: DE asserted, the receiver off, in LEAD, or in SENDING with a lead of 0 (R103,
R117). -/
abbrev attemptStarted (e : Engine) : Engine :=
  if e.config.lead = 0 then
    { e with state := .sending, timeCount := none, bitsSent := BitCount.zero, receiver := .off }
  else { e with state := .lead, timeCount := some BitCount.zero, receiver := .off }

/-- An engine as the start of an exchange leaves it (R125). -/
abbrev exchangeStarted (e : Engine) (work : Work) (request : Request) (urgentCount : Nat) : Engine :=
  attemptStarted
    { e with
      exchange :=
        some { work := work, request := request, attempts := 1, pendingOutcome := none, assembly := Assembly.empty }
      urgentCount := urgentCount }

/-- A slot that waits on a line. -/
abbrev QueuedOn (l : Line) (x : Slot) : Prop := x.line = l ∧ x.state = .queued

/-- The requirements on the staging image that R8 and R43 share. -/
abbrev RequestImageInRange (v : Vector Byte 32) : Prop :=
  (1 ≤ v[1].toNat ∧ v[1].toNat ≤ 0x7F) ∧ v[3].toNat ≤ 16 ∧ (v[4].toNat ≤ 16 ∨ v[4] = 0xFF) ∧
    (16 ≤ twoBytes v 5 6 ∧ twoBytes v 5 6 ≤ 4095) ∧ v[7].toNat % 16 ≤ 3

/-- The request a staging image holds (R163). -/
abbrev requestOfImage (v : Vector Byte 32) : Request :=
  { address := v[1]
    command := v[2]
    payload := (v.toList.drop 8).take v[3].toNat
    expectation := if v[4] = 0xFF then .any else .exactly v[4].toNat
    timeout := twoBytes v 5 6
    retryLimit := v[7].toNat % 16 }

/-- The line an image names (R163). -/
abbrev lineOfImage (v : Vector Byte 32) : Line := if v[0].getLsbD 1 then .b else .a

/-- An attempt of an exchange ends with a failure on a command: the reply timeout, a truncation, or the end of the
discarding that a failing check began (R108, R110, R111). -/
abbrev AttemptFails (l : Line) (s : State) (x : Exchange) (c : Instr) (o : OutcomeCode) : Prop :=
  (s.engine l).exchange = some x ∧
    ((c = .replyTimeout l ∧ o = .noReply ∧ (s.engine l).state = .awaiting ∧ (s.engine l).receiver ≠ .fallSeen) ∨
      (c = .truncated l ∧ o = .truncated ∧ (s.engine l).state = .receiving ∧ (s.engine l).receiver = .waiting ∧
        (s.engine l).rxd = .high) ∨
      (c = .discardEnd l ∧ (o = .charError ∨ o = .badFrame ∨ o = .checkError) ∧ x.pendingOutcome = some o ∧
        (s.engine l).state = .discarding ∧ (s.engine l).receiver = .waiting ∧ (s.engine l).rxd = .high))

/-- The engine as an ended attempt leaves it, in QUIET (R129, R130). -/
abbrev quietAfter (e : Engine) (x : Option Exchange) : Engine :=
  { e with state := .quiet, quietCount := BitCount.zero, timeCount := none, exchange := x }

/-- The reply assembly after one more character, whether or not it passes its check (R127): the position counts from 0,
STATUS stands at 3, LEN at 4 and the payload at 5 to 4 + LEN, and the CRC covers positions 1 to 4 + LEN (R105). -/
abbrev grown (a : Assembly) (d : Byte) : Assembly :=
  { position := a.position + 1
    crc := if 1 ≤ a.position ∧ a.position < 5 + a.length then crcByte a.crc d else a.crc
    status := if a.position = 3 then d else a.status
    length := if a.position = 4 then d.toNat else a.length
    payload := if 5 ≤ a.position ∧ a.position < 5 + a.length then a.payload ++ [d] else a.payload }

/-- Characters judged one after another while the reply goes on (R109). -/
def judgeAll (q : Request) : List Byte → Assembly → Option Assembly
  | [], a => some a
  | d :: rest, a =>
    match judge q a d false with
    | .goesOn a' => judgeAll q rest a'
    | .fails _ => none
    | .valid _ => none

/-! #### The walker (R6, R28, R29, R85) -/

/-- The offline query refuses the probe of an entry's node: it is OFFLINE with its countdown above 0 (R85). An address
without a node record is not refused (log 19). -/
abbrev ProbeRefused (l : Line) (i : Fin 32) (s : State) : Prop :=
  ∃ k : Fin 126, s.table[i].request.address.toNat = k.val + 1 ∧ (s.node l k).state = .offline ∧
    (s.node l k).countdown ≠ 0

/-- A visit to the entry yields an exchange (R28): enabled, of the line, due, and its probe not refused. -/
abbrev Yields (l : Line) (i : Fin 32) (s : State) : Prop :=
  s.table[i].enabled = true ∧ s.table[i].line = l ∧ s.table[i].phase = 0 ∧ ¬ProbeRefused l i s

/-- The state after a visit that passes an entry over: untouched where the entry is disabled or of the other line, its
phase stepped where it is not due, its phase reloaded and its node's countdown lowered by one where it is refused (R6,
R85). -/
def passedOver (l : Line) (i : Fin 32) (s : State) : State :=
  let e := s.table[i]
  if e.enabled = true ∧ e.line = l then
    if e.phase = 0 then
      { s with
        table := s.table.set i { e with phase := e.divisor - 1 }
        nodes :=
          if h : 1 ≤ e.request.address.toNat ∧ e.request.address.toNat ≤ 126 then
            let k : Fin 126 := ⟨e.request.address.toNat - 1, by omega⟩
            s.nodes.set l ((s.nodes.get l).set k { s.node l k with countdown := (s.node l k).countdown - 1 })
          else s.nodes }
    else { s with table := s.table.set i { e with phase := e.phase - 1 } }
  else s

/-- A scan passes over the entries of a list one after another, each in the state the visits before it left, and ends in
a state (R28). -/
def PassesOver (l : Line) : List (Fin 32) → State → State → Prop
  | [], s, t => t = s
  | i :: rest, s, t => ¬Yields l i s ∧ PassesOver l rest (passedOver l i s) t

/-- The entries from a cursor up, in rising order. -/
abbrev entriesAbove (cursor : Nat) : List (Fin 32) := (List.finRange 32).filter fun j => cursor ≤ j.val

/-! #### One CLKIN period (R19, R93, R98) -/

/-- A count of bit times one CLKIN period later: a bit time is 16 times the bit-rate divisor in CLKIN periods (R98). -/
abbrev counted (c : LineConfig) (n : BitCount) : BitCount :=
  if n.periods + 1 < 16 * c.divisor then { n with periods := n.periods + 1 } else { bits := n.bits + 1, periods := 0 }

/-- The receiver one CLKIN period later: it counts from a fall, and in a character, one bit time after the sample before,
takes the level of RXD as the next one (R98, R100). -/
def sampled (e : Engine) : Engine :=
  if e.receiver = .fallSeen then { e with sampleCount := e.sampleCount + 1 }
  else if e.receiver = .character then
    if e.sampleCount + 1 < 16 * e.config.divisor then { e with sampleCount := e.sampleCount + 1 }
    else { e with sampleCount := 0, samples := e.samples ++ [e.rxd] }
  else e

/-- The line is idle (R101). -/
abbrev LineIdle (e : Engine) : Prop := e.receiver = .waiting ∧ e.rxd = .high

/-- What one CLKIN period moves on one line: the count of the engine's state, the receiver and the continuous gap, and
nothing else (R32, R98, R100, R103, R108, R110, R111, R119, R127). -/
structure LineCounted (e f : Engine) (c d : Controller) : Prop where
  leadOrLag : e.state = .lead ∨ e.state = .lag →
    f = { sampled e with timeCount := e.timeCount.map (counted e.config) }
  sending : e.state = .sending → f = { sampled e with bitsSent := counted e.config e.bitsSent }
  /-- The reply timeout is held between a fall and its mid-start sample (R108). -/
  awaiting : e.state = .awaiting →
    f =
      if e.receiver = .fallSeen then sampled e
      else { sampled e with timeCount := e.timeCount.map (counted e.config) }
  /-- The quiet count runs on an idle line, and on over a fall that is not confirmed yet (R119, log 14). -/
  quiet : e.state = .quiet →
    f =
      if LineIdle e ∨ e.receiver = .fallSeen then { sampled e with quietCount := counted e.config e.quietCount }
      else sampled e
  reply : e.state = .receiving ∨ e.state = .discarding →
    f = if LineIdle e then { sampled e with idleCount := counted e.config e.idleCount } else sampled e
  atRest : e.state = .disabled ∨ e.state = .ready → f = sampled e
  gap : d = { c with gap := c.gap.map (counted e.config) }

/-- Every count one CLKIN period later, and nothing else but the free value's counter (R19, R98). -/
structure Counted (s u : State) : Prop where
  prescaler : u.timeBase = { s.timeBase with prescaler := s.timeBase.prescaler + 1 }
  line : ∀ l, LineCounted (s.engine l) (u.engine l) (s.controller l) (u.controller l)
  rest : u =
    { s with timeBase := u.timeBase, rounds := u.rounds, engines := u.engines, freeIndex := s.freeIndex + 1 }

/-- A time count has reached a limit. -/
abbrev TimePassed (e : Engine) (limit : Nat) : Prop := ∃ n, e.timeCount = some n ∧ limit ≤ n.bits

/-- How many bit times a character lasts in the format of a configuration (R99). -/
abbrev characterLength (c : LineConfig) : Nat := 9 + (if c.parity = .none then 0 else 1) + c.stopBits

/-- The samples of a character are complete (R98 to R100): its data bits least significant first, with EVEN or ODD its
parity bit, and its first stop bit. -/
abbrev CharacterSampled (e : Engine) (data : Byte) (parityBit : Bool) (stop : Level) : Prop :=
  ∃ rest, e.samples =
    (List.range 8).map (fun k => if data.getLsbD k then .high else .low) ++
      (if e.config.parity = .none then [] else [if parityBit then .high else .low]) ++ stop :: rest

/-- The rows whose event is due in a state whose counts have just moved: a count has reached its end (R19, R32, R103,
R108, R110, R111, R119), the receiver has a sample to act on (R98, R100), or a walk has a visit to make (R93). -/
inductive Due (s : State) : Instr → Prop where
  | tick : s.timeBase.divisor ≤ s.timeBase.prescaler → Due s .tick
  | walk : s.port.decoder ≠ .idle → Due s .clearWalkVisit
  | lead (l : Line) : (s.engine l).state = .lead → TimePassed (s.engine l) (s.engine l).config.lead →
    Due s (.leadEnd l)
  /-- The frame's 5 + LEN characters have been sent (R103, R104). -/
  | sending (l : Line) (x : Exchange) : (s.engine l).state = .sending → (s.engine l).exchange = some x →
    (5 + x.request.payload.length) * characterLength (s.engine l).config ≤ (s.engine l).bitsSent.bits →
    Due s (.sendingEnd l)
  | lag (l : Line) : (s.engine l).state = .lag → TimePassed (s.engine l) (s.engine l).config.lag → Due s (.lagEnd l)
  | timeout (l : Line) (x : Exchange) : (s.engine l).state = .awaiting → (s.engine l).receiver ≠ .fallSeen →
    (s.engine l).exchange = some x → TimePassed (s.engine l) x.request.timeout → Due s (.replyTimeout l)
  | quiet (l : Line) : (s.engine l).state = .quiet → LineIdle (s.engine l) ∨ (s.engine l).receiver = .fallSeen →
    (s.engine l).config.quietGap ≤ (s.engine l).quietCount.bits → Due s (.quietGapEnd l)
  | truncated (l : Line) : (s.engine l).state = .receiving → LineIdle (s.engine l) →
    (s.engine l).config.gapLimit ≤ (s.engine l).idleCount.bits → Due s (.truncated l)
  | discard (l : Line) : (s.engine l).state = .discarding → LineIdle (s.engine l) →
    (s.engine l).config.gapLimit ≤ (s.engine l).idleCount.bits → Due s (.discardEnd l)
  | gap (l : Line) (n : BitCount) : (s.controller l).gap = some n → (s.engine l).config.quietGap ≤ n.bits →
    Due s (.continuousGapEnd l)
  /-- Half a bit time after the fall (R100). -/
  | midStart (l : Line) : (s.engine l).receiver = .fallSeen →
    8 * (s.engine l).config.divisor ≤ (s.engine l).sampleCount → Due s (.midStartSample l (s.engine l).rxd)
  /-- At the sample of the first stop bit (R100). -/
  | delivered (l : Line) (data : Byte) (parityBit : Bool) (stop : Level) : (s.engine l).receiver = .character →
    CharacterSampled (s.engine l) data parityBit stop → ((s.engine l).config.parity = .none → parityBit = false) →
    Due s (.characterDelivered l data parityBit stop)

/-! #### Characters (R99) -/

/-- How many of the eight data bits and the parity bit are one (R99). -/
abbrev onesWith (b : Byte) (parityBit : Bool) : Nat :=
  ((List.range 8).filter fun k => b.getLsbD k).length + parityBit.toNat

/-- The data bits and the parity bit hold the count of ones the parity setting asks for (R99, R100). -/
abbrev ParityRight (p : Parity) (b : Byte) (parityBit : Bool) : Prop :=
  match p with
  | .none => True
  | .even => onesWith b parityBit % 2 = 0
  | .odd => onesWith b parityBit % 2 = 1

/-- Every block at its value after either reset, item by item (R4, R18, R19, R39, R57, R62, R79, R80, R96, R103, R113,
R116, R139). -/
structure BlocksReset (t : State) : Prop where
  table : ∀ i : Fin 32, t.table[i] =
    { enabled := false
      line := .a
      policy := .keepAll
      request :=
        { address := 0, command := 0, payload := [], expectation := .exactly 0, timeout := 0, retryLimit := 0 }
      divisor := 1
      phase := 0 }
  rounds : ∀ l, t.controller l =
    { state := .stopped
      settings := { source := .soft, edge := .rising, mode := .single, period := 1000 }
      timer := none
      roundNumber := 0
      cursor := 0
      exhausted := false
      gap := none
      routineInFlight := false }
  timeBase : t.timeBase = { divisor := 4096, prescaler := 0 }
  urgent : t.urgent = []
  engines : ∀ l, (t.engine l).state = .disabled ∧
    (t.engine l).config =
      { divisor := 48, parity := .none, stopBits := 1, lead := 1, lag := 1, quietGap := 16, gapLimit := 4 } ∧
    (t.engine l).exchange = none ∧ (t.engine l).urgentCount = 0 ∧ (t.engine l).quietCount.bits = 0 ∧
    (t.engine l).timeCount = none ∧ (t.engine l).receiver = .off
  pins : ∀ l, (t.engine l).de = false ∧ (t.engine l).txd = .high
  burst : t.burstLimit = 2
  store : t.store = []
  missed : ∀ i : Fin 32, t.missed[i] = 0
  nodes : ∀ l i, t.node l i =
    { state := .unknown, failures := 0, lastOutcome := none, countdown := 0, changed := false }
  health : t.health = { suspect := 2, offline := 4, revival := 8 }
  interrupts : t.interrupts =
    { latched :=
        { overrun := false
          commandDone := false
          stray := ⟨false, false⟩
          roundEnd := ⟨false, false⟩
          late := ⟨false, false⟩
          halted := ⟨false, false⟩ }
      enableLow := 0
      enableHigh := 0 }
  irq : t.irq = false

end Sys2Proof.Safety
end

