-- ==== Sys2Proof/WellFormed.lean ====
section
/-!
DEFINITION. Which command terms are what their row says they are. A term that fails a check is still a legal access of
the window; the machine gives it the meaning of the access it spells (log 9).
-/

namespace Sys2Proof

/-- The nineteen codes of the command code table (R162). -/
def commandCodes : List Byte :=
  [0x01, 0x02, 0x03, 0x04, 0x10, 0x11, 0x20, 0x21, 0x22, 0x23, 0x30, 0x31, 0x32, 0x40, 0x50, 0x51, 0x52, 0x53, 0xA5]

/-- The write addresses of the window that have no row of their own: PARAM and the ignored ones (R151). -/
def plainWriteAddresses : List (Fin 16) := [1, 2, 3, 11, 12, 13, 14, 15]

/-- UNKNOWN_COMMAND carries a code that is not a command (R160), REFUSED_BUSY any code but that of RESET PART (R159),
WINDOW_WRITE an address with no row of its own (R152). Every other operand is in range by its type. -/
def Instr.wellFormed : Instr → Bool
  | .unknownCommand code => !commandCodes.contains code
  | .refusedBusy code => code != 0xA5
  | .windowWrite address _ => plainWriteAddresses.contains address
  | .configureLine | .readLineConfig | .enableLine | .disableLine | .writeEntry | .readEntry | .setRoundMode
  | .startRounds | .haltRounds | .setTiming | .enqueueUrgent | .flushUrgent | .setBurst | .releaseReply | .setHealth
  | .readNode | .takeChange | .clearNodeMap | .resetPart | .stagePointerWrite _ | .stageDataWrite _ | .stageDataRead
  | .replyPointerWrite _ | .replyDataRead | .resetCauseRead | .acknowledge _ _ | .interruptEnableWrite _ _
  | .hardwareReset | .hardwareResetEnd | .syncEdge _ | .characterDelivered _ _ _ _ | .tick | .roundTimerExpiry _
  | .continuousGapEnd _ | .quietGapEnd _ | .leadEnd _ | .sendingEnd _ | .lagEnd _ | .replyTimeout _ | .truncated _
  | .discardEnd _ | .clearWalkVisit | .rxdFall _ | .midStartSample _ _ | .rxdReturnToMark _ | .clkinStop
  | .clkinRestart | .syncFirstStableLevel _ => true

end Sys2Proof
end

