-- ==== Sys2Proof/Certificates/Slice0/Obligations.lean ====
section
/-!
DEFINITION. The statements for the provers. Each says what its rule says in records and lists; the words they share
stand in Safety.lean.
-/

section

open Sys2Proof Sys2Proof.Machine Sys2Proof.Safety

/-! ### The step, the clock and the two holds -/

/-- A step takes the command at the front of the queue and runs it on the rest of the state. -/
def Obligations.StepRunsTheFrontCommand : Prop :=
  ∀ (c : Instr) (rest : List Instr) (s : State), s.pending = c :: rest → step s = exec c { s with pending := rest }

/-- Every command gives a next state and leaves the queue as it is: the part has no fault and refuses by result codes
only (R158, log 19). -/
def Obligations.EveryCommandCompletes : Prop :=
  ∀ (c : Instr) (s : State), ∃ t, exec c s = .next t ∧ t.pending = s.pending

/-- With an empty queue one CLKIN period passes (the model's choice, log 3): every count moves by one period, a receiver
with a character under way takes the sample that falls in it (R100), and nothing else moves (R19, R32, R98, R103, R108,
R110, R111, R119) but the free value's counter (log 16). The rows whose event is then due, a tick, a visit of a walk, a
mid-start sample and a character's delivery among them (R19, R93, R98, R100), happen once each, in an order the spec
leaves open (log 4). That the quiet count runs over a fall that is not confirmed is the model's reading (log 14), and
that the receiver's sixteen samples of a bit begin at the fall its choice (log 13). With RESET held or CLKIN stopped
nothing happens (R166, R171). -/
def Obligations.IdleStepIsOneClkinPeriod : Prop :=
  ∀ s : State, s.pending = [] →
    (¬Awake s → step s = .next s) ∧
    (Awake s → ∃ u, Counted s u ∧
      ((∀ c, ¬Due u c) → step s = .next u) ∧
      (∀ c, Due u c → (∀ d, Due u d → d = c) → step s = exec c u) ∧
      ∃ (rows : List Instr) (t : State), rows.Nodup ∧ (∀ c, c ∈ rows ↔ Due u c) ∧ execAll rows u = some t ∧
        step s = .next t)

/-- CLKIN stops and runs again, and in between no event reaches the part (R171). That a change of RXD in between is lost,
and the level held for it stays, is the model's choice (log 22). -/
def Obligations.StoppedClockFreezesThePart : Prop :=
  ∀ s : State,
    exec .clkinStop s = .next { s with clkinRunning := false } ∧
    exec .clkinRestart s = .next { s with clkinRunning := true } ∧
    (s.clkinRunning = false → ∀ c : Instr, c ≠ .clkinRestart → exec c s = .next s)

/-- While RESET is held every address reads 0x00, a read drives 0x00 and has no other effect, and no write and no event
of the part's own is taken (R166). The level of an RXD pin is the board's and is followed (log 5), and the byte a read
returns is kept, in lastRead; both are the model's choices (log 7 for the second). -/
def Obligations.HeldResetTakesNoEvent : Prop :=
  ∀ s : State, s.clkinRunning = true → s.resetHeld = true →
    (∀ a, s.windowRead a = 0) ∧
    (∀ c ∈ [Instr.stageDataRead, .replyDataRead, .resetCauseRead],
      exec c s = .next { s with port := { s.port with lastRead := 0 } }) ∧
    ∀ c, c ∉ [Instr.stageDataRead, .replyDataRead, .resetCauseRead, .hardwareReset, .hardwareResetEnd, .clkinStop] →
      (∀ l, c ≠ .rxdFall l ∧ c ≠ .rxdReturnToMark l ∧ ∀ v, c ≠ .midStartSample l v) →
        exec c s = .next (if c = .clkinRestart then { s with clkinRunning := true } else s)

/-! ### The command decoder -/

/-- A COMMAND write while the decoder is EXECUTING is refused, but for RESET PART (R159). A visit of the walk leaves
REFUSED_BUSY; that the row makes a visit at any moment of the walk is the model's choice (log 1). That UNKNOWN_COMMAND
with a code of the code table is the write of that code is its reading (log 9). -/
def Obligations.BusyDecoderRefusesCommands : Prop :=
  (∀ c ∈ commandRows, RefusedWhileBusy c) ∧
  (∀ code : Byte, code ≠ 0xA5 → RefusedWhileBusy (.refusedBusy code) ∧ RefusedWhileBusy (.unknownCommand code)) ∧
  (∀ s v t, Awake s → s.port.decoder = .executing v → exec .clearWalkVisit s = .next t →
    t.port.refusedBusy = s.port.refusedBusy) ∧
  (∀ c ∈ commandRows, ∀ s t, TakesCommands s → exec c s = .next t → t.port.refusedBusy = false) ∧
  (∀ s, s.clkinRunning = true → ∃ t, exec .hardwareReset s = .next t ∧ t.port.refusedBusy = false) ∧
  ∀ s, Awake s → ∃ t, exec .resetPart s = .next t ∧ t.port.decoder = .idle ∧ t.port.refusedBusy = false ∧
    t.port.result = .done ∧ t.interrupts.latched.commandDone = false

/-- A code that is not a command is refused with UNKNOWN and has no other effect (R160). -/
def Obligations.UnknownCodesAreRefused : Prop :=
  (0x00 : Byte) ∉ commandCodes ∧
  ∀ s (code : Byte), TakesCommands s → code ∉ commandCodes →
    exec (.unknownCommand code) s = .next (answered .unknown s)

/-- RESET PART sets every block to its reset value in one event, in IDLE and in EXECUTING, and meets a pin reset in
either order (R167). That no reset changes the byte last read is the model's choice (log 7). -/
def Obligations.ResetPartResetsEveryBlock : Prop :=
  ∀ s : State,
    (Awake s → ∃ t, exec .resetPart s = .next t ∧ BlocksReset t ∧ Awake t ∧ t.syncLevel = s.syncLevel ∧
      t.pending = s.pending ∧
      t.port =
        { staging := Vector.replicate 32 0
          stagePointer := 0
          replyPointer := 0
          param := 0
          decoder := .idle
          result := .done
          refusedBusy := false
          resetCause := .command
          lastRead := s.port.lastRead }) ∧
    (s.clkinRunning = true → s.resetHeld = true → exec .resetPart s = .next s) ∧
    (Awake s →
      execAll [.resetPart, .hardwareReset, .hardwareResetEnd] s =
        execAll [.hardwareReset, .resetPart, .hardwareResetEnd] s)

/-- A hardware reset sets every block to its reset value and holds the part; its end sets the reset cause to 1 and
RESULT to NONE (R154, R166). The edge detector then has no level yet (R172, log 6). That the end of a reset with none
held changes nothing is the model's choice (log 2). -/
def Obligations.HardwareResetHoldsThePart : Prop :=
  ∀ s : State, s.clkinRunning = true →
    (∃ t, exec .hardwareReset s = .next t ∧ BlocksReset t ∧ t.resetHeld = true ∧ t.syncLevel = none ∧
      t.pending = s.pending ∧ t.port.staging = Vector.replicate 32 0 ∧ t.port.stagePointer = 0 ∧
      t.port.replyPointer = 0 ∧ t.port.param = 0 ∧ t.port.decoder = .idle ∧ t.port.refusedBusy = false ∧
      exec .hardwareResetEnd t =
        .next { t with resetHeld := false, port := { t.port with result := .none, resetCause := .pin } }) ∧
    (s.resetHeld = false → exec .hardwareResetEnd s = .next s)

/-- What the window reads after either reset, and the reset cause, which a read returns to 0 (R154, R168). That
the byte a read returns is kept, in lastRead, is the model's choice (log 7). -/
def Obligations.ResetsShowInTheWindow : Prop :=
  let shows := fun (u : State) (result cause : Byte) =>
    (∀ a : Fin 16, a ≠ 1 → a ≠ 15 → u.windowRead a = 0) ∧ (∀ p, replyByte u.store p = 0) ∧
      u.port.staging = Vector.replicate 32 0 ∧ u.windowRead 1 = result ∧ u.windowRead 15 = cause ∧
      ∃ v, exec .resetCauseRead u = .next v ∧ v.port.lastRead = cause ∧ v.windowRead 15 = 0
  (∀ s, Awake s → ∃ u, exec .resetPart s = .next u ∧ shows u 0x01 2) ∧
  (∀ s, s.clkinRunning = true →
    ∃ t u, exec .hardwareReset s = .next t ∧ exec .hardwareResetEnd t = .next u ∧ shows u 0x00 1) ∧
  ∀ s, Awake s →
    exec .resetCauseRead s =
      .next
        { s with
          port :=
            { s.port with
              resetCause := .none
              lastRead :=
                match s.port.resetCause with
                | .none => 0
                | .pin => 1
                | .command => 2 } } ∧
    ∀ v, exec (.windowWrite 15 v) s = .next s

/-! ### The window -/

/-- STAGE POINTER and STAGE DATA in every state of the decoder (R155). That the byte a read returns is kept, in
lastRead, is the model's choice (log 7). -/
def Obligations.StagingPortAccess : Prop :=
  (∀ s, Awake s →
    (∀ v : Byte, ∃ t, exec (.stagePointerWrite v) s = .next t ∧ t.port.stagePointer.val = v.toNat % 32 ∧
      t = { s with port := { s.port with stagePointer := t.port.stagePointer } }) ∧
    (∀ v : Byte, ∃ t, exec (.stageDataWrite v) s = .next t ∧
      t.port.stagePointer.val = (s.port.stagePointer.val + 1) % 32 ∧
      (∀ k : Fin 32, t.port.staging[k] = if k = s.port.stagePointer then v else s.port.staging[k]) ∧
      t = { s with port := { s.port with staging := t.port.staging, stagePointer := t.port.stagePointer } }) ∧
    (∃ t, exec .stageDataRead s = .next t ∧ t.port.stagePointer.val = (s.port.stagePointer.val + 1) % 32 ∧
      t = { s with
        port :=
          { s.port with stagePointer := t.port.stagePointer, lastRead := s.port.staging[s.port.stagePointer] } }) ∧
    s.windowRead 8 = BitVec.ofNat 8 s.port.stagePointer.val ∧
    s.windowRead 9 = s.port.staging[s.port.stagePointer]) ∧
  (∀ s t, (Awake s ∧ exec .resetPart s = .next t ∨ s.clkinRunning = true ∧ exec .hardwareReset s = .next t) →
    t.port.staging = Vector.replicate 32 0 ∧ t.port.stagePointer = 0) ∧
  ∀ s (bytes : List Byte), Awake s → bytes.length = 32 →
    ∃ t, execAll (bytes.map Instr.stageDataWrite) s = some t ∧ t.port.stagePointer = s.port.stagePointer

/-- REPLY POINTER and REPLY DATA: the pointer is taken modulo 32 and stops at 31, and the byte is the head's (R73).
That the byte a read returns is kept, in lastRead, is the model's choice (log 7). -/
def Obligations.ReplyPortAccess : Prop :=
  ∀ s, Awake s →
    (∀ v : Byte, ∃ t, exec (.replyPointerWrite v) s = .next t ∧ t.port.replyPointer.val = v.toNat % 32 ∧
      t = { s with port := { s.port with replyPointer := t.port.replyPointer } }) ∧
    (∃ t, exec .replyDataRead s = .next t ∧
      t.port.replyPointer.val = (if s.port.replyPointer.val = 31 then 31 else s.port.replyPointer.val + 1) ∧
      (s.store = [] → t.port.lastRead = 0) ∧
      (∀ head rest, s.store = head :: rest →
        (∀ h : s.port.replyPointer.val < (recordImage head).length,
          t.port.lastRead = (recordImage head)[s.port.replyPointer.val]) ∧
        ((recordImage head).length ≤ s.port.replyPointer.val → t.port.lastRead = 0)) ∧
      t = { s with
        port := { s.port with replyPointer := t.port.replyPointer, lastRead := t.port.lastRead } }) ∧
    s.windowRead 10 = BitVec.ofNat 8 s.port.replyPointer.val ∧
    s.windowRead 12 = BitVec.ofNat 8 s.store.length

/-- The image of a reply record, byte by byte (R165). -/
def Obligations.RecordImageLayout : Prop :=
  ∀ r : Record, RecordSound r →
    (recordImage r).length = 10 + r.payload.length ∧
    (∃ b, (recordImage r)[0]? = some b ∧
      (b.getLsbD 7 = true ↔ r.source = .urgent) ∧ (b.getLsbD 6 = true ↔ r.line = .b) ∧
      (b.getLsbD 0 = true ↔ ∃ y, r.reply = some y) ∧ ∀ k, 1 ≤ k → k ≤ 5 → b.getLsbD k = false) ∧
    (recordImage r)[1]? = some r.id ∧ (recordImage r)[2]? = some r.address ∧ (recordImage r)[3]? = some r.command ∧
    (recordImage r)[4]? =
      some
        (match r.outcome with
          | .ok => 0x00
          | .nodeFault => 0x01
          | .sent => 0x02
          | .noReply => 0x10
          | .charError => 0x11
          | .checkError => 0x12
          | .badFrame => 0x13
          | .truncated => 0x14
          | .aborted => 0x30
          | .cancelled => 0x31 : Byte) ∧
    (∃ b, (recordImage r)[5]? = some b ∧ b.toNat = r.attempts) ∧
    (recordImage r)[6]? =
      some
        (match r.reply with
          | some y => y.status
          | none => 0) ∧
    (recordImage r)[7]? = some r.round ∧ (∃ b, (recordImage r)[8]? = some b ∧ b.toNat = r.missed) ∧
    (∃ b, (recordImage r)[9]? = some b ∧ b.toNat = r.payload.length) ∧
    (∀ k, k < r.payload.length → (recordImage r)[10 + k]? = r.payload[k]?) ∧
    (r.reply = none → (recordImage r).length = 10) ∧ (∀ y, r.reply = some y → r.payload = y.payload)

/-- PARAM is replaced by a write to address 1, read back at address 2, and changed by nothing else but the resets; a
write to an address whose write column says "ignored" changes nothing (R152, R153). -/
def Obligations.WindowWriteSetsParam : Prop :=
  (∀ s (v : Byte), Awake s →
    exec (.windowWrite 1 v) s = .next { s with port := { s.port with param := v } } ∧
    (∀ t, exec (.windowWrite 1 v) s = .next t → t.windowRead 2 = v) ∧
    ∀ a ∈ [(2 : Fin 16), 3, 11, 12, 13, 14, 15], exec (.windowWrite a v) s = .next s) ∧
  (∀ (c : Instr) s t, c.wellFormed = true → c ≠ .resetPart → c ≠ .hardwareReset → (∀ v, c ≠ .windowWrite 1 v) →
    exec c s = .next t → t.port.param = s.port.param) ∧
  ∀ s t, (Awake s ∧ exec .resetPart s = .next t ∨ s.clkinRunning = true ∧ exec .hardwareReset s = .next t) →
    t.port.param = 0

/-! ### Interrupts and status -/

/-- A write to a pending byte clears the latched sources written as 1 and touches nothing else (R142). -/
def Obligations.AcknowledgeClearsWrittenSources : Prop :=
  ∀ s (v : Byte), Awake s →
    (∃ t, exec (.acknowledge .low v) s = .next t ∧ t = withLatched s t.interrupts.latched ∧
      t.pendingHigh = s.pendingHigh ∧
      ∀ k, k < 6 →
        t.pendingLow.getLsbD k =
          if k < 2 then s.pendingLow.getLsbD k else (s.pendingLow.getLsbD k && !v.getLsbD k)) ∧
    ∃ t, exec (.acknowledge .high v) s = .next t ∧ t = withLatched s t.interrupts.latched ∧
      t.pendingLow = s.pendingLow ∧
      ∀ k, k < 6 → t.pendingHigh.getLsbD k = (s.pendingHigh.getLsbD k && !v.getLsbD k)

/-- A write to an enable byte replaces its six flags, which read back with bits 6 and 7 as 0; pending sources stay
(R144). -/
def Obligations.EnableWriteReplacesTheFlags : Prop :=
  ∀ s (v : Byte), Awake s →
    (∃ t, exec (.interruptEnableWrite .low v) s = .next t ∧
      t = { s with interrupts := { s.interrupts with enableLow := t.interrupts.enableLow } } ∧
      t.windowRead 6 = v &&& 0x3F ∧ t.pendingLow = s.pendingLow ∧ t.pendingHigh = s.pendingHigh) ∧
    ∃ t, exec (.interruptEnableWrite .high v) s = .next t ∧
      t = { s with interrupts := { s.interrupts with enableHigh := t.interrupts.enableHigh } } ∧
      t.windowRead 7 = v &&& 0x3F ∧ t.pendingLow = s.pendingLow ∧ t.pendingHigh = s.pendingHigh

/-- The pending bytes show their sources, IRQ is asserted while one is pending and enabled, and STATUS gathers its six
conditions (R138, R141, R145, R146, R147); RESULT reads as the code of the last result (R158). That the window reads so
with CLKIN stopped too is the model's choice (log 21). -/
def Obligations.StatusAndIrqShowTheirConditions : Prop :=
  (∀ s : State, s.resetHeld = false →
    let p := s.interrupts.latched
    ∀ changed : Bool, (changed = true ↔ ∃ l i, (s.node l i).changed = true) →
    (∀ k, (s.windowRead 4).getLsbD k =
      ([!s.store.isEmpty, changed, p.overrun, p.commandDone, p.stray.a,
        p.stray.b].getD k false)) ∧
    (∀ k, (s.windowRead 5).getLsbD k =
      ([p.roundEnd.a, p.late.a, p.halted.a, p.roundEnd.b, p.late.b, p.halted.b].getD k false)) ∧
    (s.irq = true ↔
      ∃ k, k < 6 ∧
        ((s.windowRead 4).getLsbD k = true ∧ (s.windowRead 6).getLsbD k = true ∨
          (s.windowRead 5).getLsbD k = true ∧ (s.windowRead 7).getLsbD k = true)) ∧
    (∀ k, (s.windowRead 0).getLsbD k =
      ([decide (s.port.decoder ≠ .idle), s.port.refusedBusy, s.irq, !s.store.isEmpty,
        changed, decide (s.urgent.length = 4)].getD k false)) ∧
    s.windowRead 3 = BitVec.ofNat 8 s.urgent.length ∧
    s.windowRead 1 =
      match s.port.result with
      | .none => 0x00
      | .done => 0x01
      | .state => 0x02
      | .range => 0x03
      | .full => 0x04
      | .room => 0x05
      | .empty => 0x06
      | .unknown => 0x07) ∧
  ∀ s t, (Awake s ∧ exec .resetPart s = .next t ∨ s.clkinRunning = true ∧ exec .hardwareReset s = .next t) →
    t.irq = false ∧ t.windowRead 0 = 0

/-- A line status byte: line state, round state and exchange in flight, with codes that agree (R148). That it reads so with
CLKIN stopped too is the model's choice (log 21). -/
def Obligations.LineStatusShowsTheLine : Prop :=
  ∀ s l, s.resetHeld = false →
    let byte := (s.windowRead (if l = .a then 13 else 14)).toNat
    (byte % 16 =
      match (s.engine l).state with
      | .disabled => 0
      | .quiet => 1
      | .ready => 2
      | .lead => 3
      | .sending => 4
      | .lag => 5
      | .awaiting => 6
      | .receiving => 7
      | .discarding => 8) ∧
    (byte / 16 % 4 =
      match (s.controller l).state with
      | .stopped => 0
      | .armed => 1
      | .running => 2
      | .halting => 3) ∧
    ((s.engine l).exchange = none → byte / 64 = 0) ∧
    (∀ x e p r, (s.engine l).exchange = some x → x.work = .routine e p r → byte / 64 = 1) ∧
    (∀ x tag, (s.engine l).exchange = some x → x.work = .urgent tag → byte / 64 = 2) ∧
    (LinesSound s → (byte % 16 = 0 → byte = 0) ∧ (byte / 64 = 1 → 2 ≤ byte / 16 % 4))

/-! ### Line configuration, enabling and disabling -/

/-- CONFIGURE LINE decides by PARAM, by the fields of the image and by the line state, in this order (R114). -/
def Obligations.ConfigureLineDecides : Prop :=
  RefusedWhileBusy .configureLine ∧
  ∀ s, TakesCommands s →
    let v := s.port.staging
    let inRange :=
      (1 ≤ twoBytes v 0 1 ∧ twoBytes v 0 1 ≤ 4095) ∧ v[2].toNat ≤ 2 ∧ (v[3].toNat = 1 ∨ v[3].toNat = 2) ∧
        v[4].toNat ≤ 15 ∧ v[5].toNat ≤ 15 ∧ 4 ≤ v[6].toNat ∧ (2 ≤ v[7].toNat ∧ v[7].toNat ≤ 31)
    (2 ≤ s.port.param.toNat → exec .configureLine s = .next (answered .range s)) ∧
    ∀ l, s.port.param.toNat = lineIndex l →
      (¬inRange → exec .configureLine s = .next (answered .range s)) ∧
      (inRange → (s.engine l).state ≠ .disabled → exec .configureLine s = .next (answered .state s)) ∧
      (inRange → (s.engine l).state = .disabled →
        exec .configureLine s =
          .next
            (answered .done
              (withEngine s l
                { s.engine l with
                  config :=
                    { divisor := twoBytes v 0 1
                      parity := if v[2] = 0 then .none else if v[2] = 1 then .even else .odd
                      stopBits := v[3].toNat
                      lead := v[4].toNat
                      lag := v[5].toNat
                      quietGap := v[6].toNat
                      gapLimit := v[7].toNat } })))

/-- READ LINE CONFIG loads the record's image, which CONFIGURE LINE takes back unchanged (R113, R115). -/
def Obligations.ReadLineConfigLoadsTheImage : Prop :=
  RefusedWhileBusy .readLineConfig ∧
  ∀ s, TakesCommands s →
    (2 ≤ s.port.param.toNat → exec .readLineConfig s = .next (answered .range s)) ∧
    ∀ l, s.port.param.toNat = lineIndex l → ConfigInRange (s.engine l).config →
      let c := (s.engine l).config
      ∃ t, exec .readLineConfig s = .next t ∧ t = answered .done (loaded t.port.staging s) ∧
        twoBytes t.port.staging 0 1 = c.divisor ∧
        (t.port.staging[2].toNat =
          match c.parity with
          | .none => 0
          | .even => 1
          | .odd => 2) ∧
        t.port.staging[3].toNat = c.stopBits ∧ t.port.staging[4].toNat = c.lead ∧ t.port.staging[5].toNat = c.lag ∧
        t.port.staging[6].toNat = c.quietGap ∧ t.port.staging[7].toNat = c.gapLimit ∧
        (∀ k : Fin 32, 8 ≤ k.val → t.port.staging[k] = 0) ∧
        ((s.engine l).state = .disabled → exec .configureLine t = .next t)

/-- ENABLE LINE brings a DISABLED line into QUIET with its receiver on and its counts at 0 (R131). -/
def Obligations.EnableLineDecides : Prop :=
  RefusedWhileBusy .enableLine ∧
  ∀ s, TakesCommands s →
    (2 ≤ s.port.param.toNat → exec .enableLine s = .next (answered .range s)) ∧
    ∀ l, s.port.param.toNat = lineIndex l →
      ((s.engine l).state ≠ .disabled → exec .enableLine s = .next (answered .state s)) ∧
      ((s.engine l).state = .disabled →
        exec .enableLine s =
          .next
            (answered .done
              (withEngine s l
                { s.engine l with
                  state := .quiet
                  receiver := .waiting
                  urgentCount := 0
                  quietCount := { bits := 0, periods := 0 }
                  idleCount := { bits := 0, periods := 0 }
                  timeCount := none })))

/-- DISABLE LINE takes a line out of use: an exchange in flight is aborted, the controller forced to STOPPED, the
QUEUED requests cancelled, in this order (R132, R133, R35, R54). -/
def Obligations.DisableLineTakesTheLineOut : Prop :=
  RefusedWhileBusy .disableLine ∧
  ∀ s, TakesCommands s →
    (2 ≤ s.port.param.toNat → exec .disableLine s = .next (answered .range s)) ∧
    ∀ l, s.port.param.toNat = lineIndex l →
      ((s.engine l).state = .disabled → exec .disableLine s = .next (answered .done s)) ∧
      ((s.engine l).state ≠ .disabled → LinesSound s →
        let cancelled := (s.urgent.filter fun x => x.line = l ∧ x.state = .queued).map fun x =>
          ({ source := .urgent
             line := l
             id := x.tag
             address := x.request.address
             command := x.request.command
             outcome := .cancelled
             attempts := 0
             reply := none
             round := 0
             missed := 0 } : Record)
        let c := s.controller l
        ∃ t, exec .disableLine s = .next t ∧
          t = { s with
            port := { s.port with result := .done, refusedBusy := false }
            rounds := t.rounds
            urgent := s.urgent.filter (fun x => x.line ≠ l)
            engines := t.engines
            store := t.store
            missed := t.missed
            interrupts :=
              { s.interrupts with
                latched :=
                  { s.interrupts.latched with
                    overrun := t.interrupts.latched.overrun
                    halted :=
                      if c.state = .stopped then s.interrupts.latched.halted
                      else s.interrupts.latched.halted.set l true } } } ∧
          t.engine l =
            { s.engine l with
              state := .disabled
              exchange := none
              urgentCount := 0
              timeCount := none
              receiver := .off } ∧
          t.controller l =
            (if c.state = .stopped then c
            else { c with state := .stopped, timer := none, gap := none, routineInFlight := false }) ∧
          (∀ m, m ≠ l → t.engine m = s.engine m ∧ t.controller m = s.controller m) ∧
          ((s.engine l).exchange = none → t.store = s.store ++ cancelled ∧ t.missed = s.missed ∧
            t.interrupts.latched.overrun = s.interrupts.latched.overrun) ∧
          (∀ x tag, (s.engine l).exchange = some x → x.work = .urgent tag →
            t.missed = s.missed ∧ t.interrupts.latched.overrun = s.interrupts.latched.overrun ∧
            t.store =
              s.store ++
                [{ source := .urgent
                   line := l
                   id := tag
                   address := x.request.address
                   command := x.request.command
                   outcome := .aborted
                   attempts := x.attempts
                   reply := none
                   round := 0
                   missed := 0 }] ++ cancelled) ∧
          ∀ x i p r, (s.engine l).exchange = some x → x.work = .routine i p r →
            let offered := appendRoutine i p
              (fun missed =>
                { source := .routine
                  line := l
                  id := BitVec.ofNat 8 i.val
                  address := x.request.address
                  command := x.request.command
                  outcome := .aborted
                  attempts := x.attempts
                  reply := none
                  round := r
                  missed := missed }) s
            t.missed = offered.missed ∧ t.store = offered.store ++ cancelled ∧
              t.interrupts.latched.overrun = offered.interrupts.latched.overrun)

/-! ### The Schedule Table -/

/-- WRITE ENTRY decides by PARAM and by the fields of the image, and a commit replaces the entry with phase 0 (R7,
R8). -/
def Obligations.WriteEntryDecides : Prop :=
  RefusedWhileBusy .writeEntry ∧
  ∀ s, TakesCommands s →
    let v := s.port.staging
    (32 ≤ s.port.param.toNat → exec .writeEntry s = .next (answered .range s)) ∧
    ∀ i : Fin 32, s.port.param.toNat = i.val →
      (¬RequestImageInRange v → exec .writeEntry s = .next (answered .range s)) ∧
      (RequestImageInRange v →
        exec .writeEntry s =
          .next
            (answered .done
              { s with
                table :=
                  s.table.set i
                    { enabled := v[0].getLsbD 0
                      line := lineOfImage v
                      policy := if v[0].getLsbD 2 then .latest else .keepAll
                      request := requestOfImage v
                      divisor := v[7].toNat / 16 + 1
                      phase := 0 } }))

/-- READ ENTRY loads the entry's image, which WRITE ENTRY takes back with the phase at 0 (R10, R163). -/
def Obligations.ReadEntryLoadsTheImage : Prop :=
  RefusedWhileBusy .readEntry ∧
  ∀ s, TakesCommands s →
    (32 ≤ s.port.param.toNat → exec .readEntry s = .next (answered .range s)) ∧
    ∀ i : Fin 32, s.port.param.toNat = i.val → EntrySound s.table[i] →
      let e := s.table[i]
      ∃ t, exec .readEntry s = .next t ∧ t = answered .done (loaded t.port.staging s) ∧
        t.port.staging[0].getLsbD 0 = e.enabled ∧ (t.port.staging[0].getLsbD 1 = true ↔ e.line = .b) ∧
        (t.port.staging[0].getLsbD 2 = true ↔ e.policy = .latest) ∧ t.port.staging[0].toNat < 8 ∧
        t.port.staging[1] = e.request.address ∧ t.port.staging[2] = e.request.command ∧
        t.port.staging[3].toNat = e.request.payload.length ∧
        (∀ n, e.request.expectation = .exactly n → t.port.staging[4].toNat = n) ∧
        (e.request.expectation = .any → t.port.staging[4] = 0xFF) ∧
        twoBytes t.port.staging 5 6 = e.request.timeout ∧
        t.port.staging[7].toNat = e.request.retryLimit + 16 * (e.divisor - 1) ∧
        (∀ k : Fin 32, 8 ≤ k.val → k.val ≤ 23 → t.port.staging[k] = e.request.payload.getD (k.val - 8) 0) ∧
        t.port.staging[25].toNat = e.phase ∧
        (∀ k : Fin 32, k.val = 24 ∨ 26 ≤ k.val → t.port.staging[k] = 0) ∧
        (RequestInRange e.request →
          exec .writeEntry t = .next { t with table := t.table.set i { e with phase := 0 } })

/-- A walker visit: an entry that is disabled or of the other line is passed over untouched; an enabled one of the line
has its phase stepped, and a due one yields, unless its node is OFFLINE with its countdown above 0, which the query
lowers (R6, R28, R29, R85). -/
def Obligations.WalkerVisitStepsTheEntry : Prop :=
  ∀ l (i : Fin 32) s,
    let e := s.table[i]
    (e.enabled = false ∨ e.line ≠ l → visitEntry l i s = (s, false)) ∧
    (e.enabled = true → e.line = l →
      (e.phase ≠ 0 →
        visitEntry l i s = ({ s with table := s.table.set i { e with phase := e.phase - 1 } }, false)) ∧
      (e.phase = 0 →
        let stepped := { s with table := s.table.set i { e with phase := e.divisor - 1 } }
        (e.request.address = 0x7F → visitEntry l i s = (stepped, true)) ∧
        ∀ k : Fin 126, e.request.address.toNat = k.val + 1 →
          ((s.node l k).state ≠ .offline ∨ (s.node l k).countdown = 0 → visitEntry l i s = (stepped, true)) ∧
          ((s.node l k).state = .offline → (s.node l k).countdown ≠ 0 →
            visitEntry l i s =
              ({ stepped with
                nodes :=
                  s.nodes.set l
                    ((s.nodes.get l).set k { s.node l k with countdown := (s.node l k).countdown - 1 }) },
                false))))

/-! ### Rounds -/

/-- SET ROUND MODE and SET TIMING decide by their values and by the round states (R20, R25, R164). -/
def Obligations.RoundSettingsDecide : Prop :=
  RefusedWhileBusy .setRoundMode ∧ RefusedWhileBusy .setTiming ∧
  ∀ s, TakesCommands s →
    let v := s.port.staging
    let inRange := v[0].toNat ≤ 2 ∧ v[1].toNat ≤ 2 ∧ v[2].toNat ≤ 1 ∧ twoBytes v 3 4 ≠ 0
    (2 ≤ s.port.param.toNat → exec .setRoundMode s = .next (answered .range s)) ∧
    (∀ l, s.port.param.toNat = lineIndex l →
      (¬inRange → exec .setRoundMode s = .next (answered .range s)) ∧
      (inRange → (s.controller l).state ≠ .stopped → exec .setRoundMode s = .next (answered .state s)) ∧
      (inRange → (s.controller l).state = .stopped →
        exec .setRoundMode s =
          .next
            (answered .done
              (withController s l
                { s.controller l with
                  settings :=
                    { source := if v[0] = 0 then .soft else if v[0] = 1 then .timer else .sync
                      edge := if v[1] = 0 then .rising else if v[1] = 1 then .falling else .both
                      mode := if v[2] = 0 then .single else .continuous
                      period := twoBytes v 3 4 } })))) ∧
    (twoBytes v 0 1 < 256 → exec .setTiming s = .next (answered .range s)) ∧
    (256 ≤ twoBytes v 0 1 → (∃ l, (s.controller l).state ≠ .stopped) →
      exec .setTiming s = .next (answered .state s)) ∧
    (256 ≤ twoBytes v 0 1 → (∀ l, (s.controller l).state = .stopped) →
      exec .setTiming s =
        .next (answered .done { s with timeBase := { divisor := twoBytes v 0 1, prescaler := 0 } }))

/-- START ROUNDS decides by PARAM, the line state and the round state, and acts by the trigger source (R26). With SOFT a
round starts as R23 gives, and the engine makes its choice if it is READY. -/
def Obligations.StartRoundsDecides : Prop :=
  RefusedWhileBusy .startRounds ∧
  ∀ s, TakesCommands s →
    (2 ≤ s.port.param.toNat → exec .startRounds s = .next (answered .range s)) ∧
    ∀ l, s.port.param.toNat = lineIndex l →
      let c := s.controller l
      ((s.engine l).state = .disabled ∨ c.state ≠ .stopped → exec .startRounds s = .next (answered .state s)) ∧
      ((s.engine l).state ≠ .disabled → c.state = .stopped →
        (c.settings.source = .timer →
          exec .startRounds s =
            .next
              (answered .done (withController s l { c with state := .armed, timer := some c.settings.period }))) ∧
        (c.settings.source = .sync →
          exec .startRounds s = .next (answered .done (withController s l { c with state := .armed }))) ∧
        (c.settings.source = .soft →
          exec .startRounds s = .next (answered .done (makeChoice l (withController s l (roundStarted c))))))

/-- HALT ROUNDS by the five rows of its table; a controller that leaves RUNNING sets the consecutive-urgent count to 0
(R33, R123). -/
def Obligations.HaltRoundsStopsTheController : Prop :=
  RefusedWhileBusy .haltRounds ∧
  ∀ s, TakesCommands s →
    (2 ≤ s.port.param.toNat → exec .haltRounds s = .next (answered .range s)) ∧
    ∀ l, s.port.param.toNat = lineIndex l →
      let c := s.controller l
      let p := s.interrupts.latched
      let halted := { p with halted := p.halted.set l true }
      (c.state = .stopped ∨ c.state = .halting → exec .haltRounds s = .next (answered .done s)) ∧
      (c.state = .armed →
        exec .haltRounds s =
          .next
            (answered .done (withLatched (withController s l { c with state := .stopped, timer := none }) halted))) ∧
      (c.state = .running → c.routineInFlight = false →
        exec .haltRounds s =
          .next
            (answered .done
              (withEngine
                (withLatched (withController s l { c with state := .stopped, timer := none, gap := none }) halted) l
                { s.engine l with urgentCount := 0 }))) ∧
      (c.state = .running → c.routineInFlight = true →
        exec .haltRounds s =
          .next
            (answered .done
              (withEngine (withController s l { c with state := .halting }) l { s.engine l with urgentCount := 0 })))

/-- The expiry of a round timer reloads it and is a trigger: it starts a round from ARMED, is too early in RUNNING with
SINGLE, and is lost in every other state (R21, R23, R24). That the row expires a timer whatever its count is the model's
choice (log 1), and that it does nothing to a stopped timer too (log 2). -/
def Obligations.RoundTimerExpiryIsATrigger : Prop :=
  ∀ s l, Awake s →
    let c := s.controller l
    let reloaded := { c with timer := some c.settings.period }
    (c.timer = none → exec (.roundTimerExpiry l) s = .next s) ∧
    (c.timer ≠ none →
      (c.state = .armed →
        exec (.roundTimerExpiry l) s =
          .next
            (makeChoice l
              (withController s l
                (roundStarted
                  (if c.settings.mode = .continuous ∧ c.settings.source = .timer then { c with timer := none }
                  else reloaded))))) ∧
      (c.state = .running → c.settings.mode = .single →
        exec (.roundTimerExpiry l) s =
          .next
            (withLatched (withController s l reloaded)
              { s.interrupts.latched with late := s.interrupts.latched.late.set l true })) ∧
      (c.state ≠ .armed → ¬(c.state = .running ∧ c.settings.mode = .single) →
        exec (.roundTimerExpiry l) s = .next (withController s l reloaded)))

/-- A tick returns the prescaler to 0 and reaches both round timers: one that stands at 1 expires, as ROUND_TIMER_EXPIRY
of its line gives, and one that stands higher falls by one, whatever the other does (R19, R21, R36). That the row is a
tick whatever the prescaler's count is the model's choice (log 1), and that it carries the expiries with it, Line A
first, is the model's reading (log 10). A timer that counts never stands at 0 (SettingsStayInRange). -/
def Obligations.TickCountsBothTimers : Prop :=
  ∀ s, Awake s → (∀ l, (s.controller l).timer ≠ some 0) →
    let ticked := { s with timeBase := { s.timeBase with prescaler := 0 } }
    let reached := fun (l : Line) (u t : State) =>
      if (u.controller l).timer = some 1 then exec (.roundTimerExpiry l) u = .next t
      else t = withController u l { u.controller l with timer := (u.controller l).timer.map (· - 1) }
    ∃ u t, reached .a ticked u ∧ reached .b u t ∧ u.controller .b = s.controller .b ∧
      t.controller .a = u.controller .a ∧ exec .tick s = .next t

/-- An edge of SYNC is a trigger to every controller set to SYNC, not STOPPED, whose edge setting selects it, each
acting by its own state and mode (R22 to R24, R36), and the first level after a hardware reset is no edge (R172). That
SYNC_EDGE with no stable level is taken as that first level, and that SYNC_FIRST_STABLE_LEVEL changes nothing where a
stable level exists, is the model's reading (log 6). -/
def Obligations.SyncEdgeIsATrigger : Prop :=
  ∀ s (v : Level), Awake s →
    let sees := fun l : Line =>
      (s.controller l).settings.source = .sync ∧ (s.controller l).state ≠ .stopped ∧
        ((s.controller l).settings.edge = .both ∨ (s.controller l).settings.edge = .rising ∧ v = .high ∨
          (s.controller l).settings.edge = .falling ∧ v = .low)
    let moved := { s with syncLevel := some v }
    let reached := fun (l : Line) (u : State) =>
      if sees l then
        if (s.controller l).state = .armed then makeChoice l (withController u l (roundStarted (s.controller l)))
        else if (s.controller l).state = .running ∧ (s.controller l).settings.mode = .single then
          withLatched u { u.interrupts.latched with late := u.interrupts.latched.late.set l true }
        else u
      else u
    exec (.syncFirstStableLevel v) s = .next (if s.syncLevel = none then moved else s) ∧
    (s.syncLevel = none → exec (.syncEdge v) s = .next moved) ∧
    (s.syncLevel = some v → exec (.syncEdge v) s = .next s) ∧
    (s.syncLevel ≠ none → s.syncLevel ≠ some v → exec (.syncEdge v) s = .next (reached .b (reached .a moved)))

/-- The end of the continuous gap starts the next round (R32). That the row ends a gap whatever its count is the model's
choice (log 1), and that it does nothing with the gap idle too (log 2). -/
def Obligations.ContinuousGapEndStartsTheNextRound : Prop :=
  ∀ s l, Awake s →
    ((s.controller l).gap = none → exec (.continuousGapEnd l) s = .next s) ∧
    ((s.controller l).gap ≠ none →
      exec (.continuousGapEnd l) s =
        .next (makeChoice l (withController s l (roundStarted (s.controller l)))))

/-! ### The choice (R121, R122) -/

/-- The end of the quiet gap: a retry begins its next attempt, and an engine without an exchange is READY and makes its
choice (R119, R121). It is taken on an idle line, and between a fall and its mid-start sample (R135, log 14). That the
row ends the gap whatever the quiet count, which then stands at the gap, is the model's choice (log 1), and that it does
nothing outside QUIET, with a character under way or with RXD at space too (log 2). -/
def Obligations.QuietGapEndRetriesOrChooses : Prop :=
  ∀ s l, Awake s →
    let e := s.engine l
    let counted := { e with quietCount := { bits := e.config.quietGap, periods := 0 } }
    (e.state ≠ .quiet → exec (.quietGapEnd l) s = .next s) ∧
    (¬(LineIdle e ∨ e.receiver = .fallSeen) → exec (.quietGapEnd l) s = .next s) ∧
    (e.state = .quiet → LineIdle e ∨ e.receiver = .fallSeen →
      (∀ x, e.exchange = some x →
        exec (.quietGapEnd l) s =
          .next
            (withEngine s l
              (attemptStarted
                { counted with
                  exchange :=
                    some
                      { x with
                        attempts := x.attempts + 1
                        pendingOutcome := none
                        assembly := Assembly.empty } }))) ∧
      (e.exchange = none →
        exec (.quietGapEnd l) s = .next (makeChoice l (withEngine s l { counted with state := .ready }))))

/-- The choice goes to the oldest QUEUED request of the line while the count is below the burst limit, and also at the
limit when the controller has no work to give (steps 1 and 3 of R122, R47, R123, R125). -/
def Obligations.ChoiceTakesTheOldestUrgentRequest : Prop :=
  ∀ s l before x after,
    s.urgent = before ++ x :: after → QueuedOn l x → (∀ y ∈ before, ¬QueuedOn l y) → (s.engine l).state = .ready →
      let n := (s.engine l).urgentCount
      (n < s.burstLimit ∨ (s.controller l).state ≠ .running ∨ (s.controller l).gap ≠ none) →
        makeChoice l s =
          withEngine { s with urgent := before ++ { x with state := .inFlight } :: after } l
            (exchangeStarted (s.engine l) (.urgent x.tag) x.request (if n + 1 ≤ 4 then n + 1 else 4))

/-- A choice that does not go to urgent work scans from the cursor up, in a RUNNING round with its gap idle, passes over
what is not due or refused, stepping its phase, and takes the first entry that yields: its phase is reloaded, the cursor
passes it, the snapshot carries the round number and the count returns to 0 (step 2 of R122, R6, R12, R28 to R30). -/
def Obligations.ChoiceTakesTheDueEntry : Prop :=
  ∀ s u l (i : Fin 32),
    let c := s.controller l
    let e := u.table[i]
    (s.engine l).state = .ready → ((∀ x ∈ s.urgent, ¬QueuedOn l x) ∨ s.burstLimit ≤ (s.engine l).urgentCount) →
      c.state = .running → c.gap = none → c.cursor ≤ i.val →
      PassesOver l ((entriesAbove c.cursor).filter fun j => j < i) s u → Yields l i u →
        makeChoice l s =
          withEngine
            (withController { u with table := u.table.set i { e with phase := e.divisor - 1 } } l
              { c with cursor := i.val + 1, routineInFlight := true })
            l (exchangeStarted (s.engine l) (.routine i e.policy c.roundNumber) e.request 0)

/-- A choice with no request waiting and no round to walk leaves the engine READY. In a RUNNING round with its gap idle,
a scan that passes over every entry left, stepping the phases of those that are not due or refused, ends the round:
ROUND_END is set and the controller moves by its mode and source (R28, R31, R123); a request that waited at the burst
limit is then chosen (steps 2 to 4 of R122). An engine in any state but READY makes no choice (R121). -/
def Obligations.ChoiceWithoutWorkEndsTheRound : Prop :=
  ∀ s l,
    let c := s.controller l
    ((s.engine l).state ≠ .ready → makeChoice l s = s) ∧
    ((s.engine l).state = .ready →
      ((∀ x ∈ s.urgent, ¬QueuedOn l x) → c.state ≠ .running ∨ c.gap ≠ none → makeChoice l s = s) ∧
      ∀ u, c.state = .running → c.gap = none → PassesOver l (entriesAbove c.cursor) s u →
        let rung := withLatched u { s.interrupts.latched with roundEnd := s.interrupts.latched.roundEnd.set l true }
        let walked := { c with cursor := 32, exhausted := true }
        let atRest := { s.engine l with urgentCount := 0 }
        let ended :=
          if c.settings.mode = .continuous then
            withController rung l { walked with gap := some { bits := 0, periods := 0 } }
          else if c.settings.source = .soft then
            withEngine (withController rung l { walked with state := .stopped, timer := none }) l atRest
          else withEngine (withController rung l { walked with state := .armed }) l atRest
        ((∀ x ∈ s.urgent, ¬QueuedOn l x) → makeChoice l s = ended) ∧
        (s.burstLimit ≤ (s.engine l).urgentCount → makeChoice l s = makeChoice l ended))

/-! ### The Urgent Queue -/

/-- ENQUEUE URGENT decides by its four tests in order; an accepted request is a QUEUED slot at the tail, and a READY
engine makes its choice (R42 to R45). -/
def Obligations.EnqueueUrgentDecides : Prop :=
  RefusedWhileBusy .enqueueUrgent ∧
  ∀ s, TakesCommands s →
    let v := s.port.staging
    let l := lineOfImage v
    (¬RequestImageInRange v → exec .enqueueUrgent s = .next (answered .range s)) ∧
    (RequestImageInRange v →
      ((s.engine l).state = .disabled → exec .enqueueUrgent s = .next (answered .state s)) ∧
      ((s.engine l).state ≠ .disabled →
        (4 ≤ s.urgent.length → exec .enqueueUrgent s = .next (answered .full s)) ∧
        (s.urgent.length < 4 →
          (16 ≤ s.store.length + s.urgent.length → exec .enqueueUrgent s = .next (answered .room s)) ∧
          (s.store.length + s.urgent.length < 16 →
            exec .enqueueUrgent s =
              .next
                (answered .done
                  (makeChoice l
                    { s with
                      urgent :=
                        s.urgent ++
                          [{ tag := v[24], line := l, request := requestOfImage v, state := .queued }] }))))))

/-- FLUSH URGENT cancels the QUEUED slots of the lines PARAM selects, oldest first, each leaving its record; the sum of
held and reserved stays (R51, R52). -/
def Obligations.FlushUrgentCancelsQueuedSlots : Prop :=
  RefusedWhileBusy .flushUrgent ∧
  ∀ s, TakesCommands s →
    (3 ≤ s.port.param.toNat → exec .flushUrgent s = .next (answered .range s)) ∧
    (s.port.param.toNat ≤ 2 →
      let goes := fun x : Slot => x.state = .queued ∧ (s.port.param.toNat = 2 ∨ s.port.param.toNat = lineIndex x.line)
      ∃ t, exec .flushUrgent s = .next t ∧
        t = answered .done { s with urgent := s.urgent.filter (fun x => ¬goes x), store := t.store } ∧
        t.store =
          s.store ++
            (s.urgent.filter fun x => goes x).map (fun x =>
              ({ source := .urgent
                 line := x.line
                 id := x.tag
                 address := x.request.address
                 command := x.request.command
                 outcome := .cancelled
                 attempts := 0
                 reply := none
                 round := 0
                 missed := 0 } : Record)) ∧
        t.store.length + t.urgent.length = s.store.length + s.urgent.length)

/-! ### The Reply Store -/

/-- RELEASE REPLY removes the head and sets the reply pointer to 0 (R75). -/
def Obligations.ReleaseReplyRemovesTheHead : Prop :=
  RefusedWhileBusy .releaseReply ∧
  ∀ s, TakesCommands s →
    (s.store = [] → exec .releaseReply s = .next (answered .empty s)) ∧
    ∀ head rest, s.store = head :: rest →
      ∃ t, exec .releaseReply s = .next t ∧
        t = answered .done { s with store := rest, port := { s.port with replyPointer := 0 } } ∧
        (rest = [] → t.pendingLow.getLsbD 0 = false)

/-- A routine append: at the tail with room, dropped without it, and under LATEST in place of the entry's records
behind the head (R63 to R68). -/
def Obligations.RoutineAppendFollowsThePolicy : Prop :=
  ∀ (i : Fin 32) (make : Nat → Record) (s : State),
    let isOfEntry := fun r : Record => r.source = .routine ∧ r.id = BitVec.ofNat 8 i.val
    let found := s.store.tail.filter fun r => isOfEntry r
    let counted := (found.map (·.missed)).sum + found.length + s.missed[i]
    (∀ policy, policy = .keepAll ∨ found = [] →
      (s.store.length + s.urgent.length < 16 →
        appendRoutine i policy make s =
          { s with store := s.store ++ [make s.missed[i]], missed := s.missed.set i 0 }) ∧
      (16 ≤ s.store.length + s.urgent.length →
        appendRoutine i policy make s =
          withLatched { s with missed := s.missed.set i (if s.missed[i] + 1 ≤ 255 then s.missed[i] + 1 else 255) }
            { s.interrupts.latched with overrun := true })) ∧
    (found ≠ [] →
      appendRoutine i .latest make s =
        { s with
          store :=
            s.store.take 1 ++ (s.store.tail.filter fun r => ¬isOfEntry r) ++
              [make (if counted ≤ 255 then counted else 255)]
          missed := s.missed.set i 0 })

/-- The head of the store stays the head over every command but a release and the two resets (R57, R74). A refused write
to COMMAND is one made while the decoder is EXECUTING (R159). -/
def Obligations.HeadOfTheStoreStays : Prop :=
  ∀ (c : Instr) s t head rest, c.wellFormed = true → c ≠ .releaseReply → c ≠ .resetPart → c ≠ .hardwareReset →
    (∀ code, c = .refusedBusy code → s.port.decoder ≠ .idle) → s.store = head :: rest → exec c s = .next t →
      ∃ rest', t.store = head :: rest'

/-! ### The Node Health Map -/

/-- Success and failure updates of a node record, and the outcomes that make none (R81 to R83). -/
def Obligations.NodeUpdatesFollowTheOutcome : Prop :=
  ∀ (h : Thresholds) (r : NodeRecord),
    (∀ o ∈ [OutcomeCode.sent, .aborted, .cancelled], r.update h o = r) ∧
    (∀ o ∈ [OutcomeCode.ok, .nodeFault],
      r.update h o =
        { state := .online
          failures := 0
          lastOutcome := some o
          countdown := 0
          changed := r.changed || decide (r.state ≠ .online) }) ∧
    ∀ o ∈ [OutcomeCode.noReply, .charError, .checkError, .badFrame, .truncated],
      let count := if r.failures + 1 ≤ 15 then r.failures + 1 else 15
      (h.offline ≤ count →
        r.update h o =
          { state := .offline
            failures := count
            lastOutcome := some o
            countdown := h.revival
            changed := r.changed || decide (r.state ≠ .offline) }) ∧
      (count < h.offline → h.suspect ≤ count →
        r.update h o =
          { state := .suspect
            failures := count
            lastOutcome := some o
            countdown := 0
            changed := r.changed || decide (r.state ≠ .suspect) }) ∧
      (count < h.offline → count < h.suspect →
        r.update h o = { r with failures := count, lastOutcome := some o })

/-- SET BURST takes a limit of 1 to 4 from PARAM (R124), SET HEALTH its three thresholds together from staging (R80). -/
def Obligations.BurstAndHealthDecide : Prop :=
  RefusedWhileBusy .setBurst ∧ RefusedWhileBusy .setHealth ∧
  ∀ s, TakesCommands s →
    let v := s.port.staging
    let inRange := 1 ≤ v[0].toNat ∧ v[0].toNat < v[1].toNat ∧ v[1].toNat ≤ 15 ∧ 1 ≤ v[2].toNat
    (s.port.param.toNat = 0 ∨ 5 ≤ s.port.param.toNat → exec .setBurst s = .next (answered .range s)) ∧
    (1 ≤ s.port.param.toNat → s.port.param.toNat ≤ 4 →
      exec .setBurst s = .next (answered .done { s with burstLimit := s.port.param.toNat })) ∧
    (¬inRange → exec .setHealth s = .next (answered .range s)) ∧
    (inRange →
      exec .setHealth s =
        .next
          (answered .done
            { s with health := { suspect := v[0].toNat, offline := v[1].toNat, revival := v[2].toNat } }))

/-- READ NODE loads the image of the record PARAM keys; TAKE CHANGE takes the first record of the change set in key
order and loads its image with byte 5 at 0 (R89, R90, R91). -/
def Obligations.NodeRecordsAreReadAndTaken : Prop :=
  RefusedWhileBusy .readNode ∧ RefusedWhileBusy .takeChange ∧
  ∀ s, TakesCommands s → NodesSound s →
    let image := fun (t : State) (l : Line) (k : Fin 126) (changed : Bool) =>
      let r := s.node l k
      t.port.staging[0].toNat = k.val + 1 + 128 * lineIndex l ∧
      (t.port.staging[1].toNat =
        match r.state with
        | .unknown => 0
        | .online => 1
        | .suspect => 2
        | .offline => 3) ∧
      t.port.staging[2].toNat = r.failures ∧ (r.lastOutcome = none → t.port.staging[3] = 0xFF) ∧
      (∀ o, r.lastOutcome = some o → t.port.staging[3] = o.code) ∧
      (r.countdown ≤ 255 → t.port.staging[4].toNat = r.countdown) ∧
      t.port.staging[5] = (if changed then 1 else 0) ∧ ∀ j : Fin 32, 6 ≤ j.val → t.port.staging[j] = 0
    (s.port.param.toNat % 128 = 0 ∨ s.port.param.toNat % 128 = 127 →
      exec .readNode s = .next (answered .range s)) ∧
    (∀ l (k : Fin 126), s.port.param.toNat = k.val + 1 + 128 * lineIndex l →
      ∃ t, exec .readNode s = .next t ∧ t = answered .done (loaded t.port.staging s) ∧
        image t l k (s.node l k).changed) ∧
    ((∀ l k, (s.node l k).changed = false) → exec .takeChange s = .next (answered .empty s)) ∧
    ∀ l (k : Fin 126), (s.node l k).changed = true → (∀ j, j < k → (s.node l j).changed = false) →
      (l = .b → ∀ j, (s.node .a j).changed = false) →
        ∃ t, exec .takeChange s = .next t ∧
          t =
            answered .done
              (loaded t.port.staging
                { s with nodes := s.nodes.set l ((s.nodes.get l).set k { s.node l k with changed := false }) }) ∧
          image t l k false

/-- CLEAR NODE MAP makes the decoder EXECUTING, each visit resets one record in key order, and the 252nd sets
COMMAND_DONE and returns the decoder to IDLE (R93). That a row makes the visit at any moment of the walk is the model's
choice (log 1), and that it does nothing without a walk too (log 2). -/
def Obligations.ClearWalkResetsEveryRecord : Prop :=
  RefusedWhileBusy .clearNodeMap ∧
  (∀ s, TakesCommands s →
    exec .clearNodeMap s =
      .next (answered .done { s with port := { s.port with decoder := .executing 0 } })) ∧
  (∀ s, Awake s → s.port.decoder = .idle → exec .clearWalkVisit s = .next s) ∧
  (∀ s (v : Fin 252), Awake s → s.port.decoder = .executing v →
    ∃ t, exec .clearWalkVisit s = .next t ∧
      t = { s with
        nodes := t.nodes
        port :=
          { s.port with decoder := if h : v.val + 1 < 252 then .executing ⟨v.val + 1, h⟩ else .idle }
        interrupts :=
          { s.interrupts with
            latched :=
              { s.interrupts.latched with
                commandDone := s.interrupts.latched.commandDone || decide (v.val = 251) } } } ∧
      ∀ l (k : Fin 126), t.node l k = if v.val = k.val + 126 * lineIndex l then NodeRecord.reset else s.node l k) ∧
  ∀ s, TakesCommands s →
    ∃ t, execAll (.clearNodeMap :: List.replicate 252 .clearWalkVisit) s = some t ∧
      (∀ l k, t.node l k = NodeRecord.reset) ∧ t.port.decoder = .idle ∧ t.port.result = .done ∧
      t.interrupts.latched.commandDone = true ∧ t.pendingLow.getLsbD 1 = false ∧
      ∀ n, n < 252 → ∃ u, execAll (.clearNodeMap :: List.replicate n .clearWalkVisit) s = some u ∧
        u.port.decoder ≠ .idle

/-! ### Attempts -/

/-- LEAD, SENDING and LAG follow one another; with DE released an individual address is AWAITED and a broadcast
completes with SENT (R103, R106, R126). That each row ends its time whatever the count is the model's choice (log 1).
DE is asserted in LEAD, SENDING and LAG only; TXD is at mark but in SENDING, where it is at the bit in progress of the
frame's characters, sent back to back (R99, R103, R117). -/
def Obligations.SendingDrivesTheLine : Prop :=
  (∀ s l x, Awake s → (s.engine l).exchange = some x →
    let e := s.engine l
    let released := { e with receiver := .waiting, idleCount := { bits := 0, periods := 0 } }
    let after :=
      if x.request.address = 0x7F then completeExchange l x .sent none (withEngine s l released)
      else withEngine s l { released with state := .awaiting, timeCount := some { bits := 0, periods := 0 } }
    (e.state = .lead →
      exec (.leadEnd l) s =
        .next
          (withEngine s l
            { e with
              state := .sending
              timeCount := none
              bitsSent := { bits := 0, periods := 0 }
              receiver := .off })) ∧
    (e.state = .sending → e.config.lag ≠ 0 →
      exec (.sendingEnd l) s =
        .next (withEngine s l { e with state := .lag, timeCount := some { bits := 0, periods := 0 } })) ∧
    (e.state = .sending → e.config.lag = 0 → exec (.sendingEnd l) s = .next after) ∧
    (e.state = .lag → exec (.lagEnd l) s = .next after)) ∧
  ∀ e : Engine,
    (e.de = true ↔ e.state = .lead ∨ e.state = .sending ∨ e.state = .lag) ∧
    (e.state ≠ .sending → e.txd = .high) ∧
    ∀ x, e.state = .sending → e.exchange = some x →
      ∀ place byte bit, (requestFrame x.request)[place]? = some byte → bit < characterLength e.config →
        e.bitsSent.bits = place * characterLength e.config + bit →
          (characterLevels e.config byte)[bit]? = some e.txd

/-- An attempt that fails goes to QUIET with its exchange still in flight while attempts are left, and completes the
exchange with that outcome when none is (R129). That each row ends its count whatever it stood at is the model's choice
(log 1). -/
def Obligations.FailedAttemptRetriesOrCompletes : Prop :=
  ∀ s l x c o, Awake s → AttemptFails l s x c o →
    (x.attempts ≤ x.request.retryLimit →
      exec c s =
        .next
          (withEngine s l
            (quietAfter (s.engine l) (some { x with pendingOutcome := none, assembly := Assembly.empty })))) ∧
    (x.request.retryLimit < x.attempts → exec c s = .next (completeExchange l x o none s))

/-- A completion: the record is offered to the store, then the node record is updated, then the controller is told, and
the engine is QUIET with no exchange (R130, R34, R49, R59). -/
def Obligations.CompletionReachesItsNeighbours : Prop :=
  ∀ s l x o (y : Option Reply),
    let updated := fun nodes : PerLine (Vector NodeRecord 126) =>
      if h : 1 ≤ x.request.address.toNat ∧ x.request.address.toNat ≤ 126 then
        nodes.set l
          ((nodes.get l).set (x.request.address.toNat - 1)
            (((nodes.get l)[x.request.address.toNat - 1]'(by omega)).update s.health o) (by omega))
      else nodes
    (∀ tag before z after, x.work = .urgent tag → s.urgent = before ++ z :: after →
      (z.line = l ∧ z.state = .inFlight) → (∀ w ∈ before, ¬(w.line = l ∧ w.state = .inFlight)) →
        completeExchange l x o y s =
          { s with
            store :=
              s.store ++
                [({ source := .urgent
                    line := l
                    id := tag
                    address := x.request.address
                    command := x.request.command
                    outcome := o
                    attempts := x.attempts
                    reply := y
                    round := 0
                    missed := 0 } : Record)]
            urgent := before ++ after
            nodes := updated s.nodes
            engines := s.engines.set l (quietAfter (s.engine l) none) }) ∧
    ∀ i p r, x.work = .routine i p r →
      let offered := appendRoutine i p
        (fun missed =>
          { source := .routine
            line := l
            id := BitVec.ofNat 8 i.val
            address := x.request.address
            command := x.request.command
            outcome := o
            attempts := x.attempts
            reply := y
            round := r
            missed := missed }) s
      let c := s.controller l
      let done := { offered with nodes := updated s.nodes, engines := s.engines.set l (quietAfter (s.engine l) none) }
      (c.state ≠ .halting →
        completeExchange l x o y s = withController done l { c with routineInFlight := false }) ∧
      (c.state = .halting →
        completeExchange l x o y s =
          withLatched
            (withController done l { c with routineInFlight := false, state := .stopped, timer := none })
            { offered.interrupts.latched with halted := offered.interrupts.latched.halted.set l true })

/-! ### The receiver -/

/-- A fall is taken by a receiver that waits for one; its mid-start sample confirms a character, which moves AWAITING to
RECEIVING and READY to QUIET, or finds a glitch, which changes nothing but the receiver; RXD at mark again lets a held
receiver wait (R100, R101, R119, R120, R127). That the level of RXD is kept as last reported is the model's choice
(log 5), and so are that the row takes the mid-start sample at any moment after the fall and at the level it names
(log 1, log 13), that with no fall seen it does nothing (log 2), that a fall is taken while the level kept is space
(log 15), and where the receiver's count and samples start (log 17). -/
def Obligations.ReceiverFollowsTheLine : Prop :=
  ∀ s l, s.clkinRunning = true →
    let e := s.engine l
    let started :=
      { e with
        receiver := .character
        sampleCount := 0
        samples := []
        rxd := .low
        idleCount := { bits := 0, periods := 0 } }
    let marked := { e with receiver := .waiting, rxd := .high, idleCount := { bits := 0, periods := 0 } }
    (e.receiver = .waiting →
      exec (.rxdFall l) s = .next (withEngine s l { e with rxd := .low, receiver := .fallSeen, sampleCount := 0 })) ∧
    (e.receiver ≠ .waiting → exec (.rxdFall l) s = .next (withEngine s l { e with rxd := .low })) ∧
    (e.receiver ≠ .fallSeen → ∀ v, exec (.midStartSample l v) s = .next s) ∧
    (e.receiver = .fallSeen →
      exec (.midStartSample l .high) s = .next (withEngine s l { e with rxd := .high, receiver := .waiting }) ∧
      (e.state = .awaiting →
        exec (.midStartSample l .low) s =
          .next (withEngine s l { started with state := .receiving, timeCount := none })) ∧
      (e.state = .ready ∨ e.state = .quiet →
        exec (.midStartSample l .low) s =
          .next
            (withEngine s l
              { started with state := .quiet, quietCount := { bits := 0, periods := 0 }, timeCount := none })) ∧
      (e.state = .receiving ∨ e.state = .discarding →
        exec (.midStartSample l .low) s = .next (withEngine s l started))) ∧
    (e.receiver = .held ∨ e.receiver = .waiting ∧ e.rxd = .low →
      exec (.rxdReturnToMark l) s =
        .next
          (withEngine s l
            (if e.state = .quiet then { marked with quietCount := { bits := 0, periods := 0 } } else marked))) ∧
    (¬(e.receiver = .held ∨ e.receiver = .waiting ∧ e.rxd = .low) →
      exec (.rxdReturnToMark l) s = .next (withEngine s l { e with rxd := .high }))

/-- A delivered character is stray in QUIET, dropped in DISCARDING, and judged in RECEIVING, where it carries the reply
on, fails it or completes it (R111, R112, R120, R127). That the row delivers what its operands say, at any moment of the
character, is the model's choice (log 1, log 13), and that it does nothing with no character under way too (log 2). The
reply assembly grows by every character judged, the one that fails its check among them (R127). -/
def Obligations.CharacterDeliveredIsJudged : Prop :=
  ∀ s l (data : Byte) (parityBit : Bool) (stop : Level), Awake s →
    let e := s.engine l
    let command := Instr.characterDelivered l data parityBit stop
    let heard :=
      { e with
        receiver := if stop = .low then .held else .waiting
        rxd := stop
        idleCount := { bits := 0, periods := 0 } }
    (e.receiver ≠ .character → exec command s = .next s) ∧
    (e.receiver = .character →
      (e.state = .quiet →
        exec command s =
          .next
            (withLatched (withEngine s l { heard with quietCount := { bits := 0, periods := 0 } })
              { s.interrupts.latched with stray := s.interrupts.latched.stray.set l true })) ∧
      (e.state = .discarding → exec command s = .next (withEngine s l heard)) ∧
      ∀ x, e.state = .receiving → e.exchange = some x →
        let verdict := judge x.request x.assembly data (characterError e.config data parityBit stop)
        (∀ a, verdict = .goesOn a →
          exec command s = .next (withEngine s l { heard with exchange := some { x with assembly := a } })) ∧
        (∀ o, verdict = .fails o →
          exec command s =
            .next
              (withEngine s l
                { heard with
                  state := .discarding
                  exchange :=
                    some
                      { x with pendingOutcome := some o, assembly := grown x.assembly data } })) ∧
        (∀ y, verdict = .valid y →
          exec command s =
            .next
              (completeExchange l x (if y.status = 0 then .ok else .nodeFault) (some y) (withEngine s l heard))))

/-- The checks on a reply's characters, in the order of the table, and the assembly after each that passes: the position
rises by one, the CRC takes every character but the lead, and STATUS, LEN and payload are kept (R107, R109, R127). -/
def Obligations.ReplyChecksDecideTheOutcome : Prop :=
  ∀ (q : Request) (a : Assembly) (d : Byte),
    let covered := { a with position := a.position + 1, crc := crcByte a.crc d }
    judge q a d true = .fails .charError ∧
    (a.position = 0 → judge q a d false = if d = 0xC3 then .goesOn { a with position := 1 } else .fails .badFrame) ∧
    (a.position = 1 → judge q a d false = if d = q.address then .goesOn covered else .fails .badFrame) ∧
    (a.position = 2 → judge q a d false = if d = q.command then .goesOn covered else .fails .badFrame) ∧
    (a.position = 3 → judge q a d false = .goesOn { covered with status := d }) ∧
    (a.position = 4 →
      (16 < d.toNat → judge q a d false = .fails .badFrame) ∧
      (∀ n, q.expectation = .exactly n → d.toNat ≠ n → judge q a d false = .fails .badFrame) ∧
      (d.toNat ≤ 16 → q.expectation = .any ∨ q.expectation = .exactly d.toNat →
        judge q a d false = .goesOn { covered with length := d.toNat })) ∧
    (5 ≤ a.position → a.position < 5 + a.length →
      judge q a d false = .goesOn { covered with payload := a.payload ++ [d] }) ∧
    (5 ≤ a.position → 5 + a.length ≤ a.position →
      judge q a d false =
        if d = a.crc then .valid { status := a.status, payload := a.payload } else .fails .checkError)

/-! ### Frames and characters -/

/-- A request frame and its CRC, which a run over the covered bytes and the check byte leaves at 0 (R104, R107). -/
def Obligations.RequestFrameAndItsCheck : Prop :=
  (∀ q : Request,
    ∃ check : Byte,
      requestFrame q =
        [0x3C, q.address, q.command, BitVec.ofNat 8 q.payload.length] ++ q.payload ++ [check] ∧
      crc8 ([q.address, q.command, BitVec.ofNat 8 q.payload.length] ++ q.payload) = check ∧
      (requestFrame q).length = 5 + q.payload.length) ∧
  (∀ bytes : List Byte, crc8 (bytes ++ [crc8 bytes]) = 0) ∧
  requestFrame
      { address := 0x12
        command := 0x21
        payload := []
        expectation := .any
        timeout := 16
        retryLimit := 0 } = [0x3C, 0x12, 0x21, 0x00, 0xE4]

/-- A character has the format of the line configuration: a start bit at space, the data bits least significant first,
a parity bit that makes the count of ones even or odd, and every stop bit at mark (R99). Its mid-bit samples give back
its byte without an error, and an error is a first stop bit at space or a parity bit that makes the other count
(R100). -/
def Obligations.CharactersCarryTheirByte : Prop :=
  ∀ (c : LineConfig) (b : Byte),
    (characterLevels c b).length = characterLength c ∧
    (characterLevels c b)[0]? = some .low ∧
    (∀ k, k < 8 → (characterLevels c b)[1 + k]? = some (if b.getLsbD k then .high else .low)) ∧
    (c.parity ≠ .none →
      ∃ p, (characterLevels c b)[9]? = some (if p then .high else .low) ∧ ParityRight c.parity b p) ∧
    (∀ k, k < c.stopBits → (characterLevels c b)[characterLength c - c.stopBits + k]? = some .high) ∧
    (1 ≤ c.stopBits →
      ∃ p, sampleCharacter c.parity (characterLevels c b) = some (b, p, .high) ∧ ParityRight c.parity b p) ∧
    ∀ p v, characterError c b p v = true ↔ v = .low ∨ ¬ParityRight c.parity b p

/-- A whole reply frame to a request is judged valid with its status and payload (R105, R107, R109, R112). -/
def Obligations.WholeReplyFrameIsValid : Prop :=
  ∀ (q : Request) (status : Byte) (payload : List Byte), payload.length ≤ 16 →
    (q.expectation = .any ∨ q.expectation = .exactly payload.length) →
      let body := [q.address, q.command, status, BitVec.ofNat 8 payload.length] ++ payload
      ∃ a, judgeAll q (0xC3 :: body) Assembly.empty = some a ∧
        judge q a (crc8 body) false = .valid { status := status, payload := payload } ∧
        ∀ d, d ≠ crc8 body → judge q a d false = .fails .checkError

/-! ### What every step keeps -/

/-- Right after reset every relation between the fields holds. That the model starts there, after the first hardware
reset and with CLKIN running, is its choice (log 12), and that nothing waits in the queue too (log 18). -/
def Obligations.ResetStateIsSound : Prop :=
  LinesSound State.reset ∧ NodesSound State.reset ∧ SettingsSound State.reset ∧ RecordsSound State.reset ∧
    BlocksReset State.reset ∧ Awake State.reset ∧ State.reset.port.resetCause = .pin ∧ State.reset.pending = []

/-- Lines, controllers, slots and records stay in agreement: a DISABLED line has its controller STOPPED, no exchange and
no slot; a routine exchange is in flight only in RUNNING or HALTING; a line has an IN_FLIGHT slot exactly while its
exchange is urgent; the receiver is off exactly while the line is DISABLED or DE is asserted, and has a character under
way only in QUIET, RECEIVING or DISCARDING; held plus reserved never exceeds 16 (R34, R39, R60, R102, R117, R118,
R132). -/
def Obligations.LinesStaySound : Prop :=
  ∀ s t : State, LinesSound s → step s = .next t → LinesSound t

/-- The relations within a node record hold after every step (R84). -/
def Obligations.NodeRecordsStaySound : Prop :=
  ∀ s t : State, NodesSound s → step s = .next t → NodesSound t

/-- Settings, round timers, walker cursors, prescaler, urgent, quiet and sample counts, thresholds, revival countdowns and
missed counts stay in the ranges their rules give (R18, R19, R62, R79, R80, R98, R100, R113, R116, R124). -/
def Obligations.SettingsStayInRange : Prop :=
  ∀ s t : State, SettingsSound s → step s = .next t → SettingsSound t

/-- Entries, slots, exchanges and records stay in range: in a state with sound lines, the phase stays below the divisor,
attempts stay 1 to retry limit + 1, and a record has an address of 0x01 to 0x7F, with ROUTINE an entry number as its id,
and reply fields exactly with OK and NODE_FAULT (R5, R40, R58, R129). -/
def Obligations.RecordsStaySound : Prop :=
  ∀ s t : State, LinesSound s → RecordsSound s → step s = .next t → RecordsSound t

/-- An event of one line leaves the engine, the controller, the node records, the entries and the slots of the other
line as they are, and the Host Port and the common settings too (R15, R36, R79). -/
def Obligations.LineEventsLeaveTheOtherLine : Prop :=
  ∀ (l m : Line) (c : Instr) s t, m ≠ l →
    (c ∈ [.roundTimerExpiry l, .continuousGapEnd l, .quietGapEnd l, .leadEnd l, .sendingEnd l, .lagEnd l,
        .replyTimeout l, .truncated l, .discardEnd l, .rxdFall l, .rxdReturnToMark l] ∨
      (∃ v, c = .midStartSample l v) ∨ ∃ d p v, c = .characterDelivered l d p v) →
    exec c s = .next t →
      t.engine m = s.engine m ∧ t.controller m = s.controller m ∧ (∀ i, t.node m i = s.node m i) ∧
      t.urgent.filter (fun x => x.line = m) = s.urgent.filter (fun x => x.line = m) ∧
      (∀ i : Fin 32, s.table[i].line = m → t.table[i] = s.table[i]) ∧
      t.port = s.port ∧ t.timeBase = s.timeBase ∧ t.burstLimit = s.burstLimit ∧ t.health = s.health ∧
      (t.engine l).config = (s.engine l).config ∧ (t.controller l).settings = (s.controller l).settings

end
end

