-- ==== Sys2Proof/Laws/State.lean ====
section
/-!
SUPPORT. The small lemmas of State: what each named update leaves in each field, and the accessors of a line's engine,
controller and node records after an update.
-/

namespace Sys2Proof

@[simp] theorem PerLine.get_set_same {α : Type} (p : PerLine α) (l : Line) (x : α) : (p.set l x).get l = x := by
  cases l <;> rfl

theorem PerLine.get_set_ne {α : Type} (p : PerLine α) {l m : Line} (x : α) (h : m ≠ l) :
    (p.set l x).get m = p.get m := by
  cases l <;> cases m <;> first | rfl | exact absurd rfl h

theorem PerLine.get_set {α : Type} (p : PerLine α) (l m : Line) (x : α) :
    (p.set l x).get m = if m = l then x else p.get m := by
  split
  · next h => rw [h, PerLine.get_set_same]
  · next h => rw [PerLine.get_set_ne p x h]

@[simp] theorem PerLine.set_get_self {α : Type} (p : PerLine α) (l : Line) : p.set l (p.get l) = p := by
  cases l <;> rfl

@[simp] theorem PerLine.set_set {α : Type} (p : PerLine α) (l : Line) (x y : α) : (p.set l x).set l y = p.set l y := by
  cases l <;> rfl

end Sys2Proof

namespace Sys2Proof.Machine

/-! ### One lemma per field per update -/

@[simp] theorem State.setPort_port (s : State) (p : HostPort) : (s.setPort p).port = p := rfl
@[simp] theorem State.setPort_table (s : State) (p : HostPort) : (s.setPort p).table = s.table := rfl
@[simp] theorem State.setPort_rounds (s : State) (p : HostPort) : (s.setPort p).rounds = s.rounds := rfl
@[simp] theorem State.setPort_timeBase (s : State) (p : HostPort) : (s.setPort p).timeBase = s.timeBase := rfl
@[simp] theorem State.setPort_syncLevel (s : State) (p : HostPort) : (s.setPort p).syncLevel = s.syncLevel := rfl
@[simp] theorem State.setPort_urgent (s : State) (p : HostPort) : (s.setPort p).urgent = s.urgent := rfl
@[simp] theorem State.setPort_engines (s : State) (p : HostPort) : (s.setPort p).engines = s.engines := rfl
@[simp] theorem State.setPort_burstLimit (s : State) (p : HostPort) : (s.setPort p).burstLimit = s.burstLimit := rfl
@[simp] theorem State.setPort_store (s : State) (p : HostPort) : (s.setPort p).store = s.store := rfl
@[simp] theorem State.setPort_missed (s : State) (p : HostPort) : (s.setPort p).missed = s.missed := rfl
@[simp] theorem State.setPort_nodes (s : State) (p : HostPort) : (s.setPort p).nodes = s.nodes := rfl
@[simp] theorem State.setPort_health (s : State) (p : HostPort) : (s.setPort p).health = s.health := rfl
@[simp] theorem State.setPort_interrupts (s : State) (p : HostPort) : (s.setPort p).interrupts = s.interrupts := rfl
@[simp] theorem State.setPort_resetHeld (s : State) (p : HostPort) : (s.setPort p).resetHeld = s.resetHeld := rfl
@[simp] theorem State.setPort_clkinRunning (s : State) (p : HostPort) :
    (s.setPort p).clkinRunning = s.clkinRunning := rfl
@[simp] theorem State.setPort_freeIndex (s : State) (p : HostPort) : (s.setPort p).freeIndex = s.freeIndex := rfl
@[simp] theorem State.setPort_pending (s : State) (p : HostPort) : (s.setPort p).pending = s.pending := rfl

@[simp] theorem State.setTable_port (s : State) (t : Vector Entry 32) : (s.setTable t).port = s.port := rfl
@[simp] theorem State.setTable_table (s : State) (t : Vector Entry 32) : (s.setTable t).table = t := rfl
@[simp] theorem State.setTable_rounds (s : State) (t : Vector Entry 32) : (s.setTable t).rounds = s.rounds := rfl
@[simp] theorem State.setTable_timeBase (s : State) (t : Vector Entry 32) : (s.setTable t).timeBase = s.timeBase := rfl
@[simp] theorem State.setTable_syncLevel (s : State) (t : Vector Entry 32) :
    (s.setTable t).syncLevel = s.syncLevel := rfl
@[simp] theorem State.setTable_urgent (s : State) (t : Vector Entry 32) : (s.setTable t).urgent = s.urgent := rfl
@[simp] theorem State.setTable_engines (s : State) (t : Vector Entry 32) : (s.setTable t).engines = s.engines := rfl
@[simp] theorem State.setTable_burstLimit (s : State) (t : Vector Entry 32) :
    (s.setTable t).burstLimit = s.burstLimit := rfl
@[simp] theorem State.setTable_store (s : State) (t : Vector Entry 32) : (s.setTable t).store = s.store := rfl
@[simp] theorem State.setTable_missed (s : State) (t : Vector Entry 32) : (s.setTable t).missed = s.missed := rfl
@[simp] theorem State.setTable_nodes (s : State) (t : Vector Entry 32) : (s.setTable t).nodes = s.nodes := rfl
@[simp] theorem State.setTable_health (s : State) (t : Vector Entry 32) : (s.setTable t).health = s.health := rfl
@[simp] theorem State.setTable_interrupts (s : State) (t : Vector Entry 32) :
    (s.setTable t).interrupts = s.interrupts := rfl
@[simp] theorem State.setTable_resetHeld (s : State) (t : Vector Entry 32) :
    (s.setTable t).resetHeld = s.resetHeld := rfl
@[simp] theorem State.setTable_clkinRunning (s : State) (t : Vector Entry 32) :
    (s.setTable t).clkinRunning = s.clkinRunning := rfl
@[simp] theorem State.setTable_freeIndex (s : State) (t : Vector Entry 32) :
    (s.setTable t).freeIndex = s.freeIndex := rfl
@[simp] theorem State.setTable_pending (s : State) (t : Vector Entry 32) : (s.setTable t).pending = s.pending := rfl

@[simp] theorem State.setController_port (s : State) (l : Line) (c : Controller) :
    (s.setController l c).port = s.port := rfl
@[simp] theorem State.setController_table (s : State) (l : Line) (c : Controller) :
    (s.setController l c).table = s.table := rfl
@[simp] theorem State.setController_rounds (s : State) (l : Line) (c : Controller) :
    (s.setController l c).rounds = s.rounds.set l c := rfl
@[simp] theorem State.setController_timeBase (s : State) (l : Line) (c : Controller) :
    (s.setController l c).timeBase = s.timeBase := rfl
@[simp] theorem State.setController_syncLevel (s : State) (l : Line) (c : Controller) :
    (s.setController l c).syncLevel = s.syncLevel := rfl
@[simp] theorem State.setController_urgent (s : State) (l : Line) (c : Controller) :
    (s.setController l c).urgent = s.urgent := rfl
@[simp] theorem State.setController_engines (s : State) (l : Line) (c : Controller) :
    (s.setController l c).engines = s.engines := rfl
@[simp] theorem State.setController_burstLimit (s : State) (l : Line) (c : Controller) :
    (s.setController l c).burstLimit = s.burstLimit := rfl
@[simp] theorem State.setController_store (s : State) (l : Line) (c : Controller) :
    (s.setController l c).store = s.store := rfl
@[simp] theorem State.setController_missed (s : State) (l : Line) (c : Controller) :
    (s.setController l c).missed = s.missed := rfl
@[simp] theorem State.setController_nodes (s : State) (l : Line) (c : Controller) :
    (s.setController l c).nodes = s.nodes := rfl
@[simp] theorem State.setController_health (s : State) (l : Line) (c : Controller) :
    (s.setController l c).health = s.health := rfl
@[simp] theorem State.setController_interrupts (s : State) (l : Line) (c : Controller) :
    (s.setController l c).interrupts = s.interrupts := rfl
@[simp] theorem State.setController_resetHeld (s : State) (l : Line) (c : Controller) :
    (s.setController l c).resetHeld = s.resetHeld := rfl
@[simp] theorem State.setController_clkinRunning (s : State) (l : Line) (c : Controller) :
    (s.setController l c).clkinRunning = s.clkinRunning := rfl
@[simp] theorem State.setController_freeIndex (s : State) (l : Line) (c : Controller) :
    (s.setController l c).freeIndex = s.freeIndex := rfl
@[simp] theorem State.setController_pending (s : State) (l : Line) (c : Controller) :
    (s.setController l c).pending = s.pending := rfl

@[simp] theorem State.setTimeBase_port (s : State) (t : TimeBase) : (s.setTimeBase t).port = s.port := rfl
@[simp] theorem State.setTimeBase_table (s : State) (t : TimeBase) : (s.setTimeBase t).table = s.table := rfl
@[simp] theorem State.setTimeBase_rounds (s : State) (t : TimeBase) : (s.setTimeBase t).rounds = s.rounds := rfl
@[simp] theorem State.setTimeBase_timeBase (s : State) (t : TimeBase) : (s.setTimeBase t).timeBase = t := rfl
@[simp] theorem State.setTimeBase_syncLevel (s : State) (t : TimeBase) :
    (s.setTimeBase t).syncLevel = s.syncLevel := rfl
@[simp] theorem State.setTimeBase_urgent (s : State) (t : TimeBase) : (s.setTimeBase t).urgent = s.urgent := rfl
@[simp] theorem State.setTimeBase_engines (s : State) (t : TimeBase) : (s.setTimeBase t).engines = s.engines := rfl
@[simp] theorem State.setTimeBase_burstLimit (s : State) (t : TimeBase) :
    (s.setTimeBase t).burstLimit = s.burstLimit := rfl
@[simp] theorem State.setTimeBase_store (s : State) (t : TimeBase) : (s.setTimeBase t).store = s.store := rfl
@[simp] theorem State.setTimeBase_missed (s : State) (t : TimeBase) : (s.setTimeBase t).missed = s.missed := rfl
@[simp] theorem State.setTimeBase_nodes (s : State) (t : TimeBase) : (s.setTimeBase t).nodes = s.nodes := rfl
@[simp] theorem State.setTimeBase_health (s : State) (t : TimeBase) : (s.setTimeBase t).health = s.health := rfl
@[simp] theorem State.setTimeBase_interrupts (s : State) (t : TimeBase) :
    (s.setTimeBase t).interrupts = s.interrupts := rfl
@[simp] theorem State.setTimeBase_resetHeld (s : State) (t : TimeBase) :
    (s.setTimeBase t).resetHeld = s.resetHeld := rfl
@[simp] theorem State.setTimeBase_clkinRunning (s : State) (t : TimeBase) :
    (s.setTimeBase t).clkinRunning = s.clkinRunning := rfl
@[simp] theorem State.setTimeBase_freeIndex (s : State) (t : TimeBase) :
    (s.setTimeBase t).freeIndex = s.freeIndex := rfl
@[simp] theorem State.setTimeBase_pending (s : State) (t : TimeBase) : (s.setTimeBase t).pending = s.pending := rfl

@[simp] theorem State.setSyncLevel_port (s : State) (v : Option Level) : (s.setSyncLevel v).port = s.port := rfl
@[simp] theorem State.setSyncLevel_table (s : State) (v : Option Level) : (s.setSyncLevel v).table = s.table := rfl
@[simp] theorem State.setSyncLevel_rounds (s : State) (v : Option Level) : (s.setSyncLevel v).rounds = s.rounds := rfl
@[simp] theorem State.setSyncLevel_timeBase (s : State) (v : Option Level) :
    (s.setSyncLevel v).timeBase = s.timeBase := rfl
@[simp] theorem State.setSyncLevel_syncLevel (s : State) (v : Option Level) : (s.setSyncLevel v).syncLevel = v := rfl
@[simp] theorem State.setSyncLevel_urgent (s : State) (v : Option Level) : (s.setSyncLevel v).urgent = s.urgent := rfl
@[simp] theorem State.setSyncLevel_engines (s : State) (v : Option Level) :
    (s.setSyncLevel v).engines = s.engines := rfl
@[simp] theorem State.setSyncLevel_burstLimit (s : State) (v : Option Level) :
    (s.setSyncLevel v).burstLimit = s.burstLimit := rfl
@[simp] theorem State.setSyncLevel_store (s : State) (v : Option Level) : (s.setSyncLevel v).store = s.store := rfl
@[simp] theorem State.setSyncLevel_missed (s : State) (v : Option Level) : (s.setSyncLevel v).missed = s.missed := rfl
@[simp] theorem State.setSyncLevel_nodes (s : State) (v : Option Level) : (s.setSyncLevel v).nodes = s.nodes := rfl
@[simp] theorem State.setSyncLevel_health (s : State) (v : Option Level) : (s.setSyncLevel v).health = s.health := rfl
@[simp] theorem State.setSyncLevel_interrupts (s : State) (v : Option Level) :
    (s.setSyncLevel v).interrupts = s.interrupts := rfl
@[simp] theorem State.setSyncLevel_resetHeld (s : State) (v : Option Level) :
    (s.setSyncLevel v).resetHeld = s.resetHeld := rfl
@[simp] theorem State.setSyncLevel_clkinRunning (s : State) (v : Option Level) :
    (s.setSyncLevel v).clkinRunning = s.clkinRunning := rfl
@[simp] theorem State.setSyncLevel_freeIndex (s : State) (v : Option Level) :
    (s.setSyncLevel v).freeIndex = s.freeIndex := rfl
@[simp] theorem State.setSyncLevel_pending (s : State) (v : Option Level) :
    (s.setSyncLevel v).pending = s.pending := rfl

@[simp] theorem State.setUrgent_port (s : State) (q : List Slot) : (s.setUrgent q).port = s.port := rfl
@[simp] theorem State.setUrgent_table (s : State) (q : List Slot) : (s.setUrgent q).table = s.table := rfl
@[simp] theorem State.setUrgent_rounds (s : State) (q : List Slot) : (s.setUrgent q).rounds = s.rounds := rfl
@[simp] theorem State.setUrgent_timeBase (s : State) (q : List Slot) : (s.setUrgent q).timeBase = s.timeBase := rfl
@[simp] theorem State.setUrgent_syncLevel (s : State) (q : List Slot) : (s.setUrgent q).syncLevel = s.syncLevel := rfl
@[simp] theorem State.setUrgent_urgent (s : State) (q : List Slot) : (s.setUrgent q).urgent = q := rfl
@[simp] theorem State.setUrgent_engines (s : State) (q : List Slot) : (s.setUrgent q).engines = s.engines := rfl
@[simp] theorem State.setUrgent_burstLimit (s : State) (q : List Slot) :
    (s.setUrgent q).burstLimit = s.burstLimit := rfl
@[simp] theorem State.setUrgent_store (s : State) (q : List Slot) : (s.setUrgent q).store = s.store := rfl
@[simp] theorem State.setUrgent_missed (s : State) (q : List Slot) : (s.setUrgent q).missed = s.missed := rfl
@[simp] theorem State.setUrgent_nodes (s : State) (q : List Slot) : (s.setUrgent q).nodes = s.nodes := rfl
@[simp] theorem State.setUrgent_health (s : State) (q : List Slot) : (s.setUrgent q).health = s.health := rfl
@[simp] theorem State.setUrgent_interrupts (s : State) (q : List Slot) :
    (s.setUrgent q).interrupts = s.interrupts := rfl
@[simp] theorem State.setUrgent_resetHeld (s : State) (q : List Slot) : (s.setUrgent q).resetHeld = s.resetHeld := rfl
@[simp] theorem State.setUrgent_clkinRunning (s : State) (q : List Slot) :
    (s.setUrgent q).clkinRunning = s.clkinRunning := rfl
@[simp] theorem State.setUrgent_freeIndex (s : State) (q : List Slot) : (s.setUrgent q).freeIndex = s.freeIndex := rfl
@[simp] theorem State.setUrgent_pending (s : State) (q : List Slot) : (s.setUrgent q).pending = s.pending := rfl

@[simp] theorem State.setEngine_port (s : State) (l : Line) (e : Engine) : (s.setEngine l e).port = s.port := rfl
@[simp] theorem State.setEngine_table (s : State) (l : Line) (e : Engine) : (s.setEngine l e).table = s.table := rfl
@[simp] theorem State.setEngine_rounds (s : State) (l : Line) (e : Engine) : (s.setEngine l e).rounds = s.rounds := rfl
@[simp] theorem State.setEngine_timeBase (s : State) (l : Line) (e : Engine) :
    (s.setEngine l e).timeBase = s.timeBase := rfl
@[simp] theorem State.setEngine_syncLevel (s : State) (l : Line) (e : Engine) :
    (s.setEngine l e).syncLevel = s.syncLevel := rfl
@[simp] theorem State.setEngine_urgent (s : State) (l : Line) (e : Engine) : (s.setEngine l e).urgent = s.urgent := rfl
@[simp] theorem State.setEngine_engines (s : State) (l : Line) (e : Engine) :
    (s.setEngine l e).engines = s.engines.set l e := rfl
@[simp] theorem State.setEngine_burstLimit (s : State) (l : Line) (e : Engine) :
    (s.setEngine l e).burstLimit = s.burstLimit := rfl
@[simp] theorem State.setEngine_store (s : State) (l : Line) (e : Engine) : (s.setEngine l e).store = s.store := rfl
@[simp] theorem State.setEngine_missed (s : State) (l : Line) (e : Engine) : (s.setEngine l e).missed = s.missed := rfl
@[simp] theorem State.setEngine_nodes (s : State) (l : Line) (e : Engine) : (s.setEngine l e).nodes = s.nodes := rfl
@[simp] theorem State.setEngine_health (s : State) (l : Line) (e : Engine) : (s.setEngine l e).health = s.health := rfl
@[simp] theorem State.setEngine_interrupts (s : State) (l : Line) (e : Engine) :
    (s.setEngine l e).interrupts = s.interrupts := rfl
@[simp] theorem State.setEngine_resetHeld (s : State) (l : Line) (e : Engine) :
    (s.setEngine l e).resetHeld = s.resetHeld := rfl
@[simp] theorem State.setEngine_clkinRunning (s : State) (l : Line) (e : Engine) :
    (s.setEngine l e).clkinRunning = s.clkinRunning := rfl
@[simp] theorem State.setEngine_freeIndex (s : State) (l : Line) (e : Engine) :
    (s.setEngine l e).freeIndex = s.freeIndex := rfl
@[simp] theorem State.setEngine_pending (s : State) (l : Line) (e : Engine) :
    (s.setEngine l e).pending = s.pending := rfl

@[simp] theorem State.setBurstLimit_port (s : State) (n : Nat) : (s.setBurstLimit n).port = s.port := rfl
@[simp] theorem State.setBurstLimit_table (s : State) (n : Nat) : (s.setBurstLimit n).table = s.table := rfl
@[simp] theorem State.setBurstLimit_rounds (s : State) (n : Nat) : (s.setBurstLimit n).rounds = s.rounds := rfl
@[simp] theorem State.setBurstLimit_timeBase (s : State) (n : Nat) : (s.setBurstLimit n).timeBase = s.timeBase := rfl
@[simp] theorem State.setBurstLimit_syncLevel (s : State) (n : Nat) : (s.setBurstLimit n).syncLevel = s.syncLevel := rfl
@[simp] theorem State.setBurstLimit_urgent (s : State) (n : Nat) : (s.setBurstLimit n).urgent = s.urgent := rfl
@[simp] theorem State.setBurstLimit_engines (s : State) (n : Nat) : (s.setBurstLimit n).engines = s.engines := rfl
@[simp] theorem State.setBurstLimit_burstLimit (s : State) (n : Nat) : (s.setBurstLimit n).burstLimit = n := rfl
@[simp] theorem State.setBurstLimit_store (s : State) (n : Nat) : (s.setBurstLimit n).store = s.store := rfl
@[simp] theorem State.setBurstLimit_missed (s : State) (n : Nat) : (s.setBurstLimit n).missed = s.missed := rfl
@[simp] theorem State.setBurstLimit_nodes (s : State) (n : Nat) : (s.setBurstLimit n).nodes = s.nodes := rfl
@[simp] theorem State.setBurstLimit_health (s : State) (n : Nat) : (s.setBurstLimit n).health = s.health := rfl
@[simp] theorem State.setBurstLimit_interrupts (s : State) (n : Nat) :
    (s.setBurstLimit n).interrupts = s.interrupts := rfl
@[simp] theorem State.setBurstLimit_resetHeld (s : State) (n : Nat) : (s.setBurstLimit n).resetHeld = s.resetHeld := rfl
@[simp] theorem State.setBurstLimit_clkinRunning (s : State) (n : Nat) :
    (s.setBurstLimit n).clkinRunning = s.clkinRunning := rfl
@[simp] theorem State.setBurstLimit_freeIndex (s : State) (n : Nat) : (s.setBurstLimit n).freeIndex = s.freeIndex := rfl
@[simp] theorem State.setBurstLimit_pending (s : State) (n : Nat) : (s.setBurstLimit n).pending = s.pending := rfl

@[simp] theorem State.setStore_port (s : State) (r : List Record) : (s.setStore r).port = s.port := rfl
@[simp] theorem State.setStore_table (s : State) (r : List Record) : (s.setStore r).table = s.table := rfl
@[simp] theorem State.setStore_rounds (s : State) (r : List Record) : (s.setStore r).rounds = s.rounds := rfl
@[simp] theorem State.setStore_timeBase (s : State) (r : List Record) : (s.setStore r).timeBase = s.timeBase := rfl
@[simp] theorem State.setStore_syncLevel (s : State) (r : List Record) : (s.setStore r).syncLevel = s.syncLevel := rfl
@[simp] theorem State.setStore_urgent (s : State) (r : List Record) : (s.setStore r).urgent = s.urgent := rfl
@[simp] theorem State.setStore_engines (s : State) (r : List Record) : (s.setStore r).engines = s.engines := rfl
@[simp] theorem State.setStore_burstLimit (s : State) (r : List Record) :
    (s.setStore r).burstLimit = s.burstLimit := rfl
@[simp] theorem State.setStore_store (s : State) (r : List Record) : (s.setStore r).store = r := rfl
@[simp] theorem State.setStore_missed (s : State) (r : List Record) : (s.setStore r).missed = s.missed := rfl
@[simp] theorem State.setStore_nodes (s : State) (r : List Record) : (s.setStore r).nodes = s.nodes := rfl
@[simp] theorem State.setStore_health (s : State) (r : List Record) : (s.setStore r).health = s.health := rfl
@[simp] theorem State.setStore_interrupts (s : State) (r : List Record) :
    (s.setStore r).interrupts = s.interrupts := rfl
@[simp] theorem State.setStore_resetHeld (s : State) (r : List Record) : (s.setStore r).resetHeld = s.resetHeld := rfl
@[simp] theorem State.setStore_clkinRunning (s : State) (r : List Record) :
    (s.setStore r).clkinRunning = s.clkinRunning := rfl
@[simp] theorem State.setStore_freeIndex (s : State) (r : List Record) : (s.setStore r).freeIndex = s.freeIndex := rfl
@[simp] theorem State.setStore_pending (s : State) (r : List Record) : (s.setStore r).pending = s.pending := rfl

@[simp] theorem State.setMissed_port (s : State) (v : Vector Nat 32) : (s.setMissed v).port = s.port := rfl
@[simp] theorem State.setMissed_table (s : State) (v : Vector Nat 32) : (s.setMissed v).table = s.table := rfl
@[simp] theorem State.setMissed_rounds (s : State) (v : Vector Nat 32) : (s.setMissed v).rounds = s.rounds := rfl
@[simp] theorem State.setMissed_timeBase (s : State) (v : Vector Nat 32) : (s.setMissed v).timeBase = s.timeBase := rfl
@[simp] theorem State.setMissed_syncLevel (s : State) (v : Vector Nat 32) :
    (s.setMissed v).syncLevel = s.syncLevel := rfl
@[simp] theorem State.setMissed_urgent (s : State) (v : Vector Nat 32) : (s.setMissed v).urgent = s.urgent := rfl
@[simp] theorem State.setMissed_engines (s : State) (v : Vector Nat 32) : (s.setMissed v).engines = s.engines := rfl
@[simp] theorem State.setMissed_burstLimit (s : State) (v : Vector Nat 32) :
    (s.setMissed v).burstLimit = s.burstLimit := rfl
@[simp] theorem State.setMissed_store (s : State) (v : Vector Nat 32) : (s.setMissed v).store = s.store := rfl
@[simp] theorem State.setMissed_missed (s : State) (v : Vector Nat 32) : (s.setMissed v).missed = v := rfl
@[simp] theorem State.setMissed_nodes (s : State) (v : Vector Nat 32) : (s.setMissed v).nodes = s.nodes := rfl
@[simp] theorem State.setMissed_health (s : State) (v : Vector Nat 32) : (s.setMissed v).health = s.health := rfl
@[simp] theorem State.setMissed_interrupts (s : State) (v : Vector Nat 32) :
    (s.setMissed v).interrupts = s.interrupts := rfl
@[simp] theorem State.setMissed_resetHeld (s : State) (v : Vector Nat 32) :
    (s.setMissed v).resetHeld = s.resetHeld := rfl
@[simp] theorem State.setMissed_clkinRunning (s : State) (v : Vector Nat 32) :
    (s.setMissed v).clkinRunning = s.clkinRunning := rfl
@[simp] theorem State.setMissed_freeIndex (s : State) (v : Vector Nat 32) :
    (s.setMissed v).freeIndex = s.freeIndex := rfl
@[simp] theorem State.setMissed_pending (s : State) (v : Vector Nat 32) : (s.setMissed v).pending = s.pending := rfl

@[simp] theorem State.setNode_port (s : State) (l : Line) (i : Fin 126) (r : NodeRecord) :
    (s.setNode l i r).port = s.port := rfl
@[simp] theorem State.setNode_table (s : State) (l : Line) (i : Fin 126) (r : NodeRecord) :
    (s.setNode l i r).table = s.table := rfl
@[simp] theorem State.setNode_rounds (s : State) (l : Line) (i : Fin 126) (r : NodeRecord) :
    (s.setNode l i r).rounds = s.rounds := rfl
@[simp] theorem State.setNode_timeBase (s : State) (l : Line) (i : Fin 126) (r : NodeRecord) :
    (s.setNode l i r).timeBase = s.timeBase := rfl
@[simp] theorem State.setNode_syncLevel (s : State) (l : Line) (i : Fin 126) (r : NodeRecord) :
    (s.setNode l i r).syncLevel = s.syncLevel := rfl
@[simp] theorem State.setNode_urgent (s : State) (l : Line) (i : Fin 126) (r : NodeRecord) :
    (s.setNode l i r).urgent = s.urgent := rfl
@[simp] theorem State.setNode_engines (s : State) (l : Line) (i : Fin 126) (r : NodeRecord) :
    (s.setNode l i r).engines = s.engines := rfl
@[simp] theorem State.setNode_burstLimit (s : State) (l : Line) (i : Fin 126) (r : NodeRecord) :
    (s.setNode l i r).burstLimit = s.burstLimit := rfl
@[simp] theorem State.setNode_store (s : State) (l : Line) (i : Fin 126) (r : NodeRecord) :
    (s.setNode l i r).store = s.store := rfl
@[simp] theorem State.setNode_missed (s : State) (l : Line) (i : Fin 126) (r : NodeRecord) :
    (s.setNode l i r).missed = s.missed := rfl
@[simp] theorem State.setNode_nodes (s : State) (l : Line) (i : Fin 126) (r : NodeRecord) :
    (s.setNode l i r).nodes = s.nodes.set l ((s.nodes.get l).set i r) := rfl
@[simp] theorem State.setNode_health (s : State) (l : Line) (i : Fin 126) (r : NodeRecord) :
    (s.setNode l i r).health = s.health := rfl
@[simp] theorem State.setNode_interrupts (s : State) (l : Line) (i : Fin 126) (r : NodeRecord) :
    (s.setNode l i r).interrupts = s.interrupts := rfl
@[simp] theorem State.setNode_resetHeld (s : State) (l : Line) (i : Fin 126) (r : NodeRecord) :
    (s.setNode l i r).resetHeld = s.resetHeld := rfl
@[simp] theorem State.setNode_clkinRunning (s : State) (l : Line) (i : Fin 126) (r : NodeRecord) :
    (s.setNode l i r).clkinRunning = s.clkinRunning := rfl
@[simp] theorem State.setNode_freeIndex (s : State) (l : Line) (i : Fin 126) (r : NodeRecord) :
    (s.setNode l i r).freeIndex = s.freeIndex := rfl
@[simp] theorem State.setNode_pending (s : State) (l : Line) (i : Fin 126) (r : NodeRecord) :
    (s.setNode l i r).pending = s.pending := rfl

@[simp] theorem State.setHealth_port (s : State) (t : Thresholds) : (s.setHealth t).port = s.port := rfl
@[simp] theorem State.setHealth_table (s : State) (t : Thresholds) : (s.setHealth t).table = s.table := rfl
@[simp] theorem State.setHealth_rounds (s : State) (t : Thresholds) : (s.setHealth t).rounds = s.rounds := rfl
@[simp] theorem State.setHealth_timeBase (s : State) (t : Thresholds) : (s.setHealth t).timeBase = s.timeBase := rfl
@[simp] theorem State.setHealth_syncLevel (s : State) (t : Thresholds) : (s.setHealth t).syncLevel = s.syncLevel := rfl
@[simp] theorem State.setHealth_urgent (s : State) (t : Thresholds) : (s.setHealth t).urgent = s.urgent := rfl
@[simp] theorem State.setHealth_engines (s : State) (t : Thresholds) : (s.setHealth t).engines = s.engines := rfl
@[simp] theorem State.setHealth_burstLimit (s : State) (t : Thresholds) :
    (s.setHealth t).burstLimit = s.burstLimit := rfl
@[simp] theorem State.setHealth_store (s : State) (t : Thresholds) : (s.setHealth t).store = s.store := rfl
@[simp] theorem State.setHealth_missed (s : State) (t : Thresholds) : (s.setHealth t).missed = s.missed := rfl
@[simp] theorem State.setHealth_nodes (s : State) (t : Thresholds) : (s.setHealth t).nodes = s.nodes := rfl
@[simp] theorem State.setHealth_health (s : State) (t : Thresholds) : (s.setHealth t).health = t := rfl
@[simp] theorem State.setHealth_interrupts (s : State) (t : Thresholds) :
    (s.setHealth t).interrupts = s.interrupts := rfl
@[simp] theorem State.setHealth_resetHeld (s : State) (t : Thresholds) : (s.setHealth t).resetHeld = s.resetHeld := rfl
@[simp] theorem State.setHealth_clkinRunning (s : State) (t : Thresholds) :
    (s.setHealth t).clkinRunning = s.clkinRunning := rfl
@[simp] theorem State.setHealth_freeIndex (s : State) (t : Thresholds) : (s.setHealth t).freeIndex = s.freeIndex := rfl
@[simp] theorem State.setHealth_pending (s : State) (t : Thresholds) : (s.setHealth t).pending = s.pending := rfl

@[simp] theorem State.setInterrupts_port (s : State) (u : InterruptUnit) : (s.setInterrupts u).port = s.port := rfl
@[simp] theorem State.setInterrupts_table (s : State) (u : InterruptUnit) : (s.setInterrupts u).table = s.table := rfl
@[simp] theorem State.setInterrupts_rounds (s : State) (u : InterruptUnit) :
    (s.setInterrupts u).rounds = s.rounds := rfl
@[simp] theorem State.setInterrupts_timeBase (s : State) (u : InterruptUnit) :
    (s.setInterrupts u).timeBase = s.timeBase := rfl
@[simp] theorem State.setInterrupts_syncLevel (s : State) (u : InterruptUnit) :
    (s.setInterrupts u).syncLevel = s.syncLevel := rfl
@[simp] theorem State.setInterrupts_urgent (s : State) (u : InterruptUnit) :
    (s.setInterrupts u).urgent = s.urgent := rfl
@[simp] theorem State.setInterrupts_engines (s : State) (u : InterruptUnit) :
    (s.setInterrupts u).engines = s.engines := rfl
@[simp] theorem State.setInterrupts_burstLimit (s : State) (u : InterruptUnit) :
    (s.setInterrupts u).burstLimit = s.burstLimit := rfl
@[simp] theorem State.setInterrupts_store (s : State) (u : InterruptUnit) : (s.setInterrupts u).store = s.store := rfl
@[simp] theorem State.setInterrupts_missed (s : State) (u : InterruptUnit) :
    (s.setInterrupts u).missed = s.missed := rfl
@[simp] theorem State.setInterrupts_nodes (s : State) (u : InterruptUnit) : (s.setInterrupts u).nodes = s.nodes := rfl
@[simp] theorem State.setInterrupts_health (s : State) (u : InterruptUnit) :
    (s.setInterrupts u).health = s.health := rfl
@[simp] theorem State.setInterrupts_interrupts (s : State) (u : InterruptUnit) :
    (s.setInterrupts u).interrupts = u := rfl
@[simp] theorem State.setInterrupts_resetHeld (s : State) (u : InterruptUnit) :
    (s.setInterrupts u).resetHeld = s.resetHeld := rfl
@[simp] theorem State.setInterrupts_clkinRunning (s : State) (u : InterruptUnit) :
    (s.setInterrupts u).clkinRunning = s.clkinRunning := rfl
@[simp] theorem State.setInterrupts_freeIndex (s : State) (u : InterruptUnit) :
    (s.setInterrupts u).freeIndex = s.freeIndex := rfl
@[simp] theorem State.setInterrupts_pending (s : State) (u : InterruptUnit) :
    (s.setInterrupts u).pending = s.pending := rfl

@[simp] theorem State.setResetHeld_port (s : State) (b : Bool) : (s.setResetHeld b).port = s.port := rfl
@[simp] theorem State.setResetHeld_table (s : State) (b : Bool) : (s.setResetHeld b).table = s.table := rfl
@[simp] theorem State.setResetHeld_rounds (s : State) (b : Bool) : (s.setResetHeld b).rounds = s.rounds := rfl
@[simp] theorem State.setResetHeld_timeBase (s : State) (b : Bool) : (s.setResetHeld b).timeBase = s.timeBase := rfl
@[simp] theorem State.setResetHeld_syncLevel (s : State) (b : Bool) : (s.setResetHeld b).syncLevel = s.syncLevel := rfl
@[simp] theorem State.setResetHeld_urgent (s : State) (b : Bool) : (s.setResetHeld b).urgent = s.urgent := rfl
@[simp] theorem State.setResetHeld_engines (s : State) (b : Bool) : (s.setResetHeld b).engines = s.engines := rfl
@[simp] theorem State.setResetHeld_burstLimit (s : State) (b : Bool) :
    (s.setResetHeld b).burstLimit = s.burstLimit := rfl
@[simp] theorem State.setResetHeld_store (s : State) (b : Bool) : (s.setResetHeld b).store = s.store := rfl
@[simp] theorem State.setResetHeld_missed (s : State) (b : Bool) : (s.setResetHeld b).missed = s.missed := rfl
@[simp] theorem State.setResetHeld_nodes (s : State) (b : Bool) : (s.setResetHeld b).nodes = s.nodes := rfl
@[simp] theorem State.setResetHeld_health (s : State) (b : Bool) : (s.setResetHeld b).health = s.health := rfl
@[simp] theorem State.setResetHeld_interrupts (s : State) (b : Bool) :
    (s.setResetHeld b).interrupts = s.interrupts := rfl
@[simp] theorem State.setResetHeld_resetHeld (s : State) (b : Bool) : (s.setResetHeld b).resetHeld = b := rfl
@[simp] theorem State.setResetHeld_clkinRunning (s : State) (b : Bool) :
    (s.setResetHeld b).clkinRunning = s.clkinRunning := rfl
@[simp] theorem State.setResetHeld_freeIndex (s : State) (b : Bool) : (s.setResetHeld b).freeIndex = s.freeIndex := rfl
@[simp] theorem State.setResetHeld_pending (s : State) (b : Bool) : (s.setResetHeld b).pending = s.pending := rfl

@[simp] theorem State.setClkinRunning_port (s : State) (b : Bool) : (s.setClkinRunning b).port = s.port := rfl
@[simp] theorem State.setClkinRunning_table (s : State) (b : Bool) : (s.setClkinRunning b).table = s.table := rfl
@[simp] theorem State.setClkinRunning_rounds (s : State) (b : Bool) : (s.setClkinRunning b).rounds = s.rounds := rfl
@[simp] theorem State.setClkinRunning_timeBase (s : State) (b : Bool) :
    (s.setClkinRunning b).timeBase = s.timeBase := rfl
@[simp] theorem State.setClkinRunning_syncLevel (s : State) (b : Bool) :
    (s.setClkinRunning b).syncLevel = s.syncLevel := rfl
@[simp] theorem State.setClkinRunning_urgent (s : State) (b : Bool) : (s.setClkinRunning b).urgent = s.urgent := rfl
@[simp] theorem State.setClkinRunning_engines (s : State) (b : Bool) : (s.setClkinRunning b).engines = s.engines := rfl
@[simp] theorem State.setClkinRunning_burstLimit (s : State) (b : Bool) :
    (s.setClkinRunning b).burstLimit = s.burstLimit := rfl
@[simp] theorem State.setClkinRunning_store (s : State) (b : Bool) : (s.setClkinRunning b).store = s.store := rfl
@[simp] theorem State.setClkinRunning_missed (s : State) (b : Bool) : (s.setClkinRunning b).missed = s.missed := rfl
@[simp] theorem State.setClkinRunning_nodes (s : State) (b : Bool) : (s.setClkinRunning b).nodes = s.nodes := rfl
@[simp] theorem State.setClkinRunning_health (s : State) (b : Bool) : (s.setClkinRunning b).health = s.health := rfl
@[simp] theorem State.setClkinRunning_interrupts (s : State) (b : Bool) :
    (s.setClkinRunning b).interrupts = s.interrupts := rfl
@[simp] theorem State.setClkinRunning_resetHeld (s : State) (b : Bool) :
    (s.setClkinRunning b).resetHeld = s.resetHeld := rfl
@[simp] theorem State.setClkinRunning_clkinRunning (s : State) (b : Bool) :
    (s.setClkinRunning b).clkinRunning = b := rfl
@[simp] theorem State.setClkinRunning_freeIndex (s : State) (b : Bool) :
    (s.setClkinRunning b).freeIndex = s.freeIndex := rfl
@[simp] theorem State.setClkinRunning_pending (s : State) (b : Bool) : (s.setClkinRunning b).pending = s.pending := rfl

@[simp] theorem State.setFreeIndex_port (s : State) (n : Nat) : (s.setFreeIndex n).port = s.port := rfl
@[simp] theorem State.setFreeIndex_table (s : State) (n : Nat) : (s.setFreeIndex n).table = s.table := rfl
@[simp] theorem State.setFreeIndex_rounds (s : State) (n : Nat) : (s.setFreeIndex n).rounds = s.rounds := rfl
@[simp] theorem State.setFreeIndex_timeBase (s : State) (n : Nat) : (s.setFreeIndex n).timeBase = s.timeBase := rfl
@[simp] theorem State.setFreeIndex_syncLevel (s : State) (n : Nat) : (s.setFreeIndex n).syncLevel = s.syncLevel := rfl
@[simp] theorem State.setFreeIndex_urgent (s : State) (n : Nat) : (s.setFreeIndex n).urgent = s.urgent := rfl
@[simp] theorem State.setFreeIndex_engines (s : State) (n : Nat) : (s.setFreeIndex n).engines = s.engines := rfl
@[simp] theorem State.setFreeIndex_burstLimit (s : State) (n : Nat) :
    (s.setFreeIndex n).burstLimit = s.burstLimit := rfl
@[simp] theorem State.setFreeIndex_store (s : State) (n : Nat) : (s.setFreeIndex n).store = s.store := rfl
@[simp] theorem State.setFreeIndex_missed (s : State) (n : Nat) : (s.setFreeIndex n).missed = s.missed := rfl
@[simp] theorem State.setFreeIndex_nodes (s : State) (n : Nat) : (s.setFreeIndex n).nodes = s.nodes := rfl
@[simp] theorem State.setFreeIndex_health (s : State) (n : Nat) : (s.setFreeIndex n).health = s.health := rfl
@[simp] theorem State.setFreeIndex_interrupts (s : State) (n : Nat) :
    (s.setFreeIndex n).interrupts = s.interrupts := rfl
@[simp] theorem State.setFreeIndex_resetHeld (s : State) (n : Nat) : (s.setFreeIndex n).resetHeld = s.resetHeld := rfl
@[simp] theorem State.setFreeIndex_clkinRunning (s : State) (n : Nat) :
    (s.setFreeIndex n).clkinRunning = s.clkinRunning := rfl
@[simp] theorem State.setFreeIndex_freeIndex (s : State) (n : Nat) : (s.setFreeIndex n).freeIndex = n := rfl
@[simp] theorem State.setFreeIndex_pending (s : State) (n : Nat) : (s.setFreeIndex n).pending = s.pending := rfl

@[simp] theorem State.setPending_port (s : State) (q : List Instr) : (s.setPending q).port = s.port := rfl
@[simp] theorem State.setPending_table (s : State) (q : List Instr) : (s.setPending q).table = s.table := rfl
@[simp] theorem State.setPending_rounds (s : State) (q : List Instr) : (s.setPending q).rounds = s.rounds := rfl
@[simp] theorem State.setPending_timeBase (s : State) (q : List Instr) : (s.setPending q).timeBase = s.timeBase := rfl
@[simp] theorem State.setPending_syncLevel (s : State) (q : List Instr) :
    (s.setPending q).syncLevel = s.syncLevel := rfl
@[simp] theorem State.setPending_urgent (s : State) (q : List Instr) : (s.setPending q).urgent = s.urgent := rfl
@[simp] theorem State.setPending_engines (s : State) (q : List Instr) : (s.setPending q).engines = s.engines := rfl
@[simp] theorem State.setPending_burstLimit (s : State) (q : List Instr) :
    (s.setPending q).burstLimit = s.burstLimit := rfl
@[simp] theorem State.setPending_store (s : State) (q : List Instr) : (s.setPending q).store = s.store := rfl
@[simp] theorem State.setPending_missed (s : State) (q : List Instr) : (s.setPending q).missed = s.missed := rfl
@[simp] theorem State.setPending_nodes (s : State) (q : List Instr) : (s.setPending q).nodes = s.nodes := rfl
@[simp] theorem State.setPending_health (s : State) (q : List Instr) : (s.setPending q).health = s.health := rfl
@[simp] theorem State.setPending_interrupts (s : State) (q : List Instr) :
    (s.setPending q).interrupts = s.interrupts := rfl
@[simp] theorem State.setPending_resetHeld (s : State) (q : List Instr) :
    (s.setPending q).resetHeld = s.resetHeld := rfl
@[simp] theorem State.setPending_clkinRunning (s : State) (q : List Instr) :
    (s.setPending q).clkinRunning = s.clkinRunning := rfl
@[simp] theorem State.setPending_freeIndex (s : State) (q : List Instr) :
    (s.setPending q).freeIndex = s.freeIndex := rfl
@[simp] theorem State.setPending_pending (s : State) (q : List Instr) : (s.setPending q).pending = q := rfl

/-! ### Engines, controllers and node records after an update -/

@[simp] theorem State.setPort_engine (s : State) (p : HostPort) (m : Line) : (s.setPort p).engine m = s.engine m := rfl
@[simp] theorem State.setPort_controller (s : State) (p : HostPort) (m : Line) :
    (s.setPort p).controller m = s.controller m := rfl
@[simp] theorem State.setPort_node (s : State) (p : HostPort) (m : Line) (j : Fin 126) :
    (s.setPort p).node m j = s.node m j := rfl
@[simp] theorem State.setPort_storeSum (s : State) (p : HostPort) : (s.setPort p).storeSum = s.storeSum := rfl

@[simp] theorem State.setTable_engine (s : State) (t : Vector Entry 32) (m : Line) :
    (s.setTable t).engine m = s.engine m := rfl
@[simp] theorem State.setTable_controller (s : State) (t : Vector Entry 32) (m : Line) :
    (s.setTable t).controller m = s.controller m := rfl
@[simp] theorem State.setTable_node (s : State) (t : Vector Entry 32) (m : Line) (j : Fin 126) :
    (s.setTable t).node m j = s.node m j := rfl
@[simp] theorem State.setTable_storeSum (s : State) (t : Vector Entry 32) : (s.setTable t).storeSum = s.storeSum := rfl

@[simp] theorem State.setController_engine (s : State) (l : Line) (c : Controller) (m : Line) :
    (s.setController l c).engine m = s.engine m := rfl
@[simp] theorem State.setController_node (s : State) (l : Line) (c : Controller) (m : Line) (j : Fin 126) :
    (s.setController l c).node m j = s.node m j := rfl
@[simp] theorem State.setController_storeSum (s : State) (l : Line) (c : Controller) :
    (s.setController l c).storeSum = s.storeSum := rfl

@[simp] theorem State.setTimeBase_engine (s : State) (t : TimeBase) (m : Line) :
    (s.setTimeBase t).engine m = s.engine m := rfl
@[simp] theorem State.setTimeBase_controller (s : State) (t : TimeBase) (m : Line) :
    (s.setTimeBase t).controller m = s.controller m := rfl
@[simp] theorem State.setTimeBase_node (s : State) (t : TimeBase) (m : Line) (j : Fin 126) :
    (s.setTimeBase t).node m j = s.node m j := rfl
@[simp] theorem State.setTimeBase_storeSum (s : State) (t : TimeBase) : (s.setTimeBase t).storeSum = s.storeSum := rfl

@[simp] theorem State.setSyncLevel_engine (s : State) (v : Option Level) (m : Line) :
    (s.setSyncLevel v).engine m = s.engine m := rfl
@[simp] theorem State.setSyncLevel_controller (s : State) (v : Option Level) (m : Line) :
    (s.setSyncLevel v).controller m = s.controller m := rfl
@[simp] theorem State.setSyncLevel_node (s : State) (v : Option Level) (m : Line) (j : Fin 126) :
    (s.setSyncLevel v).node m j = s.node m j := rfl
@[simp] theorem State.setSyncLevel_storeSum (s : State) (v : Option Level) :
    (s.setSyncLevel v).storeSum = s.storeSum := rfl

@[simp] theorem State.setUrgent_engine (s : State) (q : List Slot) (m : Line) :
    (s.setUrgent q).engine m = s.engine m := rfl
@[simp] theorem State.setUrgent_controller (s : State) (q : List Slot) (m : Line) :
    (s.setUrgent q).controller m = s.controller m := rfl
@[simp] theorem State.setUrgent_node (s : State) (q : List Slot) (m : Line) (j : Fin 126) :
    (s.setUrgent q).node m j = s.node m j := rfl

@[simp] theorem State.setEngine_controller (s : State) (l : Line) (e : Engine) (m : Line) :
    (s.setEngine l e).controller m = s.controller m := rfl
@[simp] theorem State.setEngine_node (s : State) (l : Line) (e : Engine) (m : Line) (j : Fin 126) :
    (s.setEngine l e).node m j = s.node m j := rfl
@[simp] theorem State.setEngine_storeSum (s : State) (l : Line) (e : Engine) :
    (s.setEngine l e).storeSum = s.storeSum := rfl

@[simp] theorem State.setBurstLimit_engine (s : State) (n : Nat) (m : Line) :
    (s.setBurstLimit n).engine m = s.engine m := rfl
@[simp] theorem State.setBurstLimit_controller (s : State) (n : Nat) (m : Line) :
    (s.setBurstLimit n).controller m = s.controller m := rfl
@[simp] theorem State.setBurstLimit_node (s : State) (n : Nat) (m : Line) (j : Fin 126) :
    (s.setBurstLimit n).node m j = s.node m j := rfl
@[simp] theorem State.setBurstLimit_storeSum (s : State) (n : Nat) : (s.setBurstLimit n).storeSum = s.storeSum := rfl

@[simp] theorem State.setStore_engine (s : State) (r : List Record) (m : Line) :
    (s.setStore r).engine m = s.engine m := rfl
@[simp] theorem State.setStore_controller (s : State) (r : List Record) (m : Line) :
    (s.setStore r).controller m = s.controller m := rfl
@[simp] theorem State.setStore_node (s : State) (r : List Record) (m : Line) (j : Fin 126) :
    (s.setStore r).node m j = s.node m j := rfl

@[simp] theorem State.setMissed_engine (s : State) (v : Vector Nat 32) (m : Line) :
    (s.setMissed v).engine m = s.engine m := rfl
@[simp] theorem State.setMissed_controller (s : State) (v : Vector Nat 32) (m : Line) :
    (s.setMissed v).controller m = s.controller m := rfl
@[simp] theorem State.setMissed_node (s : State) (v : Vector Nat 32) (m : Line) (j : Fin 126) :
    (s.setMissed v).node m j = s.node m j := rfl
@[simp] theorem State.setMissed_storeSum (s : State) (v : Vector Nat 32) : (s.setMissed v).storeSum = s.storeSum := rfl

@[simp] theorem State.setNode_engine (s : State) (l : Line) (i : Fin 126) (r : NodeRecord) (m : Line) :
    (s.setNode l i r).engine m = s.engine m := rfl
@[simp] theorem State.setNode_controller (s : State) (l : Line) (i : Fin 126) (r : NodeRecord) (m : Line) :
    (s.setNode l i r).controller m = s.controller m := rfl
@[simp] theorem State.setNode_storeSum (s : State) (l : Line) (i : Fin 126) (r : NodeRecord) :
    (s.setNode l i r).storeSum = s.storeSum := rfl

@[simp] theorem State.setHealth_engine (s : State) (t : Thresholds) (m : Line) :
    (s.setHealth t).engine m = s.engine m := rfl
@[simp] theorem State.setHealth_controller (s : State) (t : Thresholds) (m : Line) :
    (s.setHealth t).controller m = s.controller m := rfl
@[simp] theorem State.setHealth_node (s : State) (t : Thresholds) (m : Line) (j : Fin 126) :
    (s.setHealth t).node m j = s.node m j := rfl
@[simp] theorem State.setHealth_storeSum (s : State) (t : Thresholds) : (s.setHealth t).storeSum = s.storeSum := rfl

@[simp] theorem State.setInterrupts_engine (s : State) (u : InterruptUnit) (m : Line) :
    (s.setInterrupts u).engine m = s.engine m := rfl
@[simp] theorem State.setInterrupts_controller (s : State) (u : InterruptUnit) (m : Line) :
    (s.setInterrupts u).controller m = s.controller m := rfl
@[simp] theorem State.setInterrupts_node (s : State) (u : InterruptUnit) (m : Line) (j : Fin 126) :
    (s.setInterrupts u).node m j = s.node m j := rfl
@[simp] theorem State.setInterrupts_storeSum (s : State) (u : InterruptUnit) :
    (s.setInterrupts u).storeSum = s.storeSum := rfl

@[simp] theorem State.setResetHeld_engine (s : State) (b : Bool) (m : Line) :
    (s.setResetHeld b).engine m = s.engine m := rfl
@[simp] theorem State.setResetHeld_controller (s : State) (b : Bool) (m : Line) :
    (s.setResetHeld b).controller m = s.controller m := rfl
@[simp] theorem State.setResetHeld_node (s : State) (b : Bool) (m : Line) (j : Fin 126) :
    (s.setResetHeld b).node m j = s.node m j := rfl
@[simp] theorem State.setResetHeld_storeSum (s : State) (b : Bool) : (s.setResetHeld b).storeSum = s.storeSum := rfl

@[simp] theorem State.setClkinRunning_engine (s : State) (b : Bool) (m : Line) :
    (s.setClkinRunning b).engine m = s.engine m := rfl
@[simp] theorem State.setClkinRunning_controller (s : State) (b : Bool) (m : Line) :
    (s.setClkinRunning b).controller m = s.controller m := rfl
@[simp] theorem State.setClkinRunning_node (s : State) (b : Bool) (m : Line) (j : Fin 126) :
    (s.setClkinRunning b).node m j = s.node m j := rfl
@[simp] theorem State.setClkinRunning_storeSum (s : State) (b : Bool) :
    (s.setClkinRunning b).storeSum = s.storeSum := rfl

@[simp] theorem State.setFreeIndex_engine (s : State) (n : Nat) (m : Line) :
    (s.setFreeIndex n).engine m = s.engine m := rfl
@[simp] theorem State.setFreeIndex_controller (s : State) (n : Nat) (m : Line) :
    (s.setFreeIndex n).controller m = s.controller m := rfl
@[simp] theorem State.setFreeIndex_node (s : State) (n : Nat) (m : Line) (j : Fin 126) :
    (s.setFreeIndex n).node m j = s.node m j := rfl
@[simp] theorem State.setFreeIndex_storeSum (s : State) (n : Nat) : (s.setFreeIndex n).storeSum = s.storeSum := rfl

@[simp] theorem State.setPending_engine (s : State) (q : List Instr) (m : Line) :
    (s.setPending q).engine m = s.engine m := rfl
@[simp] theorem State.setPending_controller (s : State) (q : List Instr) (m : Line) :
    (s.setPending q).controller m = s.controller m := rfl
@[simp] theorem State.setPending_node (s : State) (q : List Instr) (m : Line) (j : Fin 126) :
    (s.setPending q).node m j = s.node m j := rfl
@[simp] theorem State.setPending_storeSum (s : State) (q : List Instr) : (s.setPending q).storeSum = s.storeSum := rfl

@[simp] theorem State.setEngine_engine_same (s : State) (l : Line) (e : Engine) : (s.setEngine l e).engine l = e := by
  simp [State.engine]

theorem State.setEngine_engine_ne (s : State) {l m : Line} (e : Engine) (h : m ≠ l) :
    (s.setEngine l e).engine m = s.engine m := PerLine.get_set_ne _ _ h

@[simp] theorem State.setController_controller_same (s : State) (l : Line) (c : Controller) :
    (s.setController l c).controller l = c := by
  simp [State.controller]

theorem State.setController_controller_ne (s : State) {l m : Line} (c : Controller) (h : m ≠ l) :
    (s.setController l c).controller m = s.controller m := PerLine.get_set_ne _ _ h

@[simp] theorem State.setNode_node_same (s : State) (l : Line) (i : Fin 126) (r : NodeRecord) :
    (s.setNode l i r).node l i = r := by
  simp [State.node]

theorem State.setNode_node (s : State) (l m : Line) (i j : Fin 126) (r : NodeRecord) :
    (s.setNode l i r).node m j = if m = l ∧ j = i then r else s.node m j := by
  simp only [State.node, State.setNode_nodes, PerLine.get_set]
  by_cases hm : m = l
  · subst hm
    simp only [if_true, true_and]
    by_cases hj : j = i
    · subst hj; simp
    · have : i.val ≠ j.val := fun h => hj (Fin.ext h.symm)
      simp [hj, this]
  · simp [hm]

theorem State.setNode_node_ne (s : State) {l m : Line} {i j : Fin 126} (r : NodeRecord) (h : ¬(m = l ∧ j = i)) :
    (s.setNode l i r).node m j = s.node m j := by
  rw [State.setNode_node, if_neg h]

@[simp] theorem State.setEngine_self (s : State) (l : Line) : s.setEngine l (s.engine l) = s := by
  simp [State.setEngine, State.engine]

@[simp] theorem State.setController_self (s : State) (l : Line) : s.setController l (s.controller l) = s := by
  simp [State.setController, State.controller]

/-! ### Updates by a function -/

@[simp] theorem State.updEngine_engine_same (s : State) (l : Line) (f : Engine → Engine) :
    (s.updEngine l f).engine l = f (s.engine l) := State.setEngine_engine_same _ _ _

theorem State.updEngine_engine_ne (s : State) {l m : Line} (f : Engine → Engine) (h : m ≠ l) :
    (s.updEngine l f).engine m = s.engine m := State.setEngine_engine_ne _ _ h

@[simp] theorem State.updController_controller_same (s : State) (l : Line) (f : Controller → Controller) :
    (s.updController l f).controller l = f (s.controller l) := State.setController_controller_same _ _ _

theorem State.updController_controller_ne (s : State) {l m : Line} (f : Controller → Controller) (h : m ≠ l) :
    (s.updController l f).controller m = s.controller m := State.setController_controller_ne _ _ h

@[simp] theorem State.updEngine_port (s : State) (l : Line) (f : Engine → Engine) : (s.updEngine l f).port = s.port := rfl
@[simp] theorem State.updEngine_table (s : State) (l : Line) (f : Engine → Engine) : (s.updEngine l f).table = s.table := rfl
@[simp] theorem State.updEngine_rounds (s : State) (l : Line) (f : Engine → Engine) : (s.updEngine l f).rounds = s.rounds := rfl
@[simp] theorem State.updEngine_timeBase (s : State) (l : Line) (f : Engine → Engine) : (s.updEngine l f).timeBase = s.timeBase := rfl
@[simp] theorem State.updEngine_syncLevel (s : State) (l : Line) (f : Engine → Engine) : (s.updEngine l f).syncLevel = s.syncLevel := rfl
@[simp] theorem State.updEngine_urgent (s : State) (l : Line) (f : Engine → Engine) : (s.updEngine l f).urgent = s.urgent := rfl
@[simp] theorem State.updEngine_burstLimit (s : State) (l : Line) (f : Engine → Engine) : (s.updEngine l f).burstLimit = s.burstLimit := rfl
@[simp] theorem State.updEngine_store (s : State) (l : Line) (f : Engine → Engine) : (s.updEngine l f).store = s.store := rfl
@[simp] theorem State.updEngine_missed (s : State) (l : Line) (f : Engine → Engine) : (s.updEngine l f).missed = s.missed := rfl
@[simp] theorem State.updEngine_nodes (s : State) (l : Line) (f : Engine → Engine) : (s.updEngine l f).nodes = s.nodes := rfl
@[simp] theorem State.updEngine_health (s : State) (l : Line) (f : Engine → Engine) : (s.updEngine l f).health = s.health := rfl
@[simp] theorem State.updEngine_interrupts (s : State) (l : Line) (f : Engine → Engine) : (s.updEngine l f).interrupts = s.interrupts := rfl
@[simp] theorem State.updEngine_resetHeld (s : State) (l : Line) (f : Engine → Engine) : (s.updEngine l f).resetHeld = s.resetHeld := rfl
@[simp] theorem State.updEngine_clkinRunning (s : State) (l : Line) (f : Engine → Engine) : (s.updEngine l f).clkinRunning = s.clkinRunning := rfl
@[simp] theorem State.updEngine_freeIndex (s : State) (l : Line) (f : Engine → Engine) : (s.updEngine l f).freeIndex = s.freeIndex := rfl
@[simp] theorem State.updEngine_pending (s : State) (l : Line) (f : Engine → Engine) : (s.updEngine l f).pending = s.pending := rfl

@[simp] theorem State.updController_port (s : State) (l : Line) (f : Controller → Controller) : (s.updController l f).port = s.port := rfl
@[simp] theorem State.updController_table (s : State) (l : Line) (f : Controller → Controller) : (s.updController l f).table = s.table := rfl
@[simp] theorem State.updController_timeBase (s : State) (l : Line) (f : Controller → Controller) : (s.updController l f).timeBase = s.timeBase := rfl
@[simp] theorem State.updController_syncLevel (s : State) (l : Line) (f : Controller → Controller) : (s.updController l f).syncLevel = s.syncLevel := rfl
@[simp] theorem State.updController_urgent (s : State) (l : Line) (f : Controller → Controller) : (s.updController l f).urgent = s.urgent := rfl
@[simp] theorem State.updController_engines (s : State) (l : Line) (f : Controller → Controller) : (s.updController l f).engines = s.engines := rfl
@[simp] theorem State.updController_burstLimit (s : State) (l : Line) (f : Controller → Controller) : (s.updController l f).burstLimit = s.burstLimit := rfl
@[simp] theorem State.updController_store (s : State) (l : Line) (f : Controller → Controller) : (s.updController l f).store = s.store := rfl
@[simp] theorem State.updController_missed (s : State) (l : Line) (f : Controller → Controller) : (s.updController l f).missed = s.missed := rfl
@[simp] theorem State.updController_nodes (s : State) (l : Line) (f : Controller → Controller) : (s.updController l f).nodes = s.nodes := rfl
@[simp] theorem State.updController_health (s : State) (l : Line) (f : Controller → Controller) : (s.updController l f).health = s.health := rfl
@[simp] theorem State.updController_interrupts (s : State) (l : Line) (f : Controller → Controller) : (s.updController l f).interrupts = s.interrupts := rfl
@[simp] theorem State.updController_resetHeld (s : State) (l : Line) (f : Controller → Controller) : (s.updController l f).resetHeld = s.resetHeld := rfl
@[simp] theorem State.updController_clkinRunning (s : State) (l : Line) (f : Controller → Controller) : (s.updController l f).clkinRunning = s.clkinRunning := rfl
@[simp] theorem State.updController_freeIndex (s : State) (l : Line) (f : Controller → Controller) : (s.updController l f).freeIndex = s.freeIndex := rfl
@[simp] theorem State.updController_pending (s : State) (l : Line) (f : Controller → Controller) : (s.updController l f).pending = s.pending := rfl

@[simp] theorem State.updEngine_controller (s : State) (l m : Line) (f : Engine → Engine) :
    (s.updEngine l f).controller m = s.controller m := rfl

@[simp] theorem State.updController_engine (s : State) (l m : Line) (f : Controller → Controller) :
    (s.updController l f).engine m = s.engine m := rfl

@[simp] theorem State.updEngine_node (s : State) (l m : Line) (j : Fin 126) (f : Engine → Engine) :
    (s.updEngine l f).node m j = s.node m j := rfl

@[simp] theorem State.updController_node (s : State) (l m : Line) (j : Fin 126) (f : Controller → Controller) :
    (s.updController l f).node m j = s.node m j := rfl

@[simp] theorem State.updEngine_storeSum (s : State) (l : Line) (f : Engine → Engine) :
    (s.updEngine l f).storeSum = s.storeSum := rfl

@[simp] theorem State.updController_storeSum (s : State) (l : Line) (f : Controller → Controller) :
    (s.updController l f).storeSum = s.storeSum := rfl

end Sys2Proof.Machine
end

