-- ==== Sys2Proof/Laws/Gates.lean ====
section
/-!
SUPPORT. What the gates do: a stopped clock, a held RESET, a busy decoder; and that no access touches the queue.
-/

namespace Sys2Proof.Machine

theorem clocked_running {s : State} (f : State → State) (h : s.clkinRunning = true) : clocked f s = f s := by
  simp [clocked, h]

theorem clocked_stopped {s : State} (f : State → State) (h : s.clkinRunning = false) : clocked f s = s := by
  simp [clocked, h]

theorem working_runs {s : State} (f : State → State) (h : s.clkinRunning = true) (h' : s.resetHeld = false) :
    working f s = f s := by
  simp [working, h, h']

theorem working_held {s : State} (f : State → State) (h : s.resetHeld = true) : working f s = s := by
  simp [working, h]

theorem working_stopped {s : State} (f : State → State) (h : s.clkinRunning = false) : working f s = s := by
  simp [working, h]

/-- A gated event either does nothing or is the event. -/
theorem working_cases (f : State → State) (s : State) :
    working f s = s ∨ (s.clkinRunning = true ∧ s.resetHeld = false ∧ working f s = f s) := by
  unfold working
  split
  · next h => simp at h; exact .inr ⟨h.1, h.2, rfl⟩
  · exact .inl rfl

theorem clocked_cases (f : State → State) (s : State) :
    clocked f s = s ∨ (s.clkinRunning = true ∧ clocked f s = f s) := by
  unfold clocked
  split
  · next h => exact .inr ⟨h, rfl⟩
  · exact .inl rfl

@[simp] theorem setRefusedBusy_busy (b : Bool) (s : State) : (setRefusedBusy b s).busy = s.busy := rfl

theorem busy_iff (s : State) : s.busy = true ↔ s.port.decoder ≠ .idle := by
  unfold State.busy
  cases s.port.decoder <;> simp

theorem busy_of_idle {s : State} (h : s.port.decoder = .idle) : s.busy = false := by simp [State.busy, h]

/-- A command written in IDLE is taken, which clears REFUSED_BUSY (R157). -/
theorem commandAccess_idle {s : State} (f : State → State) (h : s.clkinRunning = true) (h' : s.resetHeld = false)
    (hd : s.port.decoder = .idle) : commandAccess f s = f (setRefusedBusy false s) := by
  rw [commandAccess, working_runs _ h h', busy_of_idle hd]
  rfl

/-- A command written in EXECUTING sets REFUSED_BUSY and does nothing else (R159). -/
theorem commandAccess_busy {s : State} (f : State → State) (h : s.clkinRunning = true) (h' : s.resetHeld = false)
    (hb : s.busy = true) : commandAccess f s = setRefusedBusy true s := by
  rw [commandAccess, working_runs _ h h', hb]
  rfl

/-- Everything a COMMAND write can do. -/
theorem commandAccess_cases (f : State → State) (s : State) :
    commandAccess f s = s ∨ commandAccess f s = setRefusedBusy true s ∨
      (s.busy = false ∧ commandAccess f s = f (setRefusedBusy false s)) := by
  unfold commandAccess
  rcases working_cases (fun s => if s.busy then setRefusedBusy true s else f (setRefusedBusy false s)) s with h | ⟨-, -, h⟩
  · exact .inl h
  · rw [h]
    cases hb : s.busy with
    | true => exact .inr (.inl rfl)
    | false => exact .inr (.inr ⟨rfl, rfl⟩)

/-- Everything a read of the window can do. -/
theorem readAccess_cases (f : State → State) (s : State) :
    readAccess f s = s ∨ readAccess f s = driveData 0 s ∨
      (s.clkinRunning = true ∧ s.resetHeld = false ∧ readAccess f s = f s) := by
  unfold readAccess
  rcases clocked_cases (fun s => if s.resetHeld then driveData 0 s else f s) s with h | ⟨hc, h⟩
  · exact .inl h
  · rw [h]
    cases hr : s.resetHeld with
    | true => exact .inr (.inl rfl)
    | false => exact .inr (.inr ⟨hc, rfl, rfl⟩)

/-- What is neither the Host Port nor the Interrupt Unit is the same. -/
structure SameBlocks (s t : State) : Prop where
  table : t.table = s.table
  rounds : t.rounds = s.rounds
  timeBase : t.timeBase = s.timeBase
  syncLevel : t.syncLevel = s.syncLevel
  urgent : t.urgent = s.urgent
  engines : t.engines = s.engines
  burstLimit : t.burstLimit = s.burstLimit
  store : t.store = s.store
  missed : t.missed = s.missed
  nodes : t.nodes = s.nodes
  health : t.health = s.health
  resetHeld : t.resetHeld = s.resetHeld
  clkinRunning : t.clkinRunning = s.clkinRunning
  freeIndex : t.freeIndex = s.freeIndex
  pending : t.pending = s.pending

theorem SameBlocks.refl (s : State) : SameBlocks s s := by constructor <;> rfl

theorem SameBlocks.trans {s t u : State} (h : SameBlocks s t) (g : SameBlocks t u) : SameBlocks s u where
  table := g.table.trans h.table
  rounds := g.rounds.trans h.rounds
  timeBase := g.timeBase.trans h.timeBase
  syncLevel := g.syncLevel.trans h.syncLevel
  urgent := g.urgent.trans h.urgent
  engines := g.engines.trans h.engines
  burstLimit := g.burstLimit.trans h.burstLimit
  store := g.store.trans h.store
  missed := g.missed.trans h.missed
  nodes := g.nodes.trans h.nodes
  health := g.health.trans h.health
  resetHeld := g.resetHeld.trans h.resetHeld
  clkinRunning := g.clkinRunning.trans h.clkinRunning
  freeIndex := g.freeIndex.trans h.freeIndex
  pending := g.pending.trans h.pending

theorem SameBlocks.engine {s t : State} (h : SameBlocks s t) (l : Line) : t.engine l = s.engine l := by
  simp [State.engine, h.engines]

theorem SameBlocks.controller {s t : State} (h : SameBlocks s t) (l : Line) : t.controller l = s.controller l := by
  simp [State.controller, h.rounds]

theorem SameBlocks.node {s t : State} (h : SameBlocks s t) (l : Line) (i : Fin 126) : t.node l i = s.node l i := by
  simp [State.node, h.nodes]

theorem setPort_sameBlocks (s : State) (p : HostPort) : SameBlocks s (s.setPort p) := by constructor <;> rfl

theorem setInterrupts_sameBlocks (s : State) (u : InterruptUnit) : SameBlocks s (s.setInterrupts u) := by
  constructor <;> rfl

theorem setRefusedBusy_sameBlocks (b : Bool) (s : State) : SameBlocks s (setRefusedBusy b s) := setPort_sameBlocks _ _

theorem giveResult_sameBlocks (r : ResultCode) (s : State) : SameBlocks s (giveResult r s) := setPort_sameBlocks _ _

theorem loadStaging_sameBlocks (v : Vector Byte 32) (s : State) : SameBlocks s (loadStaging v s) :=
  setPort_sameBlocks _ _

theorem driveData_sameBlocks (v : Byte) (s : State) : SameBlocks s (driveData v s) := setPort_sameBlocks _ _

theorem setLatched_sameBlocks (f : Latched → Latched) (s : State) : SameBlocks s (setLatched f s) :=
  setInterrupts_sameBlocks _ _

theorem acknowledgeSources_sameBlocks (half : Half) (v : Byte) (s : State) :
    SameBlocks s (acknowledgeSources half v s) := by
  cases half <;> exact setLatched_sameBlocks _ _

theorem writeEnables_sameBlocks (half : Half) (v : Byte) (s : State) : SameBlocks s (writeEnables half v s) := by
  cases half <;> exact setInterrupts_sameBlocks _ _

end Sys2Proof.Machine
end

