-- ==== Sys2Proof/Laws/Choice.lean ====
section
/-!
SUPPORT. What the choice finds: the oldest QUEUED slot, the first entry that yields, or nothing; how a round ends; and
how a completion and a disable take slots out of the queue.
-/

namespace Sys2Proof.Machine

open Sys2Proof.Safety

/-! ### Slots -/

theorem waitsFor_iff (l : Line) (x : Slot) : Slot.waitsFor l x = true ↔ QueuedOn l x := by
  simp [Slot.waitsFor, QueuedOn]

/-- A queue split at its oldest QUEUED slot of the line: that slot is found, and marked in its place (R47). -/
theorem nextQueued_split (l : Line) (before : List Slot) (x : Slot) (rest : List Slot) (hx : QueuedOn l x)
    (hb : ∀ y ∈ before, ¬QueuedOn l y) :
    nextQueued l (before ++ x :: rest) = some x ∧
      markInFlight l (before ++ x :: rest) = before ++ { x with state := .inFlight } :: rest := by
  induction before with
  | nil => simp [nextQueued, markInFlight, (waitsFor_iff l x).2 hx]
  | cons y tail ih =>
    have hy : Slot.waitsFor l y = false := by
      rw [Bool.eq_false_iff, Ne, waitsFor_iff]
      exact hb y (by simp)
    obtain ⟨h1, h2⟩ := ih fun z hz => hb z (by simp [hz])
    exact ⟨by simpa [nextQueued, hy] using h1, by simp [markInFlight, hy, h2]⟩

theorem nextQueued_none (l : Line) (q : List Slot) (hb : ∀ y ∈ q, ¬QueuedOn l y) : nextQueued l q = none := by
  unfold nextQueued
  rw [List.find?_eq_none]
  intro y hy
  rw [waitsFor_iff]
  exact hb y hy

/-- A queue split at the line's first IN_FLIGHT slot loses that slot only (R49). -/
theorem removeInFlight_split (l : Line) (before : List Slot) (x : Slot) (rest : List Slot)
    (hx : x.line = l ∧ x.state = .inFlight) (hb : ∀ y ∈ before, ¬(y.line = l ∧ y.state = .inFlight)) :
    removeInFlight l (before ++ x :: rest) = before ++ rest := by
  induction before with
  | nil => simp [removeInFlight, Slot.onLine, hx]
  | cons y tail ih =>
    have hy : Slot.onLine l y = false := by
      rw [Bool.eq_false_iff]
      intro h
      exact hb y (by simp) (by simpa [Slot.onLine] using h)
    simpa [removeInFlight, hy] using ih fun z hz => hb z (by simp [hz])

/-! ### The walker -/

theorem mem_entriesFrom {cursor : Nat} {j : Fin 32} (h : j ∈ entriesFrom cursor) : cursor ≤ j.val := by
  unfold entriesFrom at h
  rw [List.mem_iff_getElem] at h
  obtain ⟨n, hn, rfl⟩ := h
  simp

/-- The entries from the cursor up, split at one of them. -/
theorem entriesFrom_split (cursor : Nat) (i : Fin 32) (h : cursor ≤ i.val) :
    ∃ before rest, entriesFrom cursor = before ++ i :: rest ∧ ∀ j ∈ before, cursor ≤ j.val ∧ j < i := by
  refine ⟨((List.finRange 32).take i.val).drop cursor, (List.finRange 32).drop (i.val + 1), ?_, ?_⟩
  · unfold entriesFrom
    have split : List.finRange 32 = (List.finRange 32).take i.val ++ i :: (List.finRange 32).drop (i.val + 1) := by
      conv_lhs => rw [← List.take_append_drop i.val (List.finRange 32)]
      congr 1
      rw [List.drop_eq_getElem_cons (by simp)]
      simp
    conv_lhs => rw [split]
    rw [List.drop_append_of_le_length (by simp; omega)]
  · intro j hj
    rw [List.mem_iff_getElem] at hj
    obtain ⟨n, hn, rfl⟩ := hj
    simp at hn ⊢
    rw [Fin.lt_def]
    simp
    omega

theorem entriesFrom_eq (cursor : Nat) : entriesFrom cursor = entriesAbove cursor := by
  unfold entriesFrom entriesAbove
  by_cases h : cursor ≤ 32
  · interval_cases cursor <;> decide +kernel
  · rw [List.drop_of_length_le (by simp; omega)]
    symm
    rw [List.filter_eq_nil_iff]
    intro j _
    simp
    omega

/-- The entries from the cursor up, split at one of them, with those before it named. -/
theorem entriesFrom_split_at (cursor : Nat) (i : Fin 32) (h : cursor ≤ i.val) :
    ∃ rest, entriesFrom cursor = (entriesAbove cursor).filter (fun j => j < i) ++ i :: rest := by
  obtain ⟨before, rest, hs, hb⟩ := entriesFrom_split cursor i h
  refine ⟨rest, ?_⟩
  have sorted : (before ++ i :: rest).Pairwise (· < ·) := by
    rw [← hs]
    exact (List.pairwise_lt_finRange 32).sublist (List.drop_sublist _ _)
  have hbefore : before.filter (fun j => decide (j < i)) = before :=
    List.filter_eq_self.2 fun j hj => by simpa using (hb j hj).2
  have hrest : rest.filter (fun j => decide (j < i)) = [] := by
    rw [List.filter_eq_nil_iff]
    intro j hj
    rw [List.pairwise_append] at sorted
    have := (List.pairwise_cons.1 sorted.2.1).1 j hj
    simp
    exact le_of_lt this
  rw [hs, ← entriesFrom_eq, hs, List.filter_append, List.filter_cons_of_neg (by simp), hbefore, hrest]
  simp

/-- A visit that does not yield passes the entry over (R6, R28, R85). -/
theorem visitEntry_passed (l : Line) (i : Fin 32) (s : State) (h : ¬Yields l i s) :
    visitEntry l i s = (passedOver l i s, false) := by
  unfold visitEntry passedOver
  dsimp only
  by_cases h1 : s.table[i].enabled = true ∧ s.table[i].line = l
  · rw [if_pos h1, if_pos h1]
    by_cases h2 : s.table[i].phase = 0
    · rw [if_pos h2, if_pos h2]
      have hr : ProbeRefused l i s := by
        by_contra hh
        exact h ⟨h1.1, h1.2, h2, hh⟩
      obtain ⟨⟨k, hk⟩, ha, ho, hc⟩ := hr
      have hb : 1 ≤ s.table[i].request.address.toNat ∧ s.table[i].request.address.toNat ≤ 126 := by
        simp only at ha
        omega
      obtain rfl := Nat.eq_sub_of_add_eq ha.symm
      rw [if_neg, dif_pos hb]
      · unfold offlineQuery nodeIndex
        rw [dif_pos hb]
        dsimp only
        rw [if_pos ⟨ho, Nat.pos_of_ne_zero hc⟩]
        rfl
      · intro e
        have := hb.2
        rw [e] at this
        simp at this
    · rw [if_neg h2, if_neg h2]
      rfl
  · rw [if_neg h1, if_neg h1]

/-- A visit that yields reloads the phase (R6, R28). -/
theorem visitEntry_yields (l : Line) (i : Fin 32) (s : State) (h : Yields l i s) :
    visitEntry l i s =
      ({ s with table := s.table.set i { s.table[i] with phase := s.table[i].divisor - 1 } }, true) := by
  unfold visitEntry
  dsimp only
  obtain ⟨h1, h2, h3, h4⟩ := h
  rw [if_pos ⟨h1, h2⟩, if_pos h3]
  split
  · rfl
  · unfold offlineQuery
    rcases hn : nodeIndex s.table[i].request.address with _ | k
    · rfl
    · dsimp only
      rw [if_neg]
      · rfl
      · rintro ⟨a, b⟩
        refine h4 ⟨k, ?_, a, Nat.pos_iff_ne_zero.1 b⟩
        unfold nodeIndex at hn
        split at hn
        · cases hn
          show _ = _ - 1 + 1
          omega
        · cases hn

/-- A scan that passes over every entry yields nothing (R28). -/
theorem scanEntries_passes (l : Line) (is : List (Fin 32)) (s t : State) (h : PassesOver l is s t) :
    scanEntries l is s = (t, none) := by
  induction is generalizing s with
  | nil =>
    cases h
    rfl
  | cons i rest ih =>
    unfold scanEntries
    rw [visitEntry_passed l i s h.1]
    exact ih _ h.2

/-- A scan that passes over what stands before an entry that yields ends there (R28). -/
theorem scanEntries_yields (l : Line) (before : List (Fin 32)) (i : Fin 32) (rest : List (Fin 32)) (s t : State)
    (h : PassesOver l before s t) (hy : Yields l i t) :
    scanEntries l (before ++ i :: rest) s =
      ({ t with table := t.table.set i { t.table[i] with phase := t.table[i].divisor - 1 } }, some i) := by
  induction before generalizing s with
  | nil =>
    obtain rfl : t = s := h
    rw [List.nil_append]
    unfold scanEntries
    rw [visitEntry_yields l i t hy]
  | cons j tail ih =>
    rw [List.cons_append]
    unfold scanEntries
    rw [visitEntry_passed l j s h.1]
    exact ih _ h.2

/-- A scan writes the phases and the countdowns only (R28). -/
theorem passesOver_frame {l : Line} {is : List (Fin 32)} {s t : State} (h : PassesOver l is s t) :
    t = { s with table := t.table, nodes := t.nodes } := by
  induction is generalizing s with
  | nil =>
    cases h
    rfl
  | cons i rest ih =>
    have one : passedOver l i s = { s with table := (passedOver l i s).table, nodes := (passedOver l i s).nodes } := by
      unfold passedOver
      dsimp only
      split
      · split <;> rfl
      · rfl
    rw [ih h.2, one]

/-- A controller that is not RUNNING, or whose gap runs, answers an ask with nothing and is not touched (R27, R32). -/
theorem askWalker_idle {l : Line} {s : State}
    (h : (s.controller l).state ≠ .running ∨ (s.controller l).gap ≠ none) : askWalker l s = (s, none) := by
  unfold askWalker
  rw [if_neg]
  rintro ⟨a, b⟩
  rcases h with h | h
  · exact h a
  · exact h b

/-- A READY engine that is not below its burst limit, or has no request waiting, asks its controller (R122). -/
theorem makeChoice_asks {l : Line} {s : State} (h : (s.engine l).state = .ready)
    (hq : (∀ x ∈ s.urgent, ¬QueuedOn l x) ∨ s.burstLimit ≤ (s.engine l).urgentCount) :
    makeChoice l s =
      match askWalker l s with
      | (s', some i) => takeRoutine l i s'
      | (s', none) => takeUrgent l s' := by
  unfold makeChoice
  rw [if_pos h]
  refine if_neg ?_
  rintro ⟨a, b⟩
  rcases hq with hq | hq
  · rw [nextQueued_none l _ hq] at a
    cases a
  · omega

/-- A READY engine whose controller has nothing to give takes urgent work, if there is any (R122). -/
theorem makeChoice_idle {l : Line} {s : State} (h : (s.engine l).state = .ready)
    (hc : (s.controller l).state ≠ .running ∨ (s.controller l).gap ≠ none) : makeChoice l s = takeUrgent l s := by
  unfold makeChoice
  rw [if_pos h]
  split
  · rfl
  · rw [askWalker_idle hc]

theorem takeUrgent_none {l : Line} {s : State} (h : ∀ x ∈ s.urgent, ¬QueuedOn l x) : takeUrgent l s = s := by
  unfold takeUrgent
  rw [nextQueued_none l _ h]

/-- How a round ends (R31, R123). -/
theorem endRound_eq {l : Line} {s : State} (hc : (s.controller l).state = .running)
    (hg : (s.controller l).gap = none) :
    endRound l s =
      (let c := s.controller l
      let rung := withLatched s { s.interrupts.latched with roundEnd := s.interrupts.latched.roundEnd.set l true }
      let walked := { c with cursor := 32, exhausted := true }
      let atRest := { s.engine l with urgentCount := 0 }
      if c.settings.mode = .continuous then
        withController rung l { walked with gap := some { bits := 0, periods := 0 } }
      else if c.settings.source = .soft then
        withEngine (withController rung l { walked with state := .stopped, timer := none }) l atRest
      else withEngine (withController rung l { walked with state := .armed }) l atRest) := by
  unfold endRound enterRoundState stateAfterRound
  dsimp only
  by_cases hm : (s.controller l).settings.mode = .continuous
  · rw [if_pos hm, hm]
    dsimp only
    rw [if_neg (by simp)]
    cases l <;>
      (simp [State.updController, State.setController, State.controller, setRoundEnd, setLatched, State.setInterrupts,
        PerLine.get, PerLine.set] at *
       simp [hc, BitCount.zero])
  · have hm' : (s.controller l).settings.mode = .single := by cases h : (s.controller l).settings.mode <;> simp_all
    rw [if_neg hm, hm']
    cases hs : (s.controller l).settings.source
    all_goals
      dsimp only
      simp only [reduceCtorEq, if_false, if_true]
      rw [if_pos ⟨by simpa [setRoundEnd, setLatched] using hc, by simp⟩]
      cases l <;>
        (simp [State.updController, State.setController, State.updEngine, State.setEngine, State.engine,
          State.controller, setRoundEnd, setLatched, State.setInterrupts, PerLine.get, PerLine.set] at *
         simp [hg])

/-! ### Attempts and stops -/

theorem enterLead_eq (e : Engine) : e.enterLead = attemptStarted e := by
  unfold Engine.enterLead Engine.enterSending attemptStarted
  split <;> rfl

/-- What a forced stop writes (R35). -/
theorem forceStop_eq (l : Line) (s : State) :
    forceStop l s =
      if (s.controller l).state = .stopped then s
      else
        withLatched
          { s with
            rounds :=
              s.rounds.set l
                { s.controller l with state := .stopped, timer := none, gap := none, routineInFlight := false }
            engines :=
              if (s.controller l).state = .running then s.engines.set l { s.engine l with urgentCount := 0 }
              else s.engines }
          { s.interrupts.latched with halted := s.interrupts.latched.halted.set l true } := by
  unfold forceStop
  split
  · rfl
  · unfold enterRoundState
    dsimp only
    by_cases hr : (s.controller l).state = .running
    · rw [if_pos
        (by cases l <;>
          simpa [State.updController, State.setController, State.controller, PerLine.get, PerLine.set] using hr),
        if_pos hr]
      cases l <;>
        simp [State.updController, State.setController, State.updEngine, State.setEngine, State.engine,
          State.controller, setHalted, setLatched, State.setInterrupts, PerLine.get, PerLine.set]
    · rw [if_neg
        (by cases l <;>
          simpa [State.updController, State.setController, State.controller, PerLine.get, PerLine.set] using hr),
        if_neg hr]
      cases l <;>
        simp [State.updController, State.setController, State.controller, setHalted, setLatched, State.setInterrupts,
          PerLine.get, PerLine.set]

/-- A routine append writes the store, the missed counts and the interrupts only (R63 to R67). -/
theorem appendRoutine_frame (i : Fin 32) (p : Policy) (make : Nat → Record) (s : State) :
    appendRoutine i p make s =
      { s with
        store := (appendRoutine i p make s).store
        missed := (appendRoutine i p make s).missed
        interrupts := (appendRoutine i p make s).interrupts } := by
  unfold appendRoutine appendKeepAll
  (repeat' split) <;> rfl

end Sys2Proof.Machine
end

