-- ==== Sys2Proof/Laws/Frames.lean ====
section
/-!
SUPPORT. What characters and frames look like on the line: lengths, the levels of a frame at each bit time, and the
parity bit as a count of ones.
-/

namespace Sys2Proof.Machine

open Sys2Proof.Safety

/-- A character lasts as many bit times as its format gives (R99). -/
theorem characterLevels_length (c : LineConfig) (b : Byte) : (characterLevels c b).length = characterLength c := by
  unfold characterLevels parityBitOf characterLength
  cases c.parity <;> simp <;> omega

/-- A frame is 5 + LEN characters sent back to back (R103, R104). -/
theorem frameLevels_length (c : LineConfig) (q : Request) :
    (frameLevels c q).length = (5 + q.payload.length) * characterLength c := by
  unfold frameLevels
  rw [List.length_flatMap]
  rw [show (fun a => (characterLevels c a).length) = fun _ => characterLength c from
    funext fun a => characterLevels_length c a]
  simp [requestFrame, requestBody]
  ring

/-- In a list of pieces of one length, the place and the offset within the piece give the element. -/
theorem flatMap_getElem? {α β : Type} (f : α → List β) (n : Nat) (hn : ∀ a, (f a).length = n) (xs : List α)
    (place k : Nat) (a : α) (hp : xs[place]? = some a) (hk : k < n) :
    (xs.flatMap f)[place * n + k]? = (f a)[k]? := by
  induction xs generalizing place with
  | nil => simp at hp
  | cons x rest ih =>
    rw [List.flatMap_cons]
    cases place with
    | zero =>
      simp at hp
      subst hp
      rw [List.getElem?_append_left (by rw [hn]; omega)]
      simp
    | succ p =>
      simp at hp
      rw [List.getElem?_append_right (by rw [hn, Nat.succ_mul]; omega), hn, ← ih p hp]
      congr 1
      rw [Nat.succ_mul]
      omega

/-- The level of a frame at a bit time is that of its character's bit (R99, R103). -/
theorem frameLevels_getElem? (c : LineConfig) (q : Request) (place bit : Nat) (b : Byte)
    (hp : (requestFrame q)[place]? = some b) (hb : bit < characterLength c) :
    (frameLevels c q)[place * characterLength c + bit]? = (characterLevels c b)[bit]? :=
  flatMap_getElem? _ _ (characterLevels_length c) _ place bit b hp hb

/-- How the reply assembly grows by one character (R127). -/
theorem Assembly.grow_eq (a : Assembly) (d : Byte) : a.grow d = grown a d := by
  obtain ⟨position, crc, status, length, payload⟩ := a
  unfold Assembly.grow Assembly.cover grown
  rcases position with _ | _ | _ | _ | _ | n
  · rfl
  all_goals dsimp only
  · simp; omega
  · simp; omega
  · simp; omega
  · simp; omega
  · by_cases g : n + 1 + 1 + 1 + 1 + 1 < 5 + length <;> simp [g]

/-- A character that passes its checks leaves the assembly grown by it (R109, R127). -/
theorem judge_goesOn {q : Request} {a b : Assembly} {d : Byte} {error : Bool} (h : judge q a d error = .goesOn b) :
    b = grown a d := by
  rw [← Assembly.grow_eq]
  unfold judge at h
  (repeat' split at h) <;> cases h <;> rfl

theorem oddOnes_eq (b : Byte) : (oddOnes b).toNat = ((List.range 8).filter fun k => b.getLsbD k).length % 2 := by
  revert b
  decide +kernel

/-- A parity bit differs from the one computed exactly when the count of ones is wrong (R99, R100). -/
theorem parityWrong_iff (p : Parity) (b : Byte) (bit : Bool) :
    (match parityBitOf p b with
      | none => False
      | some e => bit ≠ e) ↔ ¬ParityRight p b bit := by
  have h := oddOnes_eq b
  unfold ParityRight parityBitOf onesWith
  cases p <;> simp only
  · simp
  all_goals
    generalize ((List.range 8).filter fun k => b.getLsbD k).length = n at *
    cases bit <;> cases g : oddOnes b <;> rw [g] at h <;> simp at * <;> omega

/-- A character's bits, one by one. -/
theorem characterLevels_eq (c : LineConfig) (b : Byte) :
    characterLevels c b =
      [.low, levelOf (b.getLsbD 0), levelOf (b.getLsbD 1), levelOf (b.getLsbD 2), levelOf (b.getLsbD 3),
        levelOf (b.getLsbD 4), levelOf (b.getLsbD 5), levelOf (b.getLsbD 6), levelOf (b.getLsbD 7)] ++
        ((parityBitOf c.parity b).toList.map levelOf ++ List.replicate c.stopBits .high) := by
  unfold characterLevels
  cases parityBitOf c.parity b <;> simp [List.range_succ]

/-- The byte whose bits eight samples hold, least significant first (R99, R100). -/
def byteOfSamples (d0 d1 d2 d3 d4 d5 d6 d7 : Level) : Byte :=
  BitVec.ofNat 8
    ((bitOf d0).toNat + 2 * (bitOf d1).toNat + 4 * (bitOf d2).toNat + 8 * (bitOf d3).toNat + 16 * (bitOf d4).toNat +
      32 * (bitOf d5).toNat + 64 * (bitOf d6).toNat + 128 * (bitOf d7).toNat)

theorem levels_byteOfSamples (d0 d1 d2 d3 d4 d5 d6 d7 : Level) :
    (List.range 8).map (fun k => levelOf ((byteOfSamples d0 d1 d2 d3 d4 d5 d6 d7).getLsbD k)) =
      [d0, d1, d2, d3, d4, d5, d6, d7] := by
  cases d0 <;> cases d1 <;> cases d2 <;> cases d3 <;> cases d4 <;> cases d5 <;> cases d6 <;> cases d7 <;> rfl

theorem byteOfSamples_levels (b : Byte) :
    byteOfSamples (levelOf (b.getLsbD 0)) (levelOf (b.getLsbD 1)) (levelOf (b.getLsbD 2)) (levelOf (b.getLsbD 3))
      (levelOf (b.getLsbD 4)) (levelOf (b.getLsbD 5)) (levelOf (b.getLsbD 6)) (levelOf (b.getLsbD 7)) = b := by
  revert b
  decide +kernel

theorem levelOf_bitOf (v : Level) : levelOf (bitOf v) = v := by cases v <;> rfl

theorem bitOf_levelOf (b : Bool) : bitOf (levelOf b) = b := by cases b <;> rfl

/-- What the samples of a character after its start bit give (R99, R100). -/
theorem sampleCharacter_iff (p : Parity) (samples : List Level) (data : Byte) (bit : Bool) (stop : Level) :
    sampleCharacter p (.low :: samples) = some (data, bit, stop) ↔
      (∃ rest, samples =
        (List.range 8).map (fun k => levelOf (data.getLsbD k)) ++
          (if p = .none then [] else [levelOf bit]) ++ stop :: rest) ∧ (p = .none → bit = false) := by
  constructor
  · intro h
    rcases samples with _ | ⟨d0, _ | ⟨d1, _ | ⟨d2, _ | ⟨d3, _ | ⟨d4, _ | ⟨d5, _ | ⟨d6, _ | ⟨d7, rest⟩⟩⟩⟩⟩⟩⟩⟩ <;>
      try (cases h)
    have levels := levels_byteOfSamples d0 d1 d2 d3 d4 d5 d6 d7
    cases p with
    | none =>
      rcases rest with _ | ⟨v, rest⟩
      · cases h
      · cases h
        exact ⟨⟨rest, by rw [if_pos rfl]; exact congrArg (· ++ [] ++ stop :: rest) levels.symm⟩, fun _ => rfl⟩
    | even | odd =>
      rcases rest with _ | ⟨q, _ | ⟨v, rest⟩⟩
      · cases h
      · cases h
      · cases h
        refine ⟨⟨rest, ?_⟩, fun e => by cases e⟩
        rw [if_neg (by decide), levelOf_bitOf]
        exact congrArg (· ++ [q] ++ stop :: rest) levels.symm
  · rintro ⟨⟨rest, rfl⟩, hb⟩
    have byte := byteOfSamples_levels data
    unfold byteOfSamples at byte
    cases p with
    | none =>
      obtain rfl := hb rfl
      simp only [if_true, List.range_succ, List.range_zero, List.map_cons, List.map_nil, List.nil_append,
        List.cons_append, sampleCharacter]
      rw [byte]
    | even | odd =>
      simp only [reduceCtorEq, if_false, List.range_succ, List.range_zero, List.map_cons, List.map_nil,
        List.nil_append, List.cons_append, sampleCharacter]
      rw [byte, bitOf_levelOf]

end Sys2Proof.Machine
end

