-- ==== Sys2Proof/Laws/Lines.lean ====
section
/-!
SUPPORT. What an event of one line can touch: one lemma for each shared operation of the engines and controllers, all
of one form, `LineStep`.
-/

namespace Sys2Proof.Machine

/-- What an event of line `l` leaves as it was: the Host Port, the settings common to both lines, the pins and the
queue; the line's own configuration and round settings; and the engine, controller, node records and slots of the other
line. -/
structure LineStep (l : Line) (s t : State) : Prop where
  port : t.port = s.port
  timeBase : t.timeBase = s.timeBase
  syncLevel : t.syncLevel = s.syncLevel
  burstLimit : t.burstLimit = s.burstLimit
  health : t.health = s.health
  resetHeld : t.resetHeld = s.resetHeld
  clkinRunning : t.clkinRunning = s.clkinRunning
  freeIndex : t.freeIndex = s.freeIndex
  pending : t.pending = s.pending
  config : (t.engine l).config = (s.engine l).config
  settings : (t.controller l).settings = (s.controller l).settings
  engine : ∀ m, m ≠ l → t.engine m = s.engine m
  controller : ∀ m, m ≠ l → t.controller m = s.controller m
  node : ∀ m i, m ≠ l → t.node m i = s.node m i
  slots : ∀ m, m ≠ l → t.urgent.filter (fun x => x.line == m) = s.urgent.filter (fun x => x.line == m)

namespace LineStep

theorem refl (l : Line) (s : State) : LineStep l s s := by constructor <;> intros <;> rfl

theorem trans {l : Line} {s t u : State} (h : LineStep l s t) (g : LineStep l t u) : LineStep l s u where
  port := g.port.trans h.port
  timeBase := g.timeBase.trans h.timeBase
  syncLevel := g.syncLevel.trans h.syncLevel
  burstLimit := g.burstLimit.trans h.burstLimit
  health := g.health.trans h.health
  resetHeld := g.resetHeld.trans h.resetHeld
  clkinRunning := g.clkinRunning.trans h.clkinRunning
  freeIndex := g.freeIndex.trans h.freeIndex
  pending := g.pending.trans h.pending
  config := g.config.trans h.config
  settings := g.settings.trans h.settings
  engine m hm := (g.engine m hm).trans (h.engine m hm)
  controller m hm := (g.controller m hm).trans (h.controller m hm)
  node m i hm := (g.node m i hm).trans (h.node m i hm)
  slots m hm := (g.slots m hm).trans (h.slots m hm)

end LineStep

/-! ### Updates -/

theorem updEngine_lineStep (l : Line) (s : State) (f : Engine → Engine)
    (hf : (f (s.engine l)).config = (s.engine l).config) : LineStep l s (s.updEngine l f) := by
  constructor <;> intros <;> first | rfl | skip
  · simp [hf]
  · next m hm => exact State.updEngine_engine_ne _ _ hm

theorem setEngine_lineStep (l : Line) (s : State) (e : Engine) (he : e.config = (s.engine l).config) :
    LineStep l s (s.setEngine l e) :=
  updEngine_lineStep l s (fun _ => e) he

theorem updController_lineStep (l : Line) (s : State) (f : Controller → Controller)
    (hf : (f (s.controller l)).settings = (s.controller l).settings) : LineStep l s (s.updController l f) := by
  constructor <;> intros <;> first | rfl | skip
  · simp [hf]
  · next m hm => exact State.updController_controller_ne _ _ hm

theorem setLatched_lineStep (l : Line) (f : Latched → Latched) (s : State) : LineStep l s (setLatched f s) := by
  constructor <;> intros <;> rfl

theorem setStray_lineStep (l : Line) (s : State) : LineStep l s (setStray l s) := setLatched_lineStep _ _ _
theorem setRoundEnd_lineStep (l : Line) (s : State) : LineStep l s (setRoundEnd l s) := setLatched_lineStep _ _ _
theorem setLate_lineStep (l : Line) (s : State) : LineStep l s (setLate l s) := setLatched_lineStep _ _ _
theorem setHalted_lineStep (l : Line) (s : State) : LineStep l s (setHalted l s) := setLatched_lineStep _ _ _
theorem setOverrun_lineStep (l : Line) (s : State) : LineStep l s (setOverrun s) := setLatched_lineStep _ _ _

theorem setTable_lineStep (l : Line) (s : State) (t : Vector Entry 32) : LineStep l s (s.setTable t) := by
  constructor <;> intros <;> rfl

theorem setStore_lineStep (l : Line) (s : State) (r : List Record) : LineStep l s (s.setStore r) := by
  constructor <;> intros <;> rfl

theorem setMissed_lineStep (l : Line) (s : State) (v : Vector Nat 32) : LineStep l s (s.setMissed v) := by
  constructor <;> intros <;> rfl

theorem setNode_lineStep (l : Line) (s : State) (i : Fin 126) (r : NodeRecord) : LineStep l s (s.setNode l i r) := by
  constructor <;> intros <;> first | rfl | skip
  next m j hm => exact State.setNode_node_ne _ _ (fun h => hm h.1)

theorem setUrgent_lineStep (l : Line) (s : State) (q : List Slot)
    (hq : ∀ m, m ≠ l → q.filter (fun x => x.line == m) = s.urgent.filter (fun x => x.line == m)) :
    LineStep l s (s.setUrgent q) := by
  constructor <;> intros <;> first | rfl | skip
  next m hm => exact hq m hm

/-! ### Slots of the other line -/

theorem markInFlight_filter (l m : Line) (q : List Slot) (h : m ≠ l) :
    (markInFlight l q).filter (fun x => x.line == m) = q.filter (fun x => x.line == m) := by
  induction q with
  | nil => rfl
  | cons x rest ih =>
    unfold markInFlight
    split
    · next hx =>
      have hl : x.line = l := by
        simp [Slot.waitsFor] at hx
        exact hx.1
      have : (l == m) = false := by simp [Ne.symm h]
      simp [hl, this]
    · simp [List.filter_cons, ih]

theorem removeInFlight_filter (l m : Line) (q : List Slot) (h : m ≠ l) :
    (removeInFlight l q).filter (fun x => x.line == m) = q.filter (fun x => x.line == m) := by
  induction q with
  | nil => rfl
  | cons x rest ih =>
    unfold removeInFlight
    split
    · next hx =>
      have hl : x.line = l := by
        simp [Slot.onLine] at hx
        exact hx.1
      have : (l == m) = false := by simp [Ne.symm h]
      simp [hl, this]
    · simp [List.filter_cons, ih]

/-! ### Store and map -/

theorem appendKeepAll_lineStep (l : Line) (e : Fin 32) (f : Nat → Record) (s : State) :
    LineStep l s (appendKeepAll e f s) := by
  unfold appendKeepAll
  split
  · exact (setStore_lineStep l s _).trans (setMissed_lineStep l _ _)
  · exact (setMissed_lineStep l s _).trans (setOverrun_lineStep l _)

theorem appendRoutine_lineStep (l : Line) (e : Fin 32) (p : Policy) (f : Nat → Record) (s : State) :
    LineStep l s (appendRoutine e p f s) := by
  unfold appendRoutine
  split
  · exact appendKeepAll_lineStep l e f s
  · split
    · exact appendKeepAll_lineStep l e f s
    · exact (setStore_lineStep l s _).trans (setMissed_lineStep l _ _)

theorem appendUrgent_lineStep (l : Line) (r : Record) (s : State) : LineStep l s (appendUrgent l r s) :=
  (setStore_lineStep l s _).trans (setUrgent_lineStep l _ _ fun m hm => removeInFlight_filter l m _ hm)

theorem deliverRecord_lineStep (l : Line) (x : Exchange) (o : OutcomeCode) (y : Option Reply) (s : State) :
    LineStep l s (deliverRecord l x o y s) := by
  unfold deliverRecord
  split
  · exact appendRoutine_lineStep l _ _ _ s
  · exact appendUrgent_lineStep l _ s

theorem updateNode_lineStep (l : Line) (a : Byte) (o : OutcomeCode) (s : State) :
    LineStep l s (updateNode l a o s) := by
  unfold updateNode
  split
  · exact .refl l s
  · exact setNode_lineStep l s _ _

theorem offlineQuery_lineStep (l : Line) (a : Byte) (s : State) : LineStep l s (offlineQuery l a s).1 := by
  unfold offlineQuery
  split
  · exact .refl l s
  · split
    · exact setNode_lineStep l s _ _
    · exact .refl l s

theorem cancelQueued_lineStep (l : Line) (s : State) : LineStep l s (cancelQueued (fun m => m == l) s) := by
  refine (setStore_lineStep l s _).trans (setUrgent_lineStep l _ _ fun m hm => ?_)
  rw [State.setStore_urgent, List.filter_filter]
  refine List.filter_congr fun x _ => ?_
  by_cases hx : x.line = m
  · simp [hx, hm]
  · simp [hx]

/-! ### Rounds -/

theorem enterRoundState_lineStep (l : Line) (r : RoundState) (s : State) : LineStep l s (enterRoundState l r s) := by
  unfold enterRoundState
  dsimp only
  split
  · exact (updController_lineStep l s _ rfl).trans (updEngine_lineStep l _ _ rfl)
  · exact updController_lineStep l s _ rfl

theorem startRound_lineStep (l : Line) (s : State) : LineStep l s (startRound l s) :=
  updController_lineStep l s _ rfl

theorem endRound_lineStep (l : Line) (s : State) : LineStep l s (endRound l s) :=
  ((updController_lineStep l s _ rfl).trans (setRoundEnd_lineStep l _)).trans (enterRoundState_lineStep l _ _)

theorem visitEntry_lineStep (l : Line) (i : Fin 32) (s : State) : LineStep l s (visitEntry l i s).1 := by
  unfold visitEntry
  dsimp only
  split
  · split
    · split
      · exact setTable_lineStep l s _
      · exact (setTable_lineStep l s _).trans (offlineQuery_lineStep l _ _)
    · exact setTable_lineStep l s _
  · exact .refl l s

theorem scanEntries_lineStep (l : Line) (is : List (Fin 32)) (s : State) : LineStep l s (scanEntries l is s).1 := by
  induction is generalizing s with
  | nil => exact .refl l s
  | cons i rest ih =>
    have hv := visitEntry_lineStep l i s
    unfold scanEntries
    split
    · next h => rw [h] at hv; exact hv
    · next h => rw [h] at hv; exact hv.trans (ih _)

theorem askWalker_lineStep (l : Line) (s : State) : LineStep l s (askWalker l s).1 := by
  unfold askWalker
  split
  · have hs := scanEntries_lineStep l (entriesFrom (s.controller l).cursor) s
    split
    · next s' i h =>
      rw [h] at hs
      exact LineStep.trans (t := s') hs
        (updController_lineStep l s' (fun c => { c with cursor := i.val + 1, routineInFlight := true }) rfl)
    · next s' h =>
      rw [h] at hs
      exact LineStep.trans hs (endRound_lineStep l s')
  · exact .refl l s

/-! ### Exchanges -/

@[simp] theorem Engine.enterSending_config (e : Engine) : e.enterSending.config = e.config := rfl

@[simp] theorem Engine.enterLead_config (e : Engine) : e.enterLead.config = e.config := by
  unfold Engine.enterLead
  split <;> rfl

@[simp] theorem Engine.enterQuiet_config (e : Engine) : e.enterQuiet.config = e.config := rfl

theorem startExchange_lineStep (l : Line) (w : Work) (q : Request) (s : State) :
    LineStep l s (startExchange l w q s) := updEngine_lineStep l s _ (by simp)

theorem takeUrgent_lineStep (l : Line) (s : State) : LineStep l s (takeUrgent l s) := by
  unfold takeUrgent
  split
  · exact .refl l s
  · exact (setUrgent_lineStep l s _ fun m hm => markInFlight_filter l m _ hm).trans (startExchange_lineStep l _ _ _)

theorem takeRoutine_lineStep (l : Line) (i : Fin 32) (s : State) : LineStep l s (takeRoutine l i s) :=
  startExchange_lineStep l _ _ s

theorem makeChoice_lineStep (l : Line) (s : State) : LineStep l s (makeChoice l s) := by
  unfold makeChoice
  split
  · split
    · exact takeUrgent_lineStep l s
    · have ha := askWalker_lineStep l s
      split
      · next h => rw [h] at ha; exact ha.trans (takeRoutine_lineStep l _ _)
      · next h => rw [h] at ha; exact ha.trans (takeUrgent_lineStep l _)
  · exact .refl l s

theorem startRoundAndChoose_lineStep (l : Line) (s : State) : LineStep l s (startRoundAndChoose l s) :=
  (startRound_lineStep l s).trans (makeChoice_lineStep l _)

theorem trigger_lineStep (l : Line) (s : State) : LineStep l s (trigger l s) := by
  unfold trigger
  dsimp only
  split
  · split
    · exact (updController_lineStep l s _ rfl).trans (startRoundAndChoose_lineStep l _)
    · exact startRoundAndChoose_lineStep l s
  · split
    · exact setLate_lineStep l s
    · exact .refl l s
  · exact .refl l s
  · exact .refl l s

theorem expireTimer_lineStep (l : Line) (s : State) : LineStep l s (expireTimer l s) := by
  unfold expireTimer
  split
  · exact .refl l s
  · exact (updController_lineStep l s _ rfl).trans (trigger_lineStep l _)

theorem tickTimer_lineStep (l : Line) (s : State) : LineStep l s (tickTimer l s) := by
  unfold tickTimer
  split
  · exact .refl l s
  · split
    · exact expireTimer_lineStep l s
    · exact updController_lineStep l s _ rfl

theorem endGap_lineStep (l : Line) (s : State) : LineStep l s (endGap l s) := by
  unfold endGap
  split
  · exact .refl l s
  · exact startRoundAndChoose_lineStep l s

theorem syncTrigger_lineStep (l : Line) (v : Level) (s : State) : LineStep l s (syncTrigger l v s) := by
  unfold syncTrigger
  dsimp only
  split
  · exact trigger_lineStep l s
  · exact .refl l s

theorem halt_lineStep (l : Line) (s : State) : LineStep l s (halt l s) := by
  unfold halt
  split
  · exact .refl l s
  · exact .refl l s
  · exact (enterRoundState_lineStep l _ s).trans (setHalted_lineStep l _)
  · split
    · exact enterRoundState_lineStep l _ s
    · exact ((updController_lineStep l s _ rfl).trans (enterRoundState_lineStep l _ _)).trans (setHalted_lineStep l _)

theorem beginRounds_lineStep (l : Line) (s : State) : LineStep l s (beginRounds l s) := by
  unfold beginRounds
  split
  · exact startRoundAndChoose_lineStep l s
  · exact updController_lineStep l s _ rfl
  · exact updController_lineStep l s _ rfl

/-! ### Attempts, completions and aborts -/

theorem reportCompletion_lineStep (l : Line) (s : State) : LineStep l s (reportCompletion l s) := by
  unfold reportCompletion
  dsimp only
  split
  · exact ((updController_lineStep l s _ rfl).trans (enterRoundState_lineStep l _ _)).trans (setHalted_lineStep l _)
  · exact updController_lineStep l s _ rfl

theorem reportOf_lineStep (l : Line) (w : Work) (s : State) : LineStep l s (reportOf l w s) := by
  unfold reportOf
  split
  · exact reportCompletion_lineStep l s
  · exact .refl l s

theorem completeExchange_lineStep (l : Line) (x : Exchange) (o : OutcomeCode) (y : Option Reply) (s : State) :
    LineStep l s (completeExchange l x o y s) :=
  (((deliverRecord_lineStep l x o y s).trans (updateNode_lineStep l _ _ _)).trans (reportOf_lineStep l _ _)).trans
    (updEngine_lineStep l _ _ rfl)

theorem endAttempt_lineStep (l : Line) (o : OutcomeCode) (y : Option Reply) (s : State) :
    LineStep l s (endAttempt l o y s) := by
  unfold endAttempt
  split
  · exact .refl l s
  · split
    · exact updEngine_lineStep l s _ rfl
    · exact completeExchange_lineStep l _ o y s

theorem abortExchange_lineStep (l : Line) (s : State) : LineStep l s (abortExchange l s) := by
  unfold abortExchange
  split
  · exact .refl l s
  · exact (deliverRecord_lineStep l _ _ _ s).trans (updEngine_lineStep l _ _ rfl)

theorem forceStop_lineStep (l : Line) (s : State) : LineStep l s (forceStop l s) := by
  unfold forceStop
  split
  · exact .refl l s
  · exact ((updController_lineStep l s _ rfl).trans (enterRoundState_lineStep l _ _)).trans (setHalted_lineStep l _)

theorem disable_lineStep (l : Line) (s : State) : LineStep l s (disable l s) :=
  ((((updEngine_lineStep l s _ rfl).trans (abortExchange_lineStep l _)).trans (forceStop_lineStep l _)).trans
    (cancelQueued_lineStep l _)).trans (updEngine_lineStep l _ _ rfl)

/-! ### Counts and the receiver -/

theorem quietGapDone_lineStep (l : Line) (s : State) : LineStep l s (quietGapDone l s) := by
  unfold quietGapDone
  dsimp only
  split
  · split
    · exact setEngine_lineStep l s _ (by simp)
    · refine LineStep.trans ?_ (makeChoice_lineStep l _)
      exact setEngine_lineStep l s _ rfl
  · exact .refl l s

theorem leadDone_lineStep (l : Line) (s : State) : LineStep l s (leadDone l s) := by
  unfold leadDone
  split
  · exact updEngine_lineStep l s _ rfl
  · exact .refl l s

theorem releaseDe_lineStep (l : Line) (s : State) : LineStep l s (releaseDe l s) := by
  unfold releaseDe
  split
  · exact .refl l s
  · dsimp only
    split
    · exact (updEngine_lineStep l s _ rfl).trans (endAttempt_lineStep l _ _ _)
    · exact updEngine_lineStep l s _ rfl

theorem sendingDone_lineStep (l : Line) (s : State) : LineStep l s (sendingDone l s) := by
  unfold sendingDone
  split
  · split
    · exact releaseDe_lineStep l s
    · exact updEngine_lineStep l s _ rfl
  · exact .refl l s

theorem lagDone_lineStep (l : Line) (s : State) : LineStep l s (lagDone l s) := by
  unfold lagDone
  split
  · exact releaseDe_lineStep l s
  · exact .refl l s

theorem replyTimeoutDone_lineStep (l : Line) (s : State) : LineStep l s (replyTimeoutDone l s) := by
  unfold replyTimeoutDone
  split
  · exact endAttempt_lineStep l _ _ s
  · exact .refl l s

theorem gapLimitDone_lineStep (l : Line) (s : State) : LineStep l s (gapLimitDone l s) := by
  unfold gapLimitDone
  split
  · exact endAttempt_lineStep l _ _ s
  · exact .refl l s

theorem discardDone_lineStep (l : Line) (s : State) : LineStep l s (discardDone l s) := by
  unfold discardDone
  split
  · split
    · exact .refl l s
    · exact endAttempt_lineStep l _ _ s
  · exact .refl l s

@[simp] theorem Engine.confirmStart_config (e : Engine) : e.confirmStart.config = e.config := by
  unfold Engine.confirmStart
  cases e.state <;> rfl

@[simp] theorem Engine.midStart_config (v : Level) (e : Engine) : (e.midStart v).config = e.config := by
  unfold Engine.midStart
  split
  · cases v
    · exact Engine.confirmStart_config e
    · rfl
  · rfl

@[simp] theorem Engine.returnToMark_config (e : Engine) : e.returnToMark.config = e.config := by
  unfold Engine.returnToMark
  split <;> rfl

theorem judgeReply_lineStep (l : Line) (d : Byte) (err : Bool) (s : State) : LineStep l s (judgeReply l d err s) := by
  unfold judgeReply
  split
  · exact .refl l s
  · split
    · exact updEngine_lineStep l s _ rfl
    · exact updEngine_lineStep l s _ rfl
    · exact endAttempt_lineStep l _ _ s

theorem deliverCharacter_lineStep (l : Line) (d : Byte) (p : Bool) (v : Level) (s : State) :
    LineStep l s (deliverCharacter l d p v s) := by
  unfold deliverCharacter
  dsimp only
  split
  · have he : LineStep l s (s.setEngine l ((s.engine l).endCharacter v)) := setEngine_lineStep l s _ rfl
    cases (s.engine l).state
    case quiet => exact he.trans (setStray_lineStep l _)
    case ready => exact he.trans (setStray_lineStep l _)
    case receiving => exact he.trans (judgeReply_lineStep l _ _ _)
    all_goals exact he
  · exact .refl l s

end Sys2Proof.Machine
end

