-- ==== Sys2Proof/Laws/Clock.lean ====
section
/-!
SUPPORT. What one CLKIN period does: how the counts and the samples move, which rows are due, and what each of them
leaves alone.
-/

namespace Sys2Proof.Machine

open Sys2Proof.Safety

/-! ### The counts -/

theorem BitCount.advance_eq (c : LineConfig) : BitCount.advance c.bitTime = counted c := by
  funext n
  unfold BitCount.advance counted LineConfig.bitTime
  by_cases h : n.periods + 1 < 16 * c.divisor
  · rw [if_pos h, if_neg (by omega)]
  · rw [if_neg h, if_pos (by omega)]

theorem Engine.idle_iff (e : Engine) : e.idle = true ↔ LineIdle e := by simp [Engine.idle]

theorem Engine.quietMayEnd_iff (e : Engine) : e.quietMayEnd = true ↔ LineIdle e ∨ e.receiver = .fallSeen := by
  simp [Engine.quietMayEnd, Engine.idle]

theorem reached_iff (e : Engine) (n : Nat) : reached e.timeCount n = true ↔ TimePassed e n := by
  unfold reached TimePassed
  cases e.timeCount <;> simp

theorem Engine.sampleUp_eq (e : Engine) : e.sampleUp = sampled e := by
  unfold Engine.sampleUp sampled LineConfig.bitTime
  rcases hr : e.receiver <;> simp
  by_cases h : e.sampleCount + 1 < 16 * e.config.divisor
  · rw [if_neg (by omega), if_pos h]
  · rw [if_pos (by omega), if_neg h]

/-! The receiver's part neither reads nor writes the line's counts. -/

theorem sampled_timeCount (e : Engine) (t : Option BitCount) :
    sampled { e with timeCount := t } = { sampled e with timeCount := t } := by
  by_cases h : e.receiver = .fallSeen <;> by_cases g : e.receiver = .character <;>
    by_cases k : e.sampleCount + 1 < 16 * e.config.divisor <;> simp [sampled, h, g, k]

theorem sampled_bitsSent (e : Engine) (n : BitCount) :
    sampled { e with bitsSent := n } = { sampled e with bitsSent := n } := by
  by_cases h : e.receiver = .fallSeen <;> by_cases g : e.receiver = .character <;>
    by_cases k : e.sampleCount + 1 < 16 * e.config.divisor <;> simp [sampled, h, g, k]

theorem sampled_quietCount (e : Engine) (n : BitCount) :
    sampled { e with quietCount := n } = { sampled e with quietCount := n } := by
  by_cases h : e.receiver = .fallSeen <;> by_cases g : e.receiver = .character <;>
    by_cases k : e.sampleCount + 1 < 16 * e.config.divisor <;> simp [sampled, h, g, k]

theorem sampled_idleCount (e : Engine) (n : BitCount) :
    sampled { e with idleCount := n } = { sampled e with idleCount := n } := by
  by_cases h : e.receiver = .fallSeen <;> by_cases g : e.receiver = .character <;>
    by_cases k : e.sampleCount + 1 < 16 * e.config.divisor <;> simp [sampled, h, g, k]

/-- The counts of one line (R32, R98). -/
theorem lineCounted (e : Engine) (c : Controller) :
    LineCounted e e.advance c { c with gap := c.gap.map (BitCount.advance e.config.bitTime) } := by
  unfold Engine.advance
  rw [Engine.sampleUp_eq]
  constructor
  · intro h
    have up : e.countUp = { e with timeCount := e.timeCount.map (counted e.config) } := by
      unfold Engine.countUp
      rcases h with h | h <;> simp only [h, BitCount.advance_eq]
    rw [up]
    exact sampled_timeCount e _
  · intro h
    have up : e.countUp = { e with bitsSent := counted e.config e.bitsSent } := by
      unfold Engine.countUp
      simp only [h, BitCount.advance_eq]
    rw [up]
    exact sampled_bitsSent e _
  · intro h
    have up : e.countUp =
        if e.receiver = .fallSeen then e else { e with timeCount := e.timeCount.map (counted e.config) } := by
      unfold Engine.countUp
      simp only [h, BitCount.advance_eq]
    rw [up]
    split
    · rfl
    · exact sampled_timeCount e _
  · intro h
    have up : e.countUp =
        if LineIdle e ∨ e.receiver = .fallSeen then { e with quietCount := counted e.config e.quietCount } else e := by
      unfold Engine.countUp
      simp only [h, BitCount.advance_eq, Engine.quietMayEnd_iff]
    rw [up]
    split
    · exact sampled_quietCount e _
    · rfl
  · intro h
    have up : e.countUp = if LineIdle e then { e with idleCount := counted e.config e.idleCount } else e := by
      unfold Engine.countUp
      rcases h with h | h <;> simp only [h, BitCount.advance_eq, Engine.idle_iff]
    rw [up]
    split
    · exact sampled_idleCount e _
    · rfl
  · intro h
    have up : e.countUp = e := by
      unfold Engine.countUp
      rcases h with h | h <;> simp only [h]
    rw [up]
  · simp only [BitCount.advance_eq]

theorem advanceLine_eq (l : Line) (s : State) :
    advanceLine l s =
      { s with
        rounds :=
          s.rounds.set l
            { s.controller l with
              gap := (s.controller l).gap.map (BitCount.advance (s.engine l).config.bitTime) }
        engines := s.engines.set l (s.engine l).advance } := by
  cases l <;> rfl

/-- Every count moves by one period, and nothing else but the free value's counter does (R19, R98). -/
theorem counted_advanceCounts (s : State) : Counted s ((advanceCounts s).setFreeIndex (s.freeIndex + 1)) := by
  refine ⟨?_, fun l => ?_, ?_⟩
  · unfold advanceCounts
    rw [advanceLine_eq, advanceLine_eq]
    rfl
  · have := lineCounted (s.engine l) (s.controller l)
    unfold advanceCounts
    rw [advanceLine_eq, advanceLine_eq]
    cases l <;> exact this
  · unfold advanceCounts
    rw [advanceLine_eq, advanceLine_eq]
    rfl

/-! ### The rows that are due -/

/-- Each order of the due rows is picked by some number (log 4). -/
theorem arrange_perm {α : Type} (fuel k : Nat) (xs : List α) (h : xs.length ≤ fuel) : (arrange fuel k xs).Perm xs := by
  induction fuel generalizing k xs with
  | zero => rfl
  | succ n ih =>
    cases xs with
    | nil => rfl
    | cons x rest =>
      unfold arrange
      have hk : k % (rest.length + 1) < (x :: rest).length := Nat.mod_lt _ (by simp)
      rw [List.getD_eq_getElem _ _ hk]
      refine (List.Perm.cons _ (ih _ _ ?_)).trans (List.getElem_cons_eraseIdx_perm hk)
      rw [List.length_eraseIdx_of_lt hk]
      simp at h ⊢
      omega

/-- What a due row can be: a tick, a visit, or one of a line's. -/
theorem mem_dueRows (s : State) (c : Instr) :
    c ∈ dueRows s ↔
      (c = .tick ∧ s.timeBase.divisor ≤ s.timeBase.prescaler) ∨ (c = .clearWalkVisit ∧ s.busy = true) ∨
        ∃ l, ((s.engine l).countDone = true ∧ (s.engine l).state.countRow l = some c) ∨
          (s.engine l).sampleRow l = some c ∨
          (c = .continuousGapEnd l ∧ reached (s.controller l).gap (s.engine l).config.quietGap = true) := by
  have line : ∀ l, c ∈ dueOnLine l s ↔
      ((s.engine l).countDone = true ∧ (s.engine l).state.countRow l = some c) ∨ (s.engine l).sampleRow l = some c ∨
        (c = .continuousGapEnd l ∧ reached (s.controller l).gap (s.engine l).config.quietGap = true) := by
    intro l
    unfold dueOnLine
    simp only [List.mem_append, Option.mem_toList, or_assoc]
    refine or_congr ?_ (or_congr Iff.rfl ?_)
    · split <;> simp [*]
    · split <;> simp [*]
  unfold dueRows
  simp only [List.mem_append, line, or_assoc]
  refine or_congr ?_ (or_congr ?_ ?_)
  · split <;> simp [*]
  · split <;> simp [*]
  · constructor
    · rintro (h | h | h | h | h | h)
      · exact ⟨.a, .inl h⟩
      · exact ⟨.a, .inr (.inl h)⟩
      · exact ⟨.a, .inr (.inr h)⟩
      · exact ⟨.b, .inl h⟩
      · exact ⟨.b, .inr (.inl h)⟩
      · exact ⟨.b, .inr (.inr h)⟩
    · rintro ⟨_ | _, h⟩
      · rcases h with h | h | h
        · exact .inl h
        · exact .inr (.inl h)
        · exact .inr (.inr (.inl h))
      · exact .inr (.inr (.inr h))

/-- The line a due row of a line names, and of which kind it is. -/
def rowKey : Instr → Nat × Option Line
  | .tick => (0, none)
  | .clearWalkVisit => (1, none)
  | .leadEnd l | .sendingEnd l | .lagEnd l | .replyTimeout l | .quietGapEnd l | .truncated l | .discardEnd l =>
    (2, some l)
  | .midStartSample l _ => (3, some l)
  | .characterDelivered l _ _ _ => (3, some l)
  | .continuousGapEnd l => (4, some l)
  | _ => (5, none)

theorem countRow_key {l : Line} {v : LineState} {c : Instr} (h : v.countRow l = some c) : rowKey c = (2, some l) := by
  cases v <;> cases h <;> rfl

theorem sampleRow_key {l : Line} {e : Engine} {c : Instr} (h : e.sampleRow l = some c) : rowKey c = (3, some l) := by
  unfold Engine.sampleRow at h
  (repeat' split at h) <;> cases h <;> rfl

/-- No row is due twice: the due rows are some of eight of different keys. -/
theorem dueRows_nodup (s : State) : (dueRows s).Nodup := by
  refine List.Nodup.of_map rowKey ?_
  have line : ∀ l, ((dueOnLine l s).map rowKey).Sublist [(2, some l), (3, some l), (4, some l)] := by
    intro l
    unfold dueOnLine
    rw [List.map_append, List.map_append]
    refine List.Sublist.append (l₂ := [(2, some l), (3, some l)])
      (List.Sublist.append (l₂ := [(2, some l)]) (r₂ := [(3, some l)]) ?_ ?_) (r₂ := [(4, some l)]) ?_
    · split
      · cases h : (s.engine l).state.countRow l with
        | none => simp
        | some c => simp [countRow_key h]
      · simp
    · cases h : (s.engine l).sampleRow l with
      | none => simp
      | some c => simp [sampleRow_key h]
    · split <;> simp [rowKey]
  unfold dueRows
  rw [List.map_append, List.map_append, List.map_append]
  refine List.Nodup.sublist (l₂ := [(0, none), (1, none)] ++ [(2, some .a), (3, some .a), (4, some .a)] ++
    [(2, some .b), (3, some .b), (4, some .b)]) ?_ (by decide)
  refine List.Sublist.append (List.Sublist.append ?_ (line .a)) (line .b)
  refine List.Sublist.append (l₂ := [(0, none)]) (r₂ := [(1, none)]) ?_ ?_ <;> split <;> simp [rowKey]

theorem due_countRow {s : State} {l : Line} {c : Instr} (hd : (s.engine l).countDone = true)
    (hc : (s.engine l).state.countRow l = some c) : Due s c := by
  unfold Engine.countDone at hd
  rcases hs : (s.engine l).state <;> rw [hs] at hd hc <;> cases hc <;> simp only at hd
  · simp at hd
    exact .quiet l hs ((Engine.quietMayEnd_iff _).1 hd.1) hd.2
  · exact .lead l hs ((reached_iff _ _).1 hd)
  · rcases he : (s.engine l).exchange with _ | x <;> rw [he] at hd <;> simp at hd
    rw [frameLevels_length] at hd
    exact .sending l x hs he hd
  · exact .lag l hs ((reached_iff _ _).1 hd)
  · rcases he : (s.engine l).exchange with _ | x <;> rw [he] at hd <;> simp at hd
    exact .timeout l x hs hd.1 he ((reached_iff _ _).1 hd.2)
  · simp at hd
    exact .truncated l hs ((Engine.idle_iff _).1 hd.1) hd.2
  · simp at hd
    exact .discard l hs ((Engine.idle_iff _).1 hd.1) hd.2

theorem due_sampleRow {s : State} {l : Line} {c : Instr} (h : (s.engine l).sampleRow l = some c) : Due s c := by
  unfold Engine.sampleRow at h
  rcases hr : (s.engine l).receiver <;> rw [hr] at h <;> simp only at h
  · cases h
  · cases h
  · split at h <;> cases h
    next g => exact .midStart l hr g
  · split at h <;> cases h
    next d b v g =>
    obtain ⟨hs, hb⟩ := (sampleCharacter_iff _ _ _ _ _).1 g
    exact .delivered l d b v hr hs hb
  · cases h

/-- The rows that are due are those of Safety.Due. -/
theorem due_iff (s : State) (c : Instr) : Due s c ↔ c ∈ dueRows s := by
  rw [mem_dueRows]
  constructor
  · intro h
    cases h with
    | tick h => exact .inl ⟨rfl, h⟩
    | walk h => exact .inr (.inl ⟨rfl, (busy_iff s).2 h⟩)
    | gap l n h1 h2 => exact .inr (.inr ⟨l, .inr (.inr ⟨rfl, by simp [h1, reached, h2]⟩)⟩)
    | midStart l h1 h2 =>
      refine .inr (.inr ⟨l, .inr (.inl ?_)⟩)
      unfold Engine.sampleRow
      rw [h1]
      exact if_pos h2
    | delivered l d b v h1 h2 h3 =>
      refine .inr (.inr ⟨l, .inr (.inl ?_)⟩)
      unfold Engine.sampleRow
      rw [h1]
      dsimp only
      rw [(sampleCharacter_iff _ _ _ _ _).2 ⟨h2, h3⟩]
    | lead l h1 h2 =>
      refine .inr (.inr ⟨l, .inl ⟨?_, by rw [h1]; rfl⟩⟩)
      unfold Engine.countDone
      rw [h1]
      exact (reached_iff _ _).2 h2
    | sending l x h1 h2 h3 =>
      refine .inr (.inr ⟨l, .inl ⟨?_, by rw [h1]; rfl⟩⟩)
      unfold Engine.countDone
      rw [h1, h2]
      dsimp only
      rw [frameLevels_length]
      simpa using h3
    | lag l h1 h2 =>
      refine .inr (.inr ⟨l, .inl ⟨?_, by rw [h1]; rfl⟩⟩)
      unfold Engine.countDone
      rw [h1]
      exact (reached_iff _ _).2 h2
    | timeout l x h1 h2 h3 h4 =>
      refine .inr (.inr ⟨l, .inl ⟨?_, by rw [h1]; rfl⟩⟩)
      unfold Engine.countDone
      rw [h1, h3]
      dsimp only
      rw [(reached_iff _ _).2 h4]
      simp [h2]
    | quiet l h1 h2 h3 =>
      refine .inr (.inr ⟨l, .inl ⟨?_, by rw [h1]; rfl⟩⟩)
      unfold Engine.countDone
      rw [h1]
      dsimp only
      rw [(Engine.quietMayEnd_iff _).2 h2]
      simpa using h3
    | truncated l h1 h2 h3 =>
      refine .inr (.inr ⟨l, .inl ⟨?_, by rw [h1]; rfl⟩⟩)
      unfold Engine.countDone
      rw [h1]
      dsimp only
      rw [(Engine.idle_iff _).2 h2]
      simpa using h3
    | discard l h1 h2 h3 =>
      refine .inr (.inr ⟨l, .inl ⟨?_, by rw [h1]; rfl⟩⟩)
      unfold Engine.countDone
      rw [h1]
      dsimp only
      rw [(Engine.idle_iff _).2 h2]
      simpa using h3
  · rintro (⟨rfl, h⟩ | ⟨rfl, h⟩ | ⟨l, ⟨hd, hc⟩ | h | ⟨rfl, h⟩⟩)
    · exact .tick h
    · exact .walk ((busy_iff s).1 h)
    · exact due_countRow hd hc
    · exact due_sampleRow h
    · unfold reached at h
      rcases hg : (s.controller l).gap with _ | n <;> rw [hg] at h <;> simp at h
      exact .gap l n hg h

/-! ### The rows happen -/

/-- A row that is due does in the period what it does from the queue. -/
theorem exec_of_due {s t : State} (h : Awake t) {c : Instr} (hd : Due s c) : exec c t = .next (happen t c) := by
  have run : ∀ (f : State → State), exec c t = .next (working f t) → exec c t = .next (f t) := by
    intro f hc
    rw [hc, working_runs _ h.1 h.2]
  cases hd with
  | tick => exact run deliverTick rfl
  | walk => exact run walkStep rfl
  | lead l => exact run (leadDone l) rfl
  | sending l => exact run (sendingDone l) rfl
  | lag l => exact run (lagDone l) rfl
  | timeout l => exact run (replyTimeoutDone l) rfl
  | quiet l => exact run (quietGapDone l) rfl
  | truncated l => exact run (gapLimitDone l) rfl
  | discard l => exact run (discardDone l) rfl
  | gap l => exact run (endGap l) rfl
  | delivered l d b v => exact run (deliverCharacter l d b v) rfl
  | midStart l =>
    exact congrArg Host.Outcome.next
      (clocked_running (fun t => t.updEngine l (Engine.midStart (s.engine l).rxd)) h.1)

/-- A round that starts leaves an engine that is not READY as it is (R121). -/
theorem startRoundAndChoose_busy {l : Line} {s : State} (h : (s.engine l).state ≠ .ready) :
    startRoundAndChoose l s = startRound l s := by
  unfold startRoundAndChoose makeChoice
  rw [if_neg]
  simpa [startRound] using h

theorem trigger_engine {l : Line} {s : State} (h : (s.engine l).state ≠ .ready) :
    (trigger l s).engine l = s.engine l := by
  unfold trigger
  dsimp only
  split
  · rw [startRoundAndChoose_busy]
    · split <;> simp [startRound]
    · split <;> simpa using h
  · split <;> rfl
  · rfl
  · rfl

theorem tickTimer_engine {l : Line} {s : State} (h : (s.engine l).state ≠ .ready) :
    (tickTimer l s).engine l = s.engine l := by
  unfold tickTimer expireTimer
  split
  · rfl
  · split
    · split
      · rfl
      · rw [trigger_engine] <;> simp [h]
    · simp

theorem endGap_engine {l : Line} {s : State} (h : (s.engine l).state ≠ .ready) :
    (endGap l s).engine l = s.engine l := by
  unfold endGap
  split
  · rfl
  · rw [startRoundAndChoose_busy h]
    simp [startRound]

theorem midStart_lineStep (l : Line) (v : Level) (s : State) :
    LineStep l s (s.updEngine l (Engine.midStart v)) :=
  updEngine_lineStep l s _ (Engine.midStart_config v _)

/-- A row of one line, in a period, is an event of that line. -/
theorem happen_lineStep (l : Line) (s : State) {c : Instr}
    (hc : rowKey c = (2, some l) ∨ rowKey c = (3, some l) ∨ rowKey c = (4, some l)) : LineStep l s (happen s c) := by
  cases c <;> simp [rowKey] at hc <;> subst hc
  case leadEnd => exact leadDone_lineStep _ s
  case sendingEnd => exact sendingDone_lineStep _ s
  case lagEnd => exact lagDone_lineStep _ s
  case replyTimeout => exact replyTimeoutDone_lineStep _ s
  case quietGapEnd => exact quietGapDone_lineStep _ s
  case truncated => exact gapLimitDone_lineStep _ s
  case discardEnd => exact discardDone_lineStep _ s
  case continuousGapEnd => exact endGap_lineStep _ s
  case midStartSample v => exact midStart_lineStep _ v s
  case characterDelivered d b v => exact deliverCharacter_lineStep _ d b v s

theorem deliverTick_engine {m : Line} {s : State} (h : (s.engine m).state ≠ .ready) :
    (deliverTick s).engine m = s.engine m := by
  unfold deliverTick
  have ha := tickTimer_lineStep .a (s.setTimeBase { s.timeBase with prescaler := 0 })
  have hb := tickTimer_lineStep .b (tickTimer .a (s.setTimeBase { s.timeBase with prescaler := 0 }))
  cases m with
  | a =>
    rw [hb.engine .a (by decide)]
    exact tickTimer_engine h
  | b =>
    rw [tickTimer_engine] <;> rw [ha.engine .b (by decide)]
    · rfl
    · exact h

theorem walkStep_engine (m : Line) (s : State) : (walkStep s).engine m = s.engine m := by
  unfold walkStep walkVisit
  split
  · rfl
  · dsimp only
    split <;> rfl

/-- A row that is not of an engine's own count or receiver leaves that engine as it is, unless it is READY. -/
theorem happen_engine {c : Instr} {m : Line} {s : State} (h2 : rowKey c ≠ (2, some m)) (h3 : rowKey c ≠ (3, some m))
    (h : (s.engine m).state ≠ .ready) : (happen s c).engine m = s.engine m := by
  by_cases hl : ∃ l, l ≠ m ∧ (rowKey c = (2, some l) ∨ rowKey c = (3, some l) ∨ rowKey c = (4, some l))
  · obtain ⟨l, hm, hk⟩ := hl
    exact (happen_lineStep l s hk).engine m (Ne.symm hm)
  · cases c <;> try rfl
    case tick => exact deliverTick_engine h
    case clearWalkVisit => exact walkStep_engine m s
    case continuousGapEnd l =>
      by_cases e : l = m
      · subst e
        exact endGap_engine h
      · exact absurd ⟨l, e, .inr (.inr rfl)⟩ hl
    case midStartSample l v =>
      by_cases e : l = m
      · subst e
        exact absurd rfl h3
      · exact absurd ⟨l, e, .inr (.inl rfl)⟩ hl
    case characterDelivered l d b v =>
      by_cases e : l = m
      · subst e
        exact absurd rfl h3
      · exact absurd ⟨l, e, .inr (.inl rfl)⟩ hl
    all_goals
      next l =>
        by_cases e : l = m
        · subst e
          exact absurd rfl h2
        · exact absurd ⟨l, e, .inl rfl⟩ hl

/-- A row in a period leaves CLKIN, RESET and the queue as they are. -/
theorem happen_gates (c : Instr) (s : State) :
    (happen s c).clkinRunning = s.clkinRunning ∧ (happen s c).resetHeld = s.resetHeld ∧
      (happen s c).pending = s.pending := by
  have line : ∀ l, rowKey c = (2, some l) ∨ rowKey c = (3, some l) ∨ rowKey c = (4, some l) →
      (happen s c).clkinRunning = s.clkinRunning ∧ (happen s c).resetHeld = s.resetHeld ∧
        (happen s c).pending = s.pending := by
    intro l hk
    have h := happen_lineStep l s hk
    exact ⟨h.clkinRunning, h.resetHeld, h.pending⟩
  cases c <;> try exact ⟨rfl, rfl, rfl⟩
  case tick =>
    have g := tickTimer_lineStep .a (s.setTimeBase { s.timeBase with prescaler := 0 })
    have f := tickTimer_lineStep .b (tickTimer .a (s.setTimeBase { s.timeBase with prescaler := 0 }))
    exact ⟨f.clkinRunning.trans g.clkinRunning, f.resetHeld.trans g.resetHeld, f.pending.trans g.pending⟩
  case clearWalkVisit =>
    show (walkStep s).clkinRunning = _ ∧ (walkStep s).resetHeld = _ ∧ (walkStep s).pending = _
    unfold walkStep walkVisit
    split
    · exact ⟨rfl, rfl, rfl⟩
    · dsimp only
      split <;> exact ⟨rfl, rfl, rfl⟩
  all_goals exact line _ (by simp [rowKey]; rfl)

end Sys2Proof.Machine
end

