-- ==== Sys2Proof/Laws/Decisions.lean ====
section
/-!
SUPPORT. How PARAM and the staging buffer decide a command, each said once as one condition on bytes; and what a command
does in a decoder that is IDLE or EXECUTING.
-/

namespace Sys2Proof.Machine

open Sys2Proof.Safety

/-! ### The decoder -/

theorem busy_of_executing {s : State} (h : s.port.decoder ≠ .idle) : s.busy = true := (busy_iff s).2 h

/-- A command row whose meaning is an access to COMMAND is refused while the decoder is EXECUTING (R159). -/
theorem refusedWhileBusy_of_access {c : Instr} (f : State → State) (hc : ∀ s, exec c s = .next (commandAccess f s)) :
    RefusedWhileBusy c := by
  intro s h hd
  rw [hc, commandAccess_busy f h.1 h.2 (busy_of_executing hd)]
  rfl

/-- Taken in IDLE, a command acts on the state with REFUSED_BUSY cleared (R157). -/
theorem exec_of_access {c : Instr} {f : State → State} (hc : ∀ s, exec c s = .next (commandAccess f s)) {s : State}
    (h : TakesCommands s) : exec c s = .next (f { s with port := { s.port with refusedBusy := false } }) := by
  rw [hc, commandAccess_idle f h.1.1 h.1.2 h.2]
  rfl

/-! ### PARAM -/

theorem byte_eq_of_toNat {b : Byte} {n : Nat} (h : b.toNat = n) : b = BitVec.ofNat 8 n := by
  rw [← h, BitVec.ofNat_toNat, BitVec.setWidth_eq]

theorem lineOfParam_of_index {p : Byte} {l : Line} (h : p.toNat = lineIndex l) : lineOfParam p = some l := by
  cases l <;> rw [byte_eq_of_toNat h] <;> rfl

theorem lineOfParam_out_of_range {p : Byte} (h : 2 ≤ p.toNat) : lineOfParam p = none := by
  unfold lineOfParam
  rw [if_neg (by rintro rfl; simp at h), if_neg (by rintro rfl; simp at h)]

theorem entryOfParam_of_index {p : Byte} {i : Fin 32} (h : p.toNat = i.val) : entryOfParam p = some i := by
  simp [entryOfParam, h]

theorem entryOfParam_out_of_range {p : Byte} (h : 32 ≤ p.toNat) : entryOfParam p = none := by
  simp only [entryOfParam, dite_eq_right_iff, reduceCtorEq, imp_false]
  omega

/-! ### Staging -/

theorem byte_le_two (b : Byte) : b.toNat ≤ 2 ↔ b = 0 ∨ b = 1 ∨ b = 2 := by
  revert b
  decide

theorem byte_le_one (b : Byte) : b.toNat ≤ 1 ↔ b = 0 ∨ b = 1 := by
  revert b
  decide

/-- The configuration an image holds (R113). -/
abbrev lineConfigOfImage (v : Vector Byte 32) : LineConfig :=
  { divisor := twoBytes v 0 1
    parity := if v[2] = 0 then .none else if v[2] = 1 then .even else .odd
    stopBits := v[3].toNat
    lead := v[4].toNat
    lag := v[5].toNat
    quietGap := v[6].toNat
    gapLimit := v[7].toNat }

/-- The ranges of R114, as one condition. -/
theorem lineConfigOfStaging_eq (v : Vector Byte 32) :
    lineConfigOfStaging v =
      if (1 ≤ twoBytes v 0 1 ∧ twoBytes v 0 1 ≤ 4095) ∧ v[2].toNat ≤ 2 ∧ (v[3].toNat = 1 ∨ v[3].toNat = 2) ∧
          v[4].toNat ≤ 15 ∧ v[5].toNat ≤ 15 ∧ 4 ≤ v[6].toNat ∧ (2 ≤ v[7].toNat ∧ v[7].toNat ≤ 31) then
        some (lineConfigOfImage v)
      else none := by
  have ht : twoBytes v 0 1 = word16 v[0] v[1] := rfl
  unfold lineConfigOfStaging parityOfByte lineConfigOfImage
  simp only [byte_le_two, ht]
  by_cases h0 : v[2] = 0
  · simp [h0, and_assoc]
  by_cases h1 : v[2] = 1
  · simp [h1, and_assoc]
  by_cases h2 : v[2] = 2
  · simp [h2, and_assoc]
  simp only [h0, h1, h2, if_false, or_self, and_false, false_and]

/-- The ranges R8 and R43 share, as one condition. -/
theorem requestOfStaging_eq (v : Vector Byte 32) :
    requestOfStaging v = if RequestImageInRange v then some (requestOfImage v) else none := by
  have ht : twoBytes v 5 6 = word16 v[5] v[6] := rfl
  unfold requestOfStaging expectationOfByte RequestImageInRange requestOfImage
  rw [ht]
  by_cases h1 : v[4] = 0xFF
  · simp [h1, and_assoc]
  · by_cases h2 : v[4].toNat ≤ 16
    · simp only [h1, h2, if_false, if_true, or_false, true_and, and_assoc]
    · simp only [h1, h2, if_false, or_self, and_false, false_and]

/-- The ranges of R25, as one condition. -/
theorem roundSettingsOfStaging_eq (v : Vector Byte 32) :
    roundSettingsOfStaging v =
      if v[0].toNat ≤ 2 ∧ v[1].toNat ≤ 2 ∧ v[2].toNat ≤ 1 ∧ twoBytes v 3 4 ≠ 0 then
        some
          { source := if v[0] = 0 then .soft else if v[0] = 1 then .timer else .sync
            edge := if v[1] = 0 then .rising else if v[1] = 1 then .falling else .both
            mode := if v[2] = 0 then .single else .continuous
            period := twoBytes v 3 4 }
      else none := by
  have ht : twoBytes v 3 4 = word16 v[3] v[4] := rfl
  simp only [byte_le_two, byte_le_one, ht]
  unfold roundSettingsOfStaging sourceOfByte edgeOfByte modeOfByte
  generalize v[0] = x, v[1] = y, v[2] = z, word16 v[3] v[4] = n
  have hx : (x = 0 ∨ x = 1 ∨ x = 2) ∨ ¬(x = 0 ∨ x = 1 ∨ x = 2) := Classical.em _
  have hy : (y = 0 ∨ y = 1 ∨ y = 2) ∨ ¬(y = 0 ∨ y = 1 ∨ y = 2) := Classical.em _
  have hz : (z = 0 ∨ z = 1) ∨ ¬(z = 0 ∨ z = 1) := Classical.em _
  rcases hx with (rfl | rfl | rfl) | hx <;> rcases hy with (rfl | rfl | rfl) | hy <;>
    rcases hz with (rfl | rfl) | hz <;> simp_all

end Sys2Proof.Machine
end

