-- ==== Sys2Proof/Laws/PortFree.lean ====
section
/-!
SUPPORT. The choice and all it is made of neither read nor write the Host Port: they commute with replacing it.
-/

namespace Sys2Proof.Machine

theorem offlineQuery_setPort (l : Line) (a : Byte) (s : State) (p : HostPort) :
    offlineQuery l a (s.setPort p) = ((offlineQuery l a s).1.setPort p, (offlineQuery l a s).2) := by
  unfold offlineQuery
  cases nodeIndex a with
  | none => rfl
  | some i =>
    dsimp only
    by_cases h : (s.node l i).state = .offline ∧ 0 < (s.node l i).countdown
    · rw [if_pos (by exact h), if_pos h]
      rfl
    · rw [if_neg (by exact h), if_neg h]

theorem visitEntry_setPort (l : Line) (i : Fin 32) (s : State) (p : HostPort) :
    visitEntry l i (s.setPort p) = ((visitEntry l i s).1.setPort p, (visitEntry l i s).2) := by
  unfold visitEntry
  simp only [State.setPort_table]
  by_cases h : s.table[i].enabled = true ∧ s.table[i].line = l
  · simp only [h, and_self, if_true]
    by_cases h0 : s.table[i].phase = 0
    · simp only [h0, if_true]
      by_cases ha : s.table[i].request.address = 0x7F
      · simp only [ha, if_true]
        rfl
      · simp only [ha, if_false]
        exact offlineQuery_setPort l _ (s.setTable _) p
    · simp only [h0, if_false]
      rfl
  · simp only [h, if_false]

theorem scanEntries_setPort (l : Line) (is : List (Fin 32)) (s : State) (p : HostPort) :
    scanEntries l is (s.setPort p) = ((scanEntries l is s).1.setPort p, (scanEntries l is s).2) := by
  induction is generalizing s with
  | nil => rfl
  | cons i rest ih =>
    unfold scanEntries
    rw [visitEntry_setPort]
    cases hv : visitEntry l i s with
    | mk t b =>
      cases b with
      | true => rfl
      | false => exact ih t

theorem enterRoundState_setPort (l : Line) (r : RoundState) (s : State) (p : HostPort) :
    enterRoundState l r (s.setPort p) = (enterRoundState l r s).setPort p := by
  unfold enterRoundState
  dsimp only
  by_cases h : (s.controller l).state = .running ∧ r ≠ .running
  · rw [if_pos (by exact h), if_pos h]
    rfl
  · rw [if_neg (by exact h), if_neg h]
    rfl

theorem endRound_setPort (l : Line) (s : State) (p : HostPort) :
    endRound l (s.setPort p) = (endRound l s).setPort p := by
  unfold endRound
  dsimp only
  rw [← enterRoundState_setPort]
  rfl

theorem askWalker_setPort (l : Line) (s : State) (p : HostPort) :
    askWalker l (s.setPort p) = ((askWalker l s).1.setPort p, (askWalker l s).2) := by
  unfold askWalker
  by_cases h : (s.controller l).state = .running ∧ (s.controller l).gap = none
  · rw [if_pos (by exact h), if_pos h, scanEntries_setPort]
    change (match ((scanEntries l (entriesFrom (s.controller l).cursor) s).1.setPort p,
      (scanEntries l (entriesFrom (s.controller l).cursor) s).2) with
      | (s', some i) => _
      | (s', none) => _) = _
    cases hs : scanEntries l (entriesFrom (s.controller l).cursor) s with
    | mk t o =>
      cases o with
      | none =>
        dsimp only
        rw [endRound_setPort]
      | some i => rfl
  · rw [if_neg (by exact h), if_neg h]

theorem takeUrgent_setPort (l : Line) (s : State) (p : HostPort) :
    takeUrgent l (s.setPort p) = (takeUrgent l s).setPort p := by
  unfold takeUrgent
  simp only [State.setPort_urgent]
  cases nextQueued l s.urgent <;> rfl

theorem makeChoice_setPort (l : Line) (s : State) (p : HostPort) :
    makeChoice l (s.setPort p) = (makeChoice l s).setPort p := by
  unfold makeChoice
  by_cases h : (s.engine l).state = .ready
  · rw [if_pos (by exact h), if_pos h]
    by_cases hu : (nextQueued l s.urgent).isSome = true ∧ (s.engine l).urgentCount < s.burstLimit
    · rw [if_pos (by exact hu), if_pos hu, takeUrgent_setPort]
    · rw [if_neg (by exact hu), if_neg hu, askWalker_setPort]
      cases ha : askWalker l s with
      | mk t o =>
        cases o with
        | none => exact takeUrgent_setPort l t p
        | some i => rfl
  · rw [if_neg (by exact h), if_neg h]

end Sys2Proof.Machine
end

