-- ==== Sys2Proof/Laws/Sound.lean ====
section
/-!
SUPPORT. What the operations of one line do to the relations of Safety.LineSound: the slots and the store counted, and
one lemma for each operation that keeps a line sound.
-/

namespace Sys2Proof.Machine

open Sys2Proof.Safety

/-! ### Slots counted -/

/-- How many slots of the line are IN_FLIGHT. -/
theorem inFlightLines_count (l : Line) (s : State) : (inFlightLines s).count l = (s.urgent.countP (Slot.onLine l)) := by
  unfold inFlightLines
  rw [List.count_eq_countP, List.countP_map, List.countP_filter]
  rfl

theorem mem_slotLines (l : Line) (s : State) : l ∈ slotLines s ↔ ∃ x ∈ s.urgent, x.line = l := by
  simp [slotLines]

theorem markInFlight_length (l : Line) (q : List Slot) : (markInFlight l q).length = q.length := by
  induction q with
  | nil => rfl
  | cons x rest ih =>
    unfold markInFlight
    split <;> simp [*]

theorem markInFlight_lines (l : Line) (q : List Slot) : (markInFlight l q).map (·.line) = q.map (·.line) := by
  induction q with
  | nil => rfl
  | cons x rest ih =>
    unfold markInFlight
    split <;> simp [*]

theorem markInFlight_countP (l : Line) (q : List Slot) (x : Slot) (h : nextQueued l q = some x) :
    (markInFlight l q).countP (Slot.onLine l) = q.countP (Slot.onLine l) + 1 := by
  induction q with
  | nil => simp [nextQueued] at h
  | cons y rest ih =>
    unfold markInFlight
    by_cases hy : y.waitsFor l = true
    · have hw := hy
      simp only [Slot.waitsFor, Bool.and_eq_true, beq_iff_eq] at hw
      have hy' : y.onLine l = false := by simp [Slot.onLine, hw.2]
      have hz : Slot.onLine l { y with state := .inFlight } = true := by simp [Slot.onLine, hw.1]
      simp [hy, hz, hy']
    · have : nextQueued l rest = some x := by
        simpa [nextQueued, List.find?_cons, hy] using h
      simp only [hy, Bool.false_eq_true, if_false, List.countP_cons, ih this]
      omega

theorem removeInFlight_length (l : Line) (q : List Slot) (h : q.countP (Slot.onLine l) ≠ 0) :
    (removeInFlight l q).length + 1 = q.length := by
  induction q with
  | nil => simp at h
  | cons y rest ih =>
    unfold removeInFlight
    by_cases hy : y.onLine l = true
    · simp [hy]
    · simp only [hy, Bool.false_eq_true, if_false, List.length_cons, Nat.add_right_cancel_iff]
      exact ih (by simpa [List.countP_cons, hy] using h)

theorem removeInFlight_countP (l : Line) (q : List Slot) :
    (removeInFlight l q).countP (Slot.onLine l) = q.countP (Slot.onLine l) - 1 := by
  induction q with
  | nil => rfl
  | cons y rest ih =>
    unfold removeInFlight
    by_cases hy : y.onLine l = true
    · simp [hy]
    · simp only [hy, Bool.false_eq_true, if_false, List.countP_cons, ih]
      omega

theorem removeInFlight_sublist (l : Line) (q : List Slot) : (removeInFlight l q).Sublist q := by
  induction q with
  | nil => exact .slnil
  | cons y rest ih =>
    unfold removeInFlight
    split
    · exact List.sublist_cons_self _ _
    · exact ih.cons_cons _

/-! ### The store counted -/

theorem withoutCandidates_length (e : Fin 32) (store : List Record) :
    (withoutCandidates e store).length + (candidates e store).length = store.length := by
  cases store with
  | nil => rfl
  | cons r rest =>
    have : (rest.filter fun r => !r.ofEntry e).length + (rest.filter (Record.ofEntry e)).length = rest.length := by
      have := List.length_eq_length_filter_add (l := rest) (Record.ofEntry e)
      omega
    simp only [withoutCandidates, candidates, List.take_succ_cons, List.take_zero, List.tail_cons, List.length_append,
      List.length_cons, List.length_nil]
    omega

theorem appendKeepAll_storeSum (e : Fin 32) (f : Nat → Record) (s : State) (h : s.storeSum ≤ 16) :
    (appendKeepAll e f s).storeSum ≤ 16 := by
  unfold appendKeepAll
  split
  · next h' => simpa [State.storeSum, Nat.add_right_comm] using h'
  · exact h

theorem appendRoutine_storeSum (e : Fin 32) (p : Policy) (f : Nat → Record) (s : State) (h : s.storeSum ≤ 16) :
    (appendRoutine e p f s).storeSum ≤ 16 := by
  unfold appendRoutine
  cases p with
  | keepAll => exact appendKeepAll_storeSum e f s h
  | latest =>
    have hl := withoutCandidates_length e s.store
    cases hc : candidates e s.store with
    | nil => exact appendKeepAll_storeSum e f s h
    | cons r rest =>
      rw [hc] at hl
      simp only [State.storeSum, State.setMissed_store, State.setStore_store, State.setMissed_urgent,
        State.setStore_urgent, List.length_append, List.length_cons, List.length_nil] at h hl ⊢
      omega

/-- A routine append touches the store, the missed counts and OVERRUN only. -/
theorem appendRoutine_same (e : Fin 32) (p : Policy) (f : Nat → Record) (s : State) :
    (appendRoutine e p f s).engines = s.engines ∧ (appendRoutine e p f s).rounds = s.rounds ∧
      (appendRoutine e p f s).urgent = s.urgent ∧ (appendRoutine e p f s).nodes = s.nodes ∧
      (appendRoutine e p f s).table = s.table := by
  unfold appendRoutine appendKeepAll
  split <;> (try split) <;> (try split) <;> exact ⟨rfl, rfl, rfl, rfl, rfl⟩

theorem deliverRecord_same (l : Line) (x : Exchange) (o : OutcomeCode) (y : Option Reply) (s : State) :
    (deliverRecord l x o y s).engines = s.engines ∧ (deliverRecord l x o y s).rounds = s.rounds ∧
      (deliverRecord l x o y s).nodes = s.nodes ∧ (deliverRecord l x o y s).table = s.table := by
  unfold deliverRecord
  split
  · have := appendRoutine_same ‹Fin 32› ‹Policy› (recordOf l x o y) s
    exact ⟨this.1, this.2.1, this.2.2.2.1, this.2.2.2.2⟩
  · exact ⟨rfl, rfl, rfl, rfl⟩

@[simp] theorem deliverRecord_engine (l m : Line) (x : Exchange) (o : OutcomeCode) (y : Option Reply) (s : State) :
    (deliverRecord l x o y s).engine m = s.engine m := by
  simp [State.engine, (deliverRecord_same l x o y s).1]

@[simp] theorem deliverRecord_controller (l m : Line) (x : Exchange) (o : OutcomeCode) (y : Option Reply) (s : State) :
    (deliverRecord l x o y s).controller m = s.controller m := by
  simp [State.controller, (deliverRecord_same l x o y s).2.1]

/-- What the record of an exchange does to the queue: nothing for a routine one, its slot gone for an urgent one. -/
theorem deliverRecord_urgent (l : Line) (x : Exchange) (o : OutcomeCode) (y : Option Reply) (s : State) :
    (deliverRecord l x o y s).urgent =
      match x.work with
      | .routine _ _ _ => s.urgent
      | .urgent _ => removeInFlight l s.urgent := by
  unfold deliverRecord
  cases x.work with
  | routine e p r => exact (appendRoutine_same _ _ _ s).2.2.1
  | urgent tag => rfl

/-- Held plus reserved stays within 16 over the delivery of a record: an urgent one takes its slot's place (R60). -/
theorem deliverRecord_storeSum (l : Line) (x : Exchange) (o : OutcomeCode) (y : Option Reply) (s : State)
    (h : s.storeSum ≤ 16)
    (hs : ∀ tag, x.work = .urgent tag → s.urgent.countP (Slot.onLine l) ≠ 0) :
    (deliverRecord l x o y s).storeSum ≤ 16 := by
  unfold deliverRecord
  split
  · exact appendRoutine_storeSum _ _ _ s h
  · next tag ht =>
    have := removeInFlight_length l s.urgent (hs tag ht)
    simp only [appendUrgent, State.storeSum, State.setUrgent_store, State.setStore_store, State.setUrgent_urgent,
      List.length_append, List.length_cons, List.length_nil] at h ⊢
    omega

theorem cancelQueued_storeSum (f : Line → Bool) (s : State) : (cancelQueued f s).storeSum = s.storeSum := by
  have := List.length_eq_length_filter_add (l := s.urgent) fun x : Slot => f x.line && x.state == .queued
  simp only [cancelQueued, State.storeSum, State.setUrgent_store, State.setStore_store, State.setUrgent_urgent,
    List.length_append, List.length_map]
  omega

theorem cancelQueued_onLine (f : Line → Bool) (l : Line) (s : State) :
    (cancelQueued f s).urgent.countP (Slot.onLine l) = s.urgent.countP (Slot.onLine l) := by
  simp only [cancelQueued, State.setUrgent_urgent, List.countP_filter]
  refine List.countP_congr fun x _ => ?_
  cases hx : x.state <;> simp [Slot.onLine, hx]

/-! ### One line, sound -/

/-- Line `l` of a state is sound. -/
def LineOk (l : Line) (s : State) : Prop :=
  LineSound (s.engine l) (s.controller l) (slotLines s) (inFlightLines s) l

/-- The queue and the store are within their bounds (R39, R60). -/
structure Bounded (s : State) : Prop where
  slots : s.urgent.length ≤ 4
  room : s.storeSum ≤ 16

theorem linesSound_iff (s : State) :
    LinesSound s ↔ (∀ l, LineOk l s) ∧ (∀ l, ReceiverSound (s.engine l)) ∧ Bounded s :=
  ⟨fun h => ⟨fun l => by cases l <;> [exact h.lineA; exact h.lineB], h.receivers, ⟨h.slots, h.room⟩⟩,
    fun h => ⟨h.1 .a, h.1 .b, h.2.1, h.2.2.slots, h.2.2.room⟩⟩

/-- A line is as sound as before if its engine, controller and slots are the same. -/
theorem LineOk.of_same {l : Line} {s t : State} (h : LineOk l s) (he : t.engine l = s.engine l)
    (hc : t.controller l = s.controller l)
    (hs : t.urgent.filter (fun x => x.line == l) = s.urgent.filter (fun x => x.line == l)) : LineOk l t := by
  have hm : l ∈ slotLines t ↔ l ∈ slotLines s := by
    rw [mem_slotLines, mem_slotLines]
    have key : ∀ q : List Slot, (∃ x ∈ q, x.line = l) ↔ q.filter (fun x => x.line == l) ≠ [] := by
      intro q
      simp [List.filter_eq_nil_iff]
    rw [key, key, hs]
  have hi : (inFlightLines t).count l = (inFlightLines s).count l := by
    rw [inFlightLines_count, inFlightLines_count]
    have key : ∀ q : List Slot,
        q.countP (Slot.onLine l) = (q.filter (fun x => x.line == l)).countP (fun x => x.state == .inFlight) := by
      intro q
      rw [List.countP_filter]
      exact List.countP_congr fun x _ => by simp [Slot.onLine, and_comm]
    rw [key, key, hs]
  unfold LineOk at h ⊢
  rw [he, hc]
  exact ⟨fun hd => by rw [hm]; exact h.disabled hd, h.attempt, h.ready, h.discarding, by rw [hi]; exact h.inFlight,
    h.routine, h.running, h.halting, h.gap⟩

/-- An event of one line leaves the other line sound. -/
theorem LineStep.other_ok {l m : Line} {s t : State} (h : LineStep l s t) (hm : m ≠ l) (ok : LineOk m s) : LineOk m t :=
  ok.of_same (h.engine m hm) (h.controller m hm) (h.slots m hm)

/-- A line stays sound when only its engine changes, in ways the relations do not read. -/
theorem LineOk.engine_only {l : Line} {s : State} (h : LineOk l s) (e : Engine)
    (hs : e.state = (s.engine l).state) (hx : e.exchange = (s.engine l).exchange) : LineOk l (s.setEngine l e) := by
  unfold LineOk at h ⊢
  have hu : urgentOn e = urgentOn (s.engine l) := by simp [urgentOn, hx]
  have hr : routineOn e = routineOn (s.engine l) := by simp [routineOn, hx]
  rw [State.setEngine_engine_same, State.setEngine_controller]
  exact ⟨by rw [hs, hx]; exact h.disabled, by rw [hs, hx]; exact h.attempt, by rw [hs, hx]; exact h.ready,
    by rw [hs, hx]; exact h.discarding, by rw [hu]; exact h.inFlight, by rw [hr]; exact h.routine, h.running,
    h.halting, h.gap⟩

/-- A line is sound whenever its engine, controller, slot lines and IN_FLIGHT lines are. -/
theorem lineOk_of {l : Line} {s t : State} (h : LineOk l s) (he : t.engine l = s.engine l)
    (hc : t.controller l = s.controller l) (hu : t.urgent = s.urgent) : LineOk l t :=
  h.of_same he hc (by rw [hu])

theorem Bounded.of_same {s t : State} (h : Bounded s) (hu : t.urgent = s.urgent) (hs : t.store = s.store) :
    Bounded t := ⟨by rw [hu]; exact h.slots, by simp only [State.storeSum, hu, hs]; exact h.room⟩

end Sys2Proof.Machine
end

