-- ==== Sys2Proof/Laws/SoundOps.lean ====
section
/-!
SUPPORT. Each operation of a line keeps that line sound and the queue and store within their bounds.
-/

namespace Sys2Proof.Machine

open Sys2Proof.Safety

/-- A line and the common bounds together. -/
structure Ok (l : Line) (s : State) : Prop where
  line : LineOk l s
  bounds : Bounded s

/-- Nothing the relations read has changed. -/
theorem Ok.of_same {l : Line} {s t : State} (h : Ok l s) (hs : (t.engine l).state = (s.engine l).state)
    (hx : (t.engine l).exchange = (s.engine l).exchange) (hc : (t.controller l).state = (s.controller l).state)
    (hr : (t.controller l).routineInFlight = (s.controller l).routineInFlight)
    (hg : (t.controller l).gap.isSome = (s.controller l).gap.isSome) (hu : t.urgent = s.urgent)
    (hst : t.store.length = s.store.length) : Ok l t := by
  obtain ⟨h, b⟩ := h
  have hu' : urgentOn (t.engine l) = urgentOn (s.engine l) := by simp [urgentOn, hx]
  have hr' : routineOn (t.engine l) = routineOn (s.engine l) := by simp [routineOn, hx]
  refine ⟨?_, ⟨by rw [hu]; exact b.slots, by simp only [State.storeSum, hu, hst]; exact b.room⟩⟩
  unfold LineOk at h ⊢
  exact ⟨by rw [hs, hx, hc]; simpa [slotLines, hu] using h.disabled, by rw [hs, hx]; exact h.attempt,
    by rw [hs, hx]; exact h.ready, by rw [hs, hx]; exact h.discarding,
    by rw [hu']; simpa [inFlightLines, hu] using h.inFlight, by rw [hr, hr']; exact h.routine,
    by rw [hr, hc]; exact h.running, by rw [hr, hc]; exact h.halting, by rw [hg, hr, hc]; exact h.gap⟩

/-- Only the engine moves: to a state that fits its exchange. -/
theorem Ok.engine {l : Line} {s : State} (h : Ok l s) (e : Engine)
    (hu : urgentOn e = urgentOn (s.engine l)) (hr : routineOn e = routineOn (s.engine l))
    (disabled : e.state = .disabled → (s.engine l).state = .disabled ∧ e.exchange = none)
    (attempt : attemptOnLine e.state = true → e.exchange.isSome = true) (ready : e.state = .ready → e.exchange = none)
    (discarding : e.state = .discarding → ∃ x o, e.exchange = some x ∧ x.pendingOutcome = some o) :
    Ok l (s.setEngine l e) := by
  obtain ⟨h, b⟩ := h
  refine ⟨?_, b.of_same rfl rfl⟩
  unfold LineOk at h ⊢
  rw [State.setEngine_engine_same, State.setEngine_controller]
  exact ⟨fun hd => ⟨(h.disabled (disabled hd).1).1, (disabled hd).2, (h.disabled (disabled hd).1).2.2⟩, attempt, ready,
    discarding, by rw [hu]; exact h.inFlight, by rw [hr]; exact h.routine, h.running, h.halting, h.gap⟩

/-! ### Round states -/

theorem enterRoundState_controller (l : Line) (r : RoundState) (s : State) :
    (enterRoundState l r s).controller l =
      { s.controller l with state := r, timer := if r = .stopped then none else (s.controller l).timer } := by
  unfold enterRoundState
  dsimp only
  split <;> simp

theorem enterRoundState_engine (l : Line) (r : RoundState) (s : State) :
    (enterRoundState l r s).engine l = s.engine l ∨
      (enterRoundState l r s).engine l = { s.engine l with urgentCount := 0 } := by
  unfold enterRoundState
  dsimp only
  split <;> simp

@[simp] theorem enterRoundState_engine_state (l : Line) (r : RoundState) (s : State) :
    ((enterRoundState l r s).engine l).state = (s.engine l).state := by
  rcases enterRoundState_engine l r s with h | h <;> rw [h]

@[simp] theorem enterRoundState_engine_exchange (l : Line) (r : RoundState) (s : State) :
    ((enterRoundState l r s).engine l).exchange = (s.engine l).exchange := by
  rcases enterRoundState_engine l r s with h | h <;> rw [h]

@[simp] theorem enterRoundState_urgent (l : Line) (r : RoundState) (s : State) :
    (enterRoundState l r s).urgent = s.urgent := by
  unfold enterRoundState
  dsimp only
  split <;> rfl

@[simp] theorem enterRoundState_store (l : Line) (r : RoundState) (s : State) :
    (enterRoundState l r s).store = s.store := by
  unfold enterRoundState
  dsimp only
  split <;> rfl

@[simp] theorem setLatched_engine (f : Latched → Latched) (l : Line) (s : State) :
    (setLatched f s).engine l = s.engine l := rfl
@[simp] theorem setLatched_controller (f : Latched → Latched) (l : Line) (s : State) :
    (setLatched f s).controller l = s.controller l := rfl
@[simp] theorem setLatched_urgent (f : Latched → Latched) (s : State) : (setLatched f s).urgent = s.urgent := rfl
@[simp] theorem setLatched_store (f : Latched → Latched) (s : State) : (setLatched f s).store = s.store := rfl

theorem setLatched_ok {l : Line} {s : State} (f : Latched → Latched) (h : Ok l s) : Ok l (setLatched f s) :=
  h.of_same rfl rfl rfl rfl rfl rfl rfl

/-- The controller changes to one that fits the engine. -/
theorem Ok.controller {l : Line} {s t : State} (h : Ok l s) (hs : (t.engine l).state = (s.engine l).state)
    (hx : (t.engine l).exchange = (s.engine l).exchange) (hu : t.urgent = s.urgent) (hst : t.store = s.store)
    (hr : (t.controller l).routineInFlight = (s.controller l).routineInFlight)
    (disabled : (s.engine l).state = .disabled → (t.controller l).state = .stopped)
    (running : (t.controller l).routineInFlight = true →
      (t.controller l).state = .running ∨ (t.controller l).state = .halting)
    (halting : (t.controller l).state = .halting → (t.controller l).routineInFlight = true)
    (gap : (t.controller l).gap.isSome = true →
      (t.controller l).state = .running ∧ (t.controller l).routineInFlight = false) : Ok l t := by
  obtain ⟨h, b⟩ := h
  have hu' : urgentOn (t.engine l) = urgentOn (s.engine l) := by simp [urgentOn, hx]
  have hr' : routineOn (t.engine l) = routineOn (s.engine l) := by simp [routineOn, hx]
  refine ⟨?_, b.of_same hu hst⟩
  unfold LineOk at h ⊢
  exact ⟨by rw [hs, hx]; exact fun hd => ⟨disabled hd, (h.disabled hd).2.1, by
      simpa [slotLines, hu] using (h.disabled hd).2.2⟩, by rw [hs, hx]; exact h.attempt,
    by rw [hs, hx]; exact h.ready, by rw [hs, hx]; exact h.discarding,
    by rw [hu']; simpa [inFlightLines, hu] using h.inFlight, by rw [hr, hr']; exact h.routine, running, halting, gap⟩

/-- An engine with no exchange has no routine one in flight. -/
theorem LineOk.no_routine {l : Line} {s : State} (h : LineOk l s) (hx : (s.engine l).exchange = none) :
    (s.controller l).routineInFlight = false := by
  rw [h.routine]
  simp [routineOn, hx]

theorem LineOk.ready_none {l : Line} {s : State} (h : LineOk l s) (hr : (s.engine l).state = .ready) :
    (s.engine l).exchange = none := h.ready hr

theorem startRound_ok {l : Line} {s : State} (h : Ok l s) (hn : (s.engine l).state ≠ .disabled) :
    Ok l (startRound l s) := by
  refine h.controller rfl rfl rfl rfl ?_ (fun hd => absurd hd hn) ?_ ?_ ?_ <;> simp [startRound]

theorem endRound_ok {l : Line} {s : State} (h : Ok l s) (hr : (s.engine l).state = .ready) : Ok l (endRound l s) := by
  have hf := h.line.no_routine (h.line.ready_none hr)
  have hc : (endRound l s).controller l =
      { s.controller l with
        cursor := 32
        exhausted := true
        gap := if (s.controller l).settings.mode = .continuous then some BitCount.zero else none
        state := stateAfterRound (s.controller l).settings
        timer := if stateAfterRound (s.controller l).settings = .stopped then none else (s.controller l).timer } := by
    simp [endRound, setRoundEnd, enterRoundState_controller]
  refine h.controller (by simp [endRound, setRoundEnd]) (by simp [endRound, setRoundEnd])
    (by simp [endRound, setRoundEnd]) (by simp [endRound, setRoundEnd]) (by rw [hc]) (fun hd => ?_) ?_ ?_ ?_
  · rw [hr] at hd
    exact absurd hd (by decide)
  · rw [hc]
    simp [hf]
  · rw [hc]
    intro hh
    exfalso
    simp only [stateAfterRound] at hh
    split at hh <;> simp_all
  · rw [hc]
    simp only [hf, and_true]
    cases hm : (s.controller l).settings.mode with
    | single => simp
    | continuous => simp [stateAfterRound, hm]

/-! ### The walker -/

/-- A visit touches the table and the line's node records only. -/
theorem visitEntry_same (l : Line) (i : Fin 32) (s : State) :
    (visitEntry l i s).1.engines = s.engines ∧ (visitEntry l i s).1.rounds = s.rounds ∧
      (visitEntry l i s).1.urgent = s.urgent ∧ (visitEntry l i s).1.store = s.store ∧
      (visitEntry l i s).1.missed = s.missed ∧ (visitEntry l i s).1.interrupts = s.interrupts := by
  unfold visitEntry offlineQuery
  dsimp only
  split
  · split
    · split
      · exact ⟨rfl, rfl, rfl, rfl, rfl, rfl⟩
      · split
        · exact ⟨rfl, rfl, rfl, rfl, rfl, rfl⟩
        · split <;> exact ⟨rfl, rfl, rfl, rfl, rfl, rfl⟩
    · exact ⟨rfl, rfl, rfl, rfl, rfl, rfl⟩
  · exact ⟨rfl, rfl, rfl, rfl, rfl, rfl⟩

theorem scanEntries_same (l : Line) (is : List (Fin 32)) (s : State) :
    (scanEntries l is s).1.engines = s.engines ∧ (scanEntries l is s).1.rounds = s.rounds ∧
      (scanEntries l is s).1.urgent = s.urgent ∧ (scanEntries l is s).1.store = s.store ∧
      (scanEntries l is s).1.missed = s.missed ∧ (scanEntries l is s).1.interrupts = s.interrupts := by
  induction is generalizing s with
  | nil => exact ⟨rfl, rfl, rfl, rfl, rfl, rfl⟩
  | cons i rest ih =>
    have hv := visitEntry_same l i s
    unfold scanEntries
    split
    · next h => rw [h] at hv; exact hv
    · next s' h =>
      rw [h] at hv
      obtain ⟨a, b, c, d, e, f⟩ := ih s'
      exact ⟨a.trans hv.1, b.trans hv.2.1, c.trans hv.2.2.1, d.trans hv.2.2.2.1, e.trans hv.2.2.2.2.1,
        f.trans hv.2.2.2.2.2⟩

theorem scanEntries_ok {l m : Line} {s : State} (is : List (Fin 32)) (h : Ok m s) : Ok m (scanEntries l is s).1 := by
  obtain ⟨he, hr, hu, hs, -, -⟩ := scanEntries_same l is s
  exact h.of_same (by simp [State.engine, he]) (by simp [State.engine, he]) (by simp [State.controller, hr])
    (by simp [State.controller, hr]) (by simp [State.controller, hr]) hu (by rw [hs])

/-- What an ask of a READY engine answers (R27): no work and a sound line, or an entry with the controller RUNNING and
its routine in flight item set, and the rest of the line as it was. -/
theorem askWalker_ok {l : Line} {s : State} (h : Ok l s) (hr : (s.engine l).state = .ready) :
    (∃ t, askWalker l s = (t, none) ∧ Ok l t ∧ (t.engine l).state = .ready) ∨
      (∃ t i, askWalker l s = (t, some i) ∧
        Ok l (t.updController l fun c => { c with routineInFlight := false }) ∧ (t.engine l).state = .ready ∧
        (t.controller l).state = .running ∧ (t.controller l).routineInFlight = true ∧
        (t.controller l).gap = none) := by
  unfold askWalker
  split
  · next hc =>
    have hok := scanEntries_ok (l := l) (entriesFrom (s.controller l).cursor) h
    obtain ⟨he, hro, hu, hs, -, -⟩ := scanEntries_same l (entriesFrom (s.controller l).cursor) s
    split
    · next s' i hsc =>
      rw [hsc] at hok he hro hu hs
      have hcs : s'.controller l = s.controller l := congrArg (·.get l) hro
      have hes : s'.engine l = s.engine l := congrArg (·.get l) he
      refine .inr ⟨_, i, rfl, ?_, by simpa [hes] using hr, by simpa [hcs] using hc.1, by simp, by simpa [hcs] using hc.2⟩
      have hf := h.line.no_routine (h.line.ready_none hr)
      refine hok.of_same ?_ ?_ ?_ ?_ ?_ ?_ ?_ <;> simp [hcs, hf]
    · next s' hsc =>
      rw [hsc] at hok he
      have hes : s'.engine l = s.engine l := congrArg (·.get l) he
      exact .inl ⟨_, rfl, endRound_ok hok (by rw [hes]; exact hr), by simp [endRound, setRoundEnd, hes, hr]⟩
  · exact .inl ⟨s, rfl, h, hr⟩

/-! ### Exchanges begin -/

theorem enterLead_state (e : Engine) : e.enterLead.state = .lead ∨ e.enterLead.state = .sending := by
  unfold Engine.enterLead Engine.enterSending
  split
  · exact .inr rfl
  · exact .inl rfl

@[simp] theorem enterLead_exchange (e : Engine) : e.enterLead.exchange = e.exchange := by
  unfold Engine.enterLead Engine.enterSending
  split <;> rfl

/-- A started exchange, in the states LEAD and SENDING only. -/
theorem started_state {e : Engine} :
    (e.enterLead.state = .disabled → False) ∧ (e.enterLead.state = .ready → False) ∧
      (e.enterLead.state = .discarding → False) := by
  rcases enterLead_state e with h | h <;> simp [h]

theorem takeRoutine_ok {l : Line} {t : State} (i : Fin 32)
    (h : Ok l (t.updController l fun c => { c with routineInFlight := false })) (hr : (t.engine l).state = .ready)
    (hc : (t.controller l).state = .running) (hf : (t.controller l).routineInFlight = true)
    (hg : (t.controller l).gap = none) : Ok l (takeRoutine l i t) := by
  obtain ⟨h, b⟩ := h
  refine ⟨?_, b.of_same rfl rfl⟩
  have hx : (t.engine l).exchange = none := by simpa using h.ready_none (by simpa using hr)
  have hi : (inFlightLines t).count l = 0 := by
    have := h.inFlight
    simpa [urgentOn, hx, inFlightLines] using this
  unfold LineOk takeRoutine startExchange
  simp only [State.updEngine_engine_same, State.updEngine_controller]
  refine ⟨fun hd => absurd hd started_state.1, fun _ => by simp, fun hd => absurd hd started_state.2.1,
    fun hd => absurd hd started_state.2.2, ?_, ?_, fun _ => .inl hc, fun hd => ?_, fun hd => ?_⟩
  · simpa [urgentOn, inFlightLines] using hi
  · simp [routineOn, hf]
  · rw [hc] at hd
    exact absurd hd (by decide)
  · simp [hg] at hd

theorem takeUrgent_ok {l : Line} {s : State} (h : Ok l s) (hr : (s.engine l).state = .ready) :
    Ok l (takeUrgent l s) := by
  unfold takeUrgent
  split
  · exact h
  · next slot hq =>
    obtain ⟨h, b⟩ := h
    have hx := h.ready_none hr
    have hi : s.urgent.countP (Slot.onLine l) = 0 := by
      have := h.inFlight
      rwa [inFlightLines_count, urgentOn, hx] at this
    have hf := h.no_routine hx
    refine ⟨?_, ⟨by simpa [startExchange, markInFlight_length] using b.slots, by
      simpa [startExchange, State.storeSum, markInFlight_length] using b.room⟩⟩
    unfold LineOk startExchange
    simp only [State.updEngine_engine_same, State.updEngine_controller, State.setUrgent_controller]
    refine ⟨fun hd => absurd hd started_state.1, fun _ => by simp, fun hd => absurd hd started_state.2.1,
      fun hd => absurd hd started_state.2.2, ?_, by simp [routineOn, hf], h.running, h.halting, h.gap⟩
    rw [inFlightLines_count]
    simp [markInFlight_countP l s.urgent slot hq, hi, urgentOn]

/-- A choice keeps the line sound (R121, R122). -/
theorem makeChoice_ok {l : Line} {s : State} (h : Ok l s) : Ok l (makeChoice l s) := by
  unfold makeChoice
  split
  · next hr =>
    split
    · exact takeUrgent_ok h hr
    · rcases askWalker_ok h hr with ⟨t, ht, hok, hrt⟩ | ⟨t, i, ht, hok, hrt, hc, hf, hg⟩
      · rw [ht]
        exact takeUrgent_ok hok hrt
      · rw [ht]
        exact takeRoutine_ok i hok hrt hc hf hg
  · exact h

theorem startRoundAndChoose_ok {l : Line} {s : State} (h : Ok l s) (hn : (s.engine l).state ≠ .disabled) :
    Ok l (startRoundAndChoose l s) :=
  makeChoice_ok (startRound_ok h hn)

/-- A line whose controller is not STOPPED is not DISABLED. -/
theorem LineOk.enabled {l : Line} {s : State} (h : LineOk l s) (hc : (s.controller l).state ≠ .stopped) :
    (s.engine l).state ≠ .disabled := fun hd => hc (h.disabled hd).1

theorem setTimer_ok {l : Line} {s : State} (f : Controller → Option Nat) (h : Ok l s) :
    Ok l (s.updController l fun c => { c with timer := f c }) :=
  h.of_same rfl rfl (by simp) (by simp) (by simp) rfl rfl

theorem trigger_ok {l : Line} {s : State} (h : Ok l s) : Ok l (trigger l s) := by
  unfold trigger
  dsimp only
  cases hc : (s.controller l).state with
  | stopped => exact h
  | halting => exact h
  | running =>
    dsimp only
    split
    · exact setLatched_ok _ h
    · exact h
  | armed =>
    dsimp only
    split
    · exact startRoundAndChoose_ok (setTimer_ok (fun _ => none) h) (h.line.enabled (by simp [hc]))
    · exact startRoundAndChoose_ok h (h.line.enabled (by simp [hc]))

theorem expireTimer_ok {l : Line} {s : State} (h : Ok l s) : Ok l (expireTimer l s) := by
  unfold expireTimer
  split
  · exact h
  · exact trigger_ok (setTimer_ok (fun c => some c.settings.period) h)

theorem tickTimer_ok {l : Line} {s : State} (h : Ok l s) : Ok l (tickTimer l s) := by
  unfold tickTimer
  split
  · exact h
  · next n _ =>
    split
    · exact expireTimer_ok h
    · exact setTimer_ok (fun _ => some (n - 1)) h

theorem endGap_ok {l : Line} {s : State} (h : Ok l s) : Ok l (endGap l s) := by
  unfold endGap
  split
  · exact h
  · next c hg =>
    have := (h.line.gap (by simp [hg])).1
    exact startRoundAndChoose_ok h (h.line.enabled (by simp [this]))

theorem syncTrigger_ok {l : Line} {s : State} (v : Level) (h : Ok l s) : Ok l (syncTrigger l v s) := by
  unfold syncTrigger
  dsimp only
  split
  · exact trigger_ok h
  · exact h

/-- Entering STOPPED with no routine exchange in flight and no gap. -/
theorem enterStopped_ok {l : Line} {s : State} (h : Ok l s) (hf : (s.controller l).routineInFlight = false)
    (hg : (s.controller l).gap = none) : Ok l (enterRoundState l .stopped s) := by
  refine h.controller (by simp) (by simp) (by simp) (by simp) ?_ ?_ ?_ ?_ ?_ <;>
    simp [enterRoundState_controller, hf, hg]

theorem LineOk.no_gap {l : Line} {s : State} (h : LineOk l s) (hc : (s.controller l).state ≠ .running) :
    (s.controller l).gap = none := by
  cases hg : (s.controller l).gap with
  | none => rfl
  | some c => exact absurd (h.gap (by simp [hg])).1 hc

theorem LineOk.not_in_flight {l : Line} {s : State} (h : LineOk l s) (hc : (s.controller l).state ≠ .running)
    (hc' : (s.controller l).state ≠ .halting) : (s.controller l).routineInFlight = false := by
  cases hf : (s.controller l).routineInFlight with
  | false => rfl
  | true => rcases h.running hf with h | h <;> contradiction

theorem halt_ok {l : Line} {s : State} (h : Ok l s) : Ok l (halt l s) := by
  unfold halt
  cases hc : (s.controller l).state with
  | stopped => exact h
  | halting => exact h
  | armed =>
    exact setLatched_ok _ (enterStopped_ok h (h.line.not_in_flight (by simp [hc]) (by simp [hc]))
      (h.line.no_gap (by simp [hc])))
  | running =>
    dsimp only
    split
    · next hf =>
      have hg : (s.controller l).gap = none := by
        cases hg : (s.controller l).gap with
        | none => rfl
        | some c => simp [(h.line.gap (by simp [hg])).2] at hf
      refine h.controller (by simp) (by simp) (by simp) (by simp) ?_ ?_ ?_ ?_ ?_ <;>
        simp [enterRoundState_controller, hf, hg]
      exact fun hd => h.line.enabled (by simp [hc]) hd
    · next hf =>
      simp only [Bool.not_eq_true] at hf
      refine setLatched_ok _ (enterStopped_ok (s := s.updController l fun c => { c with gap := none }) ?_ (by simp [hf])
        (by simp))
      refine h.controller rfl rfl rfl rfl ?_ ?_ ?_ ?_ ?_ <;> simp [hc, hf]
      exact fun hd => h.line.enabled (by simp [hc]) hd

theorem beginRounds_ok {l : Line} {s : State} (h : Ok l s) (hn : (s.engine l).state ≠ .disabled)
    (hc : (s.controller l).state = .stopped) : Ok l (beginRounds l s) := by
  have hf := h.line.not_in_flight (by simp [hc]) (by simp [hc])
  have hg := h.line.no_gap (by simp [hc])
  unfold beginRounds
  split
  · exact startRoundAndChoose_ok h hn
  · refine h.controller rfl rfl rfl rfl ?_ (fun hd => absurd hd hn) ?_ ?_ ?_ <;> simp [hf, hg]
  · refine h.controller rfl rfl rfl rfl ?_ (fun hd => absurd hd hn) ?_ ?_ ?_ <;> simp [hf, hg]

/-! ### Exchanges end -/

theorem updateNode_same (l : Line) (a : Byte) (o : OutcomeCode) (s : State) :
    (updateNode l a o s).engines = s.engines ∧ (updateNode l a o s).rounds = s.rounds ∧
      (updateNode l a o s).urgent = s.urgent ∧ (updateNode l a o s).store = s.store ∧
      (updateNode l a o s).table = s.table ∧ (updateNode l a o s).missed = s.missed := by
  unfold updateNode
  split <;> exact ⟨rfl, rfl, rfl, rfl, rfl, rfl⟩

theorem reportCompletion_engine (l : Line) (s : State) :
    ((reportCompletion l s).engine l).state = (s.engine l).state ∧
      ((reportCompletion l s).engine l).exchange = (s.engine l).exchange ∧
      (reportCompletion l s).urgent = s.urgent ∧ (reportCompletion l s).store = s.store := by
  unfold reportCompletion
  dsimp only
  split <;> simp [setHalted]

theorem reportCompletion_controller (l : Line) (s : State) :
    ((reportCompletion l s).controller l).routineInFlight = false ∧
      ((reportCompletion l s).controller l).gap = (s.controller l).gap ∧
      ((reportCompletion l s).controller l).state =
        if (s.controller l).state = .halting then .stopped else (s.controller l).state := by
  unfold reportCompletion
  dsimp only
  split <;> simp_all [setHalted, enterRoundState_controller]

/-- After its record is delivered, a line with its engine at rest and its controller told is sound. -/
theorem delivered_ok {l : Line} {s t : State} {x : Exchange} {o : OutcomeCode} {y : Option Reply} (h : Ok l s)
    (hx : (s.engine l).exchange = some x) (hu : t.urgent = (deliverRecord l x o y s).urgent)
    (hst : t.store = (deliverRecord l x o y s).store) (he : (t.engine l).exchange = none)
    (hd : (t.engine l).state = .quiet)
    (hf : (t.controller l).routineInFlight = false)
    (hh : (t.controller l).state ≠ .halting)
    (hg : (t.controller l).gap.isSome = true → (t.controller l).state = .running) : Ok l t := by
  obtain ⟨h, b⟩ := h
  have hsum := deliverRecord_storeSum l x o y s b.room (by
    intro tag ht
    have := h.inFlight
    rw [inFlightLines_count] at this
    simp [this, urgentOn, hx, ht])
  have hle : (deliverRecord l x o y s).urgent.length ≤ s.urgent.length := by
    rw [deliverRecord_urgent]
    split
    · exact Nat.le_refl _
    · exact (removeInFlight_sublist l s.urgent).length_le
  refine ⟨?_, ⟨by rw [hu]; exact hle.trans b.slots, by simp only [State.storeSum, hu, hst]; exact hsum⟩⟩
  unfold LineOk
  refine ⟨fun h' => by simp [hd] at h', fun h' => by simp [hd, attemptOnLine] at h', fun h' => he,
    fun h' => by simp [hd] at h', ?_, by simp [routineOn, he, hf], fun h' => by simp [hf] at h',
    fun h' => absurd h' hh, fun h' => ⟨hg h', hf⟩⟩
  have hi := h.inFlight
  rw [inFlightLines_count] at hi ⊢
  rw [hu, deliverRecord_urgent]
  have : urgentOn (t.engine l) = false := by simp [urgentOn, he]
  rw [this]
  cases hw : x.work with
  | routine e p r =>
    rw [hi]
    simp [urgentOn, hx, hw]
  | urgent tag =>
    dsimp only
    rw [removeInFlight_countP, hi]
    simp [urgentOn, hx, hw]

end Sys2Proof.Machine
end

