-- ==== Sys2Proof/Laws/SoundEvents.lean ====
section
/-!
SUPPORT. Each ending, count and receiver event of a line keeps that line sound and the queue and store within their
bounds.
-/

namespace Sys2Proof.Machine

open Sys2Proof.Safety

/-! ### Completion, retry and abort -/

theorem reportOf_urgent_store (l : Line) (w : Work) (s : State) :
    (reportOf l w s).urgent = s.urgent ∧ (reportOf l w s).store = s.store := by
  cases w with
  | routine => exact (reportCompletion_engine l s).2.2
  | urgent => exact ⟨rfl, rfl⟩

@[simp] theorem updateNode_engine (l m : Line) (a : Byte) (o : OutcomeCode) (s : State) :
    (updateNode l a o s).engine m = s.engine m :=
  congrArg (·.get m) (updateNode_same l a o s).1

@[simp] theorem updateNode_controller (l m : Line) (a : Byte) (o : OutcomeCode) (s : State) :
    (updateNode l a o s).controller m = s.controller m :=
  congrArg (·.get m) (updateNode_same l a o s).2.1

theorem completeExchange_ok {l : Line} {s : State} {x : Exchange} (o : OutcomeCode) (y : Option Reply) (h : Ok l s)
    (hx : (s.engine l).exchange = some x) : Ok l (completeExchange l x o y s) := by
  obtain ⟨hu, hst⟩ := reportOf_urgent_store l x.work (updateNode l x.request.address o (deliverRecord l x o y s))
  have hn := updateNode_same l x.request.address o (deliverRecord l x o y s)
  refine delivered_ok (t := completeExchange l x o y s) h hx (hu.trans hn.2.2.1) (hst.trans hn.2.2.2.1)
    (by simp [completeExchange]) (by simp [completeExchange, Engine.enterQuiet]) ?_ ?_ ?_
  all_goals unfold completeExchange; rw [State.updEngine_controller]
  · cases hw : x.work with
    | routine => exact (reportCompletion_controller l _).1
    | urgent => simpa [reportOf, h.line.routine] using by simp [routineOn, hx, hw]
  · cases hw : x.work with
    | routine =>
      rw [show reportOf l _ _ = reportCompletion l _ from rfl, (reportCompletion_controller l _).2.2]
      split <;> simp_all
    | urgent =>
      intro hh
      have : (s.controller l).routineInFlight = true := h.line.halting (by simpa [reportOf] using hh)
      rw [h.line.routine] at this
      simp [routineOn, hx, hw] at this
  · cases hw : x.work with
    | routine =>
      rw [show reportOf l _ _ = reportCompletion l _ from rfl, (reportCompletion_controller l _).2.1,
        (reportCompletion_controller l _).2.2]
      intro hg
      have := (h.line.gap (by simpa using hg)).1
      simp [this]
    | urgent =>
      intro hg
      simpa [reportOf] using (h.line.gap (by simpa [reportOf] using hg)).1

theorem endAttempt_ok {l : Line} {s : State} (o : OutcomeCode) (y : Option Reply) (h : Ok l s) :
    Ok l (endAttempt l o y s) := by
  unfold endAttempt
  split
  · exact h
  · next x hx =>
    split
    · refine h.engine _ ?_ ?_ ?_ ?_ ?_ ?_ <;> simp [Engine.enterQuiet, urgentOn, routineOn, hx, attemptOnLine]
    · exact completeExchange_ok o y h hx

/-! ### Counts -/

/-- A count or receiver event that leaves the exchange and moves the engine between states that fit it. -/
theorem Ok.moves {l : Line} {s : State} (h : Ok l s) (e : Engine) (hx : e.exchange = (s.engine l).exchange)
    (disabled : e.state ≠ .disabled ∨ e.state = (s.engine l).state)
    (attempt : attemptOnLine e.state = true → attemptOnLine (s.engine l).state = true)
    (ready : e.state ≠ .ready ∨ e.state = (s.engine l).state)
    (discarding : e.state ≠ .discarding ∨ e.state = (s.engine l).state) : Ok l (s.setEngine l e) := by
  refine h.engine e (by simp [urgentOn, hx]) (by simp [routineOn, hx]) (fun hd => ?_) (fun ha => ?_) (fun hr => ?_)
    (fun hd => ?_)
  · have he : (s.engine l).state = .disabled := by rcases disabled with h | h <;> simp_all
    exact ⟨he, by rw [hx]; exact (h.line.disabled he).2.1⟩
  · rw [hx]
    exact h.line.attempt (attempt ha)
  · rw [hx]
    exact h.line.ready (by rcases ready with h | h <;> simp_all)
  · rw [hx]
    exact h.line.discarding (by rcases discarding with h | h <;> simp_all)

theorem quietGapDone_ok {l : Line} {s : State} (h : Ok l s) : Ok l (quietGapDone l s) := by
  unfold quietGapDone
  dsimp only
  split
  · split
    · next x hx =>
      refine h.engine _ ?_ ?_ (fun hd => (started_state.1 hd).elim) ?_ (fun hd => (started_state.2.1 hd).elim)
        (fun hd => (started_state.2.2 hd).elim) <;> simp [urgentOn, routineOn, hx]
    · next hx =>
      refine makeChoice_ok (h.engine _ ?_ ?_ ?_ ?_ ?_ ?_) <;> simp [urgentOn, routineOn, hx, attemptOnLine]
  · exact h

theorem leadDone_ok {l : Line} {s : State} (h : Ok l s) : Ok l (leadDone l s) := by
  unfold leadDone
  split
  · next hs =>
    exact h.moves (s.engine l).enterSending rfl (by simp [Engine.enterSending]) (by simp [hs, attemptOnLine])
      (by simp [Engine.enterSending]) (by simp [Engine.enterSending])
  · exact h

theorem releaseDe_ok {l : Line} {s : State} (h : Ok l s) (hs : attemptOnLine (s.engine l).state = true) :
    Ok l (releaseDe l s) := by
  unfold releaseDe
  split
  · exact h
  · dsimp only
    split
    · exact endAttempt_ok _ _ (h.moves _ rfl (.inr rfl) (fun _ => hs) (.inr rfl) (.inr rfl))
    · exact h.moves _ rfl (by simp) (fun _ => hs) (by simp) (by simp)

theorem sendingDone_ok {l : Line} {s : State} (h : Ok l s) : Ok l (sendingDone l s) := by
  unfold sendingDone
  split
  · next hs =>
    split
    · exact releaseDe_ok h (by simp [hs, attemptOnLine])
    · exact h.moves _ rfl (by simp) (by simp [hs, attemptOnLine]) (by simp) (by simp)
  · exact h

theorem lagDone_ok {l : Line} {s : State} (h : Ok l s) : Ok l (lagDone l s) := by
  unfold lagDone
  split
  · next hs => exact releaseDe_ok h (by simp [hs, attemptOnLine])
  · exact h

theorem replyTimeoutDone_ok {l : Line} {s : State} (h : Ok l s) : Ok l (replyTimeoutDone l s) := by
  unfold replyTimeoutDone
  split
  · exact endAttempt_ok _ _ h
  · exact h

theorem gapLimitDone_ok {l : Line} {s : State} (h : Ok l s) : Ok l (gapLimitDone l s) := by
  unfold gapLimitDone
  split
  · exact endAttempt_ok _ _ h
  · exact h

theorem discardDone_ok {l : Line} {s : State} (h : Ok l s) : Ok l (discardDone l s) := by
  unfold discardDone
  split
  · split
    · exact h
    · exact endAttempt_ok _ _ h
  · exact h

/-! ### The receiver -/

/-- An update of an engine that leaves its state and exchange. -/
theorem Ok.quiet_update {l : Line} {s : State} (h : Ok l s) (f : Engine → Engine)
    (hs : (f (s.engine l)).state = (s.engine l).state) (hx : (f (s.engine l)).exchange = (s.engine l).exchange) :
    Ok l (s.updEngine l f) :=
  h.moves _ hx (.inr hs) (by rw [hs]; exact id) (.inr hs) (.inr hs)

theorem fall_ok {l : Line} {s : State} (h : Ok l s) : Ok l (s.updEngine l Engine.fall) := by
  refine h.quiet_update _ ?_ ?_ <;> unfold Engine.fall <;> split <;> rfl

theorem returnToMark_ok {l : Line} {s : State} (h : Ok l s) : Ok l (s.updEngine l Engine.returnToMark) := by
  refine h.quiet_update _ ?_ ?_ <;> unfold Engine.returnToMark <;> split <;> rfl

theorem midStart_ok {l : Line} {s : State} (v : Level) (h : Ok l s) :
    Ok l (s.updEngine l (Engine.midStart v)) := by
  unfold State.updEngine Engine.midStart
  split
  · cases v with
    | high => exact h.quiet_update (fun e => { e with receiver := .waiting, rxd := .high }) rfl rfl
    | low =>
      refine h.moves _ ?_ ?_ ?_ ?_ ?_ <;> unfold Engine.confirmStart <;> cases hs : (s.engine l).state <;>
        simp [Engine.enterQuiet, attemptOnLine]
  · exact h.quiet_update id rfl rfl

theorem judgeReply_ok {l : Line} {s : State} (d : Byte) (err : Bool) (h : Ok l s) : Ok l (judgeReply l d err s) := by
  unfold judgeReply
  split
  · exact h
  · next x hx =>
    split
    · refine h.engine _ ?_ ?_ ?_ ?_ ?_ ?_
      · simp [urgentOn, hx]
      · simp [routineOn, hx]
      · intro hd
        simp [(h.line.disabled hd).2.1] at hx
      · simp
      · intro hr
        simp [h.line.ready hr] at hx
      · intro hd
        obtain ⟨x', o, hx', ho⟩ := h.line.discarding hd
        rw [hx'] at hx
        cases hx
        exact ⟨_, o, rfl, ho⟩
    · refine h.engine _ ?_ ?_ ?_ ?_ ?_ ?_ <;> simp [urgentOn, routineOn, hx]
    · exact endAttempt_ok _ _ h

theorem deliverCharacter_ok {l : Line} {s : State} (d : Byte) (p : Bool) (v : Level) (h : Ok l s) :
    Ok l (deliverCharacter l d p v s) := by
  unfold deliverCharacter
  dsimp only
  split
  · have he : Ok l (s.setEngine l ((s.engine l).endCharacter v)) :=
      h.quiet_update (Engine.endCharacter v) rfl rfl
    cases (s.engine l).state
    case quiet => exact setLatched_ok _ he
    case ready => exact setLatched_ok _ he
    case receiving => exact judgeReply_ok _ _ he
    all_goals exact he
  · exact h

/-! ### Disable -/

theorem enable_ok {l : Line} {s : State} (h : Ok l s) (hd : (s.engine l).state = .disabled) :
    Ok l (s.updEngine l Engine.enable) := by
  have hx := (h.line.disabled hd).2.1
  refine h.engine _ ?_ ?_ ?_ ?_ ?_ ?_ <;> simp [Engine.enable, Engine.enterQuiet, urgentOn, routineOn, hx, attemptOnLine]

/-- After the abort nothing of the line is in flight: no exchange and no IN_FLIGHT slot, and held plus reserved is in
bounds (R60, R133). -/
theorem abortExchange_rest {l : Line} {s : State} (h : Ok l s) :
    ((abortExchange l s).engine l).exchange = none ∧ Bounded (abortExchange l s) ∧
      (abortExchange l s).urgent.countP (Slot.onLine l) = 0 := by
  have hi := h.line.inFlight
  rw [inFlightLines_count] at hi
  unfold abortExchange
  split
  · next hx =>
    refine ⟨hx, h.bounds, ?_⟩
    rw [hi]
    simp [urgentOn, hx]
  · next x hx =>
    have hsum := deliverRecord_storeSum l x .aborted none s h.bounds.room (by
      intro tag ht
      simp [hi, urgentOn, hx, ht])
    refine ⟨by simp, ⟨?_, by simpa [State.storeSum] using hsum⟩, ?_⟩
    · rw [State.updEngine_urgent, deliverRecord_urgent]
      split
      · exact h.bounds.slots
      · exact (removeInFlight_sublist l s.urgent).length_le.trans h.bounds.slots
    · rw [State.updEngine_urgent, deliverRecord_urgent]
      cases hw : x.work with
      | routine => simp [hi, urgentOn, hx, hw]
      | urgent => simp [removeInFlight_countP, hi, urgentOn, hx, hw]

theorem forceStop_rest (l : Line) (s : State) :
    ((forceStop l s).controller l).state = .stopped ∧ (forceStop l s).urgent = s.urgent ∧
      (forceStop l s).store = s.store ∧ ((forceStop l s).engine l).exchange = (s.engine l).exchange ∧
      ((forceStop l s).engine l).config = (s.engine l).config := by
  unfold forceStop
  split
  · next h => exact ⟨h, rfl, rfl, rfl, rfl⟩
  · refine ⟨by simp [setHalted, enterRoundState_controller], by simp [setHalted], by simp [setHalted],
      by simp [setHalted], ?_⟩
    rw [setHalted, setLatched_engine]
    rcases enterRoundState_engine l .stopped
      (s.updController l fun c => { c with routineInFlight := false, gap := none }) with h | h <;> rw [h] <;> rfl

/-- A forced stop leaves no routine exchange and no gap, given that a STOPPED controller had none. -/
theorem forceStop_idle (l : Line) (s : State)
    (h : (s.controller l).state = .stopped → (s.controller l).routineInFlight = false ∧ (s.controller l).gap = none) :
    ((forceStop l s).controller l).routineInFlight = false ∧ ((forceStop l s).controller l).gap = none := by
  unfold forceStop
  split
  · next hs => exact h hs
  · simp [setHalted, enterRoundState_controller]

@[simp] theorem abortExchange_controller (l : Line) (s : State) :
    (abortExchange l s).controller l = s.controller l := by
  unfold abortExchange
  split <;> simp

@[simp] theorem cancelQueued_engine (f : Line → Bool) (m : Line) (s : State) :
    (cancelQueued f s).engine m = s.engine m := rfl
@[simp] theorem cancelQueued_controller (f : Line → Bool) (m : Line) (s : State) :
    (cancelQueued f s).controller m = s.controller m := rfl

theorem cancelQueued_ok {l : Line} {s : State} (f : Line → Bool) (h : Ok l s) : Ok l (cancelQueued f s) := by
  obtain ⟨h, b⟩ := h
  refine ⟨?_, ⟨(List.length_filter_le _ _).trans b.slots, by rw [cancelQueued_storeSum]; exact b.room⟩⟩
  unfold LineOk at h ⊢
  rw [cancelQueued_engine, cancelQueued_controller]
  refine ⟨fun hd => ⟨(h.disabled hd).1, (h.disabled hd).2.1, ?_⟩, h.attempt, h.ready, h.discarding, ?_, h.routine,
    h.running, h.halting, h.gap⟩
  · rw [mem_slotLines]
    rintro ⟨x, hx, hl⟩
    exact (h.disabled hd).2.2 ((mem_slotLines l s).2 ⟨x, List.mem_of_mem_filter hx, hl⟩)
  · rw [inFlightLines_count, cancelQueued_onLine, ← inFlightLines_count]
    exact h.inFlight

theorem disable_ok {l : Line} {s : State} (h : Ok l s) : Ok l (disable l s) := by
  have h0 : Ok l (s.updEngine l Engine.letGo) := h.quiet_update _ rfl rfl
  obtain ⟨hx, hb, hi⟩ := abortExchange_rest h0
  obtain ⟨hc, hu, hst, hfx, -⟩ := forceStop_rest l (abortExchange l (s.updEngine l Engine.letGo))
  obtain ⟨hf, hg⟩ := forceStop_idle l (abortExchange l (s.updEngine l Engine.letGo)) (by
    intro hs
    simp only [abortExchange_controller, State.updEngine_controller] at hs ⊢
    exact ⟨h.line.not_in_flight (by simp [hs]) (by simp [hs]), h.line.no_gap (by simp [hs])⟩)
  unfold disable
  generalize forceStop l (abortExchange l (s.updEngine l Engine.letGo)) = t at *
  rw [← hfx] at hx
  rw [← hu] at hi
  have hb' : Bounded t := hb.of_same hu hst
  have none_left : ∀ x ∈ (cancelQueued (fun m => m == l) t).urgent, x.line ≠ l := by
    intro x hm hl
    simp only [cancelQueued, State.setUrgent_urgent, List.mem_filter] at hm
    have : t.urgent.countP (Slot.onLine l) = 0 := hi
    rw [List.countP_eq_zero] at this
    have h1 := this x hm.1
    cases hxs : x.state <;> simp_all [Slot.onLine]
  refine ⟨?_, ⟨(List.length_filter_le _ _).trans hb'.slots, ?_⟩⟩
  · unfold LineOk
    simp only [State.updEngine_engine_same, State.updEngine_controller, cancelQueued_engine, cancelQueued_controller]
    refine ⟨fun _ => ⟨hc, hx, ?_⟩, fun h' => by simp [Engine.disable, attemptOnLine] at h', fun _ => hx,
      fun h' => by simp [Engine.disable] at h', ?_, by simp [hf, routineOn, Engine.disable, hx],
      fun h' => by simp [hf] at h', fun h' => by simp [hc] at h', fun h' => by simp [hg] at h'⟩
    · rw [mem_slotLines]
      rintro ⟨x, hm, hl⟩
      exact none_left x hm hl
    · rw [inFlightLines_count, State.updEngine_urgent, cancelQueued_onLine, hi]
      simp [urgentOn, Engine.disable, hx]
  · have := cancelQueued_storeSum (fun m => m == l) t
    simpa [State.storeSum] using this.trans_le hb'.room

/-! ### The walk, the counts and the enqueue -/

theorem walkStep_same (s : State) :
    (walkStep s).engines = s.engines ∧ (walkStep s).rounds = s.rounds ∧ (walkStep s).urgent = s.urgent ∧
      (walkStep s).store = s.store := by
  unfold walkStep walkVisit
  split
  · exact ⟨rfl, rfl, rfl, rfl⟩
  · dsimp only
    split <;> exact ⟨rfl, rfl, rfl, rfl⟩

theorem Engine.countUp_same (e : Engine) :
    e.countUp.state = e.state ∧ e.countUp.exchange = e.exchange ∧ e.countUp.receiver = e.receiver := by
  unfold Engine.countUp
  cases h : e.state <;> dsimp only <;> (try split) <;> simp [h]

theorem Engine.sampleUp_same (e : Engine) :
    e.sampleUp.state = e.state ∧ e.sampleUp.exchange = e.exchange ∧ e.sampleUp.receiver = e.receiver := by
  unfold Engine.sampleUp
  cases h : e.receiver <;> dsimp only <;> (try split) <;> simp [h]

/-- A CLKIN period moves counts and samples only: no state, exchange or receiver. -/
theorem Engine.advance_same (e : Engine) :
    e.advance.state = e.state ∧ e.advance.exchange = e.exchange ∧ e.advance.receiver = e.receiver := by
  obtain ⟨a, b, c⟩ := e.countUp_same
  obtain ⟨x, y, z⟩ := e.countUp.sampleUp_same
  exact ⟨x.trans a, y.trans b, z.trans c⟩

theorem advanceLine_ok {l : Line} {s : State} (h : Ok l s) : Ok l (advanceLine l s) := by
  have h1 : Ok l
      (s.updController l fun c => { c with gap := c.gap.map (BitCount.advance (s.engine l).config.bitTime) }) :=
    h.of_same rfl rfl (by simp) (by simp) (by simp) rfl rfl
  exact h1.quiet_update _ (Engine.advance_same _).1 (Engine.advance_same _).2.1

/-- An enqueued slot of a line in use keeps it sound, with a slot free and room in the store (R44). -/
theorem enqueue_ok {l : Line} {s : State} (slot : Slot) (h : Ok l s) (hq : slot.state = .queued)
    (hn : (s.engine slot.line).state ≠ .disabled) (hl : s.urgent.length < 4) (hs : s.storeSum < 16) :
    Ok l (s.setUrgent (s.urgent ++ [slot])) := by
  obtain ⟨h, b⟩ := h
  refine ⟨?_, ⟨by simpa using hl, by simp [State.storeSum] at hs ⊢; omega⟩⟩
  unfold LineOk at h ⊢
  simp only [State.setUrgent_engine, State.setUrgent_controller]
  refine ⟨fun hd => ⟨(h.disabled hd).1, (h.disabled hd).2.1, ?_⟩, h.attempt, h.ready, h.discarding, ?_, h.routine,
    h.running, h.halting, h.gap⟩
  · have := (h.disabled hd).2.2
    simp only [slotLines, State.setUrgent_urgent, List.map_append, List.mem_append, List.map_cons, List.map_nil,
      List.mem_singleton] at this ⊢
    rintro (h' | h')
    · exact this h'
    · rw [← h'] at hn
      exact hn hd
  · rw [← h.inFlight, inFlightLines_count, inFlightLines_count]
    simp [Slot.onLine, hq]

end Sys2Proof.Machine
end

