-- ==== Sys2Proof/Laws/Receiver.lean ====
section
/-!
SUPPORT. Each operation of a line keeps its receiver in agreement with its line state (R102, R117).
-/

namespace Sys2Proof.Machine

open Sys2Proof.Safety

/-- The receiver of line `l` is sound. -/
abbrev ReceiverOk (l : Line) (s : State) : Prop := ReceiverSound (s.engine l)

/-! ### Engines -/

/-- The relation reads the line state and the receiver only. -/
theorem receiverSound_of_same {e f : Engine} (h : ReceiverSound e) (hs : f.state = e.state)
    (hr : f.receiver = e.receiver) : ReceiverSound f :=
  ⟨by rw [hs, hr]; exact h.off, by rw [hs, hr]; exact h.character⟩

/-- An engine whose receiver is off, in a state that has it off. -/
theorem receiverSound_off {e : Engine} (hr : e.receiver = .off)
    (hs : e.state = .disabled ∨ e.state = .lead ∨ e.state = .sending ∨ e.state = .lag) : ReceiverSound e :=
  ⟨⟨fun _ => hs, fun _ => hr⟩, fun h => by rw [hr] at h; cases h⟩

/-- An engine whose receiver is on, in a state that has it on. -/
theorem receiverSound_on {e : Engine} (hr : e.receiver ≠ .off)
    (hs : e.state = .quiet ∨ e.state = .ready ∨ e.state = .awaiting ∨ e.state = .receiving ∨ e.state = .discarding)
    (hc : e.receiver = .character → e.state = .quiet ∨ e.state = .receiving ∨ e.state = .discarding) :
    ReceiverSound e :=
  ⟨⟨fun h => absurd h hr, fun h => by rcases hs with g | g | g | g | g <;> rw [g] at h <;> simp at h⟩, hc⟩

/-- A receiver that is on in a state that has it on. -/
theorem receiverSound_isOn {e : Engine} (h : ReceiverSound e)
    (hs : e.state = .quiet ∨ e.state = .ready ∨ e.state = .awaiting ∨ e.state = .receiving ∨ e.state = .discarding) :
    e.receiver ≠ .off := by
  intro hr
  have := h.off.1 hr
  rcases hs with g | g | g | g | g <;> rw [g] at this <;> simp at this

theorem enterSending_receiver (e : Engine) : ReceiverSound e.enterSending :=
  receiverSound_off rfl (by simp [Engine.enterSending])

theorem enterLead_receiver (e : Engine) : ReceiverSound e.enterLead := by
  unfold Engine.enterLead
  split
  · exact enterSending_receiver e
  · exact receiverSound_off rfl (by simp)

/-- QUIET is entered with the receiver on. -/
theorem enterQuiet_receiver {e : Engine} (h : e.receiver ≠ .off) : ReceiverSound e.enterQuiet :=
  receiverSound_on h (.inl rfl) fun _ => .inl rfl

theorem midStart_receiver {e : Engine} (v : Level) (h : ReceiverSound e) : ReceiverSound (e.midStart v) := by
  unfold Engine.midStart
  split
  · next hf =>
    have off : e.receiver ≠ .off := by rw [hf]; decide
    have hs : ¬(e.state = .disabled ∨ e.state = .lead ∨ e.state = .sending ∨ e.state = .lag) :=
      fun g => off (h.off.2 g)
    cases v with
    | high =>
      refine receiverSound_on (by simp) ?_ (fun g => by cases g)
      cases hst : e.state <;> simp_all
    | low =>
      unfold Engine.confirmStart
      cases hst : e.state
      case disabled => exact absurd (.inl hst) hs
      case lead => exact absurd (.inr (.inl hst)) hs
      case sending => exact absurd (.inr (.inr (.inl hst))) hs
      case lag => exact absurd (.inr (.inr (.inr hst))) hs
      all_goals
        refine receiverSound_on ?_ ?_ ?_ <;> simp [Engine.enterQuiet]
  · exact h

theorem fall_receiver {e : Engine} (h : ReceiverSound e) : ReceiverSound e.fall := by
  unfold Engine.fall
  split
  · next hw =>
    have hs : ¬(e.state = .disabled ∨ e.state = .lead ∨ e.state = .sending ∨ e.state = .lag) :=
      fun g => by have := h.off.2 g; rw [hw] at this; cases this
    refine receiverSound_on (by simp) ?_ (fun g => by cases g)
    cases hst : e.state <;> simp_all
  · exact receiverSound_of_same h rfl rfl

theorem returnToMark_receiver {e : Engine} (h : ReceiverSound e) : ReceiverSound e.returnToMark := by
  unfold Engine.returnToMark
  split
  · next hw =>
    have hs : ¬(e.state = .disabled ∨ e.state = .lead ∨ e.state = .sending ∨ e.state = .lag) := by
      intro g
      have := h.off.2 g
      rcases hw with w | w <;> simp_all
    refine receiverSound_on (by simp) ?_ (fun g => by cases g)
    cases hst : e.state <;> simp_all
  · exact receiverSound_of_same h rfl rfl

theorem advance_receiver {e : Engine} (h : ReceiverSound e) : ReceiverSound e.advance :=
  receiverSound_of_same h e.advance_same.1 e.advance_same.2.2

/-! ### Choices and rounds -/

theorem startExchange_receiver (l : Line) (w : Work) (q : Request) (s : State) :
    ReceiverOk l (startExchange l w q s) := by
  unfold ReceiverOk startExchange
  rw [State.updEngine_engine_same]
  exact enterLead_receiver _

theorem takeUrgent_receiver {l : Line} {s : State} (h : ReceiverOk l s) : ReceiverOk l (takeUrgent l s) := by
  unfold takeUrgent
  split
  · exact h
  · exact startExchange_receiver _ _ _ _

theorem enterRoundState_receiver {l : Line} (r : RoundState) {s : State} (h : ReceiverOk l s) :
    ReceiverOk l (enterRoundState l r s) := by
  unfold ReceiverOk
  rcases enterRoundState_engine l r s with g | g <;> rw [g]
  · exact h
  · exact receiverSound_of_same h rfl rfl

theorem askWalker_receiver {l : Line} {s : State} (h : ReceiverOk l s) : ReceiverOk l (askWalker l s).1 := by
  unfold askWalker
  split
  · have same := (scanEntries_same l (entriesFrom (s.controller l).cursor) s).1
    split
    · next s' i hs =>
      rw [hs] at same
      show ReceiverSound (s'.engine l)
      rw [show s'.engine l = s.engine l from congrArg (·.get l) same]
      exact h
    · next s' hs =>
      rw [hs] at same
      unfold endRound
      refine enterRoundState_receiver _ ?_
      show ReceiverSound (s'.engine l)
      rw [show s'.engine l = s.engine l from congrArg (·.get l) same]
      exact h
  · exact h

theorem makeChoice_receiver {l : Line} {s : State} (h : ReceiverOk l s) : ReceiverOk l (makeChoice l s) := by
  unfold makeChoice
  split
  · split
    · exact takeUrgent_receiver h
    · have ask := askWalker_receiver h
      split
      · exact startExchange_receiver _ _ _ _
      · next s' hs =>
        rw [hs] at ask
        exact takeUrgent_receiver ask
  · exact h

/-- A round that starts touches the receiver by the choice only. -/
theorem startRoundAndChoose_receiver {l : Line} {s : State} (h : ReceiverOk l s) :
    ReceiverOk l (startRoundAndChoose l s) := makeChoice_receiver (s := startRound l s) h

theorem trigger_receiver {l : Line} {s : State} (h : ReceiverOk l s) : ReceiverOk l (trigger l s) := by
  unfold trigger
  dsimp only
  split
  · refine startRoundAndChoose_receiver ?_
    split <;> exact h
  · split <;> exact h
  · exact h
  · exact h

theorem expireTimer_receiver {l : Line} {s : State} (h : ReceiverOk l s) : ReceiverOk l (expireTimer l s) := by
  unfold expireTimer
  split
  · exact h
  · exact trigger_receiver (s := s.updController l _) h

theorem tickTimer_receiver {l : Line} {s : State} (h : ReceiverOk l s) : ReceiverOk l (tickTimer l s) := by
  unfold tickTimer
  split
  · exact h
  · split
    · exact expireTimer_receiver h
    · exact h

theorem endGap_receiver {l : Line} {s : State} (h : ReceiverOk l s) : ReceiverOk l (endGap l s) := by
  unfold endGap
  split
  · exact h
  · exact startRoundAndChoose_receiver h

theorem syncTrigger_receiver {l : Line} (v : Level) {s : State} (h : ReceiverOk l s) :
    ReceiverOk l (syncTrigger l v s) := by
  unfold syncTrigger
  dsimp only
  split
  · exact trigger_receiver h
  · exact h

/-! ### Attempts -/

/-- An attempt that ends leaves its engine in QUIET with the receiver as it was. -/
theorem endAttempt_receiver {l : Line} (o : OutcomeCode) (y : Option Reply) {s : State}
    (h : (s.engine l).exchange = none → ReceiverOk l s) (on : (s.engine l).receiver ≠ .off) :
    ReceiverOk l (endAttempt l o y s) := by
  unfold endAttempt
  split
  · next hx => exact h hx
  · next x hx =>
    split
    · unfold ReceiverOk
      rw [State.updEngine_engine_same]
      exact receiverSound_of_same (enterQuiet_receiver on) rfl rfl
    · unfold ReceiverOk completeExchange
      rw [State.updEngine_engine_same]
      have kept : ((reportOf l x.work (updateNode l x.request.address o (deliverRecord l x o y s))).engine l).receiver =
          (s.engine l).receiver := by
        have delivered := (deliverRecord_same l x o y s).1
        have engine : (updateNode l x.request.address o (deliverRecord l x o y s)).engine l = s.engine l := by
          rw [show (updateNode l x.request.address o (deliverRecord l x o y s)).engine l =
            (deliverRecord l x o y s).engine l from by unfold updateNode; split <;> rfl]
          exact congrArg (·.get l) delivered
        unfold reportOf
        split
        · unfold reportCompletion
          dsimp only
          split
          · rw [setHalted, setLatched_engine]
            rcases enterRoundState_engine l .stopped
              ((updateNode l x.request.address o (deliverRecord l x o y s)).updController l fun c =>
                { c with routineInFlight := false }) with g | g <;> rw [g] <;>
              simp only [State.updController_engine, engine]
          · simp only [State.updController_engine, engine]
        · rw [engine]
      have quiet := enterQuiet_receiver (kept ▸ on)
      exact receiverSound_of_same quiet rfl rfl

theorem quietGapDone_receiver {l : Line} {s : State} (h : ReceiverOk l s) : ReceiverOk l (quietGapDone l s) := by
  unfold quietGapDone
  dsimp only
  split
  · next hq =>
    split
    · unfold ReceiverOk
      rw [State.setEngine_engine_same]
      exact enterLead_receiver _
    · refine makeChoice_receiver ?_
      unfold ReceiverOk
      rw [State.setEngine_engine_same]
      have hm := (Engine.quietMayEnd_iff _).1 hq.2
      refine receiverSound_on ?_ (.inr (.inl rfl)) ?_
      · show (s.engine l).receiver ≠ .off
        exact receiverSound_isOn (e := s.engine l) h (.inl hq.1)
      · intro hc
        rcases hm with m | m
        · rw [m.1] at hc
          cases hc
        · rw [m] at hc
          cases hc
  · exact h

theorem leadDone_receiver {l : Line} {s : State} (h : ReceiverOk l s) : ReceiverOk l (leadDone l s) := by
  unfold leadDone
  split
  · unfold ReceiverOk
    rw [State.updEngine_engine_same]
    exact enterSending_receiver _
  · exact h

theorem releaseDe_receiver {l : Line} {s : State} (h : ReceiverOk l s) : ReceiverOk l (releaseDe l s) := by
  unfold releaseDe
  split
  · exact h
  · next x hx =>
    dsimp only
    split
    · refine endAttempt_receiver _ _ (fun hn => ?_) (by simp)
      rw [State.updEngine_engine_same] at hn
      rw [show (s.engine l).exchange = none from hn] at hx
      cases hx
    · unfold ReceiverOk
      rw [State.updEngine_engine_same]
      exact receiverSound_on (by simp) (by simp) (by simp)

theorem sendingDone_receiver {l : Line} {s : State} (h : ReceiverOk l s) : ReceiverOk l (sendingDone l s) := by
  unfold sendingDone
  split
  · next hs =>
    split
    · exact releaseDe_receiver h
    · unfold ReceiverOk
      rw [State.updEngine_engine_same]
      exact receiverSound_off (h.off.2 (.inr (.inr (.inl hs)))) (by simp)
  · exact h

theorem lagDone_receiver {l : Line} {s : State} (h : ReceiverOk l s) : ReceiverOk l (lagDone l s) := by
  unfold lagDone
  split
  · exact releaseDe_receiver h
  · exact h

theorem replyTimeoutDone_receiver {l : Line} {s : State} (h : ReceiverOk l s) :
    ReceiverOk l (replyTimeoutDone l s) := by
  unfold replyTimeoutDone
  split
  · next hs => exact endAttempt_receiver _ _ (fun _ => h) (receiverSound_isOn h (.inr (.inr (.inl hs.1))))
  · exact h

theorem gapLimitDone_receiver {l : Line} {s : State} (h : ReceiverOk l s) : ReceiverOk l (gapLimitDone l s) := by
  unfold gapLimitDone
  split
  · next hs => exact endAttempt_receiver _ _ (fun _ => h) (receiverSound_isOn h (.inr (.inr (.inr (.inl hs.1)))))
  · exact h

theorem discardDone_receiver {l : Line} {s : State} (h : ReceiverOk l s) : ReceiverOk l (discardDone l s) := by
  unfold discardDone
  split
  · next hs =>
    split
    · exact h
    · exact endAttempt_receiver _ _ (fun _ => h) (receiverSound_isOn h (.inr (.inr (.inr (.inr hs.1)))))
  · exact h

theorem judgeReply_receiver {l : Line} (d : Byte) (err : Bool) {s : State} (h : ReceiverOk l s)
    (on : (s.engine l).receiver ≠ .off) (hc : (s.engine l).receiver ≠ .character) :
    ReceiverOk l (judgeReply l d err s) := by
  unfold judgeReply
  split
  · exact h
  · split
    · unfold ReceiverOk
      rw [State.updEngine_engine_same]
      exact receiverSound_of_same h rfl rfl
    · unfold ReceiverOk
      rw [State.updEngine_engine_same]
      exact receiverSound_on on (by simp) fun g => absurd g hc
    · exact endAttempt_receiver _ _ (fun _ => h) on

theorem deliverCharacter_receiver {l : Line} (d : Byte) (b : Bool) (v : Level) {s : State} (h : ReceiverOk l s) :
    ReceiverOk l (deliverCharacter l d b v s) := by
  unfold deliverCharacter
  dsimp only
  split
  · next hr =>
    have hs := h.character hr
    have ended : ReceiverOk l (s.setEngine l ((s.engine l).endCharacter v)) := by
      unfold ReceiverOk
      rw [State.setEngine_engine_same]
      refine receiverSound_on ?_ ?_ ?_
      · unfold Engine.endCharacter
        dsimp only
        split <;> simp
      · show (s.engine l).state = _ ∨ _
        rcases hs with g | g | g <;> simp [Engine.endCharacter, g]
      · intro g
        unfold Engine.endCharacter at g
        dsimp only at g
        split at g <;> cases g
    have free : ((s.setEngine l ((s.engine l).endCharacter v)).engine l).receiver = .held ∨
        ((s.setEngine l ((s.engine l).endCharacter v)).engine l).receiver = .waiting := by
      rw [State.setEngine_engine_same]
      unfold Engine.endCharacter
      dsimp only
      split
      · exact .inl rfl
      · exact .inr rfl
    split
    · exact ended
    · exact ended
    · refine judgeReply_receiver _ _ ended ?_ ?_ <;> rcases free with g | g <;> rw [g] <;> decide
    all_goals exact ended
  · exact h

/-! ### Enable and disable -/

theorem enable_receiver (e : Engine) : ReceiverSound e.enable :=
  receiverSound_on (by simp [Engine.enable]) (.inl rfl) fun g => by cases g

theorem forceStop_receiver (l : Line) (s : State) :
    ((forceStop l s).engine l).receiver = (s.engine l).receiver := by
  unfold forceStop
  split
  · rfl
  · rw [setHalted, setLatched_engine]
    rcases enterRoundState_engine l .stopped
      (s.updController l fun c => { c with routineInFlight := false, gap := none }) with h | h <;> rw [h] <;> rfl

theorem disable_receiver (l : Line) (s : State) : ReceiverOk l (disable l s) := by
  unfold ReceiverOk disable
  rw [State.updEngine_engine_same]
  refine receiverSound_off ?_ (.inl rfl)
  show ((forceStop l (abortExchange l (s.updEngine l Engine.letGo))).engine l).receiver = .off
  have abort : ((abortExchange l (s.updEngine l Engine.letGo)).engine l).receiver = .off := by
    unfold abortExchange
    split
    · rw [State.updEngine_engine_same]
      rfl
    · next x _ =>
      rw [State.updEngine_engine_same]
      show ((deliverRecord l x .aborted none (s.updEngine l Engine.letGo)).engine l).receiver = .off
      rw [show (deliverRecord l x .aborted none (s.updEngine l Engine.letGo)).engine l =
        (s.updEngine l Engine.letGo).engine l from
          congrArg (·.get l) (deliverRecord_same l x .aborted none (s.updEngine l Engine.letGo)).1,
        State.updEngine_engine_same]
      rfl
  rw [forceStop_receiver]
  exact abort

/-! ### A period -/

/-- Each row that a CLKIN period may bring about keeps both receivers sound. -/
theorem happen_receiver {s : State} (c : Instr) (h : ∀ l, ReceiverOk l s) (m : Line) : ReceiverOk m (happen s c) := by
  by_cases hm : (s.engine m).state = .ready ∨ rowKey c = (2, some m) ∨ rowKey c = (3, some m)
  · have line : ∀ l, rowKey c = (2, some l) ∨ rowKey c = (3, some l) ∨ rowKey c = (4, some l) → l ≠ m →
        ReceiverOk m (happen s c) := by
      intro l hk hl
      unfold ReceiverOk
      rw [(happen_lineStep l s hk).engine m (Ne.symm hl)]
      exact h m
    have own : ∀ l, rowKey c = (2, some l) ∨ rowKey c = (3, some l) ∨ rowKey c = (4, some l) →
        ReceiverOk l (happen s c) → ReceiverOk m (happen s c) := by
      intro l hk ok
      by_cases e : l = m
      · rw [← e]
        exact ok
      · exact line l hk e
    cases c <;> try exact h m
    case tick =>
      show ReceiverOk m (deliverTick s)
      have ha := tickTimer_lineStep .a (s.setTimeBase { s.timeBase with prescaler := 0 })
      have hb := tickTimer_lineStep .b (tickTimer .a (s.setTimeBase { s.timeBase with prescaler := 0 }))
      unfold deliverTick
      cases m with
      | a =>
        unfold ReceiverOk
        rw [hb.engine .a (by decide)]
        exact tickTimer_receiver (s := s.setTimeBase _) (h .a)
      | b =>
        refine tickTimer_receiver ?_
        unfold ReceiverOk
        rw [ha.engine .b (by decide)]
        exact h .b
    case clearWalkVisit =>
      show ReceiverSound ((walkStep s).engine m)
      rw [walkStep_engine]
      exact h m
    case leadEnd l => exact own l (.inl rfl) (leadDone_receiver (h l))
    case sendingEnd l => exact own l (.inl rfl) (sendingDone_receiver (h l))
    case lagEnd l => exact own l (.inl rfl) (lagDone_receiver (h l))
    case replyTimeout l => exact own l (.inl rfl) (replyTimeoutDone_receiver (h l))
    case quietGapEnd l => exact own l (.inl rfl) (quietGapDone_receiver (h l))
    case truncated l => exact own l (.inl rfl) (gapLimitDone_receiver (h l))
    case discardEnd l => exact own l (.inl rfl) (discardDone_receiver (h l))
    case continuousGapEnd l => exact own l (.inr (.inr rfl)) (endGap_receiver (h l))
    case midStartSample l v =>
      refine own l (.inr (.inl rfl)) ?_
      show ReceiverSound ((s.updEngine l (Engine.midStart v)).engine l)
      rw [State.updEngine_engine_same]
      exact midStart_receiver v (h l)
    case characterDelivered l d b v => exact own l (.inr (.inl rfl)) (deliverCharacter_receiver d b v (h l))
  · simp only [not_or] at hm
    unfold ReceiverOk
    rw [happen_engine hm.2.1 hm.2.2 hm.1]
    exact h m

end Sys2Proof.Machine
end

