-- ==== Sys2Proof/Tests/Slice0.lean ====
section
/-!
SUPPORT. Small tests: the WellFormed smoke, single steps on the spec's own examples, and for each statement with
hypotheses a concrete state and operands that meet them.
-/

namespace Sys2Proof.Tests

open Sys2Proof.Machine Sys2Proof.Safety

/-! ### States built from the reset state -/

/-- An image in the staging buffer and a value in PARAM. -/
def load (bytes : List Byte) (param : Byte) (s : State) : State :=
  s.setPort { s.port with staging := imageOf bytes, param := param }

def withParam (param : Byte) (s : State) : State := s.setPort { s.port with param := param }

/-- The decoder in the walk, before a visit. -/
def walking (visit : Fin 252) (s : State) : State := s.setPort { s.port with decoder := .executing visit }

def onEngine (f : Engine → Engine) (s : State) : State := s.updEngine .a f

def onController (f : Controller → Controller) (s : State) : State := s.updController .a f

/-- Line A enabled, in QUIET. -/
def quietA : State := onEngine Engine.enable State.reset

/-- Line A in READY. -/
def readyA : State := onEngine (fun e => { e with state := .ready }) quietA

/-- Line A READY, its controller in a round, the cursor at 0. -/
def runningA : State := onController (fun c => { c with state := .running, roundNumber := 1 }) readyA

/-- Command 0x21 to node 0x12, a reply of 2 bytes, 100 bit times, one retry (section 7.4). -/
def request : Request :=
  { address := 0x12, command := 0x21, payload := [], expectation := .exactly 2, timeout := 100, retryLimit := 1 }

def broadcast : Request := { request with address := 0x7F }

def entry : Entry :=
  { enabled := true, line := .a, policy := .latest, request := request, divisor := 4, phase := 0 }

def exchangeOf (work : Work) (q : Request) (attempts : Nat) : Exchange :=
  { work := work, request := q, attempts := attempts, pendingOutcome := none, assembly := Assembly.empty }

def routineWork : Work := .routine 4 .keepAll 1

/-- Line A with an exchange in flight in a line state, its receiver waiting. -/
def inExchange (state : LineState) (x : Exchange) (s : State) : State :=
  onEngine (fun e => { e with state := state, exchange := some x, receiver := .waiting }) s

/-- A routine exchange of Line A, its attempt awaiting a reply. -/
def routineA : State :=
  inExchange .awaiting (exchangeOf routineWork request 1)
    (onController (fun c => { c with routineInFlight := true }) runningA)

def slot (line : Line) (state : SlotState) : Slot := { tag := 7, line := line, request := request, state := state }

/-- An urgent exchange of Line A, awaiting a reply, with one more request of each line QUEUED. -/
def urgentA : State :=
  inExchange .awaiting (exchangeOf (.urgent 7) request 2)
    ((quietA.updEngine .b Engine.enable).setUrgent [slot .a .inFlight, slot .b .queued, slot .a .queued])

def recordOk : Record :=
  { source := .routine, line := .a, id := 4, address := 0x12, command := 0x21, outcome := .ok, attempts := 1,
    reply := some { status := 0, payload := [5, 6] }, round := 1, missed := 255 }

def recordCancelled : Record :=
  { source := .urgent, line := .b, id := 7, address := 0x12, command := 0x21, outcome := .cancelled, attempts := 0,
    reply := none, round := 0, missed := 0 }

def stored : State := State.reset.setStore [recordOk, recordOk]

/-- RESET held, after a hardware reset. -/
def held : State := beginHardwareReset State.reset

/-- A node OFFLINE with its countdown running. -/
def offlineNode : NodeRecord :=
  { state := .offline, failures := 4, lastOutcome := some .noReply, countdown := 2, changed := true }

def stepped : Host.Outcome State Fault Refusal → State
  | .next t => t
  | .fault _ => State.reset
  | .refused _ => State.reset

/-- One command run on a state. -/
def after (c : Instr) (s : State) : State := stepped (exec c s)

/-! ### WellFormed refuses an ill-formed term of each check -/

theorem test_unknownCommand_of_a_command_is_refused : (Instr.unknownCommand 0x53).wellFormed = false := by decide

theorem test_refusedBusy_of_resetPart_is_refused : (Instr.refusedBusy 0xA5).wellFormed = false := by decide

theorem test_windowWrite_of_a_row_of_its_own_is_refused : (Instr.windowWrite 8 0).wellFormed = false := by decide

theorem test_wellFormed_terms_are_taken :
    (Instr.unknownCommand 0x00).wellFormed = true ∧ (Instr.refusedBusy 0x40).wellFormed = true ∧
      (Instr.windowWrite 15 0).wellFormed = true := by decide

theorem test_no_word_spells_a_command : decodeTableWord 8 0x01 = none := rfl

theorem test_withFetchWord_changes_nothing : State.reset.withFetchWord 8 0x01 = State.reset := rfl

/-! ### The spec's examples -/

/-- The worked example of section 6.5: covered bytes 0x12, 0x21, 0x00 give 0xE4. -/
theorem test_crc_of_the_short_request : crc8 [0x12, 0x21, 0x00] = 0xE4 := by decide +kernel

/-- The example of section 9.4: the image of entry 6. -/
theorem test_write_entry_6 :
    let s := after .writeEntry (load [0x01, 0x12, 0x21, 0x00, 0x02, 0x64, 0x00, 0x31] 6 State.reset)
    s.port.result = .done ∧ s.table[6] = { entry with policy := .keepAll } := by decide

/-- Section 8.3: the pending bytes, enables and IRQ after an append with only REPLY enabled. -/
theorem test_irq_with_reply_enabled :
    let s := after (.interruptEnableWrite .low 0x01) stored
    s.irq = true ∧ s.windowRead 0 = 0x0C ∧ s.windowRead 6 = 0x01 := by decide

/-- A default line: an exchange begins with LEAD, and without a lead with SENDING. -/
theorem test_request_starts_an_attempt :
    let s := after .enqueueUrgent (load [0x00, 0x12, 0x21, 0x00, 0x02, 0x64, 0x00, 0x01] 0 readyA)
    s.port.result = .done ∧ (s.engine .a).state = .lead ∧ s.urgent.map (·.state) = [.inFlight] := by decide

/-- A DISABLE LINE during an urgent exchange: ABORTED first, then CANCELLED, and the other line's request stays. -/
theorem test_disable_line_aborts_and_cancels :
    let s := after .disableLine urgentA
    s.store.map (·.outcome) = [.aborted, .cancelled] ∧ s.urgent = [slot .b .queued] ∧
      (s.engine .a).state = .disabled := by decide

theorem test_tick_returns_the_prescaler_to_zero :
    (after .tick (State.reset.setTimeBase { divisor := 256, prescaler := 255 })).timeBase.prescaler = 0 := by rfl

/-! ### Witnesses: the step, the clock and the holds -/

theorem witness_step : (State.reset.setPending [.tick]).pending = .tick :: [] := rfl

theorem witness_idle_step : State.reset.pending = [] ∧ Awake State.reset ∧ held.pending = [] ∧ ¬Awake held := by decide

/-- The state one CLKIN period later, before the events that are due. -/
def later (s : State) : State := (advanceCounts s).setFreeIndex (s.freeIndex + 1)

/-- The rows that are due one CLKIN period later. -/
def dueLater (s : State) : List Instr := dueRows (later s)

theorem due_of_list (s : State) (rows : List Instr) (h : dueLater s = rows) (c : Instr) :
    Due (later s) c ↔ c ∈ rows := by
  rw [due_iff, ← h, dueLater]

/-- The prescaler in the last CLKIN period of a tick. -/
def nearTick (s : State) : State := s.setTimeBase { s.timeBase with prescaler := s.timeBase.divisor - 1 }

/-- From reset no row is due after a period, and in the last one of a tick the tick alone. -/
theorem witness_period_with_none_and_one_due :
    Counted State.reset (later State.reset) ∧ (∀ c, ¬Due (later State.reset) c) ∧
      Counted (nearTick State.reset) (later (nearTick State.reset)) ∧ Due (later (nearTick State.reset)) .tick ∧
      ∀ d, Due (later (nearTick State.reset)) d → d = .tick := by
  have none := due_of_list State.reset [] (by decide)
  have one := due_of_list (nearTick State.reset) [.tick] (by decide)
  exact ⟨counted_advanceCounts _, fun c h => absurd ((none c).1 h) List.not_mem_nil, counted_advanceCounts _,
    (one _).2 (by simp), fun d h => by simpa using (one d).1 h⟩

theorem witness_clock_stopped : (after .clkinStop State.reset).clkinRunning = false ∧ Instr.tick ≠ .clkinRestart := by
  decide

theorem witness_reset_held :
    held.clkinRunning = true ∧ held.resetHeld = true ∧
      Instr.tick ∉ [Instr.stageDataRead, .replyDataRead, .resetCauseRead, .hardwareReset, .hardwareResetEnd,
        .clkinStop] ∧
      ∀ l, Instr.tick ≠ .rxdFall l ∧ Instr.tick ≠ .rxdReturnToMark l ∧ ∀ v, Instr.tick ≠ .midStartSample l v := by
  refine ⟨rfl, rfl, by decide, fun l => ⟨?_, ?_, fun v => ?_⟩⟩ <;> exact Instr.noConfusion

theorem witness_busy_and_idle_decoder :
    Awake (walking 251 State.reset) ∧ (walking 251 State.reset).port.decoder = .executing 251 ∧
      (walking 0 State.reset).port.decoder ≠ .idle ∧ TakesCommands State.reset ∧ (0x00 : Byte) ∉ commandCodes ∧
      (0xFF : Byte) ∉ commandCodes := by decide

/-! ### Witnesses: the window and the interrupts -/

theorem witness_thirty_two_bytes : (List.replicate 32 (0 : Byte)).length = 32 := by decide

theorem witness_reply_pointer_within_and_past_the_image :
    stored.store = recordOk :: [recordOk] ∧ stored.port.replyPointer.val < (recordImage recordOk).length ∧
      (recordImage recordOk).length ≤ ((stored.setPort { stored.port with replyPointer := 12 }).port.replyPointer).val ∧
      State.reset.store = [] := by decide

theorem witness_record_sound : RecordSound recordOk ∧ RecordSound recordCancelled := by
  constructor <;> constructor <;> simp [recordOk, recordCancelled, Record.payload]

theorem witness_changed_nodes :
    (State.reset.setNode .b 125 offlineNode).resetHeld = false ∧
      (true = true ↔ ∃ l i, ((State.reset.setNode .b 125 offlineNode).node l i).changed = true) :=
  ⟨rfl, fun _ => ⟨.b, 125, rfl⟩, fun _ => rfl⟩

/-! ### Witnesses: line, table and round commands -/

theorem witness_configure_line :
    let s := load [0x01, 0, 0, 1, 0, 15, 4, 31] 0 State.reset
    let t := load [0xFF, 0x0F, 2, 2, 15, 0, 255, 2] 1 State.reset
    TakesCommands s ∧ s.port.param.toNat = lineIndex .a ∧ (s.engine .a).state = .disabled ∧
      lineConfigOfStaging s.port.staging ≠ none ∧ t.port.param.toNat = lineIndex .b ∧
      lineConfigOfStaging t.port.staging ≠ none ∧ lineConfigOfStaging State.reset.port.staging = none ∧
      2 ≤ (withParam 2 State.reset).port.param.toNat ∧ (quietA.engine .a).state ≠ .disabled ∧ TakesCommands quietA := by
  decide

theorem witness_config_in_range : ConfigInRange (State.reset.engine .b).config := by constructor <;> decide

theorem urgentA_sound : LinesSound urgentA := by
  constructor
  · constructor <;> first | decide | exact fun h => absurd h (by decide)
  · constructor <;> first | decide | exact fun h => absurd h (by decide)
  · intro l
    cases l <;> constructor <;> decide
  · decide
  · decide

theorem routineA_sound : LinesSound routineA := by
  constructor
  · constructor <;> first | decide | exact fun h => absurd h (by decide)
  · constructor <;> first | decide | exact fun h => absurd h (by decide)
  · intro l
    cases l <;> constructor <;> decide
  · decide
  · decide

theorem quietA_sound : LinesSound quietA := by
  constructor
  · constructor <;> first | decide | exact fun h => absurd h (by decide)
  · constructor <;> first | decide | exact fun h => absurd h (by decide)
  · intro l
    cases l <;> constructor <;> decide
  · decide
  · decide

/-- The four cases of a disable: no exchange, an urgent one, a routine one, a line already DISABLED. -/
theorem witness_disable_line :
    (TakesCommands quietA ∧ quietA.port.param.toNat = lineIndex .a ∧ LinesSound quietA ∧
        (quietA.engine .a).exchange = none) ∧
      (LinesSound urgentA ∧ (urgentA.engine .a).state ≠ .disabled ∧
        (urgentA.engine .a).exchange = some (exchangeOf (.urgent 7) request 2)) ∧
      (LinesSound routineA ∧ (routineA.engine .a).state ≠ .disabled ∧
        (routineA.engine .a).exchange = some (exchangeOf routineWork request 1)) ∧
      (State.reset.engine .a).state = .disabled :=
  ⟨⟨by decide, by decide, quietA_sound, by decide⟩, ⟨urgentA_sound, by decide, by decide⟩,
    ⟨routineA_sound, by decide, by decide⟩, by decide⟩

theorem witness_write_entry :
    let s := load [0x07, 0x7F, 0xFF, 0x10, 0xFF, 0xFF, 0x0F, 0xF3] 31 State.reset
    let t := load [0x00, 0x01, 0x00, 0x00, 0x10, 0x10, 0x00, 0x00] 0 State.reset
    TakesCommands s ∧ s.port.param.toNat = (31 : Fin 32).val ∧ RequestImageInRange s.port.staging ∧
      RequestImageInRange t.port.staging ∧ ¬RequestImageInRange State.reset.port.staging ∧
      32 ≤ (withParam 32 State.reset).port.param.toNat := by decide

theorem witness_request_in_range : RequestInRange request := by
  constructor <;> first | decide | (intro n h; cases h; decide)

theorem witness_read_entry :
    EntrySound (State.reset.table[(31 : Fin 32)]) ∧ EntrySound entry ∧ RequestInRange entry.request := by
  refine ⟨?_, ?_, witness_request_in_range⟩ <;> constructor <;>
    first | decide | exact fun _ => witness_request_in_range | (intro n h; cases h; decide) | (intro h; cases h)

/-- A walker visit to an entry of the line, due with its node OFFLINE, and to one not yet due. -/
theorem witness_walker_visit :
    let s := (State.reset.setTable (State.reset.table.set 5 entry)).setNode .a 0x11 offlineNode
    s.table[(5 : Fin 32)].enabled = true ∧ s.table[(5 : Fin 32)].line = .a ∧ s.table[(5 : Fin 32)].phase = 0 ∧
      s.table[(5 : Fin 32)].request.address.toNat = (0x11 : Fin 126).val + 1 ∧ (s.node .a 0x11).state = .offline ∧
      (s.node .a 0x11).countdown ≠ 0 ∧ (State.reset.node .a 0x11).state ≠ .offline ∧
      State.reset.table[(0 : Fin 32)].enabled = false ∧ broadcast.address = 0x7F ∧
      { entry with phase := 3 }.phase ≠ 0 := by decide

theorem witness_round_settings :
    let s := load [2, 2, 1, 0xFF, 0xFF] 1 State.reset
    TakesCommands s ∧ s.port.param.toNat = lineIndex .b ∧ (s.controller .b).state = .stopped ∧
      roundSettingsOfStaging s.port.staging ≠ none ∧ roundSettingsOfStaging State.reset.port.staging = none ∧
      (runningA.controller .a).state ≠ .stopped ∧ 256 ≤ twoBytes (load [0, 1] 0 State.reset).port.staging 0 1 ∧
      twoBytes (load [0xFF, 0] 0 State.reset).port.staging 0 1 < 256 ∧
      ∀ l, (State.reset.controller l).state = .stopped :=
  ⟨by decide, by decide, by decide, by decide, by decide, by decide, by decide, by decide, fun l => by cases l <;> rfl⟩

theorem witness_start_rounds :
    TakesCommands readyA ∧ readyA.port.param.toNat = lineIndex .a ∧ (readyA.engine .a).state ≠ .disabled ∧
      (readyA.controller .a).state = .stopped ∧ (readyA.controller .a).settings.source = .soft ∧
      (State.reset.engine .a).state = .disabled := by decide

theorem witness_halt_rounds :
    TakesCommands runningA ∧ (runningA.controller .a).state = .running ∧
      (runningA.controller .a).routineInFlight = false ∧ (routineA.controller .a).routineInFlight = true ∧
      (State.reset.controller .a).state = .stopped ∧
      ((onController (fun c => { c with state := .armed }) readyA).controller .a).state = .armed := by decide

/-- Line A RUNNING with its round timer at the last tick; Line B's timer stopped. -/
def timedA : State := onController (fun c => { c with timer := some 1 }) runningA

theorem witness_timers :
    Awake timedA ∧ (timedA.controller .a).timer = some 1 ∧ (timedA.controller .b).timer = none ∧
      (timedA.controller .a).state = .running ∧ (timedA.controller .a).settings.mode = .single ∧
      (∀ l, (State.reset.controller l).timer ≠ some 0) ∧
      ((onController (fun c => { c with state := .armed }) timedA).controller .a).state = .armed ∧
      ((onController (fun c => { c with state := .halting }) timedA).controller .a).state ≠ .armed :=
  ⟨by decide, by decide, by decide, by decide, by decide, fun l => by cases l <;> decide, by decide, by decide⟩

/-- Line A's timer at the last tick, beside one of Line B at the last tick too and one that counts. -/
theorem witness_both_timers :
    let s := timedA.updController .b fun c => { c with state := .armed, timer := some 1 }
    let t := timedA.updController .b fun c => { c with state := .armed, timer := some 65535 }
    Awake s ∧ (∀ l, (s.controller l).timer ≠ some 0) ∧ (s.controller .a).timer = some 1 ∧
      (s.controller .b).timer = some 1 ∧ (∀ l, (t.controller l).timer ≠ some 0) ∧
      (t.controller .b).timer = some 65535 :=
  ⟨by decide, fun l => by cases l <;> decide, by decide, by decide, fun l => by cases l <;> decide, by decide⟩

/-- Line A set to SYNC, rising, and armed; SYNC low. -/
def syncA : State :=
  onController (fun c => { c with state := .armed, settings := { c.settings with source := .sync } })
    (quietA.setSyncLevel (some .low))

theorem witness_sync :
    Awake syncA ∧ syncA.syncLevel ≠ none ∧ syncA.syncLevel ≠ some .high ∧ State.reset.syncLevel = none ∧
      ((syncA.controller .a).settings.source = .sync ∧ (syncA.controller .a).state ≠ .stopped ∧
        (syncA.controller .a).settings.edge = .rising) ∧
      (syncA.controller .b).settings.source ≠ .sync ∧ (syncA.controller .a).state = .armed ∧
      (syncA.engine .a).state ≠ .ready := by decide

/-- Both controllers see a rising edge: Line A starts a round from ARMED, Line B is RUNNING with SINGLE. -/
theorem witness_sync_both :
    let s :=
      syncA.updController .b fun c =>
        { c with state := .running, settings := { c.settings with source := .sync, edge := .both } }
    Awake s ∧ s.syncLevel ≠ none ∧ s.syncLevel ≠ some .high ∧
      (∀ l, (s.controller l).settings.source = .sync ∧ (s.controller l).state ≠ .stopped) ∧
      (s.controller .a).settings.edge = .rising ∧ (s.controller .a).state = .armed ∧
      (s.controller .b).settings.edge = .both ∧ (s.controller .b).state = .running ∧
      (s.controller .b).settings.mode = .single :=
  ⟨by decide, by decide, by decide, fun l => by cases l <;> decide, by decide, by decide, by decide, by decide,
    by decide⟩

theorem witness_continuous_gap :
    let s := onController (fun c => { c with gap := some BitCount.zero }) runningA
    Awake s ∧ (s.controller .a).gap ≠ none ∧ (runningA.controller .a).gap = none := by decide

/-! ### Witnesses: the choice and the urgent queue -/

theorem witness_quiet_gap :
    let s := inExchange .quiet (exchangeOf routineWork request 1) quietA
    let falling := onEngine (fun e => { e with receiver := .fallSeen, rxd := .low }) quietA
    let hearing := onEngine (fun e => { e with receiver := .character, rxd := .low }) quietA
    Awake quietA ∧ (quietA.engine .a).state = .quiet ∧ LineIdle (quietA.engine .a) ∧
      (quietA.engine .a).exchange = none ∧ (s.engine .a).exchange = some (exchangeOf routineWork request 1) ∧
      LineIdle (s.engine .a) ∧ (readyA.engine .a).state ≠ .quiet ∧ (falling.engine .a).receiver = .fallSeen ∧
      (falling.engine .a).state = .quiet ∧
      ¬(LineIdle (hearing.engine .a) ∨ (hearing.engine .a).receiver = .fallSeen) ∧
      (hearing.engine .a).state = .quiet := by decide

/-- A request of Line A behind one of Line B, at a count below the limit and at the limit. -/
theorem witness_urgent_choice :
    let s := readyA.setUrgent [slot .b .queued, slot .a .queued]
    let t := onEngine (fun e => { e with urgentCount := 4 }) s
    s.urgent = [slot .b .queued] ++ slot .a .queued :: [] ∧ QueuedOn .a (slot .a .queued) ∧
      (∀ y ∈ [slot .b .queued], ¬QueuedOn .a y) ∧ (s.engine .a).state = .ready ∧
      (s.engine .a).urgentCount < s.burstLimit ∧ (t.controller .a).state ≠ .running ∧
      t.burstLimit ≤ (t.engine .a).urgentCount := by decide

/-- Line A RUNNING with the cursor at 29: entry 29 is not due, the node of entry 30 is refused its probe, and entry 31
is given. -/
def scanning (last : Entry) : State :=
  (onController (fun c => { c with cursor := 29 })
      (runningA.setTable
        (((runningA.table.set 29 { entry with phase := 3 }).set 30 entry).set 31 last))).setNode .a 0x11 offlineNode

/-- The state after the visits to entries 29 and 30. -/
def scanned (last : Entry) : State := passedOver .a 30 (passedOver .a 29 (scanning last))

/-- The scan steps a phase, lowers a countdown, and comes to a broadcast that is due. -/
theorem witness_due_entry :
    let s := scanning { entry with request := broadcast }
    let u := scanned { entry with request := broadcast }
    (s.engine .a).state = .ready ∧ (∀ x ∈ s.urgent, ¬QueuedOn .a x) ∧ (s.controller .a).state = .running ∧
      (s.controller .a).gap = none ∧ (s.controller .a).cursor ≤ (31 : Fin 32).val ∧
      PassesOver .a ((entriesAbove (s.controller .a).cursor).filter fun j => j < 31) s u ∧ Yields .a 31 u ∧
      u.table[(29 : Fin 32)].phase = 2 ∧ u.table[(30 : Fin 32)].phase = 3 ∧ (u.node .a 0x11).countdown = 1 := by
  refine ⟨by decide, by decide, by decide, by decide, by decide, ?_, by decide +kernel, by decide, by decide, by decide⟩
  rw [show (entriesAbove _).filter (fun j => j < 31) = [29, 30] by decide]
  exact ⟨by decide +kernel, by decide +kernel, rfl⟩

/-- A scan that passes over what is not due, refused and disabled, and the four ways its round may end. -/
theorem witness_round_end :
    let s := scanning Entry.reset
    let ending := fun f : RoundSettings → RoundSettings => onController (fun c => { c with settings := f c.settings }) s
    let waiting := (onEngine (fun e => { e with urgentCount := 2 }) s).setUrgent [slot .a .queued]
    (s.engine .a).state = .ready ∧ (∀ x ∈ s.urgent, ¬QueuedOn .a x) ∧ (s.controller .a).state = .running ∧
      (s.controller .a).gap = none ∧
      PassesOver .a (entriesAbove (s.controller .a).cursor) s (scanned Entry.reset) ∧
      ((s.controller .a).settings.mode = .single ∧ (s.controller .a).settings.source = .soft) ∧
      ((ending fun c => { c with mode := .continuous }).controller .a).settings.mode = .continuous ∧
      ((ending fun c => { c with source := .timer }).controller .a).settings.source = .timer ∧
      ((ending fun c => { c with source := .sync }).controller .a).settings.source = .sync ∧
      (waiting.engine .a).state = .ready ∧ waiting.burstLimit ≤ (waiting.engine .a).urgentCount ∧
      QueuedOn .a (slot .a .queued) ∧ (waiting.controller .a).state = .running := by
  refine ⟨by decide, by decide, by decide, by decide, ?_, by decide, by decide, by decide, by decide, by decide,
    by decide, by decide, by decide⟩
  rw [show entriesAbove _ = [29, 30, 31] by decide]
  exact ⟨by decide +kernel, by decide +kernel, by decide +kernel, rfl⟩

theorem witness_enqueue_urgent :
    let image := [0x00, 0x12, 0x21, 0x00, 0x02, 0x64, 0x00, 0x01]
    let s := load image 0 readyA
    let full := s.setUrgent (List.replicate 4 (slot .b .queued))
    let crowded := s.setStore (List.replicate 16 recordOk)
    TakesCommands s ∧ RequestImageInRange s.port.staging ∧ lineOfImage s.port.staging = .a ∧
      (s.engine .a).state ≠ .disabled ∧ s.urgent.length < 4 ∧ s.store.length + s.urgent.length < 16 ∧
      4 ≤ full.urgent.length ∧ 16 ≤ crowded.store.length + crowded.urgent.length ∧ crowded.urgent.length < 4 ∧
      (State.reset.engine .a).state = .disabled := by decide

theorem witness_flush_urgent :
    TakesCommands urgentA ∧ urgentA.port.param.toNat ≤ 2 ∧ (withParam 2 urgentA).port.param.toNat ≤ 2 ∧
      3 ≤ (withParam 3 urgentA).port.param.toNat := by decide

/-! ### Witnesses: store and node map -/

theorem witness_release_reply :
    TakesCommands stored ∧ stored.store = recordOk :: [recordOk] ∧ TakesCommands State.reset ∧
      State.reset.store = [] := by decide

/-- An append with room, one without, and a coalescing one: a record of entry 4 stands behind the head. -/
theorem witness_routine_append :
    stored.store.length + stored.urgent.length < 16 ∧
      (stored.store.tail.filter fun r => r.source = .routine ∧ r.id = BitVec.ofNat 8 (4 : Fin 32).val) ≠ [] ∧
      (stored.store.tail.filter fun r => r.source = .routine ∧ r.id = BitVec.ofNat 8 (3 : Fin 32).val) = [] ∧
      16 ≤ (State.reset.setStore (List.replicate 16 recordOk)).store.length := by decide

theorem witness_head_stays :
    Instr.wellFormed .disableLine = true ∧ stored.store = recordOk :: [recordOk] ∧
      exec .disableLine stored = .next (after .disableLine stored) ∧
      (walking 0 stored).port.decoder ≠ .idle := ⟨by decide, by decide, rfl, by decide⟩

theorem witness_node_thresholds :
    let r : NodeRecord := { NodeRecord.reset with failures := 3 }
    let t := Thresholds.reset
    t.offline ≤ (if r.failures + 1 ≤ 15 then r.failures + 1 else 15) ∧ (2 : Nat) < t.offline ∧ t.suspect ≤ 2 ∧
      (1 : Nat) < t.suspect := by decide

theorem witness_burst_and_health :
    let s := load [1, 15, 255] 4 State.reset
    TakesCommands s ∧ 1 ≤ s.port.param.toNat ∧ s.port.param.toNat ≤ 4 ∧ thresholdsOfStaging s.port.staging ≠ none ∧
      thresholdsOfStaging State.reset.port.staging = none ∧ 5 ≤ (withParam 5 s).port.param.toNat ∧
      State.reset.port.param.toNat = 0 := by decide

theorem nodeSound_of_reset : NodeSound NodeRecord.reset := by constructor <;> decide

theorem nodesSound_of_reset : NodesSound State.reset := by
  intro l i
  have : State.reset.node l i = NodeRecord.reset := by
    cases l <;> simp [State.node, State.reset, PerLine.get]
  rw [this]
  exact nodeSound_of_reset

theorem witness_node_records :
    TakesCommands State.reset ∧ NodesSound State.reset ∧
      ((withParam 0xFE State.reset).port.param.toNat = (125 : Fin 126).val + 1 + 128 * lineIndex .b) ∧
      (withParam 1 State.reset).port.param.toNat = (0 : Fin 126).val + 1 + 128 * lineIndex .a ∧
      (withParam 0x80 State.reset).port.param.toNat % 128 = 0 ∧
      (withParam 0x7F State.reset).port.param.toNat % 128 = 127 ∧
      ((State.reset.setNode .b 0 offlineNode).node .b 0).changed = true ∧
      (∀ j, ((State.reset.setNode .b 0 offlineNode).node .a j).changed = false) :=
  ⟨by decide, nodesSound_of_reset, by decide, by decide, by decide, by decide, by decide, by decide⟩

/-! ### Witnesses: attempts and the receiver -/

theorem witness_sending :
    let x := exchangeOf routineWork request 1
    let s := inExchange .sending x runningA
    let t := onEngine (fun e => { e with config := { e.config with lag := 0 } }) s
    Awake s ∧ (s.engine .a).exchange = some x ∧ (s.engine .a).state = .sending ∧ (s.engine .a).config.lag ≠ 0 ∧
      (t.engine .a).config.lag = 0 ∧ ((inExchange .lead x runningA).engine .a).state = .lead ∧
      ((inExchange .lag x runningA).engine .a).state = .lag := by decide

/-- The last bit of the first character of a frame, and the start bit of the next one. -/
theorem witness_pins :
    let e := (inExchange .sending (exchangeOf routineWork request 1) runningA).engine .a
    let last : Engine := { e with bitsSent := { bits := 9, periods := 0 } }
    let next : Engine := { e with bitsSent := { bits := 10, periods := 0 } }
    characterLength e.config = 10 ∧ (requestFrame request)[0]? = some 0x3C ∧ (requestFrame request)[1]? = some 0x12 ∧
      last.bitsSent.bits = 0 * 10 + 9 ∧ last.txd = .high ∧ next.bitsSent.bits = 1 * 10 + 0 ∧ next.txd = .low ∧
      e.de = true ∧ (quietA.engine .a).de = false ∧ (quietA.engine .a).txd = .high := by decide

/-- The mid-start sample half a bit time after a fall, at mark and at space, and the delivery of the byte 0x12 at the
sample of its stop bit, without and with a parity bit; one period or one sample earlier nothing is due. -/
theorem witness_samples_due :
    let falling := fun (n : Nat) (v : Level) =>
      onEngine (fun e => { e with receiver := .fallSeen, sampleCount := n, rxd := v }) quietA
    let bits : List Level := [.low, .high, .low, .low, .high, .low, .low, .low]
    let hearing := fun (p : Parity) (taken : List Level) (v : Level) =>
      onEngine
        (fun e =>
          { e with
            receiver := .character
            sampleCount := 16 * 48 - 1
            samples := taken
            rxd := v
            config := { e.config with parity := p } })
        quietA
    dueLater (falling (8 * 48 - 1) .low) = [.midStartSample .a .low] ∧
      dueLater (falling (8 * 48 - 1) .high) = [.midStartSample .a .high] ∧
      dueLater (falling (8 * 48 - 2) .low) = [] ∧
      dueLater (hearing .none bits .high) = [.characterDelivered .a 0x12 false .high] ∧
      dueLater (hearing .even (bits ++ [.high]) .low) = [.characterDelivered .a 0x12 true .low] ∧
      dueLater (hearing .even bits .high) = [] := by decide +kernel

/-- Each count of a line in its last CLKIN period: its row is due after it, and one period earlier nothing is. -/
theorem witness_counts_end :
    let before := fun bits : Nat => ({ bits := bits - 1, periods := 16 * 48 - 1 } : BitCount)
    let x := exchangeOf routineWork request 1
    let timed := fun (state : LineState) (n : BitCount) =>
      onEngine (fun e => { e with timeCount := some n }) (inExchange state x State.reset)
    let idle := fun (state : LineState) (n : BitCount) =>
      onEngine (fun e => { e with idleCount := n }) (inExchange state x State.reset)
    let sending := onEngine (fun e => { e with bitsSent := before 50 }) (inExchange .sending x State.reset)
    let quiet := onEngine (fun e => { e with quietCount := before 16 }) quietA
    let gap := onController (fun c => { c with gap := some (before 16) }) runningA
    dueLater (timed .lead (before 1)) = [.leadEnd .a] ∧ dueLater sending = [.sendingEnd .a] ∧
      dueLater (timed .lag (before 1)) = [.lagEnd .a] ∧ dueLater (timed .awaiting (before 100)) = [.replyTimeout .a] ∧
      dueLater quiet = [.quietGapEnd .a] ∧ dueLater (idle .receiving (before 4)) = [.truncated .a] ∧
      dueLater (idle .discarding (before 4)) = [.discardEnd .a] ∧ dueLater gap = [.continuousGapEnd .a] ∧
      dueLater (walking 0 (nearTick gap)) = [.tick, .clearWalkVisit, .continuousGapEnd .a] ∧
      dueLater (timed .lead { bits := 0, periods := 16 * 48 - 2 }) = [] := by decide +kernel

theorem witness_failed_attempt :
    let x := exchangeOf routineWork request 1
    let failing := { x with pendingOutcome := some .checkError }
    AttemptFails .a routineA x (.replyTimeout .a) .noReply ∧
      AttemptFails .a (inExchange .receiving x routineA) x (.truncated .a) .truncated ∧
      AttemptFails .a (inExchange .discarding failing routineA) failing (.discardEnd .a) .checkError ∧
      x.attempts ≤ x.request.retryLimit ∧ request.retryLimit < (exchangeOf (.urgent 7) request 2).attempts := by decide

theorem witness_completion :
    urgentA.urgent = [] ++ slot .a .inFlight :: [slot .b .queued, slot .a .queued] ∧
      (slot .a .inFlight).line = .a ∧ (slot .a .inFlight).state = .inFlight ∧
      (exchangeOf routineWork request 1).work = .routine 4 .keepAll 1 ∧ (routineA.controller .a).state ≠ .halting ∧
      ((onController (fun c => { c with state := .halting }) routineA).controller .a).state = .halting := by decide

theorem witness_receiver :
    let s := onEngine (fun e => { e with receiver := .fallSeen }) routineA
    let t := onEngine (fun e => { e with receiver := .held, rxd := .low }) quietA
    let low := onEngine (fun e => { e with rxd := .low }) quietA
    (low.engine .a).receiver = .waiting ∧ (low.engine .a).rxd = .low ∧
      routineA.clkinRunning = true ∧ (routineA.engine .a).receiver = .waiting ∧ (s.engine .a).receiver = .fallSeen ∧
      (s.engine .a).state = .awaiting ∧ (t.engine .a).receiver = .held ∧ (quietA.engine .a).state = .quiet := by decide

/-- A character in QUIET, in DISCARDING, and three in RECEIVING: the reply goes on, fails, and is valid. -/
theorem witness_character :
    let done : Assembly := { position := 7, crc := 0x55, status := 0, length := 2, payload := [5, 6] }
    let s :=
      onEngine (fun e => { e with receiver := .character })
        (inExchange .receiving (exchangeOf routineWork request 1) routineA)
    let hearing := onEngine (fun e => { e with receiver := .character }) routineA
    Awake hearing ∧ (hearing.engine .a).receiver = .character ∧
      judge request Assembly.empty 0xC3 false = .goesOn { Assembly.empty with position := 1 } ∧
      judge request Assembly.empty 0x00 false = .fails .badFrame ∧
      judge request done 0x55 false = .valid { status := 0, payload := [5, 6] } ∧
      (s.engine .a).receiver = .character ∧ (s.engine .a).state = .receiving ∧
      ((inExchange .quiet (exchangeOf routineWork request 1) routineA).engine .a).state = .quiet := by decide

/-- A LEN above 16 fails, and is recorded and stepped into the CRC all the same. -/
theorem test_failing_character_grows_the_assembly :
    let a : Assembly := { position := 4, crc := 0x55, status := 0, length := 0, payload := [] }
    let s :=
      onEngine (fun e => { e with receiver := .character })
        (inExchange .receiving { exchangeOf routineWork request 1 with assembly := a } routineA)
    ((after (.characterDelivered .a 17 false .high) s).engine .a).exchange.map (·.assembly) =
      some { a with position := 5, crc := crcByte 0x55 17, length := 17 } := by decide

theorem witness_reply_checks :
    let a : Assembly := { position := 5, crc := 0x55, status := 0, length := 0, payload := [] }
    5 ≤ a.position ∧ 5 + a.length ≤ a.position ∧ (0x54 : Byte) ≠ a.crc ∧
      5 < 5 + ({ a with length := 1 } : Assembly).length ∧ Assembly.empty.position = 0 ∧ (16 : Byte).toNat ≤ 16 ∧
      (16 : Nat) < (17 : Byte).toNat := by decide

theorem witness_reply_frame :
    (List.replicate 16 (0 : Byte)).length ≤ 16 ∧
      ReplyExpectation.exactly 16 = .exactly (List.replicate 16 (0 : Byte)).length := by decide

/-! ### Witnesses: the invariants -/

theorem settingsSound_of_routine : SettingsSound routineA := by
  constructor
  · intro l
    cases l <;> constructor <;> decide
  · intro l
    cases l <;> decide
  · intro l n h
    cases l <;> simp [routineA, inExchange, runningA, readyA, quietA, onEngine, onController, State.reset,
      Controller.reset, State.controller, PerLine.get, State.updEngine, State.updController, State.setEngine,
      State.setController, PerLine.set] at h
  · intro l
    cases l <;> decide
  · decide
  · decide
  · decide
  · intro l
    cases l <;> decide
  · intro l
    cases l <;> decide
  · intro l
    cases l <;> decide
  · decide
  · intro l i
    cases l <;> simp [routineA, inExchange, runningA, readyA, quietA, onEngine, onController, State.node, State.reset,
      PerLine.get, State.updEngine, State.updController, State.setEngine, State.setController, NodeRecord.reset]
  · decide

theorem witness_stop_bits_and_parity :
    let c : LineConfig := { LineConfig.reset with parity := .odd, stopBits := 2 }
    1 ≤ LineConfig.reset.stopBits ∧ c.parity ≠ .none ∧ 1 < c.stopBits ∧ 1 ≤ c.stopBits ∧ characterLength c = 12 ∧
      ParityRight .odd 0x00 true ∧ ¬ParityRight .odd 0x00 false ∧ ParityRight .even 0x00 false ∧
      ParityRight .even 0x80 true := by decide

theorem entrySound_of_reset : EntrySound Entry.reset := by
  constructor <;> first | decide | (intro n h; cases h; decide) | (intro h; cases h)

theorem recordsSound_of_routine : RecordsSound routineA where
  table i := by
    have : routineA.table[i] = Entry.reset := by
      show (Vector.replicate 32 Entry.reset)[i] = _
      simp
    rw [this]
    exact entrySound_of_reset
  slots x h := by cases h
  exchanges l x h := by
    cases l
    · cases h
      refine ⟨witness_request_in_range, by decide, fun h => absurd h (by decide), fun _ => ?_⟩
      constructor <;> decide
    · cases h
  pendingOutcomes l x o h g := by
    cases l
    · cases h
      cases g
    · cases h
  missed i := by
    have : routineA.missed[i] = 0 := by
      show (Vector.replicate 32 0)[i] = _
      simp
    omega
  records r h := by cases h

theorem witness_nodes : NodesSound State.reset ∧ step State.reset = .next (clkinPeriod State.reset) :=
  ⟨nodesSound_of_reset, rfl⟩

theorem witness_lines : LinesSound routineA ∧ step routineA = .next (clkinPeriod routineA) := ⟨routineA_sound, rfl⟩

theorem witness_other_line :
    Line.b ≠ .a ∧ exec (.replyTimeout .a) routineA = .next (after (.replyTimeout .a) routineA) := ⟨by decide, rfl⟩

end Sys2Proof.Tests
end

