-- ==== Sys2Proof/Proofs/ScheduleTable.lean ====
section
/-!
SUPPORT and CERTIFICATES. The Schedule Table's commands: what an entry's image holds, that the fields read back from it
are the entry's, and what WRITE ENTRY and READ ENTRY do (R7, R8, R10, R163).
-/

namespace Sys2Proof.Machine

open Sys2Proof.Safety

/-! ### The entry an image holds -/

/-- The entry an image commits where its fields are in range (R7, R163). -/
abbrev entryOfImage (v : Vector Byte 32) : Entry :=
  { enabled := v[0].getLsbD 0
    line := lineOfImage v
    policy := if v[0].getLsbD 2 then .latest else .keepAll
    request := requestOfImage v
    divisor := v[7].toNat / 16 + 1
    phase := 0 }

/-- The ranges of R8, as one condition. -/
theorem entryOfStaging_eq (v : Vector Byte 32) :
    entryOfStaging v = if RequestImageInRange v then some (entryOfImage v) else none := by
  unfold entryOfStaging
  rw [requestOfStaging_eq]
  by_cases hv : RequestImageInRange v
  · rw [if_pos hv, if_pos hv]
    rfl
  · rw [if_neg hv, if_neg hv]
    rfl

/-! ### WRITE ENTRY and READ ENTRY -/

theorem exec_writeEntry (s : State) : exec .writeEntry s = .next (commandAccess writeEntry s) := rfl

theorem exec_readEntry (s : State) : exec .readEntry s = .next (commandAccess readEntry s) := rfl

/-- PARAM is looked at before the image (R8). -/
theorem exec_writeEntry_of_param_out_of_range {s : State} (h : TakesCommands s) (hp : 32 ≤ s.port.param.toNat) :
    exec .writeEntry s = .next (answered .range s) := by
  rw [exec_of_access exec_writeEntry h, writeEntry, entryOfParam_out_of_range hp]
  rfl

theorem exec_writeEntry_of_image_out_of_range {s : State} {i : Fin 32} (h : TakesCommands s)
    (hp : s.port.param.toNat = i.val) (hv : ¬RequestImageInRange s.port.staging) :
    exec .writeEntry s = .next (answered .range s) := by
  rw [exec_of_access exec_writeEntry h, writeEntry, entryOfParam_of_index hp]
  dsimp only
  rw [entryOfStaging_eq, if_neg hv]
  rfl

/-- A commit replaces the whole entry (R7). -/
theorem exec_writeEntry_of_inRange {s : State} {i : Fin 32} (h : TakesCommands s) (hp : s.port.param.toNat = i.val)
    (hv : RequestImageInRange s.port.staging) :
    exec .writeEntry s =
      .next (answered .done { s with table := s.table.set i (entryOfImage s.port.staging) }) := by
  rw [exec_of_access exec_writeEntry h, writeEntry, entryOfParam_of_index hp]
  dsimp only
  rw [entryOfStaging_eq, if_pos hv]
  rfl

theorem exec_readEntry_of_param_out_of_range {s : State} (h : TakesCommands s) (hp : 32 ≤ s.port.param.toNat) :
    exec .readEntry s = .next (answered .range s) := by
  rw [exec_of_access exec_readEntry h, readEntry, entryOfParam_out_of_range hp]
  rfl

theorem exec_readEntry_of_index {s : State} {i : Fin 32} (h : TakesCommands s) (hp : s.port.param.toNat = i.val) :
    exec .readEntry s = .next (answered .done (loaded (entryImage s.table[i]) s)) := by
  rw [exec_of_access exec_readEntry h, readEntry, entryOfParam_of_index hp]
  rfl

/-! ### The bytes of an entry's image -/

@[simp] theorem imageOf_getElem (bytes : List Byte) (k : Nat) (hk : k < 32) : (imageOf bytes)[k] = bytes.getD k 0 := by
  simp [imageOf]

section
variable (e : Entry)

@[simp] theorem entryImage_flags :
    (entryImage e)[0] = BitVec.ofNat 8 (e.enabled.toNat + 2 * lineBit e.line + 4 * e.policy.bit) := by
  simp [entryImage]

@[simp] theorem entryImage_address : (entryImage e)[1] = e.request.address := by
  simp [entryImage]

@[simp] theorem entryImage_command : (entryImage e)[2] = e.request.command := by
  simp [entryImage]

@[simp] theorem entryImage_length : (entryImage e)[3] = BitVec.ofNat 8 e.request.payload.length := by
  simp [entryImage]

@[simp] theorem entryImage_expectation : (entryImage e)[4] = expectationByte e.request.expectation := by
  simp [entryImage]

@[simp] theorem entryImage_timeoutLow : (entryImage e)[5] = lowByte e.request.timeout := by
  simp [entryImage]

@[simp] theorem entryImage_timeoutHigh : (entryImage e)[6] = highByte e.request.timeout := by
  simp [entryImage]

@[simp] theorem entryImage_retryAndDivisor :
    (entryImage e)[7] = BitVec.ofNat 8 (e.request.retryLimit + 16 * (e.divisor - 1)) := by
  simp [entryImage]

/-- The payload stands in bytes 8 to 23, with 0x00 after it (R163). -/
theorem entryImage_payload (h : e.request.payload.length ≤ 16) {k : Nat} (h8 : 8 ≤ k) (h23 : k ≤ 23) :
    (entryImage e)[k] = e.request.payload.getD (k - 8) 0 := by
  rw [entryImage, imageOf_getElem, List.getD_append _ _ _ _ (by simp; omega),
    List.getD_append_right _ _ _ _ (by simpa using h8)]
  by_cases hk : k - 8 < e.request.payload.length
  · exact List.getD_append _ _ _ _ hk
  · rw [List.getD_append_right _ _ _ _ (by simp; omega), List.getD_eq_default e.request.payload _ (by omega)]
    exact List.getD_replicate _ (by simp; omega)

theorem entryImage_above_payload (h : e.request.payload.length ≤ 16) {k : Nat} (h24 : 24 ≤ k) (h32 : k < 32) :
    (entryImage e)[k] = [(0 : Byte), BitVec.ofNat 8 e.phase].getD (k - 24) 0 := by
  rw [entryImage, imageOf_getElem, List.getD_append_right _ _ _ _ (by simp; omega)]
  congr 1
  simp
  omega

end

/-! ### The fields an image gives back -/

/-- The flags byte holds the three one-bit fields (R163). -/
theorem entryFlags_decode (b : Bool) (l : Line) (p : Policy) :
    let x : Byte := BitVec.ofNat 8 (b.toNat + 2 * lineBit l + 4 * p.bit)
    x.getLsbD 0 = b ∧ (x.getLsbD 1 = true ↔ l = .b) ∧ (x.getLsbD 2 = true ↔ p = .latest) ∧ x.toNat < 8 := by
  cases b <;> cases l <;> cases p <;> decide

theorem toNat_ofNat_byte {n : Nat} (h : n < 256) : (BitVec.ofNat 8 n : Byte).toNat = n := by
  rw [BitVec.toNat_ofNat, Nat.mod_eq_of_lt (by omega)]

theorem word16_low_high {n : Nat} (h : n < 65536) : word16 (lowByte n) (highByte n) = n := by
  simp only [word16, lowByte, highByte, BitVec.toNat_ofNat]
  omega

theorem expectationByte_exactly_toNat {n : Nat} (h : n ≤ 16) : (expectationByte (.exactly n)).toNat = n :=
  toNat_ofNat_byte (by omega)

theorem expectation_of_expectationByte (x : ReplyExpectation) (h : ∀ n, x = .exactly n → n ≤ 16) :
    (if expectationByte x = 0xFF then .any else .exactly (expectationByte x).toNat) = x := by
  cases x with
  | any => rfl
  | exactly n =>
    have hn := expectationByte_exactly_toNat (h n rfl)
    have hne : expectationByte (.exactly n) ≠ 0xFF := by
      intro heq
      rw [heq] at hn
      exact absurd (hn ▸ h n rfl) (by decide)
    rw [if_neg hne, hn]

theorem expectationByte_inRange (x : ReplyExpectation) (h : ∀ n, x = .exactly n → n ≤ 16) :
    (expectationByte x).toNat ≤ 16 ∨ expectationByte x = 0xFF := by
  cases x with
  | any => exact .inr rfl
  | exactly n => exact .inl (by rw [expectationByte_exactly_toNat (h n rfl)]; exact h n rfl)

section
variable {e : Entry}

theorem entryImage_length_toNat (h : EntrySound e) : (entryImage e)[3].toNat = e.request.payload.length := by
  have := h.length
  rw [entryImage_length, toNat_ofNat_byte (by omega)]

theorem entryImage_expectation_exactly (h : EntrySound e) {n : Nat} (hn : e.request.expectation = .exactly n) :
    (entryImage e)[4].toNat = n := by
  rw [entryImage_expectation, hn, expectationByte_exactly_toNat (h.expectation n hn)]

theorem entryImage_expectation_any (h : e.request.expectation = .any) : (entryImage e)[4] = 0xFF := by
  rw [entryImage_expectation, h]
  rfl

theorem entryImage_timeout (h : EntrySound e) : twoBytes (entryImage e) 5 6 = e.request.timeout := by
  have ht := h.timeout
  change word16 (entryImage e)[5] (entryImage e)[6] = _
  rw [entryImage_timeoutLow, entryImage_timeoutHigh, word16_low_high (by omega)]

theorem entryImage_retryAndDivisor_toNat (h : EntrySound e) :
    (entryImage e)[7].toNat = e.request.retryLimit + 16 * (e.divisor - 1) := by
  have hr := h.retryLimit
  have hd := h.divisor
  rw [entryImage_retryAndDivisor, toNat_ofNat_byte (by omega)]

theorem entryImage_retryLimit (h : EntrySound e) : (entryImage e)[7].toNat % 16 = e.request.retryLimit := by
  have hr := h.retryLimit
  rw [entryImage_retryAndDivisor_toNat h]
  omega

theorem entryImage_divisor (h : EntrySound e) : (entryImage e)[7].toNat / 16 + 1 = e.divisor := by
  have hr := h.retryLimit
  have hp := h.phase
  rw [entryImage_retryAndDivisor_toNat h]
  omega

theorem entryImage_phase (h : EntrySound e) : (entryImage e)[25].toNat = e.phase := by
  have hp := h.phase
  have hd := h.divisor
  rw [entryImage_above_payload e h.length (by omega)]
  exact toNat_ofNat_byte (by omega)

theorem entryImage_spare (h : EntrySound e) {k : Nat} (hk : k < 32) (h' : k = 24 ∨ 26 ≤ k) :
    (entryImage e)[k] = 0 := by
  rw [entryImage_above_payload e h.length (by omega)]
  rcases h' with rfl | h26
  · rfl
  · exact List.getD_eq_default _ _ (by simp; omega)

/-- The payload read back over the request length is the payload (R163). -/
theorem entryImage_payload_take (h : EntrySound e) :
    ((entryImage e).toList.drop 8).take (entryImage e)[3].toNat = e.request.payload := by
  have hl := h.length
  rw [entryImage_length_toNat h]
  refine List.ext_getElem (by simp; omega) fun j hj hj' => ?_
  have hb := entryImage_payload e hl (k := 8 + j) (by omega) (by omega)
  rw [List.getElem_take, List.getElem_drop]
  simpa [hj'] using hb

theorem requestOfImage_entryImage (h : EntrySound e) : requestOfImage (entryImage e) = e.request := by
  have hx := expectation_of_expectationByte e.request.expectation h.expectation
  rw [requestOfImage, entryImage_payload_take h, entryImage_timeout h, entryImage_retryLimit h, entryImage_address,
    entryImage_command, entryImage_expectation, hx]

theorem requestImageInRange_entryImage (h : EntrySound e) (hr : RequestInRange e.request) :
    RequestImageInRange (entryImage e) := by
  rw [RequestImageInRange, entryImage_timeout h, entryImage_retryLimit h, entryImage_length_toNat h, entryImage_address,
    entryImage_expectation]
  exact ⟨hr.address, hr.length, expectationByte_inRange _ hr.expectation, hr.timeout, hr.retryLimit⟩

/-- The image of an entry gives the entry back, with the phase at 0 (R10). -/
theorem entryOfImage_entryImage (h : EntrySound e) : entryOfImage (entryImage e) = { e with phase := 0 } := by
  obtain ⟨henabled, hline, hpolicy, -⟩ := entryFlags_decode e.enabled e.line e.policy
  have hl : lineOfImage (entryImage e) = e.line := by
    rw [lineOfImage, entryImage_flags]
    cases hm : e.line <;> simp_all
  have hp : (if (entryImage e)[0].getLsbD 2 then Policy.latest else .keepAll) = e.policy := by
    rw [entryImage_flags]
    cases hm : e.policy <;> simp_all
  rw [entryOfImage, hl, hp, requestOfImage_entryImage h, entryImage_divisor h, entryImage_flags, henabled]

/-- WRITE ENTRY commits a loaded image as the entry it came from, with the phase at 0 (R7, R10). -/
theorem exec_writeEntry_of_entryImage {s : State} {i : Fin 32} (h : TakesCommands s)
    (hp : s.port.param.toNat = i.val) (hv : s.port.staging = entryImage e) (he : EntrySound e)
    (hr : RequestInRange e.request) :
    exec .writeEntry s = .next (answered .done { s with table := s.table.set i { e with phase := 0 } }) := by
  rw [exec_writeEntry_of_inRange h hp (hv ▸ requestImageInRange_entryImage he hr), hv, entryOfImage_entryImage he]

end

/-- WRITE ENTRY right after READ ENTRY gives the entry back, with the phase at 0 (R7, R10). -/
theorem exec_writeEntry_of_readEntry {s : State} {i : Fin 32} (h : TakesCommands s) (hp : s.port.param.toNat = i.val)
    (he : EntrySound s.table[i]) (hr : RequestInRange s.table[i].request) :
    let t := answered .done (loaded (entryImage s.table[i]) s)
    exec .writeEntry t = .next { t with table := t.table.set i { s.table[i] with phase := 0 } } := by
  intro t
  have htakes : TakesCommands t := h
  have hparam : t.port.param.toNat = i.val := hp
  have hstaging : t.port.staging = entryImage s.table[i] := rfl
  rw [exec_writeEntry_of_entryImage htakes hparam hstaging he hr]

/-! ### The statements -/

/-- Settles O23: the decision by PARAM, then by the image. -/
theorem writeEntryDecides : Obligations.WriteEntryDecides :=
  ⟨refusedWhileBusy_of_access writeEntry exec_writeEntry, fun _ h =>
    ⟨exec_writeEntry_of_param_out_of_range h, fun _ hp =>
      ⟨exec_writeEntry_of_image_out_of_range h hp, exec_writeEntry_of_inRange h hp⟩⟩⟩

/-- Settles O24: the image byte by byte, and the entry the image gives back. -/
theorem readEntryLoadsTheImage : Obligations.ReadEntryLoadsTheImage := by
  refine ⟨refusedWhileBusy_of_access readEntry exec_readEntry, fun s h =>
    ⟨exec_readEntry_of_param_out_of_range h, fun i hp he => ?_⟩⟩
  intro e
  obtain ⟨henabled, hline, hpolicy, hspare⟩ := entryImage_flags e ▸ entryFlags_decode e.enabled e.line e.policy
  exact ⟨_, exec_readEntry_of_index h hp, rfl, henabled, hline, hpolicy, hspare, entryImage_address e,
    entryImage_command e, entryImage_length_toNat he, fun n hn => entryImage_expectation_exactly he hn,
    fun hany => entryImage_expectation_any hany, entryImage_timeout he, entryImage_retryAndDivisor_toNat he,
    fun k => entryImage_payload e he.length, entryImage_phase he, fun k => entryImage_spare he k.isLt,
    exec_writeEntry_of_readEntry h hp he⟩

end Sys2Proof.Machine
end

