-- ==== Sys2Proof/Proofs/RoundSettings.lean ====
section
/-!
SUPPORT and CERTIFICATES. The commands that set the rounds up and start them: SET ROUND MODE, SET TIMING and START
ROUNDS (R20, R25, R26, R164).
-/

namespace Sys2Proof.Machine

open Sys2Proof.Safety

/-! ### What the staging buffer holds -/

/-- The requirements on the staging image of SET ROUND MODE (R25). -/
abbrev RoundImageInRange (v : Vector Byte 32) : Prop :=
  v[0].toNat ≤ 2 ∧ v[1].toNat ≤ 2 ∧ v[2].toNat ≤ 1 ∧ twoBytes v 3 4 ≠ 0

/-- The settings a staging image holds (R164). -/
abbrev roundSettingsOfImage (v : Vector Byte 32) : RoundSettings :=
  { source := if v[0] = 0 then .soft else if v[0] = 1 then .timer else .sync
    edge := if v[1] = 0 then .rising else if v[1] = 1 then .falling else .both
    mode := if v[2] = 0 then .single else .continuous
    period := twoBytes v 3 4 }

theorem roundSettingsOfStaging_inRange {v : Vector Byte 32} (h : RoundImageInRange v) :
    roundSettingsOfStaging v = some (roundSettingsOfImage v) := (roundSettingsOfStaging_eq v).trans (if_pos h)

theorem roundSettingsOfStaging_out_of_range {v : Vector Byte 32} (h : ¬RoundImageInRange v) :
    roundSettingsOfStaging v = none := (roundSettingsOfStaging_eq v).trans (if_neg h)

theorem tickDivisorOfStaging_inRange {v : Vector Byte 32} (h : 256 ≤ twoBytes v 0 1) :
    tickDivisorOfStaging v = some (twoBytes v 0 1) := if_neg (Nat.not_lt.2 h)

theorem tickDivisorOfStaging_out_of_range {v : Vector Byte 32} (h : twoBytes v 0 1 < 256) :
    tickDivisorOfStaging v = none := if_pos h

/-! ### SET ROUND MODE -/

theorem exec_setRoundMode (s : State) : exec .setRoundMode s = .next (commandAccess setRoundMode s) := rfl

section
variable {s : State} {l : Line}

/-- PARAM is looked at before the values (R25). -/
theorem exec_setRoundMode_of_param_out_of_range (h : TakesCommands s) (hp : 2 ≤ s.port.param.toNat) :
    exec .setRoundMode s = .next (answered .range s) := by
  rw [exec_of_access exec_setRoundMode h, setRoundMode, lineOfParam_out_of_range hp]
  rfl

/-- The values are looked at before the round state (R25). -/
theorem exec_setRoundMode_of_image_out_of_range (h : TakesCommands s) (hp : s.port.param.toNat = lineIndex l)
    (hv : ¬RoundImageInRange s.port.staging) : exec .setRoundMode s = .next (answered .range s) := by
  rw [exec_of_access exec_setRoundMode h, setRoundMode, lineOfParam_of_index hp]
  dsimp only
  rw [roundSettingsOfStaging_out_of_range hv]
  rfl

theorem exec_setRoundMode_of_not_stopped (h : TakesCommands s) (hp : s.port.param.toNat = lineIndex l)
    (hv : RoundImageInRange s.port.staging) (hc : (s.controller l).state ≠ .stopped) :
    exec .setRoundMode s = .next (answered .state s) := by
  rw [exec_of_access exec_setRoundMode h, setRoundMode, lineOfParam_of_index hp]
  dsimp only
  rw [roundSettingsOfStaging_inRange hv]
  dsimp only
  rw [if_neg (by exact hc)]
  rfl

/-- A STOPPED controller takes the four settings (R25). -/
theorem exec_setRoundMode_of_stopped (h : TakesCommands s) (hp : s.port.param.toNat = lineIndex l)
    (hv : RoundImageInRange s.port.staging) (hc : (s.controller l).state = .stopped) :
    exec .setRoundMode s =
      .next
        (answered .done
          (withController s l { s.controller l with settings := roundSettingsOfImage s.port.staging })) := by
  rw [exec_of_access exec_setRoundMode h, setRoundMode, lineOfParam_of_index hp]
  dsimp only
  rw [roundSettingsOfStaging_inRange hv]
  dsimp only
  rw [if_pos (by exact hc)]
  rfl

end

/-! ### SET TIMING -/

theorem exec_setTiming (s : State) : exec .setTiming s = .next (commandAccess setTiming s) := rfl

section
variable {s : State}

/-- The value is looked at before the round states (R20). -/
theorem exec_setTiming_of_value_out_of_range (h : TakesCommands s) (hv : twoBytes s.port.staging 0 1 < 256) :
    exec .setTiming s = .next (answered .range s) := by
  rw [exec_of_access exec_setTiming h, setTiming, tickDivisorOfStaging_out_of_range hv]
  rfl

/-- One controller that is not STOPPED is enough to refuse (R20). -/
theorem exec_setTiming_of_not_stopped (h : TakesCommands s) (hv : 256 ≤ twoBytes s.port.staging 0 1)
    (hc : ∃ l, (s.controller l).state ≠ .stopped) : exec .setTiming s = .next (answered .state s) := by
  have hnot : ¬((s.controller .a).state = .stopped ∧ (s.controller .b).state = .stopped) := by
    rintro ⟨ha, hb⟩
    obtain ⟨l, hl⟩ := hc
    cases l with
    | a => exact hl ha
    | b => exact hl hb
  rw [exec_of_access exec_setTiming h, setTiming, tickDivisorOfStaging_inRange hv]
  dsimp only
  rw [if_neg (by exact hnot)]
  rfl

/-- With both controllers STOPPED the divisor is taken and the prescaler starts again (R20). -/
theorem exec_setTiming_of_stopped (h : TakesCommands s) (hv : 256 ≤ twoBytes s.port.staging 0 1)
    (hc : ∀ l, (s.controller l).state = .stopped) :
    exec .setTiming s =
      .next (answered .done { s with timeBase := { divisor := twoBytes s.port.staging 0 1, prescaler := 0 } }) := by
  rw [exec_of_access exec_setTiming h, setTiming, tickDivisorOfStaging_inRange hv]
  dsimp only
  rw [if_pos ⟨by exact hc .a, by exact hc .b⟩]
  rfl

end

/-! ### What an accepted START ROUNDS does -/

section
variable {s : State} {l : Line}

/-- With TIMER the round timer is loaded and the controller waits for its expiry (R26). -/
theorem beginRounds_timer (h : (s.controller l).settings.source = .timer) :
    beginRounds l s =
      withController s l
        { s.controller l with state := .armed, timer := some (s.controller l).settings.period } := by
  rw [beginRounds, h]
  rfl

/-- With SYNC the controller waits for an edge (R26). -/
theorem beginRounds_sync (h : (s.controller l).settings.source = .sync) :
    beginRounds l s = withController s l { s.controller l with state := .armed } := by
  rw [beginRounds, h]
  rfl

/-- With SOFT a round starts at once, and the engine chooses (R23, R26, R121). -/
theorem beginRounds_soft (h : (s.controller l).settings.source = .soft) :
    beginRounds l s = makeChoice l (withController s l (roundStarted (s.controller l))) := by
  rw [beginRounds, h]
  rfl

end

/-- What a start does neither reads nor writes the Host Port. -/
theorem beginRounds_setPort (l : Line) (s : State) (p : HostPort) :
    beginRounds l (s.setPort p) = (beginRounds l s).setPort p := by
  have hcontroller : (s.setPort p).controller l = s.controller l := rfl
  cases hs : (s.controller l).settings.source with
  | soft =>
    rw [beginRounds_soft hs, beginRounds_soft (hcontroller ▸ hs), ← makeChoice_setPort]
    rfl
  | timer =>
    rw [beginRounds_timer hs, beginRounds_timer (hcontroller ▸ hs)]
    rfl
  | sync =>
    rw [beginRounds_sync hs, beginRounds_sync (hcontroller ▸ hs)]
    rfl

/-- A part of a command that neither reads nor writes the Host Port acts as on the state before the command, and the
command's answer is all that the port shows (R157, R158). -/
theorem giveResult_of_portFree {f : State → State} (hf : ∀ s p, f (s.setPort p) = (f s).setPort p) (r : ResultCode)
    (s : State) : giveResult r (f { s with port := { s.port with refusedBusy := false } }) = answered r (f s) := by
  have hself : f s = (f s).setPort s.port := hf s s.port
  have hport : (f s).port = s.port :=
    (congrArg State.port hself).trans (State.setPort_port _ _)
  have hcleared : f { s with port := { s.port with refusedBusy := false } } =
      (f s).setPort { s.port with refusedBusy := false } := hf s _
  rw [hcleared, answered, hport]
  rfl

/-! ### START ROUNDS -/

theorem exec_startRounds (s : State) : exec .startRounds s = .next (commandAccess startRounds s) := rfl

section
variable {s : State} {l : Line}

theorem exec_startRounds_of_param_out_of_range (h : TakesCommands s) (hp : 2 ≤ s.port.param.toNat) :
    exec .startRounds s = .next (answered .range s) := by
  rw [exec_of_access exec_startRounds h, startRounds, lineOfParam_out_of_range hp]
  rfl

/-- A DISABLED line and a controller that is not STOPPED are refused alike (R26). -/
theorem exec_startRounds_of_refused (h : TakesCommands s) (hp : s.port.param.toNat = lineIndex l)
    (hr : (s.engine l).state = .disabled ∨ (s.controller l).state ≠ .stopped) :
    exec .startRounds s = .next (answered .state s) := by
  rw [exec_of_access exec_startRounds h, startRounds, lineOfParam_of_index hp]
  dsimp only
  by_cases he : (s.engine l).state = .disabled
  · rw [if_pos (by exact he)]
    rfl
  · have hc : (s.controller l).state ≠ .stopped := hr.resolve_left he
    rw [if_neg (by exact he), if_neg (by exact hc)]
    rfl

theorem exec_startRounds_of_accepted (h : TakesCommands s) (hp : s.port.param.toNat = lineIndex l)
    (he : (s.engine l).state ≠ .disabled) (hc : (s.controller l).state = .stopped) :
    exec .startRounds s = .next (answered .done (beginRounds l s)) := by
  rw [exec_of_access exec_startRounds h, startRounds, lineOfParam_of_index hp]
  dsimp only
  rw [if_neg (by exact he), if_pos (by exact hc), giveResult_of_portFree (beginRounds_setPort l)]

end

/-! ### The statements -/

/-- Settles O26: SET ROUND MODE decides by PARAM, the values and the round state, SET TIMING by the value and both round
states. -/
theorem roundSettingsDecide : Obligations.RoundSettingsDecide :=
  ⟨refusedWhileBusy_of_access setRoundMode exec_setRoundMode, refusedWhileBusy_of_access setTiming exec_setTiming,
    fun _ h =>
      ⟨exec_setRoundMode_of_param_out_of_range h, fun _ hp =>
        ⟨exec_setRoundMode_of_image_out_of_range h hp, exec_setRoundMode_of_not_stopped h hp,
          exec_setRoundMode_of_stopped h hp⟩,
        exec_setTiming_of_value_out_of_range h, exec_setTiming_of_not_stopped h, exec_setTiming_of_stopped h⟩⟩

/-- Settles O27: the decision by PARAM, line state and round state, then what the trigger source makes of a start. -/
theorem startRoundsDecides : Obligations.StartRoundsDecides := by
  refine ⟨refusedWhileBusy_of_access startRounds exec_startRounds, fun s h =>
    ⟨exec_startRounds_of_param_out_of_range h, fun l hp =>
      ⟨exec_startRounds_of_refused h hp, fun he hc => ⟨fun hs => ?timer, fun hs => ?sync, fun hs => ?soft⟩⟩⟩⟩
  case timer => rw [exec_startRounds_of_accepted h hp he hc, beginRounds_timer hs]
  case sync => rw [exec_startRounds_of_accepted h hp he hc, beginRounds_sync hs]
  case soft => rw [exec_startRounds_of_accepted h hp he hc, beginRounds_soft hs]

end Sys2Proof.Machine
end

