-- ==== Sys2Proof/Proofs/UrgentQueue.lean ====
section
/-!
SUPPORT and CERTIFICATES. The Urgent Queue's commands that put slots in and cancel them: ENQUEUE URGENT and FLUSH URGENT
(R40 to R45, R50 to R52).
-/

namespace Sys2Proof.Machine

open Sys2Proof.Safety

/-! ### The slot an image holds -/

/-- The slot an image enqueues where its fields are in range (R40, R163). -/
abbrev slotOfImage (v : Vector Byte 32) : Slot :=
  { tag := v[24], line := lineOfImage v, request := requestOfImage v, state := .queued }

theorem slotOfStaging_inRange {v : Vector Byte 32} (h : RequestImageInRange v) :
    slotOfStaging v = some (slotOfImage v) := by
  rw [slotOfStaging, requestOfStaging_eq, if_pos h]
  rfl

theorem slotOfStaging_out_of_range {v : Vector Byte 32} (h : ¬RequestImageInRange v) : slotOfStaging v = none := by
  rw [slotOfStaging, requestOfStaging_eq, if_neg h]
  rfl

/-! ### ENQUEUE URGENT -/

theorem exec_enqueueUrgent (s : State) : exec .enqueueUrgent s = .next (commandAccess enqueueUrgent s) := rfl

/-- What an accepted request does: its slot stands at the tail, and a READY engine of its line chooses (R44). -/
abbrev urgentAccepted (x : Slot) (s : State) : State := makeChoice x.line { s with urgent := s.urgent ++ [x] }

theorem urgentAccepted_setPort (x : Slot) (s : State) (p : HostPort) :
    urgentAccepted x (s.setPort p) = (urgentAccepted x s).setPort p :=
  makeChoice_setPort x.line { s with urgent := s.urgent ++ [x] } p

section
variable {s : State}

/-- The image is looked at before the line, the queue and the store (R42). -/
theorem exec_enqueueUrgent_of_image_out_of_range (h : TakesCommands s) (hv : ¬RequestImageInRange s.port.staging) :
    exec .enqueueUrgent s = .next (answered .range s) := by
  rw [exec_of_access exec_enqueueUrgent h, enqueueUrgent, slotOfStaging_out_of_range hv]
  rfl

/-- With the image in range the other three tests follow in the order of R42: line, queue, store. -/
theorem exec_enqueueUrgent_of_inRange (h : TakesCommands s) (hv : RequestImageInRange s.port.staging) :
    exec .enqueueUrgent s =
      .next
        (if (s.engine (lineOfImage s.port.staging)).state = .disabled then answered .state s
        else if 4 ≤ s.urgent.length then answered .full s
        else if 16 ≤ s.store.length + s.urgent.length then answered .room s
        else answered .done (urgentAccepted (slotOfImage s.port.staging) s)) := by
  rw [exec_of_access exec_enqueueUrgent h, enqueueUrgent, slotOfStaging_inRange hv,
    ← giveResult_of_portFree (urgentAccepted_setPort (slotOfImage s.port.staging))]
  rfl

end

/-! ### FLUSH URGENT -/

theorem exec_flushUrgent (s : State) : exec .flushUrgent s = .next (commandAccess flushUrgent s) := rfl

/-- The lines PARAM selects for a flush: 2 both, otherwise the one of its index (R51). -/
def flushSelects (p : Byte) (l : Line) : Bool := decide (p.toNat = 2 ∨ p.toNat = lineIndex l)

theorem flushSelects_iff (p : Byte) (l : Line) : flushSelects p l = true ↔ p.toNat = 2 ∨ p.toNat = lineIndex l :=
  decide_eq_true_iff

theorem flushSelection_out_of_range {p : Byte} (h : 3 ≤ p.toNat) : flushSelection p = none := by
  unfold flushSelection
  rw [if_neg (by rintro rfl; simp at h), if_neg (by rintro rfl; simp at h), if_neg (by rintro rfl; simp at h)]

theorem flushSelection_inRange {p : Byte} (h : p.toNat ≤ 2) : flushSelection p = some (flushSelects p) := by
  obtain rfl | rfl | rfl := (byte_le_two p).1 h
  all_goals
    refine congrArg some (funext fun l => ?_)
    cases l <;> rfl

/-- A cancelling said with the condition on the slots that leave, in the order of the queue (R51, R52). -/
theorem cancelQueued_eq {selected : Line → Bool} {Leaves : Slot → Prop} [DecidablePred Leaves]
    (h : ∀ x, Leaves x ↔ selected x.line = true ∧ x.state = .queued) (s : State) :
    cancelQueued selected s =
      { s with
        urgent := s.urgent.filter (fun x => ¬Leaves x)
        store := s.store ++ (s.urgent.filter fun x => Leaves x).map cancelledRecord } := by
  have hgoes : ∀ x : Slot, (selected x.line && x.state == .queued) = decide (Leaves x) := fun x => by
    rw [Bool.eq_iff_iff, decide_eq_true_iff, h x, Bool.and_eq_true, beq_iff_eq]
  simp only [cancelQueued, hgoes, decide_not]
  rfl

section
variable {s : State}

theorem exec_flushUrgent_of_param_out_of_range (h : TakesCommands s) (hp : 3 ≤ s.port.param.toNat) :
    exec .flushUrgent s = .next (answered .range s) := by
  rw [exec_of_access exec_flushUrgent h, flushUrgent, flushSelection_out_of_range hp]
  rfl

/-- A flush is a cancelling on the lines PARAM selects (R51). -/
theorem exec_flushUrgent_of_inRange (h : TakesCommands s) (hp : s.port.param.toNat ≤ 2) :
    exec .flushUrgent s = .next (answered .done (cancelQueued (flushSelects s.port.param) s)) := by
  rw [exec_of_access exec_flushUrgent h, flushUrgent, flushSelection_inRange hp]
  rfl

end

/-! ### The statements -/

/-- Settles O37: the four tests in their order, the image first. -/
theorem enqueueUrgentDecides : Obligations.EnqueueUrgentDecides := by
  refine ⟨refusedWhileBusy_of_access enqueueUrgent exec_enqueueUrgent, fun s h =>
    ⟨exec_enqueueUrgent_of_image_out_of_range h, fun hv => ?_⟩⟩
  rw [exec_enqueueUrgent_of_inRange h hv]
  refine ⟨fun hdisabled => ?state, fun henabled => ⟨fun hfull => ?full, fun hfree =>
    ⟨fun hshort => ?room, fun hroom => ?accepted⟩⟩⟩
  case state => rw [if_pos hdisabled]
  case full => rw [if_neg henabled, if_pos hfull]
  case room => rw [if_neg henabled, if_neg (Nat.not_le.2 hfree), if_pos hshort]
  case accepted => rw [if_neg henabled, if_neg (Nat.not_le.2 hfree), if_neg (Nat.not_le.2 hroom)]

/-- Settles O38: the selection by PARAM, then the queue parted into the slots that leave and those that stay. -/
theorem flushUrgentCancelsQueuedSlots : Obligations.FlushUrgentCancelsQueuedSlots := by
  refine ⟨refusedWhileBusy_of_access flushUrgent exec_flushUrgent, fun s h =>
    ⟨exec_flushUrgent_of_param_out_of_range h, fun hp => ?_⟩⟩
  intro goes
  have hgoes : ∀ x, goes x ↔ flushSelects s.port.param x.line = true ∧ x.state = .queued := fun x => by
    rw [flushSelects_iff]
    exact And.comm
  have hcancel := cancelQueued_eq hgoes s
  refine ⟨_, exec_flushUrgent_of_inRange h hp, ?next, congrArg State.store hcancel,
    cancelQueued_storeSum (flushSelects s.port.param) s⟩
  case next => rw [hcancel]

end Sys2Proof.Machine
end

