-- ==== Sys2Proof/Proofs/ReplyStore.lean ====
section
/-!
SUPPORT and CERTIFICATES. The Reply Store: what RELEASE REPLY takes from it, and how a routine record is appended,
dropped or coalesced (R63 to R68, R75).
-/

namespace Sys2Proof.Machine

open Sys2Proof.Safety

/-! ### The REPLY source -/

theorem sixBits_getLsbD_zero (b0 b1 b2 b3 b4 b5 : Bool) : (sixBits b0 b1 b2 b3 b4 b5).getLsbD 0 = b0 := by
  revert b0 b1 b2 b3 b4 b5
  decide

/-- REPLY is bit 0 of PENDING LOW (R138). -/
theorem pendingLow_reply (s : State) : s.pendingLow.getLsbD 0 = s.replyPending := sixBits_getLsbD_zero ..

theorem replyPending_of_store_empty {s : State} (h : s.store = []) : s.replyPending = false := by
  rw [State.replyPending, h]
  rfl

/-! ### RELEASE REPLY -/

theorem exec_releaseReply (s : State) : exec .releaseReply s = .next (commandAccess releaseReply s) := rfl

theorem releaseReply_nil {s : State} (h : s.store = []) : releaseReply s = giveResult .empty s := by
  simp only [releaseReply, h]

theorem releaseReply_cons {s : State} {head : Record} {rest : List Record} (h : s.store = head :: rest) :
    releaseReply s = giveResult .done { s with store := rest, port := { s.port with replyPointer := 0 } } := by
  simp only [releaseReply, h]
  rfl

section
variable {s : State}

theorem exec_releaseReply_of_nil (h : TakesCommands s) (hs : s.store = []) :
    exec .releaseReply s = .next (answered .empty s) :=
  (exec_of_access exec_releaseReply h).trans (congrArg Host.Outcome.next (releaseReply_nil hs))

theorem exec_releaseReply_of_cons {head : Record} {rest : List Record} (h : TakesCommands s)
    (hs : s.store = head :: rest) :
    exec .releaseReply s =
      .next (answered .done { s with store := rest, port := { s.port with replyPointer := 0 } }) :=
  (exec_of_access exec_releaseReply h).trans (congrArg Host.Outcome.next (releaseReply_cons hs))

end

/-! ### The records a coalescing append removes -/

theorem Record.ofEntry_iff (i : Fin 32) (r : Record) :
    r.ofEntry i = true ↔ r.source = .routine ∧ r.id = BitVec.ofNat 8 i.val := by
  rw [Record.ofEntry, Bool.and_eq_true, beq_iff_eq, beq_iff_eq]

section
variable {i : Fin 32} {IsOfEntry : Record → Prop} [DecidablePred IsOfEntry]

/-- The candidates said with the condition on the records of the entry (R65). -/
theorem candidates_eq (h : ∀ r, r.ofEntry i = true ↔ IsOfEntry r) (store : List Record) :
    candidates i store = store.tail.filter fun r => IsOfEntry r :=
  List.filter_congr fun r _ => by rw [Bool.eq_iff_iff, decide_eq_true_iff, h r]

/-- The head stays, and behind it the records of no candidate, in their order (R65, R68). -/
theorem withoutCandidates_eq (h : ∀ r, r.ofEntry i = true ↔ IsOfEntry r) (store : List Record) :
    withoutCandidates i store = store.take 1 ++ store.tail.filter fun r => ¬IsOfEntry r :=
  congrArg (store.take 1 ++ ·) <| List.filter_congr fun r _ => by
    rw [Bool.eq_iff_iff, decide_eq_true_iff, Bool.not_eq_true', ← h r, Bool.not_eq_true]

end

/-! ### A routine append -/

theorem saturate255_eq (n : Nat) : saturate255 n = if n ≤ 255 then n else 255 := Nat.min_def

section
variable (i : Fin 32) (make : Nat → Record) {s : State}

/-- With room the record joins the tail and takes the missed count over (R63). -/
theorem appendKeepAll_of_room (h : s.store.length + s.urgent.length < 16) :
    appendKeepAll i make s = { s with store := s.store ++ [make s.missed[i]], missed := s.missed.set i 0 } :=
  if_pos h

/-- Without room the record is dropped and counted, and OVERRUN is set (R64). -/
theorem appendKeepAll_of_no_room (h : 16 ≤ s.store.length + s.urgent.length) :
    appendKeepAll i make s =
      withLatched { s with missed := s.missed.set i (saturate255 (s.missed[i] + 1)) }
        { s.interrupts.latched with overrun := true } :=
  if_neg (Nat.not_lt.2 h)

/-- LATEST without a candidate is decided as KEEP_ALL (R67). -/
theorem appendRoutine_as_keepAll {policy : Policy} (h : policy = .keepAll ∨ candidates i s.store = []) :
    appendRoutine i policy make s = appendKeepAll i make s := by
  cases policy with
  | keepAll => rfl
  | latest =>
    have hnone : candidates i s.store = [] := h.resolve_left Policy.noConfusion
    simp only [appendRoutine, hnone]

/-- LATEST with a candidate needs no room: the candidates leave and the new record carries their missed counts (R65,
R66). -/
theorem appendRoutine_coalesces (h : candidates i s.store ≠ []) :
    appendRoutine i .latest make s =
      { s with
        store :=
          withoutCandidates i s.store ++ [make (coalescedMissed (candidates i s.store) s.missed[i])]
        missed := s.missed.set i 0 } := by
  obtain ⟨r, removed, hc⟩ := List.exists_cons_of_ne_nil h
  simp only [appendRoutine, hc]
  rfl

end

/-! ### The statements -/

/-- Settles O39: the two cases of the store, and REPLY read off the store that is left. -/
theorem releaseReplyRemovesTheHead : Obligations.ReleaseReplyRemovesTheHead := by
  refine ⟨refusedWhileBusy_of_access releaseReply exec_releaseReply, fun s h =>
    ⟨exec_releaseReply_of_nil h, fun head rest hs => ⟨_, exec_releaseReply_of_cons h hs, rfl, fun hlast => ?_⟩⟩⟩
  rw [pendingLow_reply]
  exact replyPending_of_store_empty hlast

/-- Settles O40: without a candidate the room decides, with one the append coalesces. -/
theorem routineAppendFollowsThePolicy : Obligations.RoutineAppendFollowsThePolicy := by
  intro i make s isOfEntry found counted
  have hfound : candidates i s.store = found := candidates_eq (Record.ofEntry_iff i) s.store
  refine ⟨fun policy hpolicy => ?keepAll, fun hsome => ?coalesced⟩
  case keepAll =>
    rw [appendRoutine_as_keepAll i make (hpolicy.imp_right hfound.trans)]
    refine ⟨appendKeepAll_of_room i make, fun hfull => ?_⟩
    rw [appendKeepAll_of_no_room i make hfull, saturate255_eq]
  case coalesced =>
    rw [appendRoutine_coalesces i make (hfound ▸ hsome), hfound, coalescedMissed, saturate255_eq,
      withoutCandidates_eq (Record.ofEntry_iff i)]

end Sys2Proof.Machine
end

