-- ==== Sys2Proof/Proofs/NodeHealth.lean ====
section
/-!
SUPPORT and CERTIFICATES. The Node Health Map: how an outcome updates a record, what READ NODE and TAKE CHANGE show, and
that every step keeps the relations within a record (R79, R81 to R85, R87, R89 to R91, R93).
-/

namespace Sys2Proof.Machine

open Sys2Proof.Safety

/-! ### The update of a record -/

/-- The failure count after one more failure (R83). -/
abbrev NodeRecord.raised (r : NodeRecord) : Nat := if r.failures + 1 ≤ 15 then r.failures + 1 else 15

/-- Whether a record that enters a state stands in the change set then (R87). -/
theorem NodeRecord.joins_eq (r : NodeRecord) (new : NodeState) :
    (r.changed || r.state != new) = (r.changed || decide (r.state ≠ new)) := by
  rw [decide_not]
  rfl

section
variable {t : Thresholds} {o : OutcomeCode} {r : NodeRecord}

theorem NodeRecord.update_of_health_none (h : o.health = none) : r.update t o = r := by
  rw [NodeRecord.update, h]

theorem NodeRecord.update_of_success (h : o.health = some true) : r.update t o = r.succeed o := by
  rw [NodeRecord.update, h]

theorem NodeRecord.update_of_failure (h : o.health = some false) : r.update t o = r.fail t o := by
  rw [NodeRecord.update, h]

/-- A failure that brings the count to the offline threshold loads the countdown (R83). -/
theorem NodeRecord.fail_of_offline (h : t.offline ≤ r.raised) :
    r.fail t o =
      { state := .offline
        failures := r.raised
        lastOutcome := some o
        countdown := t.revival
        changed := r.changed || decide (r.state ≠ .offline) } := by
  rw [NodeRecord.fail, Nat.min_def, NodeRecord.joins_eq]
  exact if_pos h

/-- A failure that brings the count between the thresholds clears the countdown (R83). -/
theorem NodeRecord.fail_of_suspect (ho : r.raised < t.offline) (hs : t.suspect ≤ r.raised) :
    r.fail t o =
      { state := .suspect
        failures := r.raised
        lastOutcome := some o
        countdown := 0
        changed := r.changed || decide (r.state ≠ .suspect) } := by
  rw [NodeRecord.fail, Nat.min_def, NodeRecord.joins_eq, NodeRecord.joins_eq]
  exact (if_neg (Nat.not_le.2 ho)).trans (if_pos hs)

/-- A failure below both thresholds keeps state and countdown (R83). -/
theorem NodeRecord.fail_of_below (ho : r.raised < t.offline) (hs : r.raised < t.suspect) :
    r.fail t o = { r with failures := r.raised, lastOutcome := some o } := by
  rw [NodeRecord.fail, Nat.min_def]
  exact (if_neg (Nat.not_le.2 ho)).trans (if_neg (Nat.not_le.2 hs))

end

/-! ### The records that are sound (R84) -/

theorem NodeRecord.raised_bounds (r : NodeRecord) : 1 ≤ r.raised ∧ r.raised ≤ 15 := by
  unfold NodeRecord.raised
  split <;> omega

section
variable {t : Thresholds} {o : OutcomeCode} {r : NodeRecord}

theorem NodeRecord.reset_sound : NodeSound NodeRecord.reset := by
  constructor <;> decide

/-- Membership of the change set is no part of the relations. -/
theorem NodeRecord.setChanged_sound (b : Bool) (h : NodeSound r) : NodeSound { r with changed := b } :=
  ⟨h.answered, h.failing, h.countdown, h.failures⟩

/-- The countdown of an OFFLINE record is free. -/
theorem NodeRecord.setCountdown_sound (n : Nat) (h : NodeSound r) (ho : r.state = .offline) :
    NodeSound { r with countdown := n } :=
  ⟨h.answered, h.failing, absurd ho, h.failures⟩

theorem NodeRecord.succeed_sound (o : OutcomeCode) (r : NodeRecord) : NodeSound (r.succeed o) where
  answered _ := rfl
  failing h := by simp [NodeRecord.succeed] at h
  countdown _ := rfl
  failures := Nat.zero_le _

/-- A record whose last outcome is a failure, with its count raised. -/
theorem NodeRecord.failed_sound {n : NodeRecord} (ho : o.health = some false) (hl : n.lastOutcome = some o)
    (hf : n.failures = r.raised) (hc : n.state ≠ .offline → n.countdown = 0) : NodeSound n where
  answered h := by
    rw [hl, Option.some_inj, Option.some_inj] at h
    rcases h with rfl | rfl <;> cases ho
  failing _ := hf ▸ r.raised_bounds.1
  countdown := hc
  failures := hf ▸ r.raised_bounds.2

theorem NodeRecord.fail_sound (ho : o.health = some false) (h : NodeSound r) : NodeSound (r.fail t o) := by
  rcases Nat.lt_or_ge r.raised t.offline with hlt | hoffline
  · rcases Nat.lt_or_ge r.raised t.suspect with hbelow | hsuspect
    · rw [NodeRecord.fail_of_below hlt hbelow]
      exact failed_sound ho rfl rfl h.countdown
    · rw [NodeRecord.fail_of_suspect hlt hsuspect]
      exact failed_sound ho rfl rfl fun _ => rfl
  · rw [NodeRecord.fail_of_offline hoffline]
    exact failed_sound ho rfl rfl fun hne => absurd rfl hne

theorem NodeRecord.update_sound (t : Thresholds) (o : OutcomeCode) (h : NodeSound r) : NodeSound (r.update t o) := by
  rcases ho : o.health with _ | _ | _
  · rw [NodeRecord.update_of_health_none ho]
    exact h
  · rw [NodeRecord.update_of_failure ho]
    exact fail_sound ho h
  · rw [NodeRecord.update_of_success ho]
    exact succeed_sound o r

end

/-! ### The node a byte keys (R91) -/

theorem nodeIndex_of_toNat {a : Byte} {k : Fin 126} (h : a.toNat = k.val + 1) : nodeIndex a = some k := by
  unfold nodeIndex
  rw [dif_pos (by omega)]
  simp [h]

theorem nodeIndex_out_of_range {a : Byte} (h : a.toNat = 0 ∨ a.toNat = 127) : nodeIndex a = none :=
  dif_neg (by omega)

/-- The address of a node key is in bits 0 to 6. -/
theorem nodeKey_address (p : Byte) : (p &&& 0x7F).toNat = p.toNat % 128 := by
  rw [BitVec.toNat_and]
  exact Nat.and_two_pow_sub_one_eq_mod p.toNat 7

/-- The line of a node key is in bit 7. -/
theorem nodeKey_line {p : Byte} {l : Line} {k : Fin 126} (h : p.toNat = k.val + 1 + 128 * lineIndex l) :
    lineOfBit (p.getLsbD 7) = l := by
  have hbit : p.getLsbD 7 = decide (128 ≤ p.toNat) := BitVec.msb_eq_decide p
  have hk := k.isLt
  rw [hbit, h]
  cases l with
  | a => rw [decide_eq_false (by simp only [lineIndex]; omega)]; rfl
  | b => rw [decide_eq_true (by simp only [lineIndex]; omega)]; rfl

theorem nodeOfParam_of_key {p : Byte} {l : Line} {k : Fin 126} (h : p.toNat = k.val + 1 + 128 * lineIndex l) :
    nodeOfParam p = some (l, k) := by
  have hk := k.isLt
  have haddress : (p &&& 0x7F).toNat = k.val + 1 := by
    rw [nodeKey_address]
    omega
  rw [nodeOfParam, nodeIndex_of_toNat haddress, nodeKey_line h]
  rfl

theorem nodeOfParam_out_of_range {p : Byte} (h : p.toNat % 128 = 0 ∨ p.toNat % 128 = 127) : nodeOfParam p = none := by
  rw [nodeOfParam, nodeIndex_out_of_range (by rwa [nodeKey_address])]
  rfl

/-! ### The image of a record (R90) -/

section
variable (l : Line) (k : Fin 126) (r : NodeRecord)

theorem nodeImage_key_toNat : (nodeImage l k r)[0].toNat = k.val + 1 + 128 * lineIndex l := by
  have hk := k.isLt
  rw [nodeImage, imageOf_getElem]
  cases l <;> exact toNat_ofNat_byte (by simp only [lineBit]; omega)

theorem nodeImage_state : (nodeImage l k r)[1] = r.state.code := imageOf_getElem ..

theorem nodeImage_failures_toNat (h : NodeSound r) : (nodeImage l k r)[2].toNat = r.failures := by
  have hf := h.failures
  rw [nodeImage, imageOf_getElem]
  exact toNat_ofNat_byte (by omega)

theorem nodeImage_lastOutcome : (nodeImage l k r)[3] = (r.lastOutcome.map OutcomeCode.code).getD 0xFF := by
  rw [nodeImage, imageOf_getElem]
  cases r.lastOutcome <;> rfl

theorem nodeImage_countdown_toNat (h : r.countdown ≤ 255) : (nodeImage l k r)[4].toNat = r.countdown := by
  rw [nodeImage, imageOf_getElem]
  exact toNat_ofNat_byte (by omega)

theorem nodeImage_changed : (nodeImage l k r)[5] = if r.changed then 1 else 0 := by
  rw [nodeImage, imageOf_getElem]
  cases r.changed <;> rfl

theorem nodeImage_spare {j : Nat} (hj : j < 32) (h : 6 ≤ j) : (nodeImage l k r)[j] = 0 := by
  rw [nodeImage, imageOf_getElem]
  exact List.getD_eq_default _ _ h

end

/-- What bytes show of a record, byte by byte in the layout of R90, with byte 5 given. -/
abbrev ShowsNode (v : Vector Byte 32) (l : Line) (k : Fin 126) (r : NodeRecord) (changed : Bool) : Prop :=
  v[0].toNat = k.val + 1 + 128 * lineIndex l ∧
  (v[1].toNat =
    match r.state with
    | .unknown => 0
    | .online => 1
    | .suspect => 2
    | .offline => 3) ∧
  v[2].toNat = r.failures ∧ (r.lastOutcome = none → v[3] = 0xFF) ∧ (∀ o, r.lastOutcome = some o → v[3] = o.code) ∧
  (r.countdown ≤ 255 → v[4].toNat = r.countdown) ∧ v[5] = (if changed then 1 else 0) ∧
  ∀ j : Fin 32, 6 ≤ j.val → v[j] = 0

theorem nodeImage_shows (l : Line) (k : Fin 126) {r : NodeRecord} (changed : Bool) (h : NodeSound r) :
    ShowsNode (nodeImage l k { r with changed := changed }) l k r changed := by
  refine ⟨nodeImage_key_toNat .., ?state, nodeImage_failures_toNat _ _ _ (r.setChanged_sound changed h),
    fun hnone => ?none, fun o hsome => ?some, nodeImage_countdown_toNat _ _ { r with changed := changed },
    nodeImage_changed .., fun j => nodeImage_spare _ _ _ j.isLt⟩
  case state =>
    rw [nodeImage_state]
    cases hr : r.state <;> rfl
  case none => rw [nodeImage_lastOutcome, hnone]; rfl
  case some => rw [nodeImage_lastOutcome, hsome]; rfl

/-! ### The first record of the change set (R87) -/

theorem firstChanged_eq_none {v : Vector NodeRecord 126} (h : ∀ i : Fin 126, v[i].changed = false) :
    firstChanged v = none :=
  List.find?_eq_none.2 fun i _ => by simpa using h i

theorem firstChanged_eq_some {v : Vector NodeRecord 126} {k : Fin 126} (hk : v[k].changed = true)
    (h : ∀ j, j < k → v[j].changed = false) : firstChanged v = some k := by
  refine List.find?_eq_some_iff_getElem.2 ⟨hk, k.val, by simp, by simp, fun j hj => ?_⟩
  simpa using h ⟨j, by omega⟩ hj

section
variable {s : State}

theorem firstChange_of_none (h : ∀ l k, (s.node l k).changed = false) : s.firstChange = none := by
  rw [State.firstChange, firstChanged_eq_none (v := s.nodes.a) (h .a), firstChanged_eq_none (v := s.nodes.b) (h .b)]
  rfl

/-- Line A comes before Line B, and a lower address before a higher one. -/
theorem firstChange_of_first {l : Line} {k : Fin 126} (hk : (s.node l k).changed = true)
    (hbefore : ∀ j, j < k → (s.node l j).changed = false) (ha : l = .b → ∀ j, (s.node .a j).changed = false) :
    s.firstChange = some (l, k) := by
  cases l with
  | a => rw [State.firstChange, firstChanged_eq_some (v := s.nodes.a) hk hbefore]
  | b =>
    rw [State.firstChange, firstChanged_eq_none (v := s.nodes.a) (ha rfl),
      firstChanged_eq_some (v := s.nodes.b) hk hbefore]
    rfl

end

/-! ### READ NODE and TAKE CHANGE -/

theorem exec_readNode (s : State) : exec .readNode s = .next (commandAccess readNode s) := rfl

theorem exec_takeChange (s : State) : exec .takeChange s = .next (commandAccess takeChange s) := rfl

section
variable {s : State} {l : Line} {k : Fin 126}

theorem takeChange_of_none (h : s.firstChange = none) : takeChange s = giveResult .empty s := by
  rw [takeChange, h]

/-- The record taken leaves the set, and its image shows it as it leaves (R89). -/
theorem takeChange_of_some (h : s.firstChange = some (l, k)) :
    takeChange s =
      giveResult .done
        (loadStaging (nodeImage l k { s.node l k with changed := false })
          (s.setNode l k { s.node l k with changed := false })) := by
  rw [takeChange, h]

theorem exec_readNode_of_param_out_of_range (h : TakesCommands s)
    (hp : s.port.param.toNat % 128 = 0 ∨ s.port.param.toNat % 128 = 127) :
    exec .readNode s = .next (answered .range s) := by
  rw [exec_of_access exec_readNode h, readNode, nodeOfParam_out_of_range hp]
  rfl

theorem exec_readNode_of_key (h : TakesCommands s) (hp : s.port.param.toNat = k.val + 1 + 128 * lineIndex l) :
    exec .readNode s = .next (answered .done (loaded (nodeImage l k (s.node l k)) s)) := by
  rw [exec_of_access exec_readNode h, readNode, nodeOfParam_of_key hp]
  rfl

theorem exec_takeChange_of_none (h : TakesCommands s) (hn : s.firstChange = none) :
    exec .takeChange s = .next (answered .empty s) :=
  (exec_of_access exec_takeChange h).trans (congrArg Host.Outcome.next (takeChange_of_none hn))

theorem exec_takeChange_of_some (h : TakesCommands s) (hf : s.firstChange = some (l, k)) :
    exec .takeChange s =
      .next
        (answered .done
          (loaded (nodeImage l k { s.node l k with changed := false })
            { s with nodes := s.nodes.set l ((s.nodes.get l).set k { s.node l k with changed := false }) })) :=
  (exec_of_access exec_takeChange h).trans (congrArg Host.Outcome.next (takeChange_of_some hf))

end

/-! ### Every node record stays sound (R84) -/

/-- An operation after which every node record is sound if every one was before. -/
abbrev KeepsNodes (f : State → State) : Prop := ∀ s, NodesSound s → NodesSound (f s)

theorem nodesSound_of_nodes {s t : State} (h : NodesSound s) (ht : t.nodes = s.nodes) : NodesSound t := fun l i => by
  rw [State.node, ht]
  exact h l i

/-- An operation that writes no node record. -/
theorem keepsNodes_of_nodes {f : State → State} (hf : ∀ s, (f s).nodes = s.nodes) : KeepsNodes f :=
  fun s h => nodesSound_of_nodes h (hf s)

/-- An access that reaches the Host Port and the Interrupt Unit only. -/
theorem keepsNodes_of_sameBlocks {f : State → State} (hf : ∀ s, SameBlocks s (f s)) : KeepsNodes f :=
  keepsNodes_of_nodes fun s => (hf s).nodes

theorem setNode_nodesSound {s : State} (l : Line) (i : Fin 126) {r : NodeRecord} (h : NodesSound s)
    (hr : NodeSound r) : NodesSound (s.setNode l i r) := fun m j => by
  rw [State.setNode_node]
  split
  · exact hr
  · exact h m j

/-- Loading an image and answering touch the Host Port only (R156, R158). -/
theorem loadStaging_giveResult_nodes (r : ResultCode) (image : Vector Byte 32) (s : State) :
    (giveResult r (loadStaging image s)).nodes = s.nodes :=
  ((loadStaging_sameBlocks image s).trans (giveResult_sameBlocks r _)).nodes

/-! #### The gates -/

section
variable {f : State → State} (hf : KeepsNodes f)
include hf

theorem KeepsNodes.working : KeepsNodes (working f) := fun s h => by
  rcases working_cases f s with hw | ⟨-, -, hw⟩ <;> rw [hw]
  · exact h
  · exact hf s h

theorem KeepsNodes.clocked : KeepsNodes (clocked f) := fun s h => by
  rcases clocked_cases f s with hc | ⟨-, hc⟩ <;> rw [hc]
  · exact h
  · exact hf s h

theorem KeepsNodes.readAccess : KeepsNodes (readAccess f) := fun s h => by
  rcases readAccess_cases f s with hr | hr | ⟨-, -, hr⟩ <;> rw [hr]
  · exact h
  · exact h
  · exact hf s h

theorem KeepsNodes.commandAccess : KeepsNodes (commandAccess f) := fun s h => by
  rcases commandAccess_cases f s with hc | hc | ⟨-, hc⟩ <;> rw [hc]
  · exact h
  · exact h
  · exact hf _ h

end

/-! #### The operations that write a node record -/

theorem updateNode_keepsNodes (l : Line) (a : Byte) (o : OutcomeCode) : KeepsNodes (updateNode l a o) := fun s h => by
  unfold updateNode
  split
  · exact h
  · next i _ => exact setNode_nodesSound l i h (NodeRecord.update_sound s.health o (h l i))

theorem offlineQuery_nodesSound (l : Line) (a : Byte) {s : State} (h : NodesSound s) :
    NodesSound (offlineQuery l a s).1 := by
  unfold offlineQuery
  split
  · exact h
  · next i _ =>
    split
    · next hoffline => exact setNode_nodesSound l i h (NodeRecord.setCountdown_sound _ (h l i) hoffline.1)
    · exact h

theorem walkVisit_keepsNodes (visit : Fin 252) : KeepsNodes (walkVisit visit) := fun s h => by
  have hvisited := setNode_nodesSound (walkKey visit).1 (walkKey visit).2 h NodeRecord.reset_sound
  unfold walkVisit
  dsimp only
  split
  · exact hvisited
  · exact hvisited

theorem walkStep_keepsNodes : KeepsNodes walkStep := fun s h => by
  unfold walkStep
  split
  · exact h
  · exact walkVisit_keepsNodes _ s h

theorem takeChange_keepsNodes : KeepsNodes takeChange := fun s h => by
  unfold takeChange
  split
  · exact h
  · next l i _ =>
    have htaken := setNode_nodesSound l i h (NodeRecord.setChanged_sound false (h l i))
    exact nodesSound_of_nodes htaken (loadStaging_giveResult_nodes ..)

theorem State.reset_node (l : Line) (i : Fin 126) : State.reset.node l i = NodeRecord.reset := by
  cases l <;> simp [State.node, State.reset, PerLine.get]

@[simp] theorem resetBlocks_nodes (s : State) : (resetBlocks s).nodes = State.reset.nodes := by
  unfold resetBlocks
  rfl

theorem resetBlocks_nodesSound (s : State) : NodesSound (resetBlocks s) := by
  refine nodesSound_of_nodes (fun l i => ?_) (resetBlocks_nodes s)
  rw [State.reset_node]
  exact NodeRecord.reset_sound

/-! #### The walker and the choice -/

theorem visitEntry_nodesSound (l : Line) (i : Fin 32) {s : State} (h : NodesSound s) :
    NodesSound (visitEntry l i s).1 := by
  unfold visitEntry
  dsimp only
  split
  · split
    · split
      · exact h
      · exact offlineQuery_nodesSound l _ h
    · exact h
  · exact h

theorem scanEntries_nodesSound (l : Line) (is : List (Fin 32)) {s : State} (h : NodesSound s) :
    NodesSound (scanEntries l is s).1 := by
  induction is generalizing s with
  | nil => exact h
  | cons i rest ih =>
    have hvisited := visitEntry_nodesSound l i h
    unfold scanEntries
    split
    · next hv => rwa [hv] at hvisited
    · next hv =>
      rw [hv] at hvisited
      exact ih hvisited

@[simp] theorem enterRoundState_nodes (l : Line) (r : RoundState) (s : State) :
    (enterRoundState l r s).nodes = s.nodes := by
  unfold enterRoundState
  dsimp only
  split <;> rfl

@[simp] theorem endRound_nodes (l : Line) (s : State) : (endRound l s).nodes = s.nodes := enterRoundState_nodes ..

theorem askWalker_nodesSound (l : Line) {s : State} (h : NodesSound s) : NodesSound (askWalker l s).1 := by
  unfold askWalker
  split
  · have hscanned := scanEntries_nodesSound l (entriesFrom (s.controller l).cursor) h
    split
    · next hs => rwa [hs] at hscanned
    · next hs =>
      rw [hs] at hscanned
      exact nodesSound_of_nodes hscanned (endRound_nodes l _)
  · exact h

theorem takeUrgent_keepsNodes (l : Line) : KeepsNodes (takeUrgent l) := fun s h => by
  unfold takeUrgent
  split
  · exact h
  · exact h

theorem makeChoice_keepsNodes (l : Line) : KeepsNodes (makeChoice l) := fun s h => by
  unfold makeChoice
  split
  · split
    · exact takeUrgent_keepsNodes l s h
    · have hasked := askWalker_nodesSound l h
      split
      · next ha => rwa [ha] at hasked
      · next ha =>
        rw [ha] at hasked
        exact takeUrgent_keepsNodes l _ hasked
  · exact h

/-! #### Triggers -/

theorem startRoundAndChoose_keepsNodes (l : Line) : KeepsNodes (startRoundAndChoose l) :=
  fun s h => makeChoice_keepsNodes l (startRound l s) h

theorem trigger_keepsNodes (l : Line) : KeepsNodes (trigger l) := fun s h => by
  unfold trigger
  dsimp only
  split
  · refine startRoundAndChoose_keepsNodes l _ ?_
    split
    · exact h
    · exact h
  · split
    · exact h
    · exact h
  · exact h
  · exact h

theorem expireTimer_keepsNodes (l : Line) : KeepsNodes (expireTimer l) := fun s h => by
  unfold expireTimer
  split
  · exact h
  · exact trigger_keepsNodes l _ h

theorem tickTimer_keepsNodes (l : Line) : KeepsNodes (tickTimer l) := fun s h => by
  unfold tickTimer
  split
  · exact h
  · split
    · exact expireTimer_keepsNodes l s h
    · exact h

theorem deliverTick_keepsNodes : KeepsNodes deliverTick :=
  fun _ h => tickTimer_keepsNodes .b _ (tickTimer_keepsNodes .a _ h)

theorem endGap_keepsNodes (l : Line) : KeepsNodes (endGap l) := fun s h => by
  unfold endGap
  split
  · exact h
  · exact startRoundAndChoose_keepsNodes l s h

theorem syncTrigger_keepsNodes (l : Line) (v : Level) : KeepsNodes (syncTrigger l v) := fun s h => by
  unfold syncTrigger
  dsimp only
  split
  · exact trigger_keepsNodes l s h
  · exact h

theorem syncLevelHeld_keepsNodes (v : Level) : KeepsNodes (syncLevelHeld v) := fun s h => by
  unfold syncLevelHeld
  split
  · exact h
  · split
    · exact h
    · exact syncTrigger_keepsNodes .b v _ (syncTrigger_keepsNodes .a v _ h)

theorem takeFirstLevel_keepsNodes (v : Level) : KeepsNodes (takeFirstLevel v) := fun s h => by
  unfold takeFirstLevel
  split
  · exact h
  · exact h

/-! #### Exchanges end -/

@[simp] theorem reportOf_nodes (l : Line) (w : Work) (s : State) : (reportOf l w s).nodes = s.nodes := by
  cases w with
  | urgent _ => rfl
  | routine _ _ _ =>
    unfold reportOf reportCompletion
    dsimp only
    split
    · exact enterRoundState_nodes ..
    · rfl

@[simp] theorem deliverRecord_nodes (l : Line) (x : Exchange) (o : OutcomeCode) (y : Option Reply) (s : State) :
    (deliverRecord l x o y s).nodes = s.nodes := by
  obtain ⟨-, -, hnodes, -⟩ := deliverRecord_same l x o y s
  exact hnodes

@[simp] theorem abortExchange_nodes (l : Line) (s : State) : (abortExchange l s).nodes = s.nodes := by
  unfold abortExchange
  split
  · rfl
  · exact deliverRecord_nodes ..

@[simp] theorem forceStop_nodes (l : Line) (s : State) : (forceStop l s).nodes = s.nodes := by
  unfold forceStop
  split
  · rfl
  · exact enterRoundState_nodes ..

/-- A disable makes no update: the exchange it aborts reaches the store only (R132, R133). -/
@[simp] theorem disable_nodes (l : Line) (s : State) : (disable l s).nodes = s.nodes :=
  (forceStop_nodes l _).trans (abortExchange_nodes l _)

theorem completeExchange_keepsNodes (l : Line) (x : Exchange) (o : OutcomeCode) (y : Option Reply) :
    KeepsNodes (completeExchange l x o y) := fun s h =>
  have hdelivered := nodesSound_of_nodes h (deliverRecord_nodes l x o y s)
  nodesSound_of_nodes (updateNode_keepsNodes l x.request.address o _ hdelivered) (reportOf_nodes l x.work _)

theorem endAttempt_keepsNodes (l : Line) (o : OutcomeCode) (y : Option Reply) : KeepsNodes (endAttempt l o y) :=
  fun s h => by
  unfold endAttempt
  split
  · exact h
  · split
    · exact h
    · exact completeExchange_keepsNodes l _ o y s h

/-! #### Counts and the receiver -/

theorem quietGapDone_keepsNodes (l : Line) : KeepsNodes (quietGapDone l) := fun s h => by
  unfold quietGapDone
  dsimp only
  split
  · split
    · exact h
    · exact makeChoice_keepsNodes l _ h
  · exact h

theorem leadDone_keepsNodes (l : Line) : KeepsNodes (leadDone l) := fun s h => by
  unfold leadDone
  split
  · exact h
  · exact h

theorem releaseDe_keepsNodes (l : Line) : KeepsNodes (releaseDe l) := fun s h => by
  unfold releaseDe
  split
  · exact h
  · dsimp only
    split
    · exact endAttempt_keepsNodes l _ _ _ h
    · exact h

theorem sendingDone_keepsNodes (l : Line) : KeepsNodes (sendingDone l) := fun s h => by
  unfold sendingDone
  split
  · split
    · exact releaseDe_keepsNodes l s h
    · exact h
  · exact h

theorem lagDone_keepsNodes (l : Line) : KeepsNodes (lagDone l) := fun s h => by
  unfold lagDone
  split
  · exact releaseDe_keepsNodes l s h
  · exact h

theorem replyTimeoutDone_keepsNodes (l : Line) : KeepsNodes (replyTimeoutDone l) := fun s h => by
  unfold replyTimeoutDone
  split
  · exact endAttempt_keepsNodes l _ _ s h
  · exact h

theorem gapLimitDone_keepsNodes (l : Line) : KeepsNodes (gapLimitDone l) := fun s h => by
  unfold gapLimitDone
  split
  · exact endAttempt_keepsNodes l _ _ s h
  · exact h

theorem discardDone_keepsNodes (l : Line) : KeepsNodes (discardDone l) := fun s h => by
  unfold discardDone
  split
  · split
    · exact h
    · exact endAttempt_keepsNodes l _ _ s h
  · exact h

theorem judgeReply_keepsNodes (l : Line) (d : Byte) (error : Bool) : KeepsNodes (judgeReply l d error) := fun s h => by
  unfold judgeReply
  split
  · exact h
  · split
    · exact h
    · exact h
    · exact endAttempt_keepsNodes l _ _ s h

theorem deliverCharacter_keepsNodes (l : Line) (d : Byte) (b : Bool) (v : Level) :
    KeepsNodes (deliverCharacter l d b v) := fun s h => by
  unfold deliverCharacter
  dsimp only
  split
  · cases (s.engine l).state
    case receiving => exact judgeReply_keepsNodes l _ _ _ h
    all_goals exact h
  · exact h

/-! #### A CLKIN period -/

theorem updEngine_keepsNodes (l : Line) (f : Engine → Engine) : KeepsNodes fun s => s.updEngine l f :=
  keepsNodes_of_nodes fun s => s.updEngine_nodes l f

theorem happen_keepsNodes (c : Instr) : KeepsNodes fun s => happen s c := by
  unfold happen
  split
  · exact deliverTick_keepsNodes
  · exact walkStep_keepsNodes
  · exact leadDone_keepsNodes _
  · exact sendingDone_keepsNodes _
  · exact lagDone_keepsNodes _
  · exact replyTimeoutDone_keepsNodes _
  · exact quietGapDone_keepsNodes _
  · exact gapLimitDone_keepsNodes _
  · exact discardDone_keepsNodes _
  · exact endGap_keepsNodes _
  · exact updEngine_keepsNodes _ _
  · exact deliverCharacter_keepsNodes _ _ _ _
  · exact fun _ h => h

theorem foldl_happen_keepsNodes (rows : List Instr) : KeepsNodes fun s => rows.foldl happen s := by
  induction rows with
  | nil => exact fun _ h => h
  | cons c rest ih => exact fun s h => ih _ (happen_keepsNodes c s h)

theorem clkinPeriod_keepsNodes : KeepsNodes clkinPeriod :=
  KeepsNodes.working fun _ h => foldl_happen_keepsNodes _ _ h

/-! #### The commands that may write a node record, and those that write none -/

theorem configureLine_nodes (s : State) : (configureLine s).nodes = s.nodes := by
  unfold configureLine
  (repeat' split) <;> rfl

theorem readLineConfig_nodes (s : State) : (readLineConfig s).nodes = s.nodes := by
  unfold readLineConfig
  split
  · rfl
  · exact loadStaging_giveResult_nodes ..

theorem enableLine_nodes (s : State) : (enableLine s).nodes = s.nodes := by
  unfold enableLine
  (repeat' split) <;> rfl

theorem disableLine_nodes (s : State) : (disableLine s).nodes = s.nodes := by
  unfold disableLine
  split
  · rfl
  · next l _ =>
    show (if _ then s else disable l s).nodes = s.nodes
    split
    · rfl
    · exact disable_nodes l s

theorem writeEntry_nodes (s : State) : (writeEntry s).nodes = s.nodes := by
  unfold writeEntry
  (repeat' split) <;> rfl

theorem readEntry_nodes (s : State) : (readEntry s).nodes = s.nodes := by
  unfold readEntry
  split
  · rfl
  · exact loadStaging_giveResult_nodes ..

theorem setRoundMode_nodes (s : State) : (setRoundMode s).nodes = s.nodes := by
  unfold setRoundMode
  (repeat' split) <;> rfl

theorem beginRounds_keepsNodes (l : Line) : KeepsNodes (beginRounds l) := fun s h => by
  unfold beginRounds
  split
  · exact startRoundAndChoose_keepsNodes l s h
  · exact h
  · exact h

theorem startRounds_keepsNodes : KeepsNodes startRounds := fun s h => by
  unfold startRounds
  split
  · exact h
  · split
    · exact h
    · split
      · exact beginRounds_keepsNodes _ s h
      · exact h

theorem halt_nodes (l : Line) (s : State) : (halt l s).nodes = s.nodes := by
  unfold halt
  split
  · rfl
  · rfl
  · exact enterRoundState_nodes ..
  · split
    · exact enterRoundState_nodes ..
    · exact enterRoundState_nodes ..

theorem haltRounds_nodes (s : State) : (haltRounds s).nodes = s.nodes := by
  unfold haltRounds
  split
  · rfl
  · exact halt_nodes ..

theorem setTiming_nodes (s : State) : (setTiming s).nodes = s.nodes := by
  unfold setTiming
  (repeat' split) <;> rfl

theorem enqueueUrgent_keepsNodes : KeepsNodes enqueueUrgent := fun s h => by
  unfold enqueueUrgent
  split
  · exact h
  · split
    · exact h
    · split
      · exact h
      · split
        · exact h
        · exact makeChoice_keepsNodes _ _ h

theorem flushUrgent_nodes (s : State) : (flushUrgent s).nodes = s.nodes := by
  unfold flushUrgent
  split <;> rfl

theorem setBurst_nodes (s : State) : (setBurst s).nodes = s.nodes := by
  unfold setBurst
  split <;> rfl

theorem releaseReply_nodes (s : State) : (releaseReply s).nodes = s.nodes := by
  unfold releaseReply
  split <;> rfl

theorem setHealth_nodes (s : State) : (setHealth s).nodes = s.nodes := by
  unfold setHealth
  split <;> rfl

theorem readNode_nodes (s : State) : (readNode s).nodes = s.nodes := by
  unfold readNode
  split
  · rfl
  · exact loadStaging_giveResult_nodes ..

theorem resetPart_keepsNodes : KeepsNodes resetPart := fun s _ => resetBlocks_nodesSound s

theorem beginHardwareReset_keepsNodes : KeepsNodes beginHardwareReset := fun s _ => resetBlocks_nodesSound s

theorem endHardwareReset_nodes (s : State) : (endHardwareReset s).nodes = s.nodes := by
  unfold endHardwareReset
  split <;> rfl

/-! #### The window -/

theorem commandOf_keepsNodes (code : Byte) : KeepsNodes (commandOf code) := by
  unfold commandOf
  split
  · exact keepsNodes_of_nodes configureLine_nodes
  · exact keepsNodes_of_nodes readLineConfig_nodes
  · exact keepsNodes_of_nodes enableLine_nodes
  · exact keepsNodes_of_nodes disableLine_nodes
  · exact keepsNodes_of_nodes writeEntry_nodes
  · exact keepsNodes_of_nodes readEntry_nodes
  · exact keepsNodes_of_nodes setRoundMode_nodes
  · exact startRounds_keepsNodes
  · exact keepsNodes_of_nodes haltRounds_nodes
  · exact keepsNodes_of_nodes setTiming_nodes
  · exact enqueueUrgent_keepsNodes
  · exact keepsNodes_of_nodes flushUrgent_nodes
  · exact keepsNodes_of_nodes setBurst_nodes
  · exact keepsNodes_of_nodes releaseReply_nodes
  · exact keepsNodes_of_nodes setHealth_nodes
  · exact keepsNodes_of_nodes readNode_nodes
  · exact takeChange_keepsNodes
  · exact keepsNodes_of_nodes fun _ => rfl
  · exact keepsNodes_of_nodes fun _ => rfl

theorem writeCommand_keepsNodes (code : Byte) : KeepsNodes (writeCommand code) := fun s h => by
  unfold writeCommand
  split
  · exact resetPart_keepsNodes.working s h
  · exact (commandOf_keepsNodes code).commandAccess s h

theorem acknowledgeSources_keepsNodes (half : Half) (v : Byte) : KeepsNodes (acknowledgeSources half v) :=
  keepsNodes_of_sameBlocks (acknowledgeSources_sameBlocks half v)

theorem writeEnables_keepsNodes (half : Half) (v : Byte) : KeepsNodes (writeEnables half v) :=
  keepsNodes_of_sameBlocks (writeEnables_sameBlocks half v)

/-- A write or a read of the Host Port alone. -/
theorem setPort_keepsNodes (p : State → HostPort) : KeepsNodes fun s => s.setPort (p s) :=
  keepsNodes_of_sameBlocks fun s => setPort_sameBlocks s (p s)

theorem windowWrite_keepsNodes (address : Fin 16) (v : Byte) : KeepsNodes (windowWrite address v) := by
  unfold windowWrite
  split
  · exact writeCommand_keepsNodes v
  · exact (setPort_keepsNodes _).working
  · exact (acknowledgeSources_keepsNodes .low v).working
  · exact (acknowledgeSources_keepsNodes .high v).working
  · exact (writeEnables_keepsNodes .low v).working
  · exact (writeEnables_keepsNodes .high v).working
  · exact (setPort_keepsNodes _).working
  · exact (setPort_keepsNodes _).working
  · exact (setPort_keepsNodes _).working
  · exact fun _ h => h

/-! #### The step -/

/-- The meaning of every row is an operation that keeps the node records sound. -/
theorem exec_keepsNodes (c : Instr) : ∃ f, KeepsNodes f ∧ ∀ s, exec c s = .next (f s) := by
  cases c with
  | configureLine => exact ⟨_, (keepsNodes_of_nodes configureLine_nodes).commandAccess, fun _ => rfl⟩
  | readLineConfig => exact ⟨_, (keepsNodes_of_nodes readLineConfig_nodes).commandAccess, fun _ => rfl⟩
  | enableLine => exact ⟨_, (keepsNodes_of_nodes enableLine_nodes).commandAccess, fun _ => rfl⟩
  | disableLine => exact ⟨_, (keepsNodes_of_nodes disableLine_nodes).commandAccess, fun _ => rfl⟩
  | writeEntry => exact ⟨_, (keepsNodes_of_nodes writeEntry_nodes).commandAccess, fun _ => rfl⟩
  | readEntry => exact ⟨_, (keepsNodes_of_nodes readEntry_nodes).commandAccess, fun _ => rfl⟩
  | setRoundMode => exact ⟨_, (keepsNodes_of_nodes setRoundMode_nodes).commandAccess, fun _ => rfl⟩
  | startRounds => exact ⟨_, startRounds_keepsNodes.commandAccess, fun _ => rfl⟩
  | haltRounds => exact ⟨_, (keepsNodes_of_nodes haltRounds_nodes).commandAccess, fun _ => rfl⟩
  | setTiming => exact ⟨_, (keepsNodes_of_nodes setTiming_nodes).commandAccess, fun _ => rfl⟩
  | enqueueUrgent => exact ⟨_, enqueueUrgent_keepsNodes.commandAccess, fun _ => rfl⟩
  | flushUrgent => exact ⟨_, (keepsNodes_of_nodes flushUrgent_nodes).commandAccess, fun _ => rfl⟩
  | setBurst => exact ⟨_, (keepsNodes_of_nodes setBurst_nodes).commandAccess, fun _ => rfl⟩
  | releaseReply => exact ⟨_, (keepsNodes_of_nodes releaseReply_nodes).commandAccess, fun _ => rfl⟩
  | setHealth => exact ⟨_, (keepsNodes_of_nodes setHealth_nodes).commandAccess, fun _ => rfl⟩
  | readNode => exact ⟨_, (keepsNodes_of_nodes readNode_nodes).commandAccess, fun _ => rfl⟩
  | takeChange => exact ⟨_, takeChange_keepsNodes.commandAccess, fun _ => rfl⟩
  | clearNodeMap => exact ⟨_, (keepsNodes_of_nodes (f := clearNodeMap) fun _ => rfl).commandAccess, fun _ => rfl⟩
  | resetPart => exact ⟨_, resetPart_keepsNodes.working, fun _ => rfl⟩
  | unknownCommand code => exact ⟨_, writeCommand_keepsNodes code, fun _ => rfl⟩
  | refusedBusy code => exact ⟨_, writeCommand_keepsNodes code, fun _ => rfl⟩
  | windowWrite address v => exact ⟨_, windowWrite_keepsNodes address v, fun _ => rfl⟩
  | stagePointerWrite v => exact ⟨_, KeepsNodes.working (f := writeStagePointer v) (setPort_keepsNodes _), fun _ => rfl⟩
  | stageDataWrite v => exact ⟨_, KeepsNodes.working (f := writeStageData v) (setPort_keepsNodes _), fun _ => rfl⟩
  | stageDataRead => exact ⟨_, KeepsNodes.readAccess (f := readStageData) fun _ h => h, fun _ => rfl⟩
  | replyPointerWrite v => exact ⟨_, KeepsNodes.working (f := writeReplyPointer v) (setPort_keepsNodes _), fun _ => rfl⟩
  | replyDataRead => exact ⟨_, KeepsNodes.readAccess (f := readReplyData) fun _ h => h, fun _ => rfl⟩
  | resetCauseRead => exact ⟨_, KeepsNodes.readAccess (f := readResetCause) fun _ h => h, fun _ => rfl⟩
  | acknowledge half v => exact ⟨_, (acknowledgeSources_keepsNodes half v).working, fun _ => rfl⟩
  | interruptEnableWrite half v => exact ⟨_, (writeEnables_keepsNodes half v).working, fun _ => rfl⟩
  | hardwareReset => exact ⟨_, beginHardwareReset_keepsNodes.clocked, fun _ => rfl⟩
  | hardwareResetEnd => exact ⟨_, (keepsNodes_of_nodes endHardwareReset_nodes).clocked, fun _ => rfl⟩
  | syncEdge level => exact ⟨_, (syncLevelHeld_keepsNodes level).working, fun _ => rfl⟩
  | characterDelivered l d b v => exact ⟨_, (deliverCharacter_keepsNodes l d b v).working, fun _ => rfl⟩
  | tick => exact ⟨_, deliverTick_keepsNodes.working, fun _ => rfl⟩
  | roundTimerExpiry l => exact ⟨_, (expireTimer_keepsNodes l).working, fun _ => rfl⟩
  | continuousGapEnd l => exact ⟨_, (endGap_keepsNodes l).working, fun _ => rfl⟩
  | quietGapEnd l => exact ⟨_, (quietGapDone_keepsNodes l).working, fun _ => rfl⟩
  | leadEnd l => exact ⟨_, (leadDone_keepsNodes l).working, fun _ => rfl⟩
  | sendingEnd l => exact ⟨_, (sendingDone_keepsNodes l).working, fun _ => rfl⟩
  | lagEnd l => exact ⟨_, (lagDone_keepsNodes l).working, fun _ => rfl⟩
  | replyTimeout l => exact ⟨_, (replyTimeoutDone_keepsNodes l).working, fun _ => rfl⟩
  | truncated l => exact ⟨_, (gapLimitDone_keepsNodes l).working, fun _ => rfl⟩
  | discardEnd l => exact ⟨_, (discardDone_keepsNodes l).working, fun _ => rfl⟩
  | clearWalkVisit => exact ⟨_, walkStep_keepsNodes.working, fun _ => rfl⟩
  | rxdFall l => exact ⟨_, (updEngine_keepsNodes l Engine.fall).clocked, fun _ => rfl⟩
  | midStartSample l level => exact ⟨_, (updEngine_keepsNodes l (Engine.midStart level)).clocked, fun _ => rfl⟩
  | rxdReturnToMark l => exact ⟨_, (updEngine_keepsNodes l Engine.returnToMark).clocked, fun _ => rfl⟩
  | clkinStop => exact ⟨fun s => s.setClkinRunning false, fun _ h => h, fun _ => rfl⟩
  | clkinRestart => exact ⟨fun s => s.setClkinRunning true, fun _ h => h, fun _ => rfl⟩
  | syncFirstStableLevel level => exact ⟨_, (takeFirstLevel_keepsNodes level).working, fun _ => rfl⟩

theorem exec_nodesSound {c : Instr} {s t : State} (h : NodesSound s) (ht : exec c s = .next t) : NodesSound t := by
  obtain ⟨f, hf, hexec⟩ := exec_keepsNodes c
  rw [hexec] at ht
  cases ht
  exact hf s h

/-! ### The statements -/

/-- Settles O42: the outcomes parted by the kind of update they make, and a failure by its count. -/
theorem nodeUpdatesFollowTheOutcome : Obligations.NodeUpdatesFollowTheOutcome := by
  intro h r
  refine ⟨fun o ho => ?none, fun o ho => ?success, fun o ho => ?failure⟩
  case none =>
    have hkind : o.health = none := by revert o; decide
    exact NodeRecord.update_of_health_none hkind
  case success =>
    have hkind : o.health = some true := by revert o; decide
    rw [NodeRecord.update_of_success hkind, NodeRecord.succeed, NodeRecord.joins_eq]
  case failure =>
    have hkind : o.health = some false := by revert o; decide
    rw [NodeRecord.update_of_failure hkind]
    exact ⟨NodeRecord.fail_of_offline, NodeRecord.fail_of_suspect, NodeRecord.fail_of_below⟩

/-- Settles O44: the record by its key in PARAM, or the first of the change set, and its image byte by byte. -/
theorem nodeRecordsAreReadAndTaken : Obligations.NodeRecordsAreReadAndTaken :=
  ⟨refusedWhileBusy_of_access readNode exec_readNode, refusedWhileBusy_of_access takeChange exec_takeChange,
    fun s h hsound =>
      ⟨exec_readNode_of_param_out_of_range h,
        fun l k hp => ⟨_, exec_readNode_of_key h hp, rfl, nodeImage_shows l k (s.node l k).changed (hsound l k)⟩,
        fun hnone => exec_takeChange_of_none h (firstChange_of_none hnone),
        fun l k hk hbefore ha =>
          ⟨_, exec_takeChange_of_some h (firstChange_of_first hk hbefore ha), rfl,
            nodeImage_shows l k false (hsound l k)⟩⟩⟩

/-- Settles O57: a row of the queue, or a CLKIN period with the rows that are due in it. -/
theorem nodeRecordsStaySound : Obligations.NodeRecordsStaySound := by
  intro s t h hstep
  unfold step at hstep
  split at hstep
  · cases hstep
    exact clkinPeriod_keepsNodes s h
  · next rest _ => exact exec_nodesSound (s := s.setPending rest) h hstep

end Sys2Proof.Machine
end

