-- ==== Sys2Proof/Proofs/LineConfiguration.lean ====
section
/-!
SUPPORT and CERTIFICATES. The commands on a line's configuration record: CONFIGURE LINE and READ LINE CONFIG, and that
the image the second loads is one the first takes back (R113 to R115).
-/

namespace Sys2Proof.Machine

open Sys2Proof.Safety

/-! ### What the staging buffer holds -/

/-- The requirements on the staging image of CONFIGURE LINE (R114). -/
abbrev LineImageInRange (v : Vector Byte 32) : Prop :=
  (1 ≤ twoBytes v 0 1 ∧ twoBytes v 0 1 ≤ 4095) ∧ v[2].toNat ≤ 2 ∧ (v[3].toNat = 1 ∨ v[3].toNat = 2) ∧
    v[4].toNat ≤ 15 ∧ v[5].toNat ≤ 15 ∧ 4 ≤ v[6].toNat ∧ (2 ≤ v[7].toNat ∧ v[7].toNat ≤ 31)

theorem lineConfigOfStaging_inRange {v : Vector Byte 32} (h : LineImageInRange v) :
    lineConfigOfStaging v = some (lineConfigOfImage v) := (lineConfigOfStaging_eq v).trans (if_pos h)

theorem lineConfigOfStaging_out_of_range {v : Vector Byte 32} (h : ¬LineImageInRange v) :
    lineConfigOfStaging v = none := (lineConfigOfStaging_eq v).trans (if_neg h)

/-! ### CONFIGURE LINE -/

theorem exec_configureLine (s : State) : exec .configureLine s = .next (commandAccess configureLine s) := rfl

section
variable {s : State} {l : Line}

/-- PARAM is looked at before the fields (R114). -/
theorem exec_configureLine_of_param_out_of_range (h : TakesCommands s) (hp : 2 ≤ s.port.param.toNat) :
    exec .configureLine s = .next (answered .range s) := by
  rw [exec_of_access exec_configureLine h, configureLine, lineOfParam_out_of_range hp]
  rfl

/-- The fields are looked at before the line state (R114). -/
theorem exec_configureLine_of_image_out_of_range (h : TakesCommands s) (hp : s.port.param.toNat = lineIndex l)
    (hv : ¬LineImageInRange s.port.staging) : exec .configureLine s = .next (answered .range s) := by
  rw [exec_of_access exec_configureLine h, configureLine, lineOfParam_of_index hp]
  dsimp only
  rw [lineConfigOfStaging_out_of_range hv]
  rfl

theorem exec_configureLine_of_not_disabled (h : TakesCommands s) (hp : s.port.param.toNat = lineIndex l)
    (hv : LineImageInRange s.port.staging) (he : (s.engine l).state ≠ .disabled) :
    exec .configureLine s = .next (answered .state s) := by
  rw [exec_of_access exec_configureLine h, configureLine, lineOfParam_of_index hp]
  dsimp only
  rw [lineConfigOfStaging_inRange hv]
  dsimp only
  rw [if_neg (by exact he)]
  rfl

/-- A DISABLED line takes the seven fields (R114). -/
theorem exec_configureLine_of_disabled (h : TakesCommands s) (hp : s.port.param.toNat = lineIndex l)
    (hv : LineImageInRange s.port.staging) (he : (s.engine l).state = .disabled) :
    exec .configureLine s =
      .next
        (answered .done (withEngine s l { s.engine l with config := lineConfigOfImage s.port.staging })) := by
  rw [exec_of_access exec_configureLine h, configureLine, lineOfParam_of_index hp]
  dsimp only
  rw [lineConfigOfStaging_inRange hv]
  dsimp only
  rw [if_pos (by exact he)]
  rfl

end

/-! ### READ LINE CONFIG -/

theorem exec_readLineConfig (s : State) : exec .readLineConfig s = .next (commandAccess readLineConfig s) := rfl

section
variable {s : State} {l : Line}

theorem exec_readLineConfig_of_param_out_of_range (h : TakesCommands s) (hp : 2 ≤ s.port.param.toNat) :
    exec .readLineConfig s = .next (answered .range s) := by
  rw [exec_of_access exec_readLineConfig h, readLineConfig, lineOfParam_out_of_range hp]
  rfl

/-- The record is read in every line state (R115). -/
theorem exec_readLineConfig_of_index (h : TakesCommands s) (hp : s.port.param.toNat = lineIndex l) :
    exec .readLineConfig s = .next (answered .done (loaded (lineConfigImage (s.engine l).config) s)) := by
  rw [exec_of_access exec_readLineConfig h, readLineConfig, lineOfParam_of_index hp]
  rfl

end

/-! ### The bytes of a configuration's image -/

section
variable (c : LineConfig)

@[simp] theorem lineConfigImage_divisorLow : (lineConfigImage c)[0] = lowByte c.divisor := imageOf_getElem ..

@[simp] theorem lineConfigImage_divisorHigh : (lineConfigImage c)[1] = highByte c.divisor := imageOf_getElem ..

@[simp] theorem lineConfigImage_parity : (lineConfigImage c)[2] = c.parity.code := imageOf_getElem ..

@[simp] theorem lineConfigImage_stopBits : (lineConfigImage c)[3] = BitVec.ofNat 8 c.stopBits := imageOf_getElem ..

@[simp] theorem lineConfigImage_lead : (lineConfigImage c)[4] = BitVec.ofNat 8 c.lead := imageOf_getElem ..

@[simp] theorem lineConfigImage_lag : (lineConfigImage c)[5] = BitVec.ofNat 8 c.lag := imageOf_getElem ..

@[simp] theorem lineConfigImage_quietGap : (lineConfigImage c)[6] = BitVec.ofNat 8 c.quietGap := imageOf_getElem ..

@[simp] theorem lineConfigImage_gapLimit : (lineConfigImage c)[7] = BitVec.ofNat 8 c.gapLimit := imageOf_getElem ..

/-- Bytes 8 to 31 are 0x00 (R115). -/
theorem lineConfigImage_spare {k : Nat} (hk : k < 32) (h8 : 8 ≤ k) : (lineConfigImage c)[k] = 0 :=
  (imageOf_getElem ..).trans (List.getD_eq_default _ _ h8)

end

/-! ### The fields an image gives back -/

theorem Parity.code_toNat (p : Parity) :
    p.code.toNat =
      match p with
      | .none => 0
      | .even => 1
      | .odd => 2 := by
  cases p <;> rfl

theorem Parity.code_le_two (p : Parity) : p.code.toNat ≤ 2 := by
  cases p <;> decide

/-- The parity byte gives its setting back (R113). -/
theorem Parity.of_code (p : Parity) : (if p.code = 0 then .none else if p.code = 1 then .even else .odd) = p := by
  cases p <;> rfl

section
variable {c : LineConfig}

theorem lineConfigImage_divisor (h : ConfigInRange c) : twoBytes (lineConfigImage c) 0 1 = c.divisor := by
  obtain ⟨-, hmax⟩ := h.divisor
  change word16 (lineConfigImage c)[0] (lineConfigImage c)[1] = _
  rw [lineConfigImage_divisorLow, lineConfigImage_divisorHigh, word16_low_high (by omega)]

theorem lineConfigImage_stopBits_toNat (h : ConfigInRange c) : (lineConfigImage c)[3].toNat = c.stopBits := by
  have := h.stopBits
  rw [lineConfigImage_stopBits, toNat_ofNat_byte (by omega)]

theorem lineConfigImage_lead_toNat (h : ConfigInRange c) : (lineConfigImage c)[4].toNat = c.lead := by
  have := h.lead
  rw [lineConfigImage_lead, toNat_ofNat_byte (by omega)]

theorem lineConfigImage_lag_toNat (h : ConfigInRange c) : (lineConfigImage c)[5].toNat = c.lag := by
  have := h.lag
  rw [lineConfigImage_lag, toNat_ofNat_byte (by omega)]

theorem lineConfigImage_quietGap_toNat (h : ConfigInRange c) : (lineConfigImage c)[6].toNat = c.quietGap := by
  have := h.quietGap
  rw [lineConfigImage_quietGap, toNat_ofNat_byte (by omega)]

theorem lineConfigImage_gapLimit_toNat (h : ConfigInRange c) : (lineConfigImage c)[7].toNat = c.gapLimit := by
  have := h.gapLimit
  rw [lineConfigImage_gapLimit, toNat_ofNat_byte (by omega)]

/-- The image of a configuration in range passes every test of R114. -/
theorem lineImageInRange_lineConfigImage (h : ConfigInRange c) : LineImageInRange (lineConfigImage c) := by
  rw [LineImageInRange, lineConfigImage_divisor h, lineConfigImage_parity, lineConfigImage_stopBits_toNat h,
    lineConfigImage_lead_toNat h, lineConfigImage_lag_toNat h, lineConfigImage_quietGap_toNat h,
    lineConfigImage_gapLimit_toNat h]
  exact ⟨h.divisor, c.parity.code_le_two, h.stopBits, h.lead, h.lag, h.quietGap.1, h.gapLimit⟩

/-- The image of a configuration in range gives the configuration back (R113). -/
theorem lineConfigOfImage_lineConfigImage (h : ConfigInRange c) : lineConfigOfImage (lineConfigImage c) = c := by
  rw [lineConfigOfImage, lineConfigImage_divisor h, lineConfigImage_parity, Parity.of_code,
    lineConfigImage_stopBits_toNat h, lineConfigImage_lead_toNat h, lineConfigImage_lag_toNat h,
    lineConfigImage_quietGap_toNat h, lineConfigImage_gapLimit_toNat h]

end

/-- CONFIGURE LINE of a line's own image leaves a state that shows DONE as it is (R114, R115). -/
theorem exec_configureLine_of_own_image {s : State} {l : Line} (h : TakesCommands s)
    (hp : s.port.param.toNat = lineIndex l) (hc : ConfigInRange (s.engine l).config)
    (hv : s.port.staging = lineConfigImage (s.engine l).config) (he : (s.engine l).state = .disabled) :
    exec .configureLine s = .next (answered .done s) := by
  have hself : withEngine s l (s.engine l) = s := State.setEngine_self s l
  rw [exec_configureLine_of_disabled h hp (hv ▸ lineImageInRange_lineConfigImage hc) he, hv,
    lineConfigOfImage_lineConfigImage hc, hself]

/-- A loaded image and a result are the Host Port's alone (R156, R158). -/
theorem answered_loaded_engine (r : ResultCode) (image : Vector Byte 32) (s : State) (l : Line) :
    (answered r (loaded image s)).engine l = s.engine l := rfl

/-- CONFIGURE LINE right after READ LINE CONFIG changes nothing (R114, R115). -/
theorem exec_configureLine_of_readLineConfig {s : State} {l : Line} (h : TakesCommands s)
    (hp : s.port.param.toNat = lineIndex l) (hc : ConfigInRange (s.engine l).config)
    (he : (s.engine l).state = .disabled) :
    let t := answered .done (loaded (lineConfigImage (s.engine l).config) s)
    exec .configureLine t = .next t := by
  intro t
  have htakes : TakesCommands t := h
  have hparam : t.port.param.toNat = lineIndex l := hp
  have hengine : t.engine l = s.engine l := answered_loaded_engine ..
  have hstaging : t.port.staging = lineConfigImage (t.engine l).config := by rw [hengine]
  rw [exec_configureLine_of_own_image htakes hparam (by rwa [hengine]) hstaging (by rwa [hengine])]

/-! ### The statements -/

/-- Settles O19: the decision by PARAM, then by the fields, then by the line state. -/
theorem configureLineDecides : Obligations.ConfigureLineDecides :=
  ⟨refusedWhileBusy_of_access configureLine exec_configureLine, fun _ h =>
    ⟨exec_configureLine_of_param_out_of_range h, fun _ hp =>
      ⟨exec_configureLine_of_image_out_of_range h hp, exec_configureLine_of_not_disabled h hp,
        exec_configureLine_of_disabled h hp⟩⟩⟩

/-- Settles O20: the image byte by byte, and the configuration the image gives back. -/
theorem readLineConfigLoadsTheImage : Obligations.ReadLineConfigLoadsTheImage := by
  refine ⟨refusedWhileBusy_of_access readLineConfig exec_readLineConfig, fun s h =>
    ⟨exec_readLineConfig_of_param_out_of_range h, fun l hp hc => ?_⟩⟩
  intro c
  exact ⟨_, exec_readLineConfig_of_index h hp, rfl, lineConfigImage_divisor hc,
    (congrArg BitVec.toNat (lineConfigImage_parity c)).trans c.parity.code_toNat, lineConfigImage_stopBits_toNat hc,
    lineConfigImage_lead_toNat hc, lineConfigImage_lag_toNat hc, lineConfigImage_quietGap_toNat hc,
    lineConfigImage_gapLimit_toNat hc, fun k => lineConfigImage_spare c k.isLt,
    exec_configureLine_of_readLineConfig h hp hc⟩

end Sys2Proof.Machine
end

