-- ==== Sys2Proof/Proofs/RequestFrame.lean ====
section
/-!
SUPPORT and CERTIFICATES. The CRC-8 as a run over characters, and the request frame written out with its check (R104,
R107).
-/

namespace Sys2Proof.Machine

/-! ### The CRC -/

/-- With no one-bit to shift out, a step of the register leaves 0 at 0 (R107). -/
theorem crcStep_zero : crcStep 0#8 = 0#8 := by decide

theorem crc8_append_singleton (bytes : List Byte) (b : Byte) : crc8 (bytes ++ [b]) = crcByte (crc8 bytes) b :=
  List.foldl_concat ..

/-- A register that takes its own value is 0 before its eight steps, and stays 0 (R107). -/
theorem crcByte_self (r : Byte) : crcByte r r = 0 := by
  simp only [crcByte, BitVec.xor_self, crcStep_zero, BitVec.ofNat_eq_ofNat]

/-- A run over covered bytes and their check leaves 0 (R107). -/
theorem crc8_append_check (bytes : List Byte) : crc8 (bytes ++ [crc8 bytes]) = 0 := by
  rw [crc8_append_singleton, crcByte_self]

/-! ### The frame -/

/-- The frame of R104, character by character. -/
theorem requestFrame_eq (q : Request) :
    requestFrame q =
      [0x3C, q.address, q.command, BitVec.ofNat 8 q.payload.length] ++ q.payload ++ [crc8 (requestBody q)] := rfl

/-- LEAD, ADDR, CMD, LEN and CRC stand around the payload (R104). -/
theorem requestFrame_length (q : Request) : (requestFrame q).length = 5 + q.payload.length := by
  rw [requestFrame_eq, List.length_append, List.length_append]
  simp only [List.length_cons, List.length_nil]
  omega

/-- The spec's example: the CRC of command 0x21 to node 0x12, with no payload (R107). -/
theorem crc8_of_shortRequest : crc8 [0x12, 0x21, 0x00] = 0xE4 := by decide +kernel

/-! ### The statement -/

/-- Settles O52: the frame by its characters, the residue by the CRC of its own value, and the example computed. -/
theorem requestFrameAndItsCheck : Obligations.RequestFrameAndItsCheck := by
  refine ⟨fun q => ⟨_, requestFrame_eq q, rfl, requestFrame_length q⟩, crc8_append_check, ?short⟩
  case short =>
    rw [requestFrame_eq]
    exact congrArg (fun check => [0x3C, 0x12, 0x21, 0x00, check]) crc8_of_shortRequest

end Sys2Proof.Machine
end

