-- ==== Sys2Proof/Proofs/LineEnabling.lean ====
section
/-!
SUPPORT and CERTIFICATES. The command that brings a line into use: ENABLE LINE (R131).
-/

namespace Sys2Proof.Machine

open Sys2Proof.Safety

/-- An engine that comes into use, field by field (R131): the quiet count, the idle count and the consecutive-urgent
count start at 0. -/
theorem Engine.enable_eq (e : Engine) :
    e.enable =
      { e with
        state := .quiet
        receiver := .waiting
        urgentCount := 0
        quietCount := { bits := 0, periods := 0 }
        idleCount := { bits := 0, periods := 0 }
        timeCount := none } := rfl

/-! ### ENABLE LINE -/

theorem exec_enableLine (s : State) : exec .enableLine s = .next (commandAccess enableLine s) := rfl

section
variable {s : State} {l : Line}

/-- PARAM is looked at before the line state (R131). -/
theorem exec_enableLine_of_param_out_of_range (h : TakesCommands s) (hp : 2 ≤ s.port.param.toNat) :
    exec .enableLine s = .next (answered .range s) := by
  rw [exec_of_access exec_enableLine h, enableLine, lineOfParam_out_of_range hp]
  rfl

/-- A line in use is left as it was (R131). -/
theorem exec_enableLine_of_not_disabled (h : TakesCommands s) (hp : s.port.param.toNat = lineIndex l)
    (he : (s.engine l).state ≠ .disabled) : exec .enableLine s = .next (answered .state s) := by
  rw [exec_of_access exec_enableLine h, enableLine, lineOfParam_of_index hp]
  dsimp only
  rw [if_neg (by exact he)]
  rfl

/-- A DISABLED line comes into use, and nothing else of the part changes (R131). -/
theorem exec_enableLine_of_disabled (h : TakesCommands s) (hp : s.port.param.toNat = lineIndex l)
    (he : (s.engine l).state = .disabled) :
    exec .enableLine s = .next (answered .done (withEngine s l (s.engine l).enable)) := by
  rw [exec_of_access exec_enableLine h, enableLine, lineOfParam_of_index hp]
  dsimp only
  rw [if_pos (by exact he)]
  rfl

end

/-! ### The statement -/

/-- Settles O21: the decision by PARAM, then by the line state, and the engine that comes into use field by field. -/
theorem enableLineDecides : Obligations.EnableLineDecides := by
  refine ⟨refusedWhileBusy_of_access enableLine exec_enableLine, fun s h =>
    ⟨exec_enableLine_of_param_out_of_range h, fun l hp => ⟨exec_enableLine_of_not_disabled h hp, fun he => ?_⟩⟩⟩
  rw [exec_enableLine_of_disabled h hp he, Engine.enable_eq]

end Sys2Proof.Machine
end

