-- ==== Sys2Proof/Proofs/BurstAndHealth.lean ====
section
/-!
SUPPORT and CERTIFICATES. The commands that set the burst limit and the health thresholds: SET BURST and SET HEALTH
(R80, R124).
-/

namespace Sys2Proof.Machine

open Sys2Proof.Safety

/-! ### SET BURST -/

theorem exec_setBurst (s : State) : exec .setBurst s = .next (commandAccess setBurst s) := rfl

section
variable {s : State}

/-- A PARAM of 0 and one above 4 are refused alike (R124). -/
theorem exec_setBurst_of_param_out_of_range (h : TakesCommands s)
    (hp : s.port.param.toNat = 0 ∨ 5 ≤ s.port.param.toNat) : exec .setBurst s = .next (answered .range s) := by
  have hnot : ¬(1 ≤ s.port.param.toNat ∧ s.port.param.toNat ≤ 4) := by omega
  rw [exec_of_access exec_setBurst h, setBurst, if_neg (by exact hnot)]
  rfl

/-- A PARAM of 1 to 4 is the new limit (R124). -/
theorem exec_setBurst_of_param_inRange (h : TakesCommands s) (hmin : 1 ≤ s.port.param.toNat)
    (hmax : s.port.param.toNat ≤ 4) :
    exec .setBurst s = .next (answered .done { s with burstLimit := s.port.param.toNat }) := by
  rw [exec_of_access exec_setBurst h, setBurst, if_pos ⟨by exact hmin, by exact hmax⟩]
  rfl

end

/-! ### What the staging buffer holds for SET HEALTH -/

/-- The requirements on the staging image of SET HEALTH (R80). -/
abbrev HealthImageInRange (v : Vector Byte 32) : Prop :=
  1 ≤ v[0].toNat ∧ v[0].toNat < v[1].toNat ∧ v[1].toNat ≤ 15 ∧ 1 ≤ v[2].toNat

/-- The thresholds a staging image holds (R80). -/
abbrev thresholdsOfImage (v : Vector Byte 32) : Thresholds :=
  { suspect := v[0].toNat, offline := v[1].toNat, revival := v[2].toNat }

theorem thresholdsOfStaging_inRange {v : Vector Byte 32} (h : HealthImageInRange v) :
    thresholdsOfStaging v = some (thresholdsOfImage v) := if_pos h

theorem thresholdsOfStaging_out_of_range {v : Vector Byte 32} (h : ¬HealthImageInRange v) :
    thresholdsOfStaging v = none := if_neg h

/-! ### SET HEALTH -/

theorem exec_setHealth (s : State) : exec .setHealth s = .next (commandAccess setHealth s) := rfl

section
variable {s : State}

/-- One threshold out of range is enough to refuse the three (R80). -/
theorem exec_setHealth_of_image_out_of_range (h : TakesCommands s) (hv : ¬HealthImageInRange s.port.staging) :
    exec .setHealth s = .next (answered .range s) := by
  rw [exec_of_access exec_setHealth h, setHealth, thresholdsOfStaging_out_of_range hv]
  rfl

/-- The three thresholds are taken together (R80). -/
theorem exec_setHealth_of_inRange (h : TakesCommands s) (hv : HealthImageInRange s.port.staging) :
    exec .setHealth s = .next (answered .done { s with health := thresholdsOfImage s.port.staging }) := by
  rw [exec_of_access exec_setHealth h, setHealth, thresholdsOfStaging_inRange hv]
  rfl

end

/-! ### The statement -/

/-- Settles O43: SET BURST decides by PARAM, SET HEALTH by the image. -/
theorem burstAndHealthDecide : Obligations.BurstAndHealthDecide :=
  ⟨refusedWhileBusy_of_access setBurst exec_setBurst, refusedWhileBusy_of_access setHealth exec_setHealth, fun _ h =>
    ⟨exec_setBurst_of_param_out_of_range h, exec_setBurst_of_param_inRange h, exec_setHealth_of_image_out_of_range h,
      exec_setHealth_of_inRange h⟩⟩

end Sys2Proof.Machine
end

