-- ==== Sys2Proof/Proofs/UnknownCodes.lean ====
section
/-!
SUPPORT and CERTIFICATES. The write to COMMAND of a code outside the code table, taken in IDLE (R160, R162).
-/

namespace Sys2Proof.Machine

open Sys2Proof.Safety

/-- A byte with the value of a code of the table is that code (R162). -/
theorem mem_commandCodes_of_toNat {code : Byte} {n : Nat} (h : code.toNat = n)
    (hn : BitVec.ofNat 8 n ∈ commandCodes) : code ∈ commandCodes := by
  rwa [byte_eq_of_toNat h]

/-- RESET PART, which is taken before the state of the decoder is looked at, has its code in the table (R162, R167). -/
theorem ne_resetPart_of_not_mem_commandCodes {code : Byte} (h : code ∉ commandCodes) : code ≠ 0xA5 := by
  rintro rfl
  exact h (by decide)

/-- The decoder knows no code outside the table: each value it looks for is a code of the table (R162). -/
theorem commandOf_of_not_mem_commandCodes {code : Byte} (h : code ∉ commandCodes) : commandOf code = unknownCode := by
  funext s
  unfold commandOf
  split
  case h_19 => rfl
  all_goals
    rename_i hcode
    exact absurd (mem_commandCodes_of_toNat hcode (by decide)) h

theorem exec_unknownCommand (code : Byte) (s : State) :
    exec (.unknownCommand code) s = .next (writeCommand code s) := rfl

/-- The write of a code outside the table is an access to COMMAND like that of a command, and its command is the
refusal (R160). -/
theorem exec_unknownCommand_of_not_mem_commandCodes {code : Byte} (h : code ∉ commandCodes) (s : State) :
    exec (.unknownCommand code) s = .next (commandAccess unknownCode s) := by
  rw [exec_unknownCommand, writeCommand, if_neg (ne_resetPart_of_not_mem_commandCodes h),
    commandOf_of_not_mem_commandCodes h]

/-! ### The statement -/

/-- Settles O7: outside the table every code is the refusal's, which answers UNKNOWN and does nothing else. -/
theorem unknownCodesAreRefused : Obligations.UnknownCodesAreRefused := by
  refine ⟨by decide, fun s code hs hcode => ?_⟩
  rw [exec_of_access (exec_unknownCommand_of_not_mem_commandCodes hcode) hs]
  rfl

end Sys2Proof.Machine
end

