-- ==== Sys2Proof/Proofs/Operations.lean ====
section
/-!
SUPPORT. What a row of the table can do, said once: one operation on the schedule, the rounds, the lines, the queues and
the node map, beside what it does to the Host Port. The invariants of the step and the frames of single fields are read
off this list.
-/

namespace Sys2Proof.Machine

open Sys2Proof.Safety

/-! ### What stands beside an operation -/

/-- The schedule, the rounds, the lines, the queues and the node map are the same, and so are PARAM and the queue of
commands. -/
structure SameWork (s t : State) : Prop where
  table : t.table = s.table
  rounds : t.rounds = s.rounds
  timeBase : t.timeBase = s.timeBase
  urgent : t.urgent = s.urgent
  engines : t.engines = s.engines
  burstLimit : t.burstLimit = s.burstLimit
  store : t.store = s.store
  missed : t.missed = s.missed
  nodes : t.nodes = s.nodes
  health : t.health = s.health
  param : t.port.param = s.port.param
  pending : t.pending = s.pending

theorem SameWork.refl (s : State) : SameWork s s := by constructor <;> rfl

theorem SameWork.trans {s t u : State} (h : SameWork s t) (g : SameWork t u) : SameWork s u where
  table := g.table.trans h.table
  rounds := g.rounds.trans h.rounds
  timeBase := g.timeBase.trans h.timeBase
  urgent := g.urgent.trans h.urgent
  engines := g.engines.trans h.engines
  burstLimit := g.burstLimit.trans h.burstLimit
  store := g.store.trans h.store
  missed := g.missed.trans h.missed
  nodes := g.nodes.trans h.nodes
  health := g.health.trans h.health
  param := g.param.trans h.param
  pending := g.pending.trans h.pending

theorem SameWork.engine {s t : State} (h : SameWork s t) (l : Line) : t.engine l = s.engine l := by
  rw [State.engine, h.engines]
  rfl

theorem SameWork.controller {s t : State} (h : SameWork s t) (l : Line) : t.controller l = s.controller l := by
  rw [State.controller, h.rounds]
  rfl

theorem SameWork.node {s t : State} (h : SameWork s t) (l : Line) (i : Fin 126) : t.node l i = s.node l i := by
  simp only [State.node, h.nodes]

theorem SameBlocks.sameWork {s t : State} (h : SameBlocks s t) (hp : t.port.param = s.port.param) : SameWork s t :=
  ⟨h.table, h.rounds, h.timeBase, h.urgent, h.engines, h.burstLimit, h.store, h.missed, h.nodes, h.health, hp,
    h.pending⟩

theorem setPort_sameWork (s : State) {p : HostPort} (hp : p.param = s.port.param) : SameWork s (s.setPort p) :=
  (setPort_sameBlocks s p).sameWork hp

theorem giveResult_sameWork (r : ResultCode) (s : State) : SameWork s (giveResult r s) := setPort_sameWork s rfl

theorem setRefusedBusy_sameWork (b : Bool) (s : State) : SameWork s (setRefusedBusy b s) := setPort_sameWork s rfl

theorem driveData_sameWork (v : Byte) (s : State) : SameWork s (driveData v s) := setPort_sameWork s rfl

theorem writeStagePointer_sameWork (v : Byte) (s : State) : SameWork s (writeStagePointer v s) := by
  constructor <;> rfl

theorem writeStageData_sameWork (v : Byte) (s : State) : SameWork s (writeStageData v s) := by constructor <;> rfl

theorem writeReplyPointer_sameWork (v : Byte) (s : State) : SameWork s (writeReplyPointer v s) := by
  constructor <;> rfl

theorem acknowledgeSources_sameWork (half : Half) (v : Byte) (s : State) :
    SameWork s (acknowledgeSources half v s) :=
  (acknowledgeSources_sameBlocks half v s).sameWork (by cases half <;> rfl)

theorem writeEnables_sameWork (half : Half) (v : Byte) (s : State) : SameWork s (writeEnables half v s) :=
  (writeEnables_sameBlocks half v s).sameWork (by cases half <;> rfl)

/-! ### The operations -/

/-- The operations parted by what they may do that no other does: replace PARAM, remove the head of the store, reset the
blocks. -/
inductive OperationKind where
  | ordinary
  | param
  | release
  | reset
  deriving DecidableEq

/-- Every operation a row may make, with the tests that a command passes before it. -/
inductive Operation : OperationKind → State → State → Prop
  | nothing (s : State) : Operation .ordinary s s
  | configure {s : State} {l : Line} {c : LineConfig} (hc : lineConfigOfStaging s.port.staging = some c)
      (hd : (s.engine l).state = .disabled) : Operation .ordinary s (s.updEngine l fun e => { e with config := c })
  | enable {s : State} {l : Line} (hd : (s.engine l).state = .disabled) :
      Operation .ordinary s (s.updEngine l Engine.enable)
  | disable (l : Line) (s : State) : Operation .ordinary s (disable l s)
  | writeEntry {s : State} {e : Entry} (i : Fin 32) (he : entryOfStaging s.port.staging = some e) :
      Operation .ordinary s (s.setTable (s.table.set i e))
  | setRoundMode {s : State} {l : Line} {r : RoundSettings} (hr : roundSettingsOfStaging s.port.staging = some r)
      (hc : (s.controller l).state = .stopped) :
      Operation .ordinary s (s.updController l fun c => { c with settings := r })
  | beginRounds {s : State} {l : Line} (he : (s.engine l).state ≠ .disabled)
      (hc : (s.controller l).state = .stopped) : Operation .ordinary s (beginRounds l s)
  | halt (l : Line) (s : State) : Operation .ordinary s (halt l s)
  | setTiming {s : State} {n : Nat} (hn : tickDivisorOfStaging s.port.staging = some n) :
      Operation .ordinary s (s.setTimeBase { divisor := n, prescaler := 0 })
  | enqueue {s : State} {x : Slot} (hx : slotOfStaging s.port.staging = some x)
      (he : (s.engine x.line).state ≠ .disabled) (hq : s.urgent.length < 4) (hs : s.storeSum < 16) :
      Operation .ordinary s (makeChoice x.line (s.setUrgent (s.urgent ++ [x])))
  | flush (selected : Line → Bool) (s : State) : Operation .ordinary s (cancelQueued selected s)
  | setBurst {s : State} {n : Nat} (hn : 1 ≤ n ∧ n ≤ 4) : Operation .ordinary s (s.setBurstLimit n)
  | setHealth {s : State} {t : Thresholds} (ht : thresholdsOfStaging s.port.staging = some t) :
      Operation .ordinary s (s.setHealth t)
  | takeChange (l : Line) (i : Fin 126) (s : State) :
      Operation .ordinary s (s.setNode l i { s.node l i with changed := false })
  /-- The rows that a CLKIN period may bring about too. -/
  | happen (c : Instr) (s : State) : Operation .ordinary s (happen s c)
  | expireTimer (l : Line) (s : State) : Operation .ordinary s (expireTimer l s)
  | syncLevelHeld (v : Level) (s : State) : Operation .ordinary s (syncLevelHeld v s)
  | fall (l : Line) (s : State) : Operation .ordinary s (s.updEngine l Engine.fall)
  | returnToMark (l : Line) (s : State) : Operation .ordinary s (s.updEngine l Engine.returnToMark)
  | param (v : Byte) (s : State) : Operation .param s (writeParam v s)
  | release (s : State) : Operation .release s (s.setStore s.store.tail)
  | reset (s : State) : Operation .reset s (resetBlocks s)

/-- One operation, and beside it whatever happens to the Host Port, the Interrupt Unit, the pins and the clock. -/
def Does (k : OperationKind) (s t : State) : Prop := ∃ u v, SameWork s u ∧ Operation k u v ∧ SameWork v t

section
variable {k : OperationKind} {s t u : State}

theorem Operation.does (h : Operation k s t) : Does k s t := ⟨s, t, .refl s, h, .refl t⟩

theorem Operation.does_before (h : Operation k s u) (g : SameWork u t) : Does k s t := ⟨s, u, .refl s, h, g⟩

theorem SameWork.does (h : SameWork s t) : Does .ordinary s t := ⟨s, s, .refl s, .nothing s, h⟩

theorem does_refl (s : State) : Does .ordinary s s := (SameWork.refl s).does

end

/-! ### The gates -/

section
variable {k : OperationKind} {f : State → State} (hf : ∀ s, Does k s (f s)) (s : State)
include hf

theorem working_does : Does .ordinary s (working f s) ∨ Does k s (working f s) := by
  rcases working_cases f s with h | ⟨-, -, h⟩ <;> rw [h]
  · exact .inl (does_refl s)
  · exact .inr (hf s)

theorem clocked_does : Does .ordinary s (clocked f s) ∨ Does k s (clocked f s) := by
  rcases clocked_cases f s with h | ⟨-, h⟩ <;> rw [h]
  · exact .inl (does_refl s)
  · exact .inr (hf s)

/-- A command acts in IDLE only (R157, R159). -/
theorem commandAccess_does :
    Does .ordinary s (commandAccess f s) ∨ (s.port.decoder = .idle ∧ Does k s (commandAccess f s)) := by
  rcases commandAccess_cases f s with h | h | ⟨hidle, h⟩ <;> rw [h]
  · exact .inl (does_refl s)
  · exact .inl (setRefusedBusy_sameWork true s).does
  · have hdecoder : s.port.decoder = .idle := by
      by_contra hne
      rw [(busy_iff s).2 hne] at hidle
      cases hidle
    obtain ⟨u, v, hu, hop, hv⟩ := hf (setRefusedBusy false s)
    exact .inr ⟨hdecoder, u, v, (setRefusedBusy_sameWork false s).trans hu, hop, hv⟩

end

/-- A read of the window reaches the Host Port only. -/
theorem readAccess_does {f : State → State} (hf : ∀ s, SameWork s (f s)) (s : State) :
    Does .ordinary s (readAccess f s) := by
  rcases readAccess_cases f s with h | h | ⟨-, -, h⟩ <;> rw [h]
  · exact does_refl s
  · exact (driveData_sameWork 0 s).does
  · exact (hf s).does

/-! ### The commands -/

/-- A command that answers with a result and does nothing else. -/
theorem giveResult_does (r : ResultCode) (s : State) : Does .ordinary s (giveResult r s) :=
  (giveResult_sameWork r s).does

theorem Operation.does_giveResult {k : OperationKind} {s u : State} (h : Operation k s u) (r : ResultCode) :
    Does k s (giveResult r u) := h.does_before (giveResult_sameWork r u)

/-- A loading command reaches the Host Port only (R156). -/
theorem loadStaging_giveResult_sameWork (image : Vector Byte 32) (r : ResultCode) (s : State) :
    SameWork s (giveResult r (loadStaging image s)) :=
  ((loadStaging_sameBlocks image s).trans (giveResult_sameBlocks r _)).sameWork rfl

section
variable (s : State)

theorem configureLine_does : Does .ordinary s (configureLine s) := by
  unfold configureLine
  split
  · exact giveResult_does .range s
  · split
    · exact giveResult_does .range s
    · next hc =>
      split
      · next hd => exact (Operation.configure hc hd).does_giveResult .done
      · exact giveResult_does .state s

theorem readLineConfig_does : Does .ordinary s (readLineConfig s) := by
  unfold readLineConfig
  split
  · exact giveResult_does .range s
  · exact (loadStaging_giveResult_sameWork ..).does

theorem enableLine_does : Does .ordinary s (enableLine s) := by
  unfold enableLine
  split
  · exact giveResult_does .range s
  · split
    · next hd => exact (Operation.enable hd).does_giveResult .done
    · exact giveResult_does .state s

theorem disableLine_does : Does .ordinary s (disableLine s) := by
  unfold disableLine
  split
  · exact giveResult_does .range s
  · next l _ =>
    show Does .ordinary s (giveResult .done (if (s.engine l).state = .disabled then s else disable l s))
    split
    · exact giveResult_does .done s
    · exact (Operation.disable l s).does_giveResult .done

theorem writeEntry_does : Does .ordinary s (writeEntry s) := by
  unfold writeEntry
  split
  · exact giveResult_does .range s
  · split
    · exact giveResult_does .range s
    · next he => exact (Operation.writeEntry _ he).does_giveResult .done

theorem readEntry_does : Does .ordinary s (readEntry s) := by
  unfold readEntry
  split
  · exact giveResult_does .range s
  · exact (loadStaging_giveResult_sameWork ..).does

theorem setRoundMode_does : Does .ordinary s (setRoundMode s) := by
  unfold setRoundMode
  split
  · exact giveResult_does .range s
  · split
    · exact giveResult_does .range s
    · next hr =>
      split
      · next hc => exact (Operation.setRoundMode hr hc).does_giveResult .done
      · exact giveResult_does .state s

theorem startRounds_does : Does .ordinary s (startRounds s) := by
  unfold startRounds
  split
  · exact giveResult_does .range s
  · split
    · exact giveResult_does .state s
    · next he =>
      split
      · next hc => exact (Operation.beginRounds he hc).does_giveResult .done
      · exact giveResult_does .state s

theorem haltRounds_does : Does .ordinary s (haltRounds s) := by
  unfold haltRounds
  split
  · exact giveResult_does .range s
  · exact (Operation.halt _ s).does_giveResult .done

theorem setTiming_does : Does .ordinary s (setTiming s) := by
  unfold setTiming
  split
  · exact giveResult_does .range s
  · next hn =>
    split
    · exact (Operation.setTiming hn).does_giveResult .done
    · exact giveResult_does .state s

theorem enqueueUrgent_does : Does .ordinary s (enqueueUrgent s) := by
  unfold enqueueUrgent
  split
  · exact giveResult_does .range s
  · next hx =>
    split
    · exact giveResult_does .state s
    · next he =>
      split
      · exact giveResult_does .full s
      · next hq =>
        split
        · exact giveResult_does .room s
        · next hs => exact (Operation.enqueue hx he (Nat.not_le.1 hq) (Nat.not_le.1 hs)).does_giveResult .done

theorem flushUrgent_does : Does .ordinary s (flushUrgent s) := by
  unfold flushUrgent
  split
  · exact giveResult_does .range s
  · exact (Operation.flush _ s).does_giveResult .done

theorem setBurst_does : Does .ordinary s (setBurst s) := by
  unfold setBurst
  split
  · next hn => exact (Operation.setBurst hn).does_giveResult .done
  · exact giveResult_does .range s

theorem releaseReply_does : Does .release s (releaseReply s) := by
  unfold releaseReply
  split
  · next hs =>
    have hsame : s.setStore s.store.tail = s := by
      rw [hs, List.tail_nil, ← hs]
      rfl
    exact (Operation.release s).does_before (hsame.symm ▸ giveResult_sameWork .empty s)
  · next rest hs =>
    have htail : s.store.tail = rest := by rw [hs, List.tail_cons]
    refine (Operation.release s).does_before ?_
    rw [htail]
    exact (setPort_sameBlocks _ _).trans (giveResult_sameBlocks .done _) |>.sameWork rfl

theorem setHealth_does : Does .ordinary s (setHealth s) := by
  unfold setHealth
  split
  · exact giveResult_does .range s
  · next ht => exact (Operation.setHealth ht).does_giveResult .done

theorem readNode_does : Does .ordinary s (readNode s) := by
  unfold readNode
  split
  · exact giveResult_does .range s
  · exact (loadStaging_giveResult_sameWork ..).does

theorem takeChange_does : Does .ordinary s (takeChange s) := by
  unfold takeChange
  split
  · exact giveResult_does .empty s
  · exact (Operation.takeChange _ _ s).does_before (loadStaging_giveResult_sameWork ..)

theorem clearNodeMap_does : Does .ordinary s (clearNodeMap s) :=
  SameWork.does (by constructor <;> rfl)

theorem resetPart_does : Does .reset s (resetPart s) :=
  (Operation.reset s).does_before (setPort_sameWork (resetBlocks s) rfl)

theorem beginHardwareReset_does : Does .reset s (beginHardwareReset s) :=
  (Operation.reset s).does_before (by constructor <;> rfl)

theorem endHardwareReset_does : Does .ordinary s (endHardwareReset s) := by
  unfold endHardwareReset
  split
  · exact SameWork.does (by constructor <;> rfl)
  · exact does_refl s

theorem takeFirstLevel_does (v : Level) : Does .ordinary s (takeFirstLevel v s) := by
  unfold takeFirstLevel
  split
  · exact SameWork.does (by constructor <;> rfl)
  · exact does_refl s

/-- Of the codes of the table but RESET PART's one only, RELEASE REPLY's, may take the head from the store. -/
theorem commandOf_does (code : Byte) :
    Does .ordinary s (commandOf code s) ∨ (code = 0x40 ∧ Does .release s (commandOf code s)) := by
  unfold commandOf
  split
  case h_14 h => exact .inr ⟨byte_eq_of_toNat h, releaseReply_does s⟩
  all_goals refine .inl ?_
  · exact configureLine_does s
  · exact readLineConfig_does s
  · exact enableLine_does s
  · exact disableLine_does s
  · exact writeEntry_does s
  · exact readEntry_does s
  · exact setRoundMode_does s
  · exact startRounds_does s
  · exact haltRounds_does s
  · exact setTiming_does s
  · exact enqueueUrgent_does s
  · exact flushUrgent_does s
  · exact setBurst_does s
  · exact setHealth_does s
  · exact readNode_does s
  · exact takeChange_does s
  · exact clearNodeMap_does s
  · exact giveResult_does .unknown s

end

/-! ### The rows -/

/-- Which rows may make an operation of a kind. -/
def KindFits (c : Instr) (s : State) : OperationKind → Prop
  | .ordinary => True
  | .param => ∃ v, c = .windowWrite 1 v
  | .release => c.wellFormed = true → c = .releaseReply ∨ ∃ code, c = .refusedBusy code ∧ s.port.decoder = .idle
  | .reset => c.wellFormed = true → c = .resetPart ∨ c = .hardwareReset

/-- What a row does in a state: it answers a next state, by one operation of a kind that fits the row. -/
def RowDoes (c : Instr) (s : State) : Prop := ∃ k t, exec c s = .next t ∧ Does k s t ∧ KindFits c s k

section
variable {c : Instr} {s : State}

theorem rowDoes_of_ordinary {t : State} (hc : exec c s = .next t) (h : Does .ordinary s t) : RowDoes c s :=
  ⟨.ordinary, t, hc, h, trivial⟩

theorem rowDoes_of_cases {k : OperationKind} {t : State} (hc : exec c s = .next t)
    (h : Does .ordinary s t ∨ Does k s t) (hk : KindFits c s k) : RowDoes c s :=
  h.elim (rowDoes_of_ordinary hc) fun h => ⟨k, t, hc, h, hk⟩

/-- An ordinary event of the part, gated by CLKIN and RESET. -/
theorem rowDoes_of_working {f : State → State} (hc : exec c s = .next (working f s))
    (hf : ∀ s, Does .ordinary s (f s)) : RowDoes c s :=
  rowDoes_of_ordinary hc ((working_does hf s).elim id id)

theorem rowDoes_of_clocked {f : State → State} (hc : exec c s = .next (clocked f s))
    (hf : ∀ s, Does .ordinary s (f s)) : RowDoes c s :=
  rowDoes_of_ordinary hc ((clocked_does hf s).elim id id)

theorem rowDoes_of_command {f : State → State} (hc : exec c s = .next (commandAccess f s))
    (hf : ∀ s, Does .ordinary s (f s)) : RowDoes c s :=
  rowDoes_of_ordinary hc ((commandAccess_does hf s).elim id And.right)

end

/-- What the write of a code does, by the code: a reset for RESET PART's, in IDLE a release for RELEASE REPLY's. -/
theorem writeCommand_does (code : Byte) (s : State) :
    Does .ordinary s (writeCommand code s) ∨ (code = 0xA5 ∧ Does .reset s (writeCommand code s)) ∨
      (code = 0x40 ∧ s.port.decoder = .idle ∧ Does .release s (writeCommand code s)) := by
  unfold writeCommand
  split
  · next hcode => exact (working_does resetPart_does s).imp_right fun h => .inl ⟨hcode, h⟩
  · by_cases hcode : code = 0x40
    · have hf : ∀ s, Does .release s (commandOf code s) := fun s => by
        rw [hcode]
        exact releaseReply_does s
      exact (commandAccess_does hf s).imp_right fun h => .inr ⟨hcode, h.1, h.2⟩
    · have hf : ∀ s, Does .ordinary s (commandOf code s) := fun s =>
        (commandOf_does s code).resolve_right fun h => hcode h.1
      exact .inl ((commandAccess_does hf s).elim id And.right)

/-- The write of a code through a row of its own: what the row must be for a reset or a release. -/
theorem rowDoes_of_writeCommand {c : Instr} {s : State} (code : Byte) (hc : exec c s = .next (writeCommand code s))
    (hreset : code = 0xA5 → c.wellFormed = false)
    (hrelease : code = 0x40 → c.wellFormed = true → ∃ code, c = .refusedBusy code) : RowDoes c s := by
  rcases writeCommand_does code s with h | ⟨hcode, h⟩ | ⟨hcode, hidle, h⟩
  · exact rowDoes_of_ordinary hc h
  · refine ⟨.reset, _, hc, h, fun hw => ?_⟩
    rw [hreset hcode] at hw
    cases hw
  · refine ⟨.release, _, hc, h, fun hw => .inr ?_⟩
    obtain ⟨code, hrow⟩ := hrelease hcode hw
    exact ⟨code, hrow, hidle⟩

theorem windowWrite_rowDoes (address : Fin 16) (v : Byte) (s : State) : RowDoes (.windowWrite address v) s := by
  have hc : exec (.windowWrite address v) s = .next (windowWrite address v s) := rfl
  unfold windowWrite at hc
  split at hc
  · next h =>
    obtain rfl : address = 0 := Fin.ext h
    have ill : (Instr.windowWrite 0 v).wellFormed = false := rfl
    exact rowDoes_of_writeCommand v hc (fun _ => ill) fun _ hw => absurd (ill.symm.trans hw) (by decide)
  · next h =>
    obtain rfl : address = 1 := Fin.ext h
    exact rowDoes_of_cases hc (working_does (fun s => (Operation.param v s).does) s) ⟨v, rfl⟩
  · exact rowDoes_of_working hc fun s => (acknowledgeSources_sameWork .low v s).does
  · exact rowDoes_of_working hc fun s => (acknowledgeSources_sameWork .high v s).does
  · exact rowDoes_of_working hc fun s => (writeEnables_sameWork .low v s).does
  · exact rowDoes_of_working hc fun s => (writeEnables_sameWork .high v s).does
  · exact rowDoes_of_working hc fun s => (writeStagePointer_sameWork v s).does
  · exact rowDoes_of_working hc fun s => (writeStageData_sameWork v s).does
  · exact rowDoes_of_working hc fun s => (writeReplyPointer_sameWork v s).does
  · exact rowDoes_of_ordinary hc (does_refl s)

/-- What every row can do. -/
theorem exec_rowDoes (c : Instr) (s : State) : RowDoes c s := by
  cases c with
  | configureLine => exact rowDoes_of_command rfl configureLine_does
  | readLineConfig => exact rowDoes_of_command rfl readLineConfig_does
  | enableLine => exact rowDoes_of_command rfl enableLine_does
  | disableLine => exact rowDoes_of_command rfl disableLine_does
  | writeEntry => exact rowDoes_of_command rfl writeEntry_does
  | readEntry => exact rowDoes_of_command rfl readEntry_does
  | setRoundMode => exact rowDoes_of_command rfl setRoundMode_does
  | startRounds => exact rowDoes_of_command rfl startRounds_does
  | haltRounds => exact rowDoes_of_command rfl haltRounds_does
  | setTiming => exact rowDoes_of_command rfl setTiming_does
  | enqueueUrgent => exact rowDoes_of_command rfl enqueueUrgent_does
  | flushUrgent => exact rowDoes_of_command rfl flushUrgent_does
  | setBurst => exact rowDoes_of_command rfl setBurst_does
  | setHealth => exact rowDoes_of_command rfl setHealth_does
  | readNode => exact rowDoes_of_command rfl readNode_does
  | takeChange => exact rowDoes_of_command rfl takeChange_does
  | clearNodeMap => exact rowDoes_of_command rfl clearNodeMap_does
  | releaseReply =>
    exact rowDoes_of_cases rfl ((commandAccess_does releaseReply_does s).imp_right And.right) fun _ => .inl rfl
  | resetPart => exact rowDoes_of_cases rfl (working_does resetPart_does s) fun _ => .inl rfl
  | hardwareReset => exact rowDoes_of_cases rfl (clocked_does beginHardwareReset_does s) fun _ => .inr rfl
  | hardwareResetEnd => exact rowDoes_of_clocked rfl endHardwareReset_does
  | unknownCommand code =>
    refine rowDoes_of_writeCommand code rfl (fun h => ?_) fun h hw => ?_
    · rw [h]
      rfl
    · rw [h] at hw
      cases hw
  | refusedBusy code =>
    refine rowDoes_of_writeCommand code rfl (fun h => ?_) fun _ _ => ⟨code, rfl⟩
    rw [h]
    rfl
  | windowWrite address v => exact windowWrite_rowDoes address v s
  | stagePointerWrite v => exact rowDoes_of_working rfl fun s => (writeStagePointer_sameWork v s).does
  | stageDataWrite v => exact rowDoes_of_working rfl fun s => (writeStageData_sameWork v s).does
  | replyPointerWrite v => exact rowDoes_of_working rfl fun s => (writeReplyPointer_sameWork v s).does
  | stageDataRead =>
    exact rowDoes_of_ordinary rfl (readAccess_does (f := readStageData) (fun s => setPort_sameWork s rfl) s)
  | replyDataRead =>
    exact rowDoes_of_ordinary rfl (readAccess_does (f := readReplyData) (fun s => setPort_sameWork s rfl) s)
  | resetCauseRead =>
    exact rowDoes_of_ordinary rfl (readAccess_does (f := readResetCause) (fun s => setPort_sameWork s rfl) s)
  | acknowledge half v => exact rowDoes_of_working rfl fun s => (acknowledgeSources_sameWork half v s).does
  | interruptEnableWrite half v => exact rowDoes_of_working rfl fun s => (writeEnables_sameWork half v s).does
  | syncEdge v => exact rowDoes_of_working rfl fun s => (Operation.syncLevelHeld v s).does
  | syncFirstStableLevel v => exact rowDoes_of_working rfl fun s => takeFirstLevel_does s v
  | roundTimerExpiry l => exact rowDoes_of_working rfl fun s => (Operation.expireTimer l s).does
  | rxdFall l => exact rowDoes_of_clocked rfl fun s => (Operation.fall l s).does
  | rxdReturnToMark l => exact rowDoes_of_clocked rfl fun s => (Operation.returnToMark l s).does
  | midStartSample l v => exact rowDoes_of_clocked rfl fun s => (Operation.happen (.midStartSample l v) s).does
  | clkinStop => exact rowDoes_of_ordinary rfl (SameWork.does (by constructor <;> rfl))
  | clkinRestart => exact rowDoes_of_ordinary rfl (SameWork.does (by constructor <;> rfl))
  | characterDelivered l d b v =>
    exact rowDoes_of_working rfl fun s => (Operation.happen (.characterDelivered l d b v) s).does
  | tick => exact rowDoes_of_working rfl fun s => (Operation.happen .tick s).does
  | clearWalkVisit => exact rowDoes_of_working rfl fun s => (Operation.happen .clearWalkVisit s).does
  | continuousGapEnd l => exact rowDoes_of_working rfl fun s => (Operation.happen (.continuousGapEnd l) s).does
  | quietGapEnd l => exact rowDoes_of_working rfl fun s => (Operation.happen (.quietGapEnd l) s).does
  | leadEnd l => exact rowDoes_of_working rfl fun s => (Operation.happen (.leadEnd l) s).does
  | sendingEnd l => exact rowDoes_of_working rfl fun s => (Operation.happen (.sendingEnd l) s).does
  | lagEnd l => exact rowDoes_of_working rfl fun s => (Operation.happen (.lagEnd l) s).does
  | replyTimeout l => exact rowDoes_of_working rfl fun s => (Operation.happen (.replyTimeout l) s).does
  | truncated l => exact rowDoes_of_working rfl fun s => (Operation.happen (.truncated l) s).does
  | discardEnd l => exact rowDoes_of_working rfl fun s => (Operation.happen (.discardEnd l) s).does

/-! ### What is kept -/

/-- A relation of the fields of the part that no operation breaks. The Host Port and the Interrupt Unit are none of its
concern. -/
structure KeptByOperations (P : State → Prop) : Prop where
  same : ∀ {s t}, SameWork s t → P s → P t
  operation : ∀ {k s t}, Operation k s t → P s → P t

theorem KeptByOperations.does {P : State → Prop} (hP : KeptByOperations P) {k : OperationKind} {s t : State}
    (h : Does k s t) (hs : P s) : P t := by
  obtain ⟨u, v, hu, hop, hv⟩ := h
  exact hP.same hv (hP.operation hop (hP.same hu hs))

theorem KeptByOperations.exec {P : State → Prop} (hP : KeptByOperations P) {c : Instr} {s t : State} (hs : P s)
    (h : exec c s = .next t) : P t := by
  obtain ⟨k, t', ht, hdoes, -⟩ := exec_rowDoes c s
  rw [ht] at h
  cases h
  exact hP.does hdoes hs

/-- The induction of every invariant of the step: a row of the queue makes one operation, and a CLKIN period is the
counts and then rows. -/
theorem KeptByOperations.step {P : State → Prop} (hP : KeptByOperations P) (hperiod : ∀ s, P s → P (clkinPeriod s))
    (hpending : ∀ s q, P s → P (s.setPending q)) {s t : State} (hs : P s) (h : step s = .next t) : P t := by
  unfold Machine.step at h
  split at h
  · cases h
    exact hperiod s hs
  · exact hP.exec (hpending s _ hs) h

end Sys2Proof.Machine
end

