-- ==== Sys2Proof/Proofs/LinesSound.lean ====
section
/-!
SUPPORT and CERTIFICATES. Lines, receivers, controllers, slots and records stay in agreement over every step (R34, R39,
R60, R102, R117, R118, R132).
-/

namespace Sys2Proof.Machine

open Sys2Proof.Safety

/-! ### Sound lines, part by part -/

theorem linesSound_of_ok {s : State} (h : ∀ l, Ok l s) (hr : ∀ l, ReceiverOk l s) : LinesSound s :=
  (linesSound_iff s).2 ⟨fun l => (h l).line, hr, (h .a).bounds⟩

section
variable {s t : State}

theorem ok_of_linesSound (h : LinesSound s) (l : Line) : Ok l s := by
  obtain ⟨hline, -, hbounds⟩ := (linesSound_iff s).1 h
  exact ⟨hline l, hbounds⟩

/-- Nothing that the relations read has changed. -/
theorem linesSound_of_same (h : LinesSound s) (he : t.engines = s.engines) (hc : t.rounds = s.rounds)
    (hu : t.urgent = s.urgent) (hs : t.store.length = s.store.length) : LinesSound t := by
  have hengine : ∀ l, t.engine l = s.engine l := fun l => congrArg (·.get l) he
  have hcontroller : ∀ l, t.controller l = s.controller l := fun l => congrArg (·.get l) hc
  refine linesSound_of_ok (fun l => ?_) fun l => ?_
  · exact (ok_of_linesSound h l).of_same (by rw [hengine]) (by rw [hengine]) (by rw [hcontroller])
      (by rw [hcontroller]) (by rw [hcontroller]) hu hs
  · unfold ReceiverOk
    rw [hengine]
    exact h.receivers l

/-- One line has changed, in a way that keeps it sound. -/
theorem linesSound_of_line {l : Line} (h : LinesSound s) (he : ∀ m, m ≠ l → t.engine m = s.engine m)
    (hc : ∀ m, m ≠ l → t.controller m = s.controller m)
    (hq : ∀ m, m ≠ l → t.urgent.filter (fun x => x.line == m) = s.urgent.filter (fun x => x.line == m))
    (ok : Ok l s → Ok l t) (receiver : ReceiverOk l s → ReceiverOk l t) : LinesSound t := by
  have hl := ok (ok_of_linesSound h l)
  refine linesSound_of_ok (fun m => ?_) fun m => ?_
  · by_cases hm : m = l
    · exact hm ▸ hl
    · exact ⟨(ok_of_linesSound h m).line.of_same (he m hm) (hc m hm) (hq m hm), hl.bounds⟩
  · by_cases hm : m = l
    · exact hm ▸ receiver (h.receivers l)
    · unfold ReceiverOk
      rw [he m hm]
      exact h.receivers m

theorem LineStep.linesSound {l : Line} (hstep : LineStep l s t) (h : LinesSound s) (ok : Ok l s → Ok l t)
    (receiver : ReceiverOk l s → ReceiverOk l t) : LinesSound t :=
  linesSound_of_line h hstep.engine hstep.controller hstep.slots ok receiver

/-- An update of one engine, its configuration perhaps among it. -/
theorem updEngine_linesSound {l : Line} {f : Engine → Engine} (h : LinesSound s)
    (ok : Ok l s → Ok l (s.updEngine l f)) (receiver : ReceiverSound (s.engine l) → ReceiverSound (f (s.engine l))) :
    LinesSound (s.updEngine l f) := by
  refine linesSound_of_line h (fun m => State.updEngine_engine_ne s f) (fun _ _ => rfl) (fun _ _ => rfl) ok fun hr => ?_
  unfold ReceiverOk
  rw [State.updEngine_engine_same]
  exact receiver hr

end

/-! ### The operations -/

theorem makeChoice_linesSound (l : Line) {s : State} (h : LinesSound s) : LinesSound (makeChoice l s) :=
  (makeChoice_lineStep l s).linesSound h makeChoice_ok makeChoice_receiver

theorem tickTimer_linesSound (l : Line) {s : State} (h : LinesSound s) : LinesSound (tickTimer l s) :=
  (tickTimer_lineStep l s).linesSound h tickTimer_ok tickTimer_receiver

theorem syncTrigger_linesSound (l : Line) (v : Level) {s : State} (h : LinesSound s) :
    LinesSound (syncTrigger l v s) :=
  (syncTrigger_lineStep l v s).linesSound h (syncTrigger_ok v) (syncTrigger_receiver v)

theorem deliverTick_linesSound {s : State} (h : LinesSound s) : LinesSound (deliverTick s) :=
  tickTimer_linesSound .b (tickTimer_linesSound .a (linesSound_of_same h rfl rfl rfl rfl))

theorem syncLevelHeld_linesSound (v : Level) {s : State} (h : LinesSound s) : LinesSound (syncLevelHeld v s) := by
  unfold syncLevelHeld
  split
  · exact linesSound_of_same h rfl rfl rfl rfl
  · split
    · exact h
    · exact syncTrigger_linesSound .b v (syncTrigger_linesSound .a v (linesSound_of_same h rfl rfl rfl rfl))

theorem walkStep_linesSound {s : State} (h : LinesSound s) : LinesSound (walkStep s) := by
  obtain ⟨he, hc, hu, hs⟩ := walkStep_same s
  exact linesSound_of_same h he hc hu (congrArg List.length hs)

/-- What a forced halt and a start of rounds do to the receiver: nothing but by the choice. -/
theorem halt_receiver {l : Line} {s : State} (h : ReceiverOk l s) : ReceiverOk l (halt l s) := by
  unfold halt
  split
  · exact h
  · exact h
  · exact enterRoundState_receiver .stopped h
  · split
    · exact enterRoundState_receiver .halting h
    · exact enterRoundState_receiver (s := s.updController l _) .stopped h

theorem beginRounds_receiver {l : Line} {s : State} (h : ReceiverOk l s) : ReceiverOk l (beginRounds l s) := by
  unfold beginRounds
  split
  · exact startRoundAndChoose_receiver h
  · exact h
  · exact h

theorem setSettings_ok {l : Line} {s : State} (r : RoundSettings) (h : Ok l s) :
    Ok l (s.updController l fun c => { c with settings := r }) :=
  h.of_same rfl rfl (by simp) (by simp) (by simp) rfl rfl

/-- The enqueue alone, before the choice it brings about (R44). -/
theorem enqueue_linesSound {s : State} {x : Slot} (h : LinesSound s) (hx : x.state = .queued)
    (he : (s.engine x.line).state ≠ .disabled) (hq : s.urgent.length < 4) (hs : s.storeSum < 16) :
    LinesSound (s.setUrgent (s.urgent ++ [x])) :=
  linesSound_of_ok (fun l => enqueue_ok x (ok_of_linesSound h l) hx he hq hs) h.receivers

theorem slotOfStaging_queued {v : Vector Byte 32} {x : Slot} (h : slotOfStaging v = some x) : x.state = .queued := by
  unfold slotOfStaging at h
  obtain ⟨q, -, rfl⟩ := Option.map_eq_some_iff.1 h
  rfl

theorem cancelQueued_linesSound (selected : Line → Bool) {s : State} (h : LinesSound s) :
    LinesSound (cancelQueued selected s) :=
  linesSound_of_ok (fun l => cancelQueued_ok selected (ok_of_linesSound h l)) h.receivers

/-- A reset leaves both lines DISABLED, with nothing in flight and nothing stored (R113, R116). -/
theorem resetBlocks_linesSound (s : State) : LinesSound (resetBlocks s) := by
  have hengine : ∀ l, (resetBlocks s).engine l = Engine.reset (s.engine l).rxd := fun l => by cases l <;> rfl
  have hcontroller : ∀ l, (resetBlocks s).controller l = Controller.reset := fun l => by cases l <;> rfl
  refine linesSound_of_ok (fun l => ⟨?_, ⟨Nat.zero_le _, Nat.zero_le _⟩⟩) fun l => ?_
  · unfold LineOk
    rw [hengine, hcontroller]
    constructor <;> simp [Engine.reset, Controller.reset, attemptOnLine, urgentOn, routineOn, slotLines,
      inFlightLines, resetBlocks, State.reset]
  · unfold ReceiverOk
    rw [hengine]
    exact receiverSound_off rfl (.inl rfl)

theorem happen_linesSound (c : Instr) {s : State} (h : LinesSound s) : LinesSound (happen s c) := by
  have receiver := happen_receiver c h.receivers
  have line (l : Line) (hk : rowKey c = (2, some l) ∨ rowKey c = (3, some l) ∨ rowKey c = (4, some l))
      (ok : Ok l s → Ok l (happen s c)) : LinesSound (happen s c) :=
    (happen_lineStep l s hk).linesSound h ok fun _ => receiver l
  cases c
  case tick => exact deliverTick_linesSound h
  case clearWalkVisit => exact walkStep_linesSound h
  case leadEnd l => exact line l (.inl rfl) leadDone_ok
  case sendingEnd l => exact line l (.inl rfl) sendingDone_ok
  case lagEnd l => exact line l (.inl rfl) lagDone_ok
  case replyTimeout l => exact line l (.inl rfl) replyTimeoutDone_ok
  case quietGapEnd l => exact line l (.inl rfl) quietGapDone_ok
  case truncated l => exact line l (.inl rfl) gapLimitDone_ok
  case discardEnd l => exact line l (.inl rfl) discardDone_ok
  case continuousGapEnd l => exact line l (.inr (.inr rfl)) endGap_ok
  case midStartSample l v => exact line l (.inr (.inl rfl)) (midStart_ok v)
  case characterDelivered l d b v => exact line l (.inr (.inl rfl)) (deliverCharacter_ok d b v)
  all_goals exact h

theorem linesSound_keptByOperations : KeptByOperations LinesSound where
  same h hs := linesSound_of_same hs h.engines h.rounds h.urgent (congrArg List.length h.store)
  operation := by
    intro k s t hop h
    cases hop with
    | nothing => exact h
    | configure _ hd =>
      exact updEngine_linesSound h (fun ok => ok.quiet_update _ rfl rfl) fun hr => receiverSound_of_same hr rfl rfl
    | enable hd => exact updEngine_linesSound h (fun ok => enable_ok ok hd) fun _ => enable_receiver _
    | disable l => exact (disable_lineStep l s).linesSound h disable_ok fun _ => disable_receiver l s
    | writeEntry => exact linesSound_of_same h rfl rfl rfl rfl
    | setRoundMode =>
      exact linesSound_of_line h (fun _ _ => rfl) (fun m => State.updController_controller_ne s _) (fun _ _ => rfl)
        (setSettings_ok _) id
    | beginRounds he hc =>
      exact (beginRounds_lineStep _ s).linesSound h (fun ok => beginRounds_ok ok he hc) beginRounds_receiver
    | halt l => exact (halt_lineStep l s).linesSound h halt_ok halt_receiver
    | setTiming => exact linesSound_of_same h rfl rfl rfl rfl
    | enqueue hx he hq hs =>
      exact makeChoice_linesSound _ (enqueue_linesSound h (slotOfStaging_queued hx) he hq hs)
    | flush selected => exact cancelQueued_linesSound selected h
    | setBurst => exact linesSound_of_same h rfl rfl rfl rfl
    | setHealth => exact linesSound_of_same h rfl rfl rfl rfl
    | takeChange => exact linesSound_of_same h rfl rfl rfl rfl
    | happen c => exact happen_linesSound c h
    | expireTimer l => exact (expireTimer_lineStep l s).linesSound h expireTimer_ok expireTimer_receiver
    | syncLevelHeld v => exact syncLevelHeld_linesSound v h
    | fall => exact updEngine_linesSound h fall_ok fall_receiver
    | returnToMark => exact updEngine_linesSound h returnToMark_ok returnToMark_receiver
    | param => exact linesSound_of_same h rfl rfl rfl rfl
    | release =>
      refine linesSound_of_ok (fun l => ⟨(ok_of_linesSound h l).line, h.slots, ?_⟩) h.receivers
      have hroom := h.room
      simp only [State.storeSum, State.setStore_store, State.setStore_urgent, List.length_tail] at hroom ⊢
      omega
    | reset => exact resetBlocks_linesSound s

/-! ### A CLKIN period -/

theorem advanceLine_lineStep (l : Line) (s : State) (hconfig : (s.engine l).advance.config = (s.engine l).config) :
    LineStep l s (advanceLine l s) :=
  (updController_lineStep l s _ rfl).trans (updEngine_lineStep l _ _ hconfig)

@[simp] theorem sampled_config (e : Engine) : (sampled e).config = e.config := by
  unfold sampled
  (repeat' split) <;> rfl

@[simp] theorem Engine.countUp_config (e : Engine) : e.countUp.config = e.config := by
  unfold Engine.countUp
  cases e.state <;> dsimp only <;> (try split) <;> rfl

@[simp] theorem Engine.advance_config (e : Engine) : e.advance.config = e.config := by
  rw [Engine.advance, Engine.sampleUp_eq, sampled_config, Engine.countUp_config]

theorem advanceLine_linesSound (l : Line) {s : State} (h : LinesSound s) : LinesSound (advanceLine l s) := by
  refine (advanceLine_lineStep l s (Engine.advance_config _)).linesSound h advanceLine_ok fun hr => ?_
  unfold ReceiverOk
  rw [advanceLine, State.updEngine_engine_same]
  exact advance_receiver hr

theorem advanceCounts_linesSound {s : State} (h : LinesSound s) : LinesSound (advanceCounts s) :=
  advanceLine_linesSound .b (advanceLine_linesSound .a (linesSound_of_same h rfl rfl rfl rfl))

/-- The state whose counts have moved, before any row has happened. -/
abbrev countsMoved (s : State) : State := (advanceCounts s).setFreeIndex (s.freeIndex + 1)

/-- The rows that are due, in the order the free value picks (log 4, log 16). -/
abbrev rowsDue (s : State) : List Instr :=
  arrange (dueRows (countsMoved s)).length (Config.clockOrder s.freeIndex) (dueRows (countsMoved s))

/-- A CLKIN period is nothing in a part that does not work, and the counts and the rows due in one that does. -/
theorem clkinPeriod_cases (s : State) :
    (¬Awake s ∧ clkinPeriod s = s) ∨ (Awake s ∧ clkinPeriod s = (rowsDue s).foldl happen (countsMoved s)) := by
  by_cases h : Awake s
  · exact .inr ⟨h, working_runs _ h.1 h.2⟩
  · refine .inl ⟨h, ?_⟩
    unfold clkinPeriod
    exact (working_cases _ s).resolve_right fun ⟨hclock, hheld, _⟩ => h ⟨hclock, hheld⟩

/-- A relation that no row breaks holds after any number of them. -/
theorem foldl_happen_keeps {P : State → Prop} (hP : ∀ c {s}, P s → P (happen s c)) (rows : List Instr) {s : State}
    (h : P s) : P (rows.foldl happen s) := by
  induction rows generalizing s with
  | nil => exact h
  | cons c rest ih => exact ih (hP c h)

/-- What the counts keep and every row that may be due keeps, a CLKIN period keeps. -/
theorem clkinPeriod_keeps {P : State → Prop} (hcounts : ∀ {s}, P s → P (countsMoved s))
    (hrows : ∀ c {s}, P s → P (happen s c)) {s : State} (h : P s) : P (clkinPeriod s) := by
  rcases clkinPeriod_cases s with ⟨-, hw⟩ | ⟨-, hw⟩ <;> rw [hw]
  · exact h
  · exact foldl_happen_keeps hrows _ (hcounts h)

theorem clkinPeriod_linesSound {s : State} (h : LinesSound s) : LinesSound (clkinPeriod s) :=
  clkinPeriod_keeps (fun h => linesSound_of_same (advanceCounts_linesSound h) rfl rfl rfl rfl) happen_linesSound h

/-! ### The statement -/

/-- Settles O56: a row of the queue makes one operation, and a CLKIN period is the counts and the rows that are due;
each keeps both lines, their receivers and the bounds. -/
theorem linesStaySound : Obligations.LinesStaySound := fun _ _ h hstep =>
  linesSound_keptByOperations.step (fun _ => clkinPeriod_linesSound) (fun _ _ h => linesSound_of_same h rfl rfl rfl rfl)
    h hstep

end Sys2Proof.Machine
end

