-- ==== Sys2Proof/Proofs/RecordsSound.lean ====
section
/-!
SUPPORT and CERTIFICATES. Entries, slots, exchanges and records stay in range over every step (R1, R5, R40, R58, R62,
R118, R129).
-/

namespace Sys2Proof.Machine

open Sys2Proof.Safety

/-! ### Sound records, part by part -/

/-- The exchange of an engine is in range, and the outcome a failed check has left pending is one of the three checks'
(R109, R118). -/
structure EngineRecordsSound (e : Engine) : Prop where
  exchange : ∀ x, e.exchange = some x → ExchangeSound e x
  pending : ∀ x o, e.exchange = some x → x.pendingOutcome = some o → o = .charError ∨ o = .badFrame ∨ o = .checkError

/-- What the two lines share is in range, together with the exchange of line `l`. -/
structure RecordsOk (l : Line) (s : State) : Prop where
  table : TableSound s
  slots : ∀ x ∈ s.urgent, RequestInRange x.request
  missed : ∀ i : Fin 32, s.missed[i] ≤ 255
  records : ∀ r ∈ s.store, RecordSound r
  engine : EngineRecordsSound (s.engine l)

section
variable {l : Line} {s t : State}

theorem recordsOk_of_recordsSound (h : RecordsSound s) (l : Line) : RecordsOk l s :=
  ⟨h.table, h.slots, h.missed, h.records, h.exchanges l, h.pendingOutcomes l⟩

theorem recordsSound_of_ok (h : ∀ l, RecordsOk l s) : RecordsSound s :=
  ⟨(h .a).table, (h .a).slots, fun l => (h l).engine.exchange, fun l => (h l).engine.pending, (h .a).missed,
    (h .a).records⟩

/-- One line has changed, in a way that keeps its exchange and what the lines share in range. -/
theorem recordsSound_of_line (h : RecordsSound s) (he : ∀ m, m ≠ l → t.engine m = s.engine m) (ok : RecordsOk l t) :
    RecordsSound t := by
  refine recordsSound_of_ok fun m => ?_
  by_cases hm : m = l
  · exact hm ▸ ok
  · refine ⟨ok.table, ok.slots, ok.missed, ok.records, ?_⟩
    rw [he m hm]
    exact (recordsOk_of_recordsSound h m).engine

/-- The relations within an exchange read the line state and the exchange only. -/
theorem engineRecordsSound_of_same {e f : Engine} (h : EngineRecordsSound e) (hs : f.state = e.state)
    (hx : f.exchange = e.exchange) : EngineRecordsSound f := by
  refine ⟨fun x hf => ?_, fun x o hf => h.pending x o (hx ▸ hf)⟩
  obtain ⟨hrequest, hattempts, hretry, hassembly⟩ := h.exchange x (hx ▸ hf)
  exact ⟨hrequest, hattempts, by rwa [hs], by rwa [hs]⟩

theorem engineRecordsSound_none {e : Engine} (h : e.exchange = none) : EngineRecordsSound e :=
  ⟨fun x hx => absurd (h.symm.trans hx) (by simp), fun x o hx => absurd (h.symm.trans hx) (by simp)⟩

/-- An engine that moves its exchange from one state of an attempt on to the next. -/
theorem engineRecordsSound_of_state {e f : Engine} (h : EngineRecordsSound e) (hx : f.exchange = e.exchange)
    (he : e.state ≠ .discarding) (hf : f.state ≠ .quiet) : EngineRecordsSound f := by
  refine ⟨fun x hfx => ?_, fun x o hfx => h.pending x o (hx ▸ hfx)⟩
  obtain ⟨hrequest, hattempts, -, hassembly⟩ := h.exchange x (hx ▸ hfx)
  exact ⟨hrequest, hattempts, fun hq => absurd hq hf, fun _ => hassembly he⟩

theorem tableSound_of_table (h : TableSound s) (ht : t.table = s.table) : TableSound t := fun i => by
  rw [ht]
  exact h i

theorem RecordsOk.of_same (h : RecordsOk l s) (ht : t.table = s.table) (hu : t.urgent = s.urgent)
    (hm : t.missed = s.missed) (hr : t.store = s.store) (hs : (t.engine l).state = (s.engine l).state)
    (hx : (t.engine l).exchange = (s.engine l).exchange) : RecordsOk l t := by
  refine ⟨tableSound_of_table h.table ht, ?_, ?_, ?_, engineRecordsSound_of_same h.engine hs hx⟩
  · rw [hu]
    exact h.slots
  · rw [hm]
    exact h.missed
  · rw [hr]
    exact h.records

theorem RecordsOk.setEngine (h : RecordsOk l s) {e : Engine} (he : EngineRecordsSound e) :
    RecordsOk l (s.setEngine l e) :=
  ⟨h.table, h.slots, h.missed, h.records, by rwa [State.setEngine_engine_same]⟩

theorem RecordsOk.updEngine (h : RecordsOk l s) {f : Engine → Engine} (he : EngineRecordsSound (f (s.engine l))) :
    RecordsOk l (s.updEngine l f) := h.setEngine he

theorem recordsSound_of_same (h : RecordsSound s) (ht : t.table = s.table) (hu : t.urgent = s.urgent)
    (hm : t.missed = s.missed) (hr : t.store = s.store) (he : t.engines = s.engines) : RecordsSound t := by
  refine recordsSound_of_ok fun l => ?_
  have hengine : t.engine l = s.engine l := congrArg (·.get l) he
  exact (recordsOk_of_recordsSound h l).of_same ht hu hm hr (by rw [hengine]) (by rw [hengine])

theorem LineStep.recordsSound (hstep : LineStep l s t) (h : RecordsSound s) (ok : RecordsOk l s → RecordsOk l t) :
    RecordsSound t := recordsSound_of_line h hstep.engine (ok (recordsOk_of_recordsSound h l))

end

/-! ### Requests, entries and assemblies -/

theorem requestInRange_of_image {v : Vector Byte 32} (h : RequestImageInRange v) :
    RequestInRange (requestOfImage v) := by
  obtain ⟨haddress, hlength, hexpectation, htimeout, hretry⟩ := h
  refine ⟨haddress, ?_, fun n hn => ?_, htimeout, hretry⟩
  · exact (List.length_take_le _ _).trans hlength
  · by_cases hany : v[4] = 0xFF
    · simp [hany] at hn
    · rw [requestOfImage, if_neg hany] at hn
      cases hn
      exact hexpectation.resolve_right hany

theorem requestInRange_of_slotOfStaging {v : Vector Byte 32} {x : Slot} (h : slotOfStaging v = some x) :
    RequestInRange x.request := by
  by_cases hv : RequestImageInRange v
  · rw [slotOfStaging_inRange hv] at h
    cases h
    exact requestInRange_of_image hv
  · rw [slotOfStaging_out_of_range hv] at h
    cases h

/-- A committed entry is in range: its phase is 0, and its divisor is the high half of a byte plus 1 (R7, R163). -/
theorem entrySound_of_entryOfStaging {v : Vector Byte 32} {e : Entry} (h : entryOfStaging v = some e) :
    EntrySound e := by
  rw [entryOfStaging_eq] at h
  split at h
  · next hv =>
    cases h
    have hrequest := requestInRange_of_image hv
    have hbyte := v[7].isLt
    have hdivisor : v[7].toNat / 16 + 1 ≤ 16 := by omega
    exact ⟨Nat.succ_pos _, hdivisor, hrequest.length, hrequest.expectation, hrequest.timeout.2, hrequest.retryLimit,
      fun _ => hrequest⟩
  · cases h

theorem entrySound_setPhase {e : Entry} (h : EntrySound e) {n : Nat} (hn : n < e.divisor) :
    EntrySound { e with phase := n } :=
  ⟨hn, h.divisor, h.length, h.expectation, h.timeout, h.retryLimit, h.request⟩

theorem Entry.reset_sound : EntrySound Entry.reset where
  phase := Nat.one_pos
  divisor := by decide
  length := by decide
  expectation := fun n hn => by cases hn; exact Nat.zero_le _
  timeout := Nat.zero_le _
  retryLimit := Nat.zero_le _
  request := fun h => by cases h

theorem setTable_tableSound {s : State} (i : Fin 32) {e : Entry} (h : TableSound s) (he : EntrySound e) :
    TableSound (s.setTable (s.table.set i e)) := fun j => by
  by_cases hj : i.val = j.val
  · simp [hj, he]
  · simpa [hj] using h j

theorem assemblySound_empty : AssemblySound Assembly.empty where
  length := Nat.zero_le _
  payload := rfl
  bounded := fun h => absurd h (by decide)

/-- A character that passes its check leaves the assembly sound: a LEN is at most 16, and past it only payload goes on
(R109). -/
theorem assemblySound_of_goesOn {q : Request} {a b : Assembly} {d : Byte} {error : Bool} (h : AssemblySound a)
    (hj : judge q a d error = .goesOn b) : AssemblySound b := by
  obtain rfl := judge_goesOn hj
  obtain ⟨hlength, hpayload, hbounded⟩ := h
  have hlen : a.position = 4 → d.toNat ≤ 16 := fun hp => by
    by_contra hlong
    simp [judge, hp, hlong] at hj
    split at hj <;> cases hj
  have hmore : 5 ≤ a.position → a.position < 5 + a.length := fun hp => by
    by_contra hend
    obtain ⟨n, hn⟩ := Nat.exists_eq_add_of_le' hp
    unfold judge at hj
    rw [hn] at hj hend
    simp only [hend, if_false] at hj
    (repeat' split at hj) <;> cases hj
  constructor
  · show (if a.position = 4 then d.toNat else a.length) ≤ 16
    split
    · next hp => exact hlen hp
    · exact hlength
  · change (if 5 ≤ a.position ∧ a.position < 5 + a.length then a.payload ++ [d] else a.payload).length =
      a.position + 1 - 5
    split
    · rw [List.length_append, List.length_singleton]
      omega
    · next hp =>
      have hbefore : ¬5 ≤ a.position := fun h5 => hp ⟨h5, hmore h5⟩
      omega
  · show 5 ≤ a.position + 1 → a.position + 1 ≤ 5 + if a.position = 4 then d.toNat else a.length
    intro h5
    split
    · omega
    · have := hmore (by omega)
      omega

/-- A reply that is judged valid carries at most 16 payload bytes (R105, R112). -/
theorem judge_valid_payload {q : Request} {a : Assembly} {d : Byte} {error : Bool} {y : Reply} (h : AssemblySound a)
    (hj : judge q a d error = .valid y) : y.payload.length ≤ 16 := by
  have hpayload : y.payload = a.payload := by
    unfold judge at hj
    (repeat' split at hj) <;> cases hj
    rfl
  have hlength := h.length
  have hbound := h.bounded
  rw [hpayload, h.payload]
  omega

theorem judge_fails_outcome {q : Request} {a : Assembly} {d : Byte} {error : Bool} {o : OutcomeCode}
    (hj : judge q a d error = .fails o) : o = .charError ∨ o = .badFrame ∨ o = .checkError := by
  unfold judge at hj
  (repeat' split at hj) <;> cases hj <;> decide

/-! ### Records -/

/-- A final outcome and the reply that comes with it: a reply exactly with OK and NODE_FAULT, a status of 0 exactly with
OK (R58, R112, R128). -/
structure OutcomeFits (o : OutcomeCode) (y : Option Reply) : Prop where
  final : o ≠ .cancelled
  reply : y.isSome = true ↔ (o = .ok ∨ o = .nodeFault)
  status : ∀ z, y = some z → (o = .ok ↔ z.status = 0)
  payload : ∀ z, y = some z → z.payload.length ≤ 16

theorem outcomeFits_none {o : OutcomeCode} (hc : o ≠ .cancelled) (hok : o ≠ .ok) (hfault : o ≠ .nodeFault) :
    OutcomeFits o none :=
  ⟨hc, by simp [hok, hfault], nofun, nofun⟩

theorem outcomeFits_valid {y : Reply} (h : y.payload.length ≤ 16) :
    OutcomeFits (if y.status = 0 then .ok else .nodeFault) (some y) := by
  by_cases hs : y.status = 0
  · rw [if_pos hs]
    refine ⟨by decide, by simp, fun z hz => ?_, fun z hz => ?_⟩ <;> obtain rfl := Option.some.inj hz
    · exact iff_of_true rfl hs
    · exact h
  · rw [if_neg hs]
    refine ⟨by decide, by simp, fun z hz => ?_, fun z hz => ?_⟩ <;> obtain rfl := Option.some.inj hz
    · exact iff_of_false (by decide) hs
    · exact h

theorem entryId_toNat (i : Fin 32) : (BitVec.ofNat 8 i.val : Byte).toNat ≤ 31 := by
  rw [toNat_ofNat_byte (by omega)]
  omega

/-- The record an exchange in range leaves is in range, with a missed count in range. -/
theorem recordOf_sound {l : Line} {e : Engine} {x : Exchange} {o : OutcomeCode} {y : Option Reply} {missed : Nat}
    (hx : ExchangeSound e x) (hy : OutcomeFits o y) (hm : missed ≤ 255) : RecordSound (recordOf l x o y missed) := by
  have hretry := hx.request.retryLimit
  obtain ⟨hfirst, hlast⟩ := hx.attempts
  have hattempts : x.attempts ≤ 4 := by omega
  have hcancelled : x.attempts = 0 ↔ o = .cancelled := by
    have := hy.final
    constructor
    · omega
    · exact fun h => absurd h this
  have hpayload : (match y with | some z => z.payload | none => []).length ≤ 16 := by
    cases hz : y with
    | none => exact Nat.zero_le _
    | some z => exact hy.payload z hz
  unfold recordOf
  cases x.work with
  | routine i p r =>
    exact ⟨hx.request.address, fun _ => entryId_toNat i, hattempts, hcancelled, hy.reply, hy.status, hpayload, hm,
      fun h => by cases h⟩
  | urgent tag =>
    exact ⟨hx.request.address, nofun, hattempts, hcancelled, hy.reply, hy.status, hpayload,
      Nat.zero_le _, fun _ => ⟨rfl, rfl⟩⟩

theorem cancelledRecord_sound {x : Slot} (h : RequestInRange x.request) : RecordSound (cancelledRecord x) where
  address := h.address
  entry := fun hs => by cases hs
  attempts := Nat.zero_le _
  cancelled := by simp [cancelledRecord]
  reply := by simp [cancelledRecord]
  status := fun y hy => by cases hy
  payload := Nat.zero_le _
  missed := Nat.zero_le _
  urgent := fun _ => ⟨rfl, rfl⟩

/-! ### The store -/

theorem saturate255_le (n : Nat) : saturate255 n ≤ 255 := Nat.min_le_right ..

theorem missed_set_le {v : Vector Nat 32} (h : ∀ i : Fin 32, v[i] ≤ 255) (j : Fin 32) {n : Nat} (hn : n ≤ 255)
    (i : Fin 32) : (v.set j n)[i] ≤ 255 := by
  by_cases hij : j.val = i.val
  · simp [hij, hn]
  · simpa [hij] using h i

theorem withoutCandidates_subset (i : Fin 32) (store : List Record) {r : Record}
    (h : r ∈ withoutCandidates i store) : r ∈ store := by
  rcases List.mem_append.1 h with h | h
  · exact List.mem_of_mem_take h
  · exact List.mem_of_mem_tail (List.mem_of_mem_filter h)

section
variable {l : Line} {s : State}

theorem appendKeepAll_recordsOk (h : RecordsOk l s) (i : Fin 32) {make : Nat → Record}
    (hmake : ∀ n, n ≤ 255 → RecordSound (make n)) : RecordsOk l (appendKeepAll i make s) := by
  unfold appendKeepAll
  split
  · refine ⟨h.table, h.slots, missed_set_le h.missed i (Nat.zero_le _), fun r hr => ?_, h.engine⟩
    rcases List.mem_append.1 hr with hr | hr
    · exact h.records r hr
    · rw [List.mem_singleton.1 hr]
      exact hmake _ (h.missed i)
  · exact ⟨h.table, h.slots, missed_set_le h.missed i (saturate255_le _), h.records, h.engine⟩

theorem appendRoutine_recordsOk (h : RecordsOk l s) (i : Fin 32) (p : Policy) {make : Nat → Record}
    (hmake : ∀ n, n ≤ 255 → RecordSound (make n)) : RecordsOk l (appendRoutine i p make s) := by
  unfold appendRoutine
  split
  · exact appendKeepAll_recordsOk h i hmake
  · split
    · exact appendKeepAll_recordsOk h i hmake
    · refine ⟨h.table, h.slots, missed_set_le h.missed i (Nat.zero_le _), fun r hr => ?_, h.engine⟩
      rcases List.mem_append.1 hr with hr | hr
      · exact h.records r (withoutCandidates_subset i _ hr)
      · rw [List.mem_singleton.1 hr]
        exact hmake _ (saturate255_le _)

theorem appendUrgent_recordsOk (h : RecordsOk l s) {r : Record} (hr : RecordSound r) :
    RecordsOk l (appendUrgent l r s) := by
  refine ⟨h.table, fun x hx => h.slots x ((removeInFlight_sublist l s.urgent).subset hx), h.missed, fun r' hr' => ?_,
    h.engine⟩
  rcases List.mem_append.1 hr' with hr' | hr'
  · exact h.records r' hr'
  · rw [List.mem_singleton.1 hr']
    exact hr

theorem deliverRecord_recordsOk (h : RecordsOk l s) {e : Engine} {x : Exchange} {o : OutcomeCode} {y : Option Reply}
    (hx : ExchangeSound e x) (hy : OutcomeFits o y) : RecordsOk l (deliverRecord l x o y s) := by
  unfold deliverRecord
  split
  · exact appendRoutine_recordsOk h _ _ fun n hn => recordOf_sound hx hy hn
  · exact appendUrgent_recordsOk h (recordOf_sound hx hy (Nat.zero_le _))

theorem cancelQueued_recordsOk (selected : Line → Bool) (h : RecordsOk l s) :
    RecordsOk l (cancelQueued selected s) := by
  refine ⟨h.table, fun x hx => h.slots x (List.mem_of_mem_filter hx), h.missed, fun r hr => ?_, h.engine⟩
  rcases List.mem_append.1 hr with hr | hr
  · exact h.records r hr
  · obtain ⟨x, hx, rfl⟩ := List.mem_map.1 hr
    exact cancelledRecord_sound (h.slots x (List.mem_of_mem_filter hx))

/-! ### Rounds and the choice -/

theorem setLatched_recordsOk (f : Latched → Latched) (h : RecordsOk l s) : RecordsOk l (setLatched f s) :=
  h.of_same rfl rfl rfl rfl rfl rfl

theorem updController_recordsOk (f : Controller → Controller) (h : RecordsOk l s) :
    RecordsOk l (s.updController l f) := h.of_same rfl rfl rfl rfl rfl rfl

@[simp] theorem enterRoundState_table (l : Line) (r : RoundState) (s : State) :
    (enterRoundState l r s).table = s.table := by
  unfold enterRoundState
  dsimp only
  split <;> rfl

@[simp] theorem enterRoundState_missed (l : Line) (r : RoundState) (s : State) :
    (enterRoundState l r s).missed = s.missed := by
  unfold enterRoundState
  dsimp only
  split <;> rfl

theorem enterRoundState_recordsOk (r : RoundState) (h : RecordsOk l s) : RecordsOk l (enterRoundState l r s) :=
  h.of_same (by simp) (by simp) (by simp) (by simp) (by simp) (by simp)

theorem endRound_recordsOk (h : RecordsOk l s) : RecordsOk l (endRound l s) :=
  enterRoundState_recordsOk _ (setLatched_recordsOk _ (updController_recordsOk _ h))

theorem offlineQuery_table (l : Line) (a : Byte) (s : State) : (offlineQuery l a s).1.table = s.table := by
  unfold offlineQuery
  split
  · rfl
  · split <;> rfl

/-- A visit keeps the entries in range, and one that yields has found an enabled entry (R6, R28). -/
theorem visitEntry_tableSound (l : Line) (i : Fin 32) {s : State} (h : TableSound s) :
    TableSound (visitEntry l i s).1 ∧ ((visitEntry l i s).2 = true → (visitEntry l i s).1.table[i].enabled = true) := by
  have hi := h i
  have hphase := hi.phase
  unfold visitEntry
  dsimp only
  split
  · next henabled =>
    split
    · have hreload := setTable_tableSound i h (entrySound_setPhase hi (n := s.table[i].divisor - 1) (by omega))
      have hfound : (s.table.set i { s.table[i] with phase := s.table[i].divisor - 1 })[i].enabled = true := by
        simpa using henabled.1
      split
      · exact ⟨hreload, fun _ => hfound⟩
      · have htable := offlineQuery_table l s.table[i].request.address
          (s.setTable (s.table.set i { s.table[i] with phase := s.table[i].divisor - 1 }))
        exact ⟨tableSound_of_table hreload htable, fun _ => by
          simp only [htable]
          exact hfound⟩
    · refine ⟨setTable_tableSound i h (entrySound_setPhase hi (n := s.table[i].phase - 1) (by omega)),
        fun hyields => ?_⟩
      cases hyields
  · exact ⟨h, fun hyields => by cases hyields⟩

theorem scanEntries_tableSound (l : Line) (is : List (Fin 32)) {s t : State} {found : Option (Fin 32)}
    (h : TableSound s) (hs : scanEntries l is s = (t, found)) :
    TableSound t ∧ ∀ i, found = some i → t.table[i].enabled = true := by
  induction is generalizing s with
  | nil =>
    cases hs
    exact ⟨h, fun i hi => by cases hi⟩
  | cons i rest ih =>
    obtain ⟨hsound, henabled⟩ := visitEntry_tableSound l i h
    unfold scanEntries at hs
    split at hs
    · next hv =>
      rw [hv] at hsound henabled
      cases hs
      exact ⟨hsound, fun j hj => by cases hj; exact henabled rfl⟩
    · next hv =>
      rw [hv] at hsound
      exact ih hsound hs

/-- A scan leaves all but the table, which stays in range. -/
theorem scanEntries_recordsOk {is : List (Fin 32)} {t : State} {found : Option (Fin 32)} (h : RecordsOk l s)
    (hs : scanEntries l is s = (t, found)) : RecordsOk l t := by
  obtain ⟨he, -, hu, hr, hm, -⟩ := scanEntries_same l is s
  obtain ⟨htable, -⟩ := scanEntries_tableSound l is h.table hs
  rw [hs] at he hu hr hm
  have hengine : t.engine l = s.engine l := congrArg (·.get l) he
  refine ⟨htable, ?_, ?_, ?_, ?_⟩
  · rw [hu]
    exact h.slots
  · rw [hm]
    exact h.missed
  · rw [hr]
    exact h.records
  · rw [hengine]
    exact h.engine

/-- The walker hands over an enabled entry (R30). -/
theorem askWalker_recordsOk {t : State} {found : Option (Fin 32)} (h : RecordsOk l s)
    (ha : askWalker l s = (t, found)) :
    RecordsOk l t ∧ ∀ i, found = some i → t.table[i].enabled = true := by
  unfold askWalker at ha
  split at ha
  · split at ha
    · next hs =>
      cases ha
      obtain ⟨-, henabled⟩ := scanEntries_tableSound l _ h.table hs
      exact ⟨updController_recordsOk _ (scanEntries_recordsOk h hs), henabled⟩
    · next hs =>
      cases ha
      exact ⟨endRound_recordsOk (scanEntries_recordsOk h hs), fun i hi => by cases hi⟩
  · cases ha
    exact ⟨h, fun i hi => by cases hi⟩

/-- An attempt of an exchange in range, on the line with an empty reply assembly. -/
theorem enterLead_recordsSound {e : Engine} {x : Exchange} (hx : e.exchange = some x) (hr : RequestInRange x.request)
    (ha : 1 ≤ x.attempts ∧ x.attempts ≤ x.request.retryLimit + 1) (hp : x.pendingOutcome = none)
    (hy : x.assembly = Assembly.empty) : EngineRecordsSound e.enterLead := by
  refine ⟨fun z hz => ?_, fun z o hz ho => ?_⟩ <;> rw [enterLead_exchange, hx] at hz <;> cases hz
  · refine ⟨hr, ha, fun hq => ?_, fun _ => hy ▸ assemblySound_empty⟩
    rcases enterLead_state e with hs | hs <;> rw [hs] at hq <;> cases hq
  · rw [hp] at ho
    cases ho

theorem startExchange_recordsOk (h : RecordsOk l s) (w : Work) {q : Request} (hq : RequestInRange q) :
    RecordsOk l (startExchange l w q s) :=
  h.updEngine (enterLead_recordsSound rfl hq ⟨Nat.le_refl 1, Nat.le_add_left 1 _⟩ rfl rfl)

theorem markInFlight_requests (l : Line) (q : List Slot) :
    (markInFlight l q).map (·.request) = q.map (·.request) := by
  induction q with
  | nil => rfl
  | cons x rest ih =>
    unfold markInFlight
    split <;> simp [*]

theorem takeUrgent_recordsOk (h : RecordsOk l s) : RecordsOk l (takeUrgent l s) := by
  unfold takeUrgent
  split
  · exact h
  · next x hx =>
    have hmarked : RecordsOk l (s.setUrgent (markInFlight l s.urgent)) := by
      refine ⟨h.table, fun y hy => ?_, h.missed, h.records, h.engine⟩
      have hrequest := List.mem_map_of_mem (f := Slot.request) hy
      rw [State.setUrgent_urgent, markInFlight_requests] at hrequest
      obtain ⟨z, hz, hzy⟩ := List.mem_map.1 hrequest
      exact hzy ▸ h.slots z hz
    exact startExchange_recordsOk hmarked _ (h.slots x (List.mem_of_find?_eq_some hx))

theorem makeChoice_recordsOk (h : RecordsOk l s) : RecordsOk l (makeChoice l s) := by
  unfold makeChoice
  split
  · split
    · exact takeUrgent_recordsOk h
    · split
      · next i ha =>
        obtain ⟨hasked, henabled⟩ := askWalker_recordsOk h ha
        exact startExchange_recordsOk hasked _ ((hasked.table i).request (henabled i rfl))
      · next ha =>
        obtain ⟨hasked, -⟩ := askWalker_recordsOk h ha
        exact takeUrgent_recordsOk hasked
  · exact h

theorem startRoundAndChoose_recordsOk (h : RecordsOk l s) : RecordsOk l (startRoundAndChoose l s) :=
  makeChoice_recordsOk (updController_recordsOk _ h)

theorem trigger_recordsOk (h : RecordsOk l s) : RecordsOk l (trigger l s) := by
  unfold trigger
  dsimp only
  split
  · refine startRoundAndChoose_recordsOk ?_
    split
    · exact updController_recordsOk _ h
    · exact h
  · split
    · exact setLatched_recordsOk _ h
    · exact h
  · exact h
  · exact h

theorem expireTimer_recordsOk (h : RecordsOk l s) : RecordsOk l (expireTimer l s) := by
  unfold expireTimer
  split
  · exact h
  · exact trigger_recordsOk (updController_recordsOk _ h)

theorem tickTimer_recordsOk (h : RecordsOk l s) : RecordsOk l (tickTimer l s) := by
  unfold tickTimer
  split
  · exact h
  · split
    · exact expireTimer_recordsOk h
    · exact updController_recordsOk _ h

theorem endGap_recordsOk (h : RecordsOk l s) : RecordsOk l (endGap l s) := by
  unfold endGap
  split
  · exact h
  · exact startRoundAndChoose_recordsOk h

theorem syncTrigger_recordsOk (v : Level) (h : RecordsOk l s) : RecordsOk l (syncTrigger l v s) := by
  unfold syncTrigger
  dsimp only
  split
  · exact trigger_recordsOk h
  · exact h

theorem halt_recordsOk (h : RecordsOk l s) : RecordsOk l (halt l s) := by
  unfold halt
  split
  · exact h
  · exact h
  · exact setLatched_recordsOk _ (enterRoundState_recordsOk _ h)
  · split
    · exact enterRoundState_recordsOk _ h
    · exact setLatched_recordsOk _ (enterRoundState_recordsOk _ (updController_recordsOk _ h))

theorem beginRounds_recordsOk (h : RecordsOk l s) : RecordsOk l (beginRounds l s) := by
  unfold beginRounds
  split
  · exact startRoundAndChoose_recordsOk h
  · exact updController_recordsOk _ h
  · exact updController_recordsOk _ h

/-! ### Exchanges end -/

theorem updateNode_recordsOk (a : Byte) (o : OutcomeCode) (h : RecordsOk l s) : RecordsOk l (updateNode l a o s) := by
  unfold updateNode
  split
  · exact h
  · exact h.of_same rfl rfl rfl rfl rfl rfl

theorem reportOf_recordsOk (w : Work) (h : RecordsOk l s) : RecordsOk l (reportOf l w s) := by
  unfold reportOf
  split
  · unfold reportCompletion
    dsimp only
    split
    · exact setLatched_recordsOk _ (enterRoundState_recordsOk _ (updController_recordsOk _ h))
    · exact updController_recordsOk _ h
  · exact h

theorem completeExchange_recordsOk (h : RecordsOk l s) {x : Exchange} {o : OutcomeCode} {y : Option Reply}
    (hx : (s.engine l).exchange = some x) (hy : OutcomeFits o y) : RecordsOk l (completeExchange l x o y s) := by
  have hdelivered := deliverRecord_recordsOk h (h.engine.exchange x hx) hy
  exact (reportOf_recordsOk x.work (updateNode_recordsOk x.request.address o hdelivered)).updEngine
    (engineRecordsSound_none rfl)

theorem endAttempt_recordsOk (h : RecordsOk l s) {o : OutcomeCode} {y : Option Reply} (hy : OutcomeFits o y) :
    RecordsOk l (endAttempt l o y s) := by
  unfold endAttempt
  split
  · exact h
  · next x hx =>
    obtain ⟨hrequest, hattempts, -, -⟩ := h.engine.exchange x hx
    split
    · next hretry =>
      refine h.updEngine ⟨fun z hz => ?_, fun z o' hz ho => ?_⟩
      · obtain rfl := Option.some.inj hz
        exact ⟨hrequest, hattempts, fun _ => hretry.2, fun _ => assemblySound_empty⟩
      · obtain rfl := Option.some.inj hz
        cases ho
    · exact completeExchange_recordsOk h hx hy

theorem abortExchange_recordsOk (h : RecordsOk l s) : RecordsOk l (abortExchange l s) := by
  unfold abortExchange
  split
  · exact h
  · next x hx =>
    have hfits : OutcomeFits .aborted none := outcomeFits_none (by decide) (by decide) (by decide)
    exact (deliverRecord_recordsOk h (h.engine.exchange x hx) hfits).updEngine (engineRecordsSound_none rfl)

theorem forceStop_recordsOk (h : RecordsOk l s) : RecordsOk l (forceStop l s) := by
  unfold forceStop
  split
  · exact h
  · exact setLatched_recordsOk _ (enterRoundState_recordsOk _ (updController_recordsOk _ h))

/-- The abort comes first, so that no exchange is left when the line goes DISABLED (R132). -/
theorem disable_recordsOk (h : RecordsOk l s) : RecordsOk l (disable l s) := by
  have hletGo : RecordsOk l (s.updEngine l Engine.letGo) := h.of_same rfl rfl rfl rfl (by simp [Engine.letGo])
    (by simp [Engine.letGo])
  have haborted := abortExchange_recordsOk hletGo
  have hnone : ((abortExchange l (s.updEngine l Engine.letGo)).engine l).exchange = none := by
    unfold abortExchange
    split
    · next hx => exact hx
    · simp
  obtain ⟨-, -, -, hexchange, -⟩ := forceStop_rest l (abortExchange l (s.updEngine l Engine.letGo))
  exact (cancelQueued_recordsOk _ (forceStop_recordsOk haborted)).updEngine
    (engineRecordsSound_none (hexchange.trans hnone))

/-! ### Counts and the receiver -/

theorem quietGapDone_recordsOk (h : RecordsOk l s) : RecordsOk l (quietGapDone l s) := by
  unfold quietGapDone
  dsimp only
  split
  · next hquiet =>
    split
    · next x hx =>
      obtain ⟨hrequest, hattempts, hretry, -⟩ := h.engine.exchange x hx
      have hleft := hretry hquiet.1
      exact h.setEngine (enterLead_recordsSound rfl hrequest ⟨Nat.le_add_left 1 _, Nat.succ_le_succ hleft⟩ rfl rfl)
    · next hx => exact makeChoice_recordsOk (h.setEngine (engineRecordsSound_none hx))
  · exact h

theorem leadDone_recordsOk (h : RecordsOk l s) : RecordsOk l (leadDone l s) := by
  unfold leadDone
  split
  · next hs =>
    exact h.updEngine (engineRecordsSound_of_state h.engine rfl (by rw [hs]; decide) (by simp [Engine.enterSending]))
  · exact h

/-- DE is released from SENDING and from LAG only. -/
theorem releaseDe_recordsOk (h : RecordsOk l s) (hs : (s.engine l).state ≠ .discarding) :
    RecordsOk l (releaseDe l s) := by
  unfold releaseDe
  split
  · exact h
  · dsimp only
    split
    · have hon : RecordsOk l
          (s.updEngine l fun e => { e with receiver := .waiting, idleCount := BitCount.zero }) :=
        h.updEngine (engineRecordsSound_of_same h.engine rfl rfl)
      exact endAttempt_recordsOk hon (outcomeFits_none (by decide) (by decide) (by decide))
    · exact h.updEngine (engineRecordsSound_of_state h.engine rfl hs (by simp))

theorem sendingDone_recordsOk (h : RecordsOk l s) : RecordsOk l (sendingDone l s) := by
  unfold sendingDone
  split
  · next hs =>
    have hdiscarding : (s.engine l).state ≠ .discarding := by rw [hs]; decide
    split
    · exact releaseDe_recordsOk h hdiscarding
    · exact h.updEngine (engineRecordsSound_of_state h.engine rfl hdiscarding (by simp))
  · exact h

theorem lagDone_recordsOk (h : RecordsOk l s) : RecordsOk l (lagDone l s) := by
  unfold lagDone
  split
  · next hs => exact releaseDe_recordsOk h (by rw [hs]; decide)
  · exact h

theorem replyTimeoutDone_recordsOk (h : RecordsOk l s) : RecordsOk l (replyTimeoutDone l s) := by
  unfold replyTimeoutDone
  split
  · exact endAttempt_recordsOk h (outcomeFits_none (by decide) (by decide) (by decide))
  · exact h

theorem gapLimitDone_recordsOk (h : RecordsOk l s) : RecordsOk l (gapLimitDone l s) := by
  unfold gapLimitDone
  split
  · exact endAttempt_recordsOk h (outcomeFits_none (by decide) (by decide) (by decide))
  · exact h

/-- The outcome that DISCARDING ends with is a failed check's. -/
theorem discardDone_recordsOk (h : RecordsOk l s) : RecordsOk l (discardDone l s) := by
  unfold discardDone
  split
  · split
    · exact h
    · next o ho =>
      obtain ⟨x, hx, hpending⟩ := Option.bind_eq_some_iff.1 ho
      have hfits : OutcomeFits o none := by
        rcases h.engine.pending x o hx hpending with rfl | rfl | rfl <;>
          exact outcomeFits_none (by decide) (by decide) (by decide)
      exact endAttempt_recordsOk h hfits
  · exact h

theorem fall_recordsOk (h : RecordsOk l s) : RecordsOk l (s.updEngine l Engine.fall) := by
  refine h.updEngine (engineRecordsSound_of_same h.engine ?_ ?_) <;> unfold Engine.fall <;> split <;> rfl

theorem returnToMark_recordsOk (h : RecordsOk l s) : RecordsOk l (s.updEngine l Engine.returnToMark) := by
  refine h.updEngine (engineRecordsSound_of_same h.engine ?_ ?_) <;> unfold Engine.returnToMark <;> split <;> rfl

/-- A confirmed start bit takes READY, which has no exchange, to QUIET, and AWAITING to RECEIVING (R119, R120, R127). -/
theorem midStart_recordsOk (v : Level) (hok : LineOk l s) (h : RecordsOk l s) :
    RecordsOk l (s.updEngine l (Engine.midStart v)) := by
  refine h.updEngine ?_
  unfold Engine.midStart
  split
  · cases v with
    | high => exact engineRecordsSound_of_same h.engine rfl rfl
    | low =>
      unfold Engine.confirmStart
      cases hs : (s.engine l).state
      case awaiting => exact engineRecordsSound_of_state h.engine rfl (by rw [hs]; decide) (by simp)
      case ready => exact engineRecordsSound_none (hok.ready hs)
      all_goals exact engineRecordsSound_of_same h.engine hs.symm rfl
  · exact h.engine

theorem judgeReply_recordsOk (d : Byte) (error : Bool) (h : RecordsOk l s) (hs : (s.engine l).state = .receiving) :
    RecordsOk l (judgeReply l d error s) := by
  unfold judgeReply
  split
  · exact h
  · next x hx =>
    obtain ⟨hrequest, hattempts, -, hassembly⟩ := h.engine.exchange x hx
    have hsound := hassembly (by rw [hs]; decide)
    split
    · next a hj =>
      refine h.updEngine ⟨fun z hz => ?_, fun z o hz ho => ?_⟩
      · obtain rfl := Option.some.inj hz
        refine ⟨hrequest, hattempts, fun hq => ?_, fun _ => assemblySound_of_goesOn hsound hj⟩
        rw [show (s.engine l).state = .quiet from hq] at hs
        cases hs
      · obtain rfl := Option.some.inj hz
        exact h.engine.pending x o hx ho
    · next o hj =>
      refine h.updEngine ⟨fun z hz => ?_, fun z o' hz ho => ?_⟩
      · obtain rfl := Option.some.inj hz
        exact ⟨hrequest, hattempts, nofun, fun hd => absurd rfl hd⟩
      · obtain rfl := Option.some.inj hz
        cases ho
        exact judge_fails_outcome hj
    · next y hj => exact endAttempt_recordsOk h (outcomeFits_valid (judge_valid_payload hsound hj))

theorem deliverCharacter_recordsOk (d : Byte) (b : Bool) (v : Level) (h : RecordsOk l s) :
    RecordsOk l (deliverCharacter l d b v s) := by
  unfold deliverCharacter
  dsimp only
  split
  · have hended : RecordsOk l (s.setEngine l ((s.engine l).endCharacter v)) :=
      h.setEngine (engineRecordsSound_of_same h.engine rfl rfl)
    cases hs : (s.engine l).state
    case quiet => exact setLatched_recordsOk _ hended
    case ready => exact setLatched_recordsOk _ hended
    case receiving =>
      refine judgeReply_recordsOk d _ hended ?_
      rw [State.setEngine_engine_same]
      exact hs
    all_goals exact hended
  · exact h

end

/-! ### The operations -/

theorem tickTimer_recordsSound (l : Line) {s : State} (h : RecordsSound s) : RecordsSound (tickTimer l s) :=
  (tickTimer_lineStep l s).recordsSound h tickTimer_recordsOk

theorem deliverTick_recordsSound {s : State} (h : RecordsSound s) : RecordsSound (deliverTick s) :=
  tickTimer_recordsSound .b (tickTimer_recordsSound .a (recordsSound_of_same h rfl rfl rfl rfl rfl))

theorem syncTrigger_recordsSound (l : Line) (v : Level) {s : State} (h : RecordsSound s) :
    RecordsSound (syncTrigger l v s) :=
  (syncTrigger_lineStep l v s).recordsSound h (syncTrigger_recordsOk v)

theorem syncLevelHeld_recordsSound (v : Level) {s : State} (h : RecordsSound s) : RecordsSound (syncLevelHeld v s) := by
  unfold syncLevelHeld
  split
  · exact recordsSound_of_same h rfl rfl rfl rfl rfl
  · split
    · exact h
    · exact syncTrigger_recordsSound .b v
        (syncTrigger_recordsSound .a v (recordsSound_of_same h rfl rfl rfl rfl rfl))

theorem walkStep_table_missed (s : State) : (walkStep s).table = s.table ∧ (walkStep s).missed = s.missed := by
  unfold walkStep walkVisit
  split
  · exact ⟨rfl, rfl⟩
  · dsimp only
    split <;> exact ⟨rfl, rfl⟩

theorem walkStep_recordsSound {s : State} (h : RecordsSound s) : RecordsSound (walkStep s) := by
  obtain ⟨he, -, hu, hr⟩ := walkStep_same s
  obtain ⟨ht, hm⟩ := walkStep_table_missed s
  exact recordsSound_of_same h ht hu hm hr he

theorem resetBlocks_recordsSound (s : State) : RecordsSound (resetBlocks s) := by
  refine recordsSound_of_ok fun l => ⟨fun i => ?_, nofun, fun i => ?_, nofun, ?_⟩
  · have hentry : (resetBlocks s).table[i] = Entry.reset := by simp [resetBlocks, State.reset]
    rw [hentry]
    exact Entry.reset_sound
  · have hmissed : (resetBlocks s).missed[i] = 0 := by simp [resetBlocks, State.reset]
    rw [hmissed]
    exact Nat.zero_le _
  · cases l <;> exact engineRecordsSound_none rfl

theorem happen_recordsSound (c : Instr) {s : State} (hlines : LinesSound s) (h : RecordsSound s) :
    RecordsSound (happen s c) := by
  have line (l : Line) (hk : rowKey c = (2, some l) ∨ rowKey c = (3, some l) ∨ rowKey c = (4, some l))
      (ok : RecordsOk l s → RecordsOk l (happen s c)) : RecordsSound (happen s c) :=
    (happen_lineStep l s hk).recordsSound h ok
  cases c
  case tick => exact deliverTick_recordsSound h
  case clearWalkVisit => exact walkStep_recordsSound h
  case leadEnd l => exact line l (.inl rfl) leadDone_recordsOk
  case sendingEnd l => exact line l (.inl rfl) sendingDone_recordsOk
  case lagEnd l => exact line l (.inl rfl) lagDone_recordsOk
  case replyTimeout l => exact line l (.inl rfl) replyTimeoutDone_recordsOk
  case quietGapEnd l => exact line l (.inl rfl) quietGapDone_recordsOk
  case truncated l => exact line l (.inl rfl) gapLimitDone_recordsOk
  case discardEnd l => exact line l (.inl rfl) discardDone_recordsOk
  case continuousGapEnd l => exact line l (.inr (.inr rfl)) endGap_recordsOk
  case midStartSample l v =>
    exact line l (.inr (.inl rfl)) (midStart_recordsOk v (ok_of_linesSound hlines l).line)
  case characterDelivered l d b v => exact line l (.inr (.inl rfl)) (deliverCharacter_recordsOk d b v)
  all_goals exact h

/-- Sound lines and sound records together: a line that comes into use has no exchange because the lines are sound. -/
abbrev LinesAndRecordsSound (s : State) : Prop := LinesSound s ∧ RecordsSound s

theorem recordsSound_of_operation {k : OperationKind} {s t : State} (hop : Operation k s t) (hlines : LinesSound s)
    (h : RecordsSound s) : RecordsSound t := by
  have ok := recordsOk_of_recordsSound h
  cases hop with
  | nothing => exact h
  | @configure _ l _ _ hd =>
    exact recordsSound_of_line h (fun m => State.updEngine_engine_ne s _)
      ((ok l).updEngine (engineRecordsSound_of_same (ok l).engine rfl rfl))
  | @enable _ l hd =>
    exact recordsSound_of_line h (fun m => State.updEngine_engine_ne s _)
      ((ok l).updEngine (engineRecordsSound_none ((ok_of_linesSound hlines l).line.disabled hd).2.1))
  | disable l => exact (disable_lineStep l s).recordsSound h disable_recordsOk
  | writeEntry i he =>
    exact recordsSound_of_ok fun l => ⟨setTable_tableSound i h.table (entrySound_of_entryOfStaging he),
      (ok l).slots, (ok l).missed, (ok l).records, (ok l).engine⟩
  | setRoundMode => exact recordsSound_of_same h rfl rfl rfl rfl rfl
  | @beginRounds _ l => exact (beginRounds_lineStep l s).recordsSound h beginRounds_recordsOk
  | halt l => exact (halt_lineStep l s).recordsSound h halt_recordsOk
  | setTiming => exact recordsSound_of_same h rfl rfl rfl rfl rfl
  | @enqueue _ x hx =>
    have henqueued : RecordsSound (s.setUrgent (s.urgent ++ [x])) := by
      refine recordsSound_of_ok fun l =>
        ⟨(ok l).table, fun y hy => ?_, (ok l).missed, (ok l).records, (ok l).engine⟩
      rcases List.mem_append.1 hy with hy | hy
      · exact h.slots y hy
      · rw [List.mem_singleton.1 hy]
        exact requestInRange_of_slotOfStaging hx
    exact (makeChoice_lineStep x.line _).recordsSound henqueued makeChoice_recordsOk
  | flush selected => exact recordsSound_of_ok fun l => cancelQueued_recordsOk selected (ok l)
  | setBurst => exact recordsSound_of_same h rfl rfl rfl rfl rfl
  | setHealth => exact recordsSound_of_same h rfl rfl rfl rfl rfl
  | takeChange => exact recordsSound_of_same h rfl rfl rfl rfl rfl
  | happen c => exact happen_recordsSound c hlines h
  | expireTimer l => exact (expireTimer_lineStep l s).recordsSound h expireTimer_recordsOk
  | syncLevelHeld v => exact syncLevelHeld_recordsSound v h
  | fall l => exact recordsSound_of_line h (fun m => State.updEngine_engine_ne s _) (fall_recordsOk (ok l))
  | returnToMark l =>
    exact recordsSound_of_line h (fun m => State.updEngine_engine_ne s _) (returnToMark_recordsOk (ok l))
  | param => exact recordsSound_of_same h rfl rfl rfl rfl rfl
  | release =>
    exact recordsSound_of_ok fun l => ⟨(ok l).table, (ok l).slots, (ok l).missed,
      fun r hr => h.records r (List.mem_of_mem_tail hr), (ok l).engine⟩
  | reset => exact resetBlocks_recordsSound s

theorem linesAndRecordsSound_keptByOperations : KeptByOperations LinesAndRecordsSound where
  same h hs := ⟨linesSound_keptByOperations.same h hs.1,
    recordsSound_of_same hs.2 h.table h.urgent h.missed h.store h.engines⟩
  operation hop hs := ⟨linesSound_keptByOperations.operation hop hs.1, recordsSound_of_operation hop hs.1 hs.2⟩

/-! ### A CLKIN period -/

theorem advanceLine_recordsOk {l : Line} {s : State} (h : RecordsOk l s) : RecordsOk l (advanceLine l s) := by
  obtain ⟨hstate, hexchange, -⟩ := (s.engine l).advance_same
  exact (updController_recordsOk _ h).updEngine (engineRecordsSound_of_same h.engine hstate hexchange)

theorem advanceLine_recordsSound (l : Line) {s : State} (h : RecordsSound s) : RecordsSound (advanceLine l s) :=
  (advanceLine_lineStep l s (Engine.advance_config _)).recordsSound h advanceLine_recordsOk

theorem advanceCounts_recordsSound {s : State} (h : RecordsSound s) : RecordsSound (advanceCounts s) :=
  advanceLine_recordsSound .b (advanceLine_recordsSound .a (recordsSound_of_same h rfl rfl rfl rfl rfl))

theorem clkinPeriod_linesAndRecordsSound {s : State} (h : LinesAndRecordsSound s) :
    LinesAndRecordsSound (clkinPeriod s) :=
  clkinPeriod_keeps
    (fun h => ⟨linesSound_of_same (advanceCounts_linesSound h.1) rfl rfl rfl rfl,
      recordsSound_of_same (advanceCounts_recordsSound h.2) rfl rfl rfl rfl rfl⟩)
    (fun c _ h => ⟨happen_linesSound c h.1, happen_recordsSound c h.1 h.2⟩) h

/-! ### The statement -/

/-- Settles O59: the operations and the CLKIN period keep the records in range beside sound lines. -/
theorem recordsStaySound : Obligations.RecordsStaySound := by
  intro s t hlines h hstep
  have hpending (s : State) (q : List Instr) (h : LinesAndRecordsSound s) : LinesAndRecordsSound (s.setPending q) :=
    ⟨linesSound_of_same h.1 rfl rfl rfl rfl, recordsSound_of_same h.2 rfl rfl rfl rfl rfl⟩
  exact (linesAndRecordsSound_keptByOperations.step (fun _ => clkinPeriod_linesAndRecordsSound) hpending ⟨hlines, h⟩
    hstep).2

end Sys2Proof.Machine
end

