-- ==== Sys2Proof/Proofs/SettingsSound.lean ====
section
/-!
SUPPORT and CERTIFICATES. Settings, timers, cursors and counts stay in range over every step (R18, R19, R62, R79, R80,
R98, R100, R113, R116, R119, R124). Within a CLKIN period a count may stand at its end until its row has happened: the
ranges are stated with the rows that are still owed.
-/

namespace Sys2Proof.Machine

open Sys2Proof.Safety

/-! ### Ranges with rows owed -/

/-- The ranges of one engine. The quiet gap may have run out, a mid-start sample may be due and a character complete
only while their rows are owed. -/
structure EngineInRange (gapOwed startOwed characterOwed : Prop) (e : Engine) : Prop where
  config : ConfigInRange e.config
  urgentCount : e.urgentCount ≤ 4
  quietCount : e.quietCount.bits ≤ 255
  gap : e.state = .quiet → e.quietCount.bits < e.config.quietGap ∨ (e.quietMayEnd = true ∧ gapOwed)
  start : e.state ≠ .disabled → e.receiver = .fallSeen → e.sampleCount < 8 * e.config.divisor ∨ startOwed
  sampleCount : e.state ≠ .disabled → e.receiver = .character → e.sampleCount < 16 * e.config.divisor
  samples : e.state ≠ .disabled → e.receiver = .character →
    (e.samples.length < if e.config.parity = .none then 9 else 10) ∨ characterOwed

/-- The ranges of one controller. -/
structure ControllerInRange (c : Controller) : Prop where
  period : 1 ≤ c.settings.period ∧ c.settings.period ≤ 65535
  timer : ∀ n, c.timer = some n → 1 ≤ n ∧ n ≤ 65535
  cursor : c.cursor ≤ 32

/-- The ranges that an event of line `l` may touch. -/
structure LineInRange (gapOwed startOwed characterOwed : Prop) (l : Line) (s : State) : Prop where
  engine : EngineInRange gapOwed startOwed characterOwed (s.engine l)
  controller : ControllerInRange (s.controller l)
  thresholds : 1 ≤ s.health.suspect ∧ s.health.suspect < s.health.offline ∧ s.health.offline ≤ 15 ∧
    1 ≤ s.health.revival ∧ s.health.revival ≤ 255
  countdown : ∀ m i, (s.node m i).countdown ≤ 255
  missed : ∀ i : Fin 32, s.missed[i] ≤ 255

/-- The ranges of a line while some rows are owed. -/
abbrev LineOwing (owed : Instr → Prop) (l : Line) (s : State) : Prop :=
  LineInRange (owed (.quietGapEnd l)) (∃ v, owed (.midStartSample l v))
    (∃ d b v, owed (.characterDelivered l d b v)) l s

/-- All ranges while some rows are owed. -/
structure SettingsOwing (owed : Instr → Prop) (s : State) : Prop where
  line : ∀ l, LineOwing owed l s
  tickDivisor : 256 ≤ s.timeBase.divisor ∧ s.timeBase.divisor ≤ 65535
  prescaler : s.timeBase.prescaler < s.timeBase.divisor ∨ owed .tick
  burst : 1 ≤ s.burstLimit ∧ s.burstLimit ≤ 4

/-- No row is owed. -/
abbrev Nothing : Instr → Prop := fun _ => False

theorem settingsOwing_nothing_iff (s : State) : SettingsOwing Nothing s ↔ SettingsSound s := by
  constructor
  · intro h
    refine ⟨fun l => (h.line l).engine.config, fun l => (h.line l).controller.period,
      fun l => (h.line l).controller.timer, fun l => (h.line l).controller.cursor, h.tickDivisor,
      h.prescaler.resolve_right id, h.burst, fun l => (h.line l).engine.urgentCount,
      fun l => ⟨(h.line l).engine.quietCount, fun hq => ((h.line l).engine.gap hq).resolve_right And.right⟩,
      fun l hd => ⟨fun hr => ((h.line l).engine.start hd hr).resolve_right fun ⟨_, ho⟩ => ho,
        fun hr => ⟨(h.line l).engine.sampleCount hd hr,
          ((h.line l).engine.samples hd hr).resolve_right fun ⟨_, _, _, ho⟩ => ho⟩⟩,
      (h.line .a).thresholds, (h.line .a).countdown, (h.line .a).missed⟩
  · intro h
    refine ⟨fun l => ⟨⟨h.config l, h.urgentCount l, (h.quietCount l).1, fun hq => .inl ((h.quietCount l).2 hq),
      fun hd hr => .inl ((h.sampling l hd).1 hr), fun hd hr => ((h.sampling l hd).2 hr).1,
      fun hd hr => .inl ((h.sampling l hd).2 hr).2⟩, ⟨h.period l, h.timer l, h.cursor l⟩, h.thresholds, h.countdown,
      h.missed⟩, h.tickDivisor, .inl h.prescaler, h.burst⟩

section
variable {q f d q' f' d' : Prop} {l : Line} {s t : State}

theorem EngineInRange.mono {e : Engine} (h : EngineInRange q f d e) (hq : q → q') (hf : f → f') (hd : d → d') :
    EngineInRange q' f' d' e :=
  ⟨h.config, h.urgentCount, h.quietCount, fun hs => (h.gap hs).imp_right fun ⟨hm, ho⟩ => ⟨hm, hq ho⟩,
    fun hs hr => (h.start hs hr).imp_right hf, h.sampleCount, fun hs hr => (h.samples hs hr).imp_right hd⟩

theorem LineInRange.mono (h : LineInRange q f d l s) (hq : q → q') (hf : f → f') (hd : d → d') :
    LineInRange q' f' d' l s :=
  ⟨h.engine.mono hq hf hd, h.controller, h.thresholds, h.countdown, h.missed⟩

theorem SettingsOwing.mono {owed owed' : Instr → Prop} (h : SettingsOwing owed s) (ho : ∀ c, owed c → owed' c) :
    SettingsOwing owed' s :=
  ⟨fun l => (h.line l).mono (ho _) (fun ⟨v, hv⟩ => ⟨v, ho _ hv⟩) fun ⟨d, b, v, hv⟩ => ⟨d, b, v, ho _ hv⟩,
    h.tickDivisor, h.prescaler.imp_right (ho _), h.burst⟩

/-- One line has changed within its ranges. -/
theorem settingsOwing_of_line {owed : Instr → Prop} (h : SettingsOwing owed s)
    (he : ∀ m, m ≠ l → t.engine m = s.engine m) (hc : ∀ m, m ≠ l → t.controller m = s.controller m)
    (ht : t.timeBase = s.timeBase) (hb : t.burstLimit = s.burstLimit) (hl : LineOwing owed l t) :
    SettingsOwing owed t := by
  refine ⟨fun m => ?_, by rw [ht]; exact h.tickDivisor, by rw [ht]; exact h.prescaler, by rw [hb]; exact h.burst⟩
  by_cases hm : m = l
  · exact hm ▸ hl
  · refine ⟨?_, ?_, hl.thresholds, hl.countdown, hl.missed⟩
    · rw [he m hm]
      exact (h.line m).engine
    · rw [hc m hm]
      exact (h.line m).controller

theorem LineStep.settingsOwing {owed : Instr → Prop} (hstep : LineStep l s t) (h : SettingsOwing owed s)
    (ok : LineOwing owed l s → LineOwing owed l t) : SettingsOwing owed t :=
  settingsOwing_of_line h hstep.engine hstep.controller hstep.timeBase hstep.burstLimit (ok (h.line l))

theorem settingsOwing_of_same {owed : Instr → Prop} (h : SettingsOwing owed s) (he : t.engines = s.engines)
    (hc : t.rounds = s.rounds) (ht : t.timeBase = s.timeBase) (hb : t.burstLimit = s.burstLimit)
    (hh : t.health = s.health) (hn : t.nodes = s.nodes) (hm : t.missed = s.missed) : SettingsOwing owed t := by
  have hnode : ∀ l i, t.node l i = s.node l i := fun l i => by simp only [State.node, hn]
  refine ⟨fun l => ⟨?_, ?_, ?_, fun m i => ?_, ?_⟩, ?_, ?_, ?_⟩
  · exact (congrArg (·.get l) he : t.engine l = s.engine l) ▸ (h.line l).engine
  · exact (congrArg (·.get l) hc : t.controller l = s.controller l) ▸ (h.line l).controller
  · rw [hh]
    exact (h.line l).thresholds
  · rw [hnode]
    exact (h.line l).countdown m i
  · rw [hm]
    exact (h.line l).missed
  · rw [ht]
    exact h.tickDivisor
  · rw [ht]
    exact h.prescaler
  · rw [hb]
    exact h.burst

/-! ### Engines -/

theorem LineInRange.setEngine (h : LineInRange q f d l s) {e : Engine} (he : EngineInRange q' f' d' e) :
    LineInRange q' f' d' l (s.setEngine l e) :=
  ⟨by rwa [State.setEngine_engine_same], h.controller, h.thresholds, h.countdown, h.missed⟩

theorem LineInRange.updEngine (h : LineInRange q f d l s) {g : Engine → Engine}
    (he : EngineInRange q' f' d' (g (s.engine l))) : LineInRange q' f' d' l (s.updEngine l g) := h.setEngine he

theorem LineInRange.updController (h : LineInRange q f d l s) {g : Controller → Controller}
    (hc : ControllerInRange (g (s.controller l))) : LineInRange q f d l (s.updController l g) :=
  ⟨h.engine, by rwa [State.updController_controller_same], h.thresholds, h.countdown, h.missed⟩

section
variable {e : Engine}

/-- A configuration in range has a bit time, and a quiet gap that a count at 0 has not reached. -/
theorem ConfigInRange_pos {c : LineConfig} (h : ConfigInRange c) : 0 < c.divisor ∧ 0 < c.quietGap :=
  ⟨h.divisor.1, Nat.lt_of_lt_of_le (by decide) h.quietGap.1⟩

/-- The ranges do not read the exchange, the counts of an attempt or the idle count. -/
theorem engineInRange_of_same {g : Engine} (h : EngineInRange q f d e) (hc : g.config = e.config)
    (hu : g.urgentCount ≤ 4) (hq : g.quietCount = e.quietCount) (hs : g.state = e.state)
    (hr : g.receiver = e.receiver) (hn : g.sampleCount = e.sampleCount) (hm : g.samples = e.samples)
    (hx : g.rxd = e.rxd) : EngineInRange q f d g := by
  refine ⟨hc ▸ h.config, hu, hq ▸ h.quietCount, ?_, ?_, ?_, ?_⟩
  · rw [hs, hq, hc, Engine.quietMayEnd, Engine.idle, hr, hx]
    exact h.gap
  · rw [hs, hr, hn, hc]
    exact h.start
  · rw [hs, hr, hn, hc]
    exact h.sampleCount
  · rw [hs, hr, hm, hc]
    exact h.samples

/-- With the receiver neither after a fall nor in a character, no sample is owed. -/
theorem engineInRange_of_receiver (hc : ConfigInRange e.config) (hu : e.urgentCount ≤ 4)
    (hq : e.quietCount.bits ≤ 255)
    (hgap : e.state = .quiet → e.quietCount.bits < e.config.quietGap ∨ (e.quietMayEnd = true ∧ q))
    (hf : e.receiver ≠ .fallSeen) (hr : e.receiver ≠ .character) : EngineInRange q f d e :=
  ⟨hc, hu, hq, hgap, fun _ h => absurd h hf, fun _ h => absurd h hr, fun _ h => absurd h hr⟩

/-- A line that moves between two states of an attempt: its receiver and its quiet count stay. -/
theorem engineInRange_of_state {g : Engine} (h : EngineInRange q f d e) (hs : e.state ≠ .disabled)
    (hq : g.state ≠ .quiet) (hc : g.config = e.config) (hu : g.urgentCount = e.urgentCount)
    (hk : g.quietCount = e.quietCount) (hr : g.receiver = e.receiver) (hn : g.sampleCount = e.sampleCount)
    (hm : g.samples = e.samples) : EngineInRange q f d g := by
  refine ⟨hc ▸ h.config, hu ▸ h.urgentCount, hk ▸ h.quietCount, fun h => absurd h hq, fun _ => ?_, fun _ => ?_,
    fun _ => ?_⟩
  · rw [hr, hn, hc]
    exact h.start hs
  · rw [hr, hn, hc]
    exact h.sampleCount hs
  · rw [hr, hm, hc]
    exact h.samples hs

theorem enterSending_inRange (h : EngineInRange q f d e) : EngineInRange q' f' d' e.enterSending :=
  engineInRange_of_receiver h.config h.urgentCount h.quietCount (by simp [Engine.enterSending])
    (by simp [Engine.enterSending]) (by simp [Engine.enterSending])

/-- With the receiver off no sample is owed, and out of QUIET no gap. -/
theorem enterLead_inRange (hc : ConfigInRange e.config) (hu : e.urgentCount ≤ 4) (hq : e.quietCount.bits ≤ 255) :
    EngineInRange q f d e.enterLead := by
  have hreceiver : e.enterLead.receiver = .off ∧ e.enterLead.urgentCount = e.urgentCount ∧
      e.enterLead.quietCount = e.quietCount := by
    unfold Engine.enterLead
    split <;> exact ⟨rfl, rfl, rfl⟩
  obtain ⟨hr, hu', hq'⟩ := hreceiver
  refine engineInRange_of_receiver (by rwa [Engine.enterLead_config]) (hu' ▸ hu) (hq' ▸ hq) (fun hs => ?_) ?_ ?_
  · rcases enterLead_state e with h | h <;> rw [h] at hs <;> cases hs
  · rw [hr]
    decide
  · rw [hr]
    decide

/-- QUIET is entered with its count at 0, and from a line in use (R119). -/
theorem enterQuiet_inRange (h : EngineInRange q f d e) (hs : e.state ≠ .disabled) :
    EngineInRange q' f d e.enterQuiet :=
  ⟨h.config, h.urgentCount, Nat.zero_le _, fun _ => .inl (ConfigInRange_pos h.config).2, fun _ => h.start hs,
    fun _ => h.sampleCount hs, fun _ => h.samples hs⟩

theorem fall_inRange (h : EngineInRange False False False e) : EngineInRange False False False e.fall := by
  have hgap : e.state = .quiet → e.quietCount.bits < e.config.quietGap := fun hq => (h.gap hq).resolve_right And.right
  unfold Engine.fall
  split
  · have hdivisor := (ConfigInRange_pos h.config).1
    exact ⟨h.config, h.urgentCount, h.quietCount, fun hq => .inl (hgap hq), fun _ _ => .inl (by simp only; omega),
      nofun, nofun⟩
  · exact ⟨h.config, h.urgentCount, h.quietCount, fun hq => .inl (hgap hq), h.start, h.sampleCount, h.samples⟩

theorem returnToMark_inRange (h : EngineInRange False False False e) :
    EngineInRange False False False e.returnToMark := by
  have hgap : e.state = .quiet → e.quietCount.bits < e.config.quietGap := fun hq => (h.gap hq).resolve_right And.right
  unfold Engine.returnToMark
  split
  · refine engineInRange_of_receiver h.config h.urgentCount ?_ (fun hq => .inl ?_) (by simp) (by simp)
    · dsimp only
      split
      · exact Nat.zero_le _
      · exact h.quietCount
    · dsimp only at hq ⊢
      rw [if_pos hq]
      exact (ConfigInRange_pos h.config).2
  · exact ⟨h.config, h.urgentCount, h.quietCount, fun hq => .inl (hgap hq), h.start, h.sampleCount, h.samples⟩

theorem confirmStart_inRange (h : EngineInRange q f d e) : EngineInRange q f' d' e.confirmStart := by
  obtain ⟨hdivisor, hgap⟩ := ConfigInRange_pos h.config
  have hcount : 0 < 16 * e.config.divisor := by omega
  have hsamples : 0 < if e.config.parity = .none then 9 else 10 := by split <;> decide
  unfold Engine.confirmStart
  cases hs : e.state
  all_goals
    refine ⟨h.config, h.urgentCount, ?_, fun hq => ?_, nofun, fun _ _ => hcount, fun _ _ => .inl hsamples⟩
  case quiet.refine_1 | ready.refine_1 => exact Nat.zero_le _
  case quiet.refine_2 | ready.refine_2 => exact .inl hgap
  case disabled.refine_1 | lead.refine_1 | sending.refine_1 | lag.refine_1 | awaiting.refine_1 | receiving.refine_1
    | discarding.refine_1 => exact h.quietCount
  all_goals simp at hq

/-- The mid-start sample is owed no longer: a glitch leaves the receiver waiting on an idle line, and a confirmed start
begins a character (R100). -/
theorem midStart_inRange (v : Level) (h : EngineInRange q f d e) : EngineInRange q False d (e.midStart v) := by
  unfold Engine.midStart
  split
  · cases v with
    | high =>
      refine engineInRange_of_receiver h.config h.urgentCount h.quietCount (fun hq => ?_) (by simp) (by simp)
      exact (h.gap hq).imp_right fun ⟨_, howed⟩ => ⟨rfl, howed⟩
    | low => exact confirmStart_inRange h
  · next hr => exact ⟨h.config, h.urgentCount, h.quietCount, h.gap, fun _ hf => absurd hf hr, h.sampleCount, h.samples⟩

/-- A delivered character leaves no sample owed, and in QUIET the count starts again (R100, R101). -/
theorem endCharacter_inRange (v : Level) (h : EngineInRange q f d e) : EngineInRange q f' d' (e.endCharacter v) := by
  unfold Engine.endCharacter
  refine engineInRange_of_receiver h.config h.urgentCount ?_ (fun hq => .inl ?_) ?_ ?_
  · dsimp only
    split
    · exact Nat.zero_le _
    · exact h.quietCount
  · dsimp only at hq ⊢
    rw [if_pos hq]
    exact (ConfigInRange_pos h.config).2
  · dsimp only
    split <;> decide
  · dsimp only
    split <;> decide

end

/-! ### Rounds and the choice -/

theorem setLatched_inRange (g : Latched → Latched) (h : LineInRange q f d l s) : LineInRange q f d l (setLatched g s) :=
  ⟨h.engine, h.controller, h.thresholds, h.countdown, h.missed⟩

theorem setState_inRange {c : Controller} (r : RoundState) (h : ControllerInRange c) :
    ControllerInRange { c with state := r, timer := if r = .stopped then none else c.timer } := by
  refine ⟨h.period, fun n hn => ?_, h.cursor⟩
  dsimp only at hn
  split at hn
  · cases hn
  · exact h.timer n hn

theorem enterRoundState_inRange (r : RoundState) (h : LineInRange q f d l s) :
    LineInRange q f d l (enterRoundState l r s) := by
  have hentered := h.updController
    (g := fun c => { c with state := r, timer := if r = .stopped then none else c.timer })
    (setState_inRange r h.controller)
  unfold enterRoundState
  dsimp only
  split
  · exact hentered.updEngine (engineInRange_of_same h.engine rfl (Nat.zero_le _) rfl rfl rfl rfl rfl rfl)
  · exact hentered

theorem endRound_inRange (h : LineInRange q f d l s) : LineInRange q f d l (endRound l s) :=
  enterRoundState_inRange _
    (setLatched_inRange _ (h.updController ⟨h.controller.period, h.controller.timer, Nat.le_refl 32⟩))

theorem setNode_inRange (m : Line) (i : Fin 126) {r : NodeRecord} (h : LineInRange q f d l s) (hr : r.countdown ≤ 255) :
    LineInRange q f d l (s.setNode m i r) := by
  refine ⟨h.engine, h.controller, h.thresholds, fun m' j => ?_, h.missed⟩
  rw [State.setNode_node]
  split
  · exact hr
  · exact h.countdown m' j

theorem offlineQuery_inRange (a : Byte) (h : LineInRange q f d l s) : LineInRange q f d l (offlineQuery l a s).1 := by
  unfold offlineQuery
  split
  · exact h
  · next i _ =>
    split
    · exact setNode_inRange l i h ((Nat.sub_le _ _).trans (h.countdown l i))
    · exact h

theorem setUrgent_inRange (x : List Slot) (h : LineInRange q f d l s) : LineInRange q f d l (s.setUrgent x) :=
  ⟨h.engine, h.controller, h.thresholds, h.countdown, h.missed⟩

theorem setTable_inRange (v : Vector Entry 32) (h : LineInRange q f d l s) : LineInRange q f d l (s.setTable v) :=
  ⟨h.engine, h.controller, h.thresholds, h.countdown, h.missed⟩

theorem visitEntry_inRange (i : Fin 32) (h : LineInRange q f d l s) : LineInRange q f d l (visitEntry l i s).1 := by
  unfold visitEntry
  dsimp only
  split
  · split
    · split
      · exact setTable_inRange _ h
      · exact offlineQuery_inRange _ (setTable_inRange _ h)
    · exact setTable_inRange _ h
  · exact h

theorem scanEntries_inRange (is : List (Fin 32)) (h : LineInRange q f d l s) :
    LineInRange q f d l (scanEntries l is s).1 := by
  induction is generalizing s with
  | nil => exact h
  | cons i rest ih =>
    have hvisited := visitEntry_inRange i h
    unfold scanEntries
    split
    · next hv => rwa [hv] at hvisited
    · next hv =>
      rw [hv] at hvisited
      exact ih hvisited

theorem updController_cursor_inRange {n : Nat} (h : LineInRange q f d l s) (hn : n ≤ 32) :
    LineInRange q f d l (s.updController l fun c => { c with cursor := n, routineInFlight := true }) :=
  h.updController (g := fun c => { c with cursor := n, routineInFlight := true })
    ⟨h.controller.period, h.controller.timer, hn⟩

theorem askWalker_inRange (h : LineInRange q f d l s) : LineInRange q f d l (askWalker l s).1 := by
  unfold askWalker
  split
  · have hscanned := scanEntries_inRange (entriesFrom (s.controller l).cursor) h
    split
    · next s' i hs =>
      rw [hs] at hscanned
      exact updController_cursor_inRange hscanned i.isLt
    · next hs =>
      rw [hs] at hscanned
      exact endRound_inRange hscanned
  · exact h

theorem urgentCountAfter_le (w : Work) (n : Nat) : urgentCountAfter w n ≤ 4 := by
  cases w with
  | routine _ _ _ => exact Nat.zero_le _
  | urgent _ => exact Nat.min_le_right ..

theorem startExchange_inRange (w : Work) (r : Request) (h : LineInRange q f d l s) :
    LineInRange q' f' d' l (startExchange l w r s) :=
  h.updEngine (enterLead_inRange h.engine.config (urgentCountAfter_le w _) h.engine.quietCount)

theorem takeUrgent_inRange (h : LineInRange q f d l s) : LineInRange q f d l (takeUrgent l s) := by
  unfold takeUrgent
  split
  · exact h
  · exact startExchange_inRange _ _ (setUrgent_inRange _ h)

theorem makeChoice_inRange (h : LineInRange q f d l s) : LineInRange q f d l (makeChoice l s) := by
  unfold makeChoice
  split
  · split
    · exact takeUrgent_inRange h
    · have hasked := askWalker_inRange h
      split
      · next ha =>
        rw [ha] at hasked
        exact startExchange_inRange _ _ hasked
      · next ha =>
        rw [ha] at hasked
        exact takeUrgent_inRange hasked
  · exact h

theorem startRoundAndChoose_inRange (h : LineInRange q f d l s) : LineInRange q f d l (startRoundAndChoose l s) :=
  makeChoice_inRange (h.updController ⟨h.controller.period, h.controller.timer, Nat.zero_le _⟩)

/-- A round timer loaded with the period (R21). -/
theorem reload_inRange {c : Controller} (h : ControllerInRange c) :
    ControllerInRange { c with timer := some c.settings.period } :=
  ⟨h.period, fun n hn => by cases hn; exact h.period, h.cursor⟩

theorem trigger_inRange (h : LineInRange q f d l s) : LineInRange q f d l (trigger l s) := by
  unfold trigger
  dsimp only
  split
  · refine startRoundAndChoose_inRange ?_
    split
    · exact h.updController ⟨h.controller.period, nofun, h.controller.cursor⟩
    · exact h
  · split
    · exact setLatched_inRange _ h
    · exact h
  · exact h
  · exact h

theorem expireTimer_inRange (h : LineInRange q f d l s) : LineInRange q f d l (expireTimer l s) := by
  unfold expireTimer
  split
  · exact h
  · exact trigger_inRange (h.updController (reload_inRange h.controller))

theorem tickTimer_inRange (h : LineInRange q f d l s) : LineInRange q f d l (tickTimer l s) := by
  unfold tickTimer
  split
  · exact h
  · next n hn =>
    have hrange := h.controller.timer n hn
    split
    · exact expireTimer_inRange h
    · refine h.updController ⟨h.controller.period, fun k hk => ?_, h.controller.cursor⟩
      obtain rfl := Option.some.inj hk
      omega

theorem endGap_inRange (h : LineInRange q f d l s) : LineInRange q f d l (endGap l s) := by
  unfold endGap
  split
  · exact h
  · exact startRoundAndChoose_inRange h

theorem syncTrigger_inRange (v : Level) (h : LineInRange q f d l s) : LineInRange q f d l (syncTrigger l v s) := by
  unfold syncTrigger
  dsimp only
  split
  · exact trigger_inRange h
  · exact h

theorem halt_inRange (h : LineInRange q f d l s) : LineInRange q f d l (halt l s) := by
  unfold halt
  split
  · exact h
  · exact h
  · exact setLatched_inRange _ (enterRoundState_inRange _ h)
  · split
    · exact enterRoundState_inRange _ h
    · exact setLatched_inRange _ (enterRoundState_inRange _
        (h.updController ⟨h.controller.period, h.controller.timer, h.controller.cursor⟩))

theorem beginRounds_inRange (h : LineInRange q f d l s) : LineInRange q f d l (beginRounds l s) := by
  unfold beginRounds
  split
  · exact startRoundAndChoose_inRange h
  · have hreloaded := reload_inRange h.controller
    exact h.updController ⟨hreloaded.period, hreloaded.timer, hreloaded.cursor⟩
  · exact h.updController ⟨h.controller.period, h.controller.timer, h.controller.cursor⟩

/-! ### Exchanges end -/

theorem setMissed_inRange (i : Fin 32) {n : Nat} (h : LineInRange q f d l s) (hn : n ≤ 255) :
    LineInRange q f d l (s.setMissed (s.missed.set i n)) :=
  ⟨h.engine, h.controller, h.thresholds, h.countdown, missed_set_le h.missed i hn⟩

theorem setStore_inRange (r : List Record) (h : LineInRange q f d l s) : LineInRange q f d l (s.setStore r) :=
  ⟨h.engine, h.controller, h.thresholds, h.countdown, h.missed⟩

theorem appendKeepAll_inRange (i : Fin 32) (make : Nat → Record) (h : LineInRange q f d l s) :
    LineInRange q f d l (appendKeepAll i make s) := by
  unfold appendKeepAll
  split
  · exact setMissed_inRange i (setStore_inRange _ h) (Nat.zero_le _)
  · exact setLatched_inRange _ (setMissed_inRange i h (saturate255_le _))

theorem deliverRecord_inRange (x : Exchange) (o : OutcomeCode) (y : Option Reply) (h : LineInRange q f d l s) :
    LineInRange q f d l (deliverRecord l x o y s) := by
  unfold deliverRecord appendRoutine
  split
  · split
    · exact appendKeepAll_inRange _ _ h
    · split
      · exact appendKeepAll_inRange _ _ h
      · exact setMissed_inRange _ (setStore_inRange _ h) (Nat.zero_le _)
  · exact setUrgent_inRange _ (setStore_inRange _ h)

/-- An update leaves a revival countdown at 0, at the threshold V, or as it was (R82, R83). -/
theorem update_countdown_le {t : Thresholds} {r : NodeRecord} (o : OutcomeCode) (hr : r.countdown ≤ 255)
    (ht : t.revival ≤ 255) : (r.update t o).countdown ≤ 255 := by
  unfold NodeRecord.update
  split
  · exact Nat.zero_le _
  · unfold NodeRecord.fail
    dsimp only
    split
    · exact ht
    · split
      · exact Nat.zero_le _
      · exact hr
  · exact hr

theorem updateNode_inRange (a : Byte) (o : OutcomeCode) (h : LineInRange q f d l s) :
    LineInRange q f d l (updateNode l a o s) := by
  unfold updateNode
  split
  · exact h
  · next i _ => exact setNode_inRange l i h (update_countdown_le o (h.countdown l i) h.thresholds.2.2.2.2)

theorem reportOf_inRange (w : Work) (h : LineInRange q f d l s) : LineInRange q f d l (reportOf l w s) := by
  have hreported := h.updController (g := fun c => { c with routineInFlight := false })
    ⟨h.controller.period, h.controller.timer, h.controller.cursor⟩
  unfold reportOf
  split
  · unfold reportCompletion
    dsimp only
    split
    · exact setLatched_inRange _ (enterRoundState_inRange _ hreported)
    · exact hreported
  · exact h

theorem reportOf_engine_state (l : Line) (w : Work) (s : State) :
    ((reportOf l w s).engine l).state = (s.engine l).state := by
  cases w with
  | routine _ _ _ => exact (reportCompletion_engine l s).1
  | urgent _ => rfl

theorem completeExchange_inRange (x : Exchange) (o : OutcomeCode) (y : Option Reply) (h : LineInRange q f d l s)
    (hs : (s.engine l).state ≠ .disabled) : LineInRange q' f d l (completeExchange l x o y s) := by
  have hreported := reportOf_inRange x.work (updateNode_inRange x.request.address o (deliverRecord_inRange x o y h))
  refine hreported.updEngine (engineInRange_of_same (enterQuiet_inRange (q' := q') hreported.engine ?_) rfl
    hreported.engine.urgentCount rfl rfl rfl rfl rfl rfl)
  rwa [reportOf_engine_state, updateNode_engine, deliverRecord_engine]

/-- An attempt ends on a line in use, and its engine is in QUIET with the count at 0 (R129, R130). -/
theorem endAttempt_inRange (o : OutcomeCode) (y : Option Reply) (h : LineInRange q f d l s)
    (hs : (s.engine l).state ≠ .disabled) : LineInRange q f d l (endAttempt l o y s) := by
  unfold endAttempt
  split
  · exact h
  · split
    · exact h.updEngine (engineInRange_of_same (enterQuiet_inRange (q' := q) h.engine hs) rfl h.engine.urgentCount rfl
        rfl rfl rfl rfl rfl)
    · exact completeExchange_inRange _ o y h hs

theorem abortExchange_inRange (h : LineInRange q f d l s) : LineInRange q f d l (abortExchange l s) := by
  unfold abortExchange
  split
  · exact h
  · next x _ =>
    have hdelivered := deliverRecord_inRange x .aborted none h
    exact hdelivered.updEngine
      (engineInRange_of_same hdelivered.engine rfl hdelivered.engine.urgentCount rfl rfl rfl rfl rfl rfl)

theorem forceStop_inRange (h : LineInRange q f d l s) : LineInRange q f d l (forceStop l s) := by
  unfold forceStop
  split
  · exact h
  · exact setLatched_inRange _ (enterRoundState_inRange _
      (h.updController ⟨h.controller.period, h.controller.timer, h.controller.cursor⟩))

theorem cancelQueued_inRange (selected : Line → Bool) (h : LineInRange q f d l s) :
    LineInRange q f d l (cancelQueued selected s) := setUrgent_inRange _ (setStore_inRange _ h)

/-- A DISABLED line owes nothing. -/
theorem disable_inRange (h : LineInRange False False False l s) : LineInRange False False False l (disable l s) := by
  have hletGo : LineInRange False False False l (s.updEngine l Engine.letGo) :=
    h.updEngine (engineInRange_of_receiver h.engine.config h.engine.urgentCount h.engine.quietCount
      (fun hq => .inl ((h.engine.gap hq).resolve_right And.right)) (by simp [Engine.letGo]) (by simp [Engine.letGo]))
  have hcancelled := cancelQueued_inRange (fun m => m == l) (forceStop_inRange (abortExchange_inRange hletGo))
  exact hcancelled.updEngine ⟨hcancelled.engine.config, Nat.zero_le _, hcancelled.engine.quietCount, nofun,
    fun hd => absurd rfl hd, fun hd => absurd rfl hd, fun hd => absurd rfl hd⟩

/-! ### The rows of the counts -/

/-- Once its row has happened the quiet gap is owed no longer: the line has left QUIET, or the count cannot have run. -/
theorem quietGapDone_inRange (h : LineInRange q f d l s) : LineInRange False f d l (quietGapDone l s) := by
  have hgap : (s.engine l).config.quietGap ≤ 255 := h.engine.config.quietGap.2
  unfold quietGapDone
  dsimp only
  split
  · next hquiet =>
    split
    · exact h.setEngine (enterLead_inRange h.engine.config h.engine.urgentCount hgap)
    · have hs : (s.engine l).state ≠ .disabled := by rw [hquiet.1]; decide
      exact makeChoice_inRange (h.setEngine ⟨h.engine.config, h.engine.urgentCount, hgap, nofun,
        fun _ => h.engine.start hs, fun _ => h.engine.sampleCount hs, fun _ => h.engine.samples hs⟩)
  · next hnot =>
    refine ⟨⟨h.engine.config, h.engine.urgentCount, h.engine.quietCount, fun hq => .inl ?_, h.engine.start,
      h.engine.sampleCount, h.engine.samples⟩, h.controller, h.thresholds, h.countdown, h.missed⟩
    exact (h.engine.gap hq).resolve_right fun ⟨hm, _⟩ => hnot ⟨hq, hm⟩

theorem leadDone_inRange (h : LineInRange q f d l s) : LineInRange q f d l (leadDone l s) := by
  unfold leadDone
  split
  · exact h.updEngine (enterSending_inRange h.engine)
  · exact h

/-- The receiver comes on while DE is released, on a line that was sending (R102). -/
theorem releaseDe_inRange (h : LineInRange q f d l s) (hs : (s.engine l).state = .sending ∨ (s.engine l).state = .lag) :
    LineInRange q f d l (releaseDe l s) := by
  have hquiet : (s.engine l).state ≠ .quiet := by rcases hs with hs | hs <;> rw [hs] <;> decide
  have hdisabled : (s.engine l).state ≠ .disabled := by rcases hs with hs | hs <;> rw [hs] <;> decide
  unfold releaseDe
  split
  · exact h
  · dsimp only
    split
    · refine endAttempt_inRange _ _ (h.updEngine (engineInRange_of_receiver h.engine.config h.engine.urgentCount
        h.engine.quietCount (fun hq => absurd hq hquiet) nofun nofun)) ?_
      rwa [State.updEngine_engine_same]
    · exact h.updEngine (engineInRange_of_receiver h.engine.config h.engine.urgentCount h.engine.quietCount nofun nofun
        nofun)

theorem sendingDone_inRange (h : LineInRange q f d l s) : LineInRange q f d l (sendingDone l s) := by
  unfold sendingDone
  split
  · next hs =>
    split
    · exact releaseDe_inRange h (.inl hs)
    · exact h.updEngine (engineInRange_of_state h.engine (by rw [hs]; decide) nofun rfl rfl rfl rfl rfl rfl)
  · exact h

theorem lagDone_inRange (h : LineInRange q f d l s) : LineInRange q f d l (lagDone l s) := by
  unfold lagDone
  split
  · next hs => exact releaseDe_inRange h (.inr hs)
  · exact h

theorem replyTimeoutDone_inRange (h : LineInRange q f d l s) : LineInRange q f d l (replyTimeoutDone l s) := by
  unfold replyTimeoutDone
  split
  · next hs => exact endAttempt_inRange _ _ h (by rw [hs.1]; decide)
  · exact h

theorem gapLimitDone_inRange (h : LineInRange q f d l s) : LineInRange q f d l (gapLimitDone l s) := by
  unfold gapLimitDone
  split
  · next hs => exact endAttempt_inRange _ _ h (by rw [hs.1]; decide)
  · exact h

theorem discardDone_inRange (h : LineInRange q f d l s) : LineInRange q f d l (discardDone l s) := by
  unfold discardDone
  split
  · next hs =>
    split
    · exact h
    · exact endAttempt_inRange _ _ h (by rw [hs.1]; decide)
  · exact h

theorem judgeReply_inRange (b : Byte) (error : Bool) (h : LineInRange q f d l s)
    (hs : (s.engine l).state = .receiving) : LineInRange q f d l (judgeReply l b error s) := by
  have hdisabled : (s.engine l).state ≠ .disabled := by rw [hs]; decide
  unfold judgeReply
  split
  · exact h
  · split
    · exact h.updEngine (engineInRange_of_same h.engine rfl h.engine.urgentCount rfl rfl rfl rfl rfl rfl)
    · exact h.updEngine (engineInRange_of_state h.engine hdisabled nofun rfl rfl rfl rfl rfl rfl)
    · exact endAttempt_inRange _ _ h hdisabled

/-- Once its row has happened no character is owed. -/
theorem deliverCharacter_inRange (b : Byte) (p : Bool) (v : Level) (h : LineInRange q f d l s) :
    LineInRange q f False l (deliverCharacter l b p v s) := by
  unfold deliverCharacter
  dsimp only
  split
  · have hended : LineInRange q f False l (s.setEngine l ((s.engine l).endCharacter v)) :=
      h.setEngine (endCharacter_inRange v h.engine)
    split
    · exact setLatched_inRange _ hended
    · exact setLatched_inRange _ hended
    · next hs => exact judgeReply_inRange _ _ hended (by rw [State.setEngine_engine_same]; exact hs)
    all_goals exact hended
  · next hr =>
    exact ⟨⟨h.engine.config, h.engine.urgentCount, h.engine.quietCount, h.engine.gap, h.engine.start,
      h.engine.sampleCount, fun _ hc => absurd hc hr⟩, h.controller, h.thresholds, h.countdown, h.missed⟩

end

/-! ### Rows that happen -/

section
variable {owed : Instr → Prop} {c : Instr} {s : State}

/-- A line that owes no more than before, of rows whose events are others. -/
theorem LineOwing.unpaid {l : Line} (h : LineOwing (fun d => d = c ∨ owed d) l s) (hq : c ≠ .quietGapEnd l)
    (hf : ∀ v, c ≠ .midStartSample l v) (hd : ∀ d b v, c ≠ .characterDelivered l d b v) : LineOwing owed l s :=
  h.mono (fun ho => ho.resolve_left hq.symm) (fun ⟨v, ho⟩ => ⟨v, ho.resolve_left (hf v).symm⟩)
    fun ⟨d, b, v, ho⟩ => ⟨d, b, v, ho.resolve_left (hd d b v).symm⟩

/-- A row of one line pays what that line owes, and no other. -/
theorem settingsOwing_of_lineRow {l : Line} (h : SettingsOwing (fun d => d = c ∨ owed d) s)
    (hk : rowKey c = (2, some l) ∨ rowKey c = (3, some l) ∨ rowKey c = (4, some l))
    (line : LineOwing (fun d => d = c ∨ owed d) l s → LineOwing owed l (happen s c)) :
    SettingsOwing owed (happen s c) := by
  have hstep := happen_lineStep l s hk
  have hl := line (h.line l)
  refine ⟨fun m => ?_, hstep.timeBase ▸ h.tickDivisor, ?_, hstep.burstLimit ▸ h.burst⟩
  · by_cases hm : m = l
    · exact hm ▸ hl
    · have hother : LineOwing owed m s := by
        refine LineOwing.unpaid (h.line m) ?_ (fun v => ?_) fun d b v => ?_ <;> rintro rfl <;>
          simp [rowKey, hm] at hk
      exact ⟨hstep.engine m hm ▸ hother.engine, hstep.controller m hm ▸ hother.controller, hl.thresholds,
        hl.countdown, hl.missed⟩
  · rw [hstep.timeBase]
    refine h.prescaler.imp_right fun ho => ho.resolve_left ?_
    rintro rfl
    simp [rowKey] at hk

theorem tickTimer_settingsOwing (l : Line) (h : SettingsOwing owed s) : SettingsOwing owed (tickTimer l s) :=
  (tickTimer_lineStep l s).settingsOwing h tickTimer_inRange

theorem syncTrigger_settingsOwing (l : Line) (v : Level) (h : SettingsOwing owed s) :
    SettingsOwing owed (syncTrigger l v s) := (syncTrigger_lineStep l v s).settingsOwing h (syncTrigger_inRange v)

/-- A tick leaves the prescaler at 0, below the divisor (R19). -/
theorem deliverTick_settingsOwing (h : SettingsOwing (fun d => d = .tick ∨ owed d) s) :
    SettingsOwing owed (deliverTick s) := by
  have hline (l : Line) : LineOwing owed l s := LineOwing.unpaid (h.line l) nofun nofun nofun
  have hdivisor : 0 < s.timeBase.divisor := Nat.lt_of_lt_of_le (by decide) h.tickDivisor.1
  have hticked : SettingsOwing owed (s.setTimeBase { s.timeBase with prescaler := 0 }) :=
    ⟨fun l => ⟨(hline l).engine, (hline l).controller, (hline l).thresholds, (hline l).countdown, (hline l).missed⟩,
      h.tickDivisor, .inl hdivisor, h.burst⟩
  exact tickTimer_settingsOwing .b (tickTimer_settingsOwing .a hticked)

theorem setNode_settingsOwing (l : Line) (i : Fin 126) {r : NodeRecord} (h : SettingsOwing owed s)
    (hr : r.countdown ≤ 255) : SettingsOwing owed (s.setNode l i r) :=
  ⟨fun m => setNode_inRange l i (h.line m) hr, h.tickDivisor, h.prescaler, h.burst⟩

theorem walkStep_settingsOwing (h : SettingsOwing owed s) : SettingsOwing owed (walkStep s) := by
  unfold walkStep
  split
  · exact h
  · next visit _ =>
    have hreset := setNode_settingsOwing (walkKey visit).1 (walkKey visit).2 (r := NodeRecord.reset) h (Nat.zero_le _)
    unfold walkVisit
    dsimp only
    split <;> exact settingsOwing_of_same hreset rfl rfl rfl rfl rfl rfl rfl

/-- A row that happens is owed no longer. -/
theorem happen_settingsOwing (c : Instr) (h : SettingsOwing (fun d => d = c ∨ owed d) s) :
    SettingsOwing owed (happen s c) := by
  cases c
  case tick => exact deliverTick_settingsOwing h
  case leadEnd l =>
    exact settingsOwing_of_lineRow h (.inl rfl) fun ok => leadDone_inRange (LineOwing.unpaid ok nofun nofun nofun)
  case sendingEnd l =>
    exact settingsOwing_of_lineRow h (.inl rfl) fun ok => sendingDone_inRange (LineOwing.unpaid ok nofun nofun nofun)
  case lagEnd l =>
    exact settingsOwing_of_lineRow h (.inl rfl) fun ok => lagDone_inRange (LineOwing.unpaid ok nofun nofun nofun)
  case replyTimeout l =>
    exact settingsOwing_of_lineRow h (.inl rfl) fun ok =>
      replyTimeoutDone_inRange (LineOwing.unpaid ok nofun nofun nofun)
  case truncated l =>
    exact settingsOwing_of_lineRow h (.inl rfl) fun ok => gapLimitDone_inRange (LineOwing.unpaid ok nofun nofun nofun)
  case discardEnd l =>
    exact settingsOwing_of_lineRow h (.inl rfl) fun ok => discardDone_inRange (LineOwing.unpaid ok nofun nofun nofun)
  case continuousGapEnd l =>
    exact settingsOwing_of_lineRow h (.inr (.inr rfl)) fun ok => endGap_inRange (LineOwing.unpaid ok nofun nofun nofun)
  case quietGapEnd l =>
    exact settingsOwing_of_lineRow h (.inl rfl) fun ok => (quietGapDone_inRange ok).mono False.elim
      (fun ⟨v, ho⟩ => ⟨v, ho.resolve_left nofun⟩) fun ⟨d, b, v, ho⟩ => ⟨d, b, v, ho.resolve_left nofun⟩
  case midStartSample l v =>
    exact settingsOwing_of_lineRow h (.inr (.inl rfl)) fun ok => (ok.updEngine (midStart_inRange v ok.engine)).mono
      (fun ho => ho.resolve_left nofun) False.elim fun ⟨d, b, v, ho⟩ => ⟨d, b, v, ho.resolve_left nofun⟩
  case characterDelivered l d b v =>
    exact settingsOwing_of_lineRow h (.inr (.inl rfl)) fun ok => (deliverCharacter_inRange d b v ok).mono
      (fun ho => ho.resolve_left nofun) (fun ⟨v, ho⟩ => ⟨v, ho.resolve_left nofun⟩) False.elim
  case clearWalkVisit =>
    refine walkStep_settingsOwing ⟨fun l => LineOwing.unpaid (h.line l) nofun nofun nofun, h.tickDivisor,
      h.prescaler.imp_right fun ho => ho.resolve_left nofun, h.burst⟩
  all_goals
    exact ⟨fun l => LineOwing.unpaid (h.line l) nofun nofun nofun, h.tickDivisor,
      h.prescaler.imp_right fun ho => ho.resolve_left nofun, h.burst⟩

/-- Rows that are all that is owed leave nothing owed once they have happened. -/
theorem foldl_happen_settingsSound (rows : List Instr) (h : SettingsOwing (fun d => d ∈ rows) s) :
    SettingsSound (rows.foldl happen s) := by
  induction rows generalizing s with
  | nil => exact (settingsOwing_nothing_iff s).1 (h.mono fun d hd => absurd hd List.not_mem_nil)
  | cons c rest ih => exact ih (happen_settingsOwing c (h.mono fun d hd => List.mem_cons.1 hd))

end

/-! ### The counts of a CLKIN period -/

theorem exists_cons_of_lt_length {α : Type} {n : Nat} {xs : List α} (h : n < xs.length) :
    ∃ x rest, xs = x :: rest ∧ n ≤ rest.length := by
  cases xs with
  | nil => cases h
  | cons x rest => exact ⟨x, rest, rfl, Nat.le_of_lt_succ h⟩

/-- With the data bits, the parity bit where the setting has one, and a stop bit sampled, the character is complete
(R100). -/
theorem sampleCharacter_complete (p : Parity) (samples : List Level)
    (h : (if p = .none then 9 else 10) ≤ samples.length) :
    ∃ d b v, sampleCharacter p (.low :: samples) = some (d, b, v) := by
  have hdata : 8 < samples.length := by split at h <;> omega
  obtain ⟨d0, r0, rfl, h0⟩ := exists_cons_of_lt_length hdata
  obtain ⟨d1, r1, rfl, h1⟩ := exists_cons_of_lt_length h0
  obtain ⟨d2, r2, rfl, h2⟩ := exists_cons_of_lt_length h1
  obtain ⟨d3, r3, rfl, h3⟩ := exists_cons_of_lt_length h2
  obtain ⟨d4, r4, rfl, h4⟩ := exists_cons_of_lt_length h3
  obtain ⟨d5, r5, rfl, h5⟩ := exists_cons_of_lt_length h4
  obtain ⟨d6, r6, rfl, h6⟩ := exists_cons_of_lt_length h5
  obtain ⟨d7, r7, rfl, h7⟩ := exists_cons_of_lt_length h6
  obtain ⟨d8, r8, rfl, -⟩ := exists_cons_of_lt_length h7
  cases p
  case none => exact ⟨_, _, _, rfl⟩
  case even | odd =>
    obtain ⟨stop, r9, rfl, -⟩ := exists_cons_of_lt_length (n := 0) (xs := r8) (by simpa [Nat.succ_le_iff] using h)
    exact ⟨_, _, _, rfl⟩

theorem counted_bits_le (c : LineConfig) (n : BitCount) : (counted c n).bits ≤ n.bits + 1 := by
  unfold counted
  split
  · exact Nat.le_succ _
  · exact Nat.le_refl _

theorem countUp_counts (e : Engine) :
    e.countUp.urgentCount = e.urgentCount ∧ e.countUp.rxd = e.rxd ∧ e.countUp.sampleCount = e.sampleCount ∧
      e.countUp.samples = e.samples ∧
      e.countUp.quietCount =
        if e.state = .quiet ∧ e.quietMayEnd = true then counted e.config e.quietCount else e.quietCount := by
  unfold Engine.countUp
  cases hs : e.state <;> dsimp only <;> (try split) <;> simp_all [BitCount.advance_eq]

/-- The quiet count moves where it may end, and no further than the gap (R119). -/
theorem countUp_inRange {e : Engine} (h : EngineInRange False False False e) :
    EngineInRange True False False e.countUp := by
  obtain ⟨hu, hx, hn, hm, hq⟩ := countUp_counts e
  obtain ⟨hs, -, hr⟩ := Engine.countUp_same e
  have hmay : e.countUp.quietMayEnd = e.quietMayEnd := by rw [Engine.quietMayEnd, Engine.idle, hr, hx]; rfl
  refine ⟨Engine.countUp_config e ▸ h.config, hu ▸ h.urgentCount, ?_, ?_, ?_, ?_, ?_⟩
  · rw [hq]
    split
    · next hquiet =>
      have hbits := (h.gap hquiet.1).resolve_right And.right
      have hnext := counted_bits_le e.config e.quietCount
      have hgap := h.config.quietGap.2
      omega
    · exact h.quietCount
  · rw [hs, hq, hmay, Engine.countUp_config]
    intro hquiet
    split
    · next hruns => exact .inr ⟨hruns.2, trivial⟩
    · exact .inl ((h.gap hquiet).resolve_right And.right)
  · rw [hs, hr, hn, Engine.countUp_config]
    exact h.start
  · rw [hs, hr, hn, Engine.countUp_config]
    exact h.sampleCount
  · rw [hs, hr, hm, Engine.countUp_config]
    exact h.samples

/-- In a character the receiver counts to its next sample and starts again there (R98, R100). -/
theorem sampleUp_sampleCount_lt {e : Engine} (hr : e.receiver = .character) (h : 0 < e.config.divisor) :
    e.sampleUp.sampleCount < 16 * e.config.divisor := by
  unfold Engine.sampleUp LineConfig.bitTime
  rw [hr]
  dsimp only
  split <;> dsimp only <;> omega

theorem sampleUp_rest (e : Engine) :
    e.sampleUp.config = e.config ∧ e.sampleUp.urgentCount = e.urgentCount ∧ e.sampleUp.quietCount = e.quietCount ∧
      e.sampleUp.quietMayEnd = e.quietMayEnd := by
  unfold Engine.sampleUp
  split
  · next hr => simp [Engine.quietMayEnd, Engine.idle, hr]
  · split <;> exact ⟨rfl, rfl, rfl, rfl⟩
  · exact ⟨rfl, rfl, rfl, rfl⟩
  · exact ⟨rfl, rfl, rfl, rfl⟩
  · exact ⟨rfl, rfl, rfl, rfl⟩

theorem sampleUp_inRange {e : Engine} (h : EngineInRange True False False e) :
    EngineInRange True True True e.sampleUp := by
  obtain ⟨hc, hu, hq, hmay⟩ := sampleUp_rest e
  obtain ⟨hs, -, hr⟩ := Engine.sampleUp_same e
  refine ⟨hc ▸ h.config, hu ▸ h.urgentCount, hq ▸ h.quietCount, ?_, fun _ _ => .inr trivial, ?_,
    fun _ _ => .inr trivial⟩
  · rw [hs, hq, hc, hmay]
    exact h.gap
  · rw [hr, hc]
    exact fun _ hcharacter => sampleUp_sampleCount_lt hcharacter (ConfigInRange_pos h.config).1

/-- What has come to its end is due. -/
theorem engineInRange_of_due (l : Line) {e : Engine} (h : EngineInRange True True True e) :
    EngineInRange (e.state = .quiet ∧ e.countDone = true) (∃ v, e.sampleRow l = some (.midStartSample l v))
      (∃ d b v, e.sampleRow l = some (.characterDelivered l d b v)) e := by
  refine ⟨h.config, h.urgentCount, h.quietCount, fun hq => ?_, fun _ hr => ?_, h.sampleCount, fun _ hr => ?_⟩
  · by_cases hn : e.quietCount.bits < e.config.quietGap
    · exact .inl hn
    · obtain ⟨hmay, -⟩ := (h.gap hq).resolve_left hn
      exact .inr ⟨hmay, hq, by simp [Engine.countDone, hq, hmay, Nat.le_of_not_lt hn]⟩
  · by_cases hn : e.sampleCount < 8 * e.config.divisor
    · exact .inl hn
    · exact .inr ⟨e.rxd, by simp only [Engine.sampleRow, hr, if_pos (Nat.le_of_not_lt hn)]⟩
  · by_cases hn : e.samples.length < if e.config.parity = .none then 9 else 10
    · exact .inl hn
    · obtain ⟨d, b, v, hcomplete⟩ := sampleCharacter_complete _ _ (Nat.le_of_not_lt hn)
      exact .inr ⟨d, b, v, by simp only [Engine.sampleRow, hr, hcomplete]⟩

/-- The ranges of a line over the counts of one period. -/
theorem advanceLine_inRange {l : Line} {s : State} (h : LineInRange False False False l s) :
    LineInRange True True True l (advanceLine l s) :=
  (h.updController (g := fun c => { c with gap := c.gap.map (BitCount.advance (s.engine l).config.bitTime) })
    ⟨h.controller.period, h.controller.timer, h.controller.cursor⟩).updEngine
    (sampleUp_inRange (countUp_inRange h.engine))

theorem advanceLine_inRange_of_ne {l m : Line} {s : State} {q f d : Prop} (hm : m ≠ l) (h : LineInRange q f d m s) :
    LineInRange q f d m (advanceLine l s) := by
  have hstep := advanceLine_lineStep l s (Engine.advance_config _)
  exact ⟨hstep.engine m hm ▸ h.engine, hstep.controller m hm ▸ h.controller, h.thresholds, h.countdown, h.missed⟩

theorem advanceCounts_inRange {s : State} (h : SettingsSound s) (l : Line) :
    LineInRange True True True l (advanceCounts s) := by
  have hline := ((settingsOwing_nothing_iff s).2 h).line l
  have hticked : LineInRange False False False l
      (s.setTimeBase { s.timeBase with prescaler := s.timeBase.prescaler + 1 }) :=
    ⟨hline.engine.mono id (fun ⟨_, ho⟩ => ho) (fun ⟨_, _, _, ho⟩ => ho), hline.controller, hline.thresholds,
      hline.countdown, hline.missed⟩
  unfold advanceCounts
  cases l with
  | a => exact advanceLine_inRange_of_ne nofun (advanceLine_inRange hticked)
  | b => exact advanceLine_inRange (advanceLine_inRange_of_ne nofun hticked)

/-- After the counts have moved, whatever stands at its end has its row due. -/
theorem advanceCounts_settingsOwing {s : State} (h : SettingsSound s) :
    SettingsOwing (fun c => c ∈ dueRows (advanceCounts s)) (advanceCounts s) := by
  refine ⟨fun l => ?_, h.tickDivisor, ?_, h.burst⟩
  · have hl := advanceCounts_inRange h l
    refine ⟨(engineInRange_of_due l hl.engine).mono (fun ⟨hq, hdone⟩ => ?_) (fun ⟨v, hv⟩ => ?_) fun ⟨d, b, v, hv⟩ => ?_,
      hl.controller, hl.thresholds, hl.countdown, hl.missed⟩
    · exact (mem_dueRows _ _).2 (.inr (.inr ⟨l, .inl ⟨hdone, by rw [hq]; rfl⟩⟩))
    · exact ⟨v, (mem_dueRows _ _).2 (.inr (.inr ⟨l, .inr (.inl hv)⟩))⟩
    · exact ⟨d, b, v, (mem_dueRows _ _).2 (.inr (.inr ⟨l, .inr (.inl hv)⟩))⟩
  · by_cases hn : (advanceCounts s).timeBase.prescaler < (advanceCounts s).timeBase.divisor
    · exact .inl hn
    · exact .inr ((mem_dueRows _ _).2 (.inl ⟨rfl, Nat.le_of_not_lt hn⟩))

/-- A CLKIN period pays all it owes. -/
theorem clkinPeriod_settingsSound {s : State} (h : SettingsSound s) : SettingsSound (clkinPeriod s) := by
  rcases clkinPeriod_cases s with ⟨-, hw⟩ | ⟨-, hw⟩ <;> rw [hw]
  · exact h
  · have howing : SettingsOwing (fun c => c ∈ dueRows (advanceCounts s))
        ((advanceCounts s).setFreeIndex (s.freeIndex + 1)) :=
      settingsOwing_of_same (advanceCounts_settingsOwing h) rfl rfl rfl rfl rfl rfl rfl
    exact foldl_happen_settingsSound _ (howing.mono fun c hc => (arrange_perm _ _ _ (Nat.le_refl _)).mem_iff.2 hc)

/-! ### Operations -/

theorem configInRange_of_staging {v : Vector Byte 32} {c : LineConfig} (h : lineConfigOfStaging v = some c) :
    ConfigInRange c := by
  rw [lineConfigOfStaging_eq] at h
  split at h
  · next hv =>
    obtain ⟨hdivisor, -, hstop, hlead, hlag, hquiet, hlimit⟩ := hv
    obtain rfl := Option.some.inj h
    exact ⟨hdivisor, hstop, hlead, hlag, ⟨hquiet, Nat.le_of_lt_succ v[6].isLt⟩, hlimit⟩
  · cases h

theorem twoBytes_le (v : Vector Byte 32) (i j : Fin 32) : twoBytes v i j ≤ 65535 := by
  have hi := v[i].isLt
  have hj := v[j].isLt
  unfold twoBytes
  omega

theorem period_of_staging {v : Vector Byte 32} {r : RoundSettings} (h : roundSettingsOfStaging v = some r) :
    1 ≤ r.period ∧ r.period ≤ 65535 := by
  rw [roundSettingsOfStaging_eq] at h
  split at h
  · next hv =>
    obtain ⟨-, -, -, hperiod⟩ := hv
    obtain rfl := Option.some.inj h
    exact ⟨Nat.one_le_iff_ne_zero.2 hperiod, twoBytes_le v 3 4⟩
  · cases h

theorem tickDivisor_of_staging {v : Vector Byte 32} {n : Nat} (h : tickDivisorOfStaging v = some n) :
    256 ≤ n ∧ n ≤ 65535 := by
  by_cases hv : twoBytes v 0 1 < 256
  · rw [tickDivisorOfStaging_out_of_range hv] at h
    cases h
  · rw [tickDivisorOfStaging_inRange (Nat.le_of_not_lt hv)] at h
    obtain rfl := Option.some.inj h
    exact ⟨Nat.le_of_not_lt hv, twoBytes_le v 0 1⟩

theorem thresholds_of_staging {v : Vector Byte 32} {t : Thresholds} (h : thresholdsOfStaging v = some t) :
    1 ≤ t.suspect ∧ t.suspect < t.offline ∧ t.offline ≤ 15 ∧ 1 ≤ t.revival ∧ t.revival ≤ 255 := by
  unfold thresholdsOfStaging at h
  split at h
  · next hv =>
    obtain ⟨hsuspect, hless, hoffline, hrevival⟩ := hv
    obtain rfl := Option.some.inj h
    exact ⟨hsuspect, hless, hoffline, hrevival, Nat.le_of_lt_succ v[2].isLt⟩
  · cases h

/-- A DISABLED line owes nothing but its configuration and its counts. -/
theorem engineInRange_of_disabled {e : Engine} {q f d : Prop} (hc : ConfigInRange e.config) (hu : e.urgentCount ≤ 4)
    (hq : e.quietCount.bits ≤ 255) (hs : e.state = .disabled) : EngineInRange q f d e :=
  ⟨hc, hu, hq, fun h => absurd (h.symm.trans hs) nofun, fun h => absurd hs h, fun h => absurd hs h,
    fun h => absurd hs h⟩

theorem resetBlocks_settingsSound (s : State) : SettingsSound (resetBlocks s) := by
  have htick : 256 ≤ TimeBase.reset.divisor ∧ TimeBase.reset.divisor ≤ 65535 := by decide
  have hprescaler : TimeBase.reset.prescaler < TimeBase.reset.divisor := by decide
  have hburst : 1 ≤ 2 ∧ 2 ≤ 4 := by decide
  refine (settingsOwing_nothing_iff _).1 ⟨fun l => ?_, htick, .inl hprescaler, hburst⟩
  have hengine : (resetBlocks s).engine l = Engine.reset (s.engine l).rxd := by cases l <;> rfl
  have hcontroller : (resetBlocks s).controller l = Controller.reset := by cases l <;> rfl
  have hconfig : ConfigInRange LineConfig.reset := by constructor <;> decide
  have hhealth : 1 ≤ Thresholds.reset.suspect ∧ Thresholds.reset.suspect < Thresholds.reset.offline ∧
      Thresholds.reset.offline ≤ 15 ∧ 1 ≤ Thresholds.reset.revival ∧ Thresholds.reset.revival ≤ 255 := by decide
  refine ⟨hengine ▸ engineInRange_of_disabled hconfig (Nat.zero_le _) (Nat.zero_le _) rfl,
    hcontroller ▸ ⟨by decide, nofun, Nat.zero_le _⟩, hhealth, fun m i => ?_, fun i => ?_⟩
  · cases m <;> simp [State.node, resetBlocks, State.reset, PerLine.get, NodeRecord.reset]
  · simp [resetBlocks, State.reset]

section
variable {owed : Instr → Prop} {s : State}

theorem lineOwing_nothing_iff (l : Line) (s : State) : LineOwing Nothing l s ↔ LineInRange False False False l s :=
  ⟨fun h => h.mono id (fun ⟨_, ho⟩ => ho) fun ⟨_, _, _, ho⟩ => ho, fun h => h.mono id False.elim False.elim⟩

theorem updEngine_settingsOwing (l : Line) (f : Engine → Engine) (h : SettingsOwing Nothing s)
    (hf : EngineInRange False False False (s.engine l) → EngineInRange False False False (f (s.engine l))) :
    SettingsOwing Nothing (s.updEngine l f) :=
  settingsOwing_of_line h (fun _ => State.updEngine_engine_ne s f) (fun _ _ => rfl) rfl rfl <|
    (lineOwing_nothing_iff l _).2 <|
      ((lineOwing_nothing_iff l s).1 (h.line l)).updEngine (hf ((lineOwing_nothing_iff l s).1 (h.line l)).engine)

theorem setRoundMode_settingsOwing (l : Line) {r : RoundSettings} (h : SettingsOwing owed s)
    (hr : 1 ≤ r.period ∧ r.period ≤ 65535) :
    SettingsOwing owed (s.updController l fun c => { c with settings := r }) :=
  settingsOwing_of_line h (fun _ _ => rfl) (fun _ => State.updController_controller_ne s _) rfl rfl <|
    (h.line l).updController (g := fun c => { c with settings := r })
      ⟨hr, (h.line l).controller.timer, (h.line l).controller.cursor⟩

theorem syncLevelHeld_settingsOwing (v : Level) (h : SettingsOwing owed s) :
    SettingsOwing owed (syncLevelHeld v s) := by
  have hheld : SettingsOwing owed (s.setSyncLevel (some v)) := settingsOwing_of_same h rfl rfl rfl rfl rfl rfl rfl
  unfold syncLevelHeld
  split
  · exact hheld
  · split
    · exact h
    · exact syncTrigger_settingsOwing .b v (syncTrigger_settingsOwing .a v hheld)

/-- QUIET is entered with the receiver waiting and every count at 0 (R131). -/
theorem enable_inRange {e : Engine} (h : EngineInRange False False False e) :
    EngineInRange False False False e.enable :=
  engineInRange_of_receiver h.config (Nat.zero_le _) (Nat.zero_le _) (fun _ => .inl (ConfigInRange_pos h.config).2)
    nofun nofun

end

theorem settingsSound_keptByOperations : KeptByOperations SettingsSound where
  same hsame hs := (settingsOwing_nothing_iff _).1 <|
    settingsOwing_of_same ((settingsOwing_nothing_iff _).2 hs) hsame.engines hsame.rounds hsame.timeBase
      hsame.burstLimit hsame.health hsame.nodes hsame.missed
  operation := by
    intro k s t hop hs
    have h := (settingsOwing_nothing_iff s).2 hs
    refine (settingsOwing_nothing_iff t).1 ?_
    cases hop with
    | nothing => exact h
    | @configure _ l c hc hd =>
      exact updEngine_settingsOwing l _ h fun he =>
        engineInRange_of_disabled (configInRange_of_staging hc) he.urgentCount he.quietCount hd
    | enable => exact updEngine_settingsOwing _ _ h enable_inRange
    | disable l =>
      exact (disable_lineStep l s).settingsOwing h fun hl =>
        (lineOwing_nothing_iff l _).2 (disable_inRange ((lineOwing_nothing_iff l s).1 hl))
    | writeEntry => exact settingsOwing_of_same h rfl rfl rfl rfl rfl rfl rfl
    | setRoundMode hr => exact setRoundMode_settingsOwing _ h (period_of_staging hr)
    | beginRounds => exact (beginRounds_lineStep _ s).settingsOwing h beginRounds_inRange
    | halt l => exact (halt_lineStep l s).settingsOwing h halt_inRange
    | setTiming hn =>
      have hrange := tickDivisor_of_staging hn
      refine ⟨fun l => ?_, hrange, .inl (Nat.lt_of_lt_of_le (Nat.zero_lt_succ 255) hrange.1), h.burst⟩
      exact ⟨(h.line l).engine, (h.line l).controller, (h.line l).thresholds, (h.line l).countdown, (h.line l).missed⟩
    | enqueue =>
      exact (makeChoice_lineStep _ _).settingsOwing (settingsOwing_of_same h rfl rfl rfl rfl rfl rfl rfl)
        makeChoice_inRange
    | flush selected => exact settingsOwing_of_same h rfl rfl rfl rfl rfl rfl rfl
    | setBurst hn =>
      refine ⟨fun l => ?_, h.tickDivisor, h.prescaler, hn⟩
      exact ⟨(h.line l).engine, (h.line l).controller, (h.line l).thresholds, (h.line l).countdown, (h.line l).missed⟩
    | setHealth ht =>
      refine ⟨fun l => ?_, h.tickDivisor, h.prescaler, h.burst⟩
      exact ⟨(h.line l).engine, (h.line l).controller, thresholds_of_staging ht, (h.line l).countdown,
        (h.line l).missed⟩
    | takeChange l i => exact setNode_settingsOwing l i h ((h.line .a).countdown l i)
    | happen c => exact happen_settingsOwing c (h.mono fun _ ho => .inr ho)
    | expireTimer l => exact (expireTimer_lineStep l s).settingsOwing h expireTimer_inRange
    | syncLevelHeld v => exact syncLevelHeld_settingsOwing v h
    | fall l => exact updEngine_settingsOwing l _ h fall_inRange
    | returnToMark l => exact updEngine_settingsOwing l _ h returnToMark_inRange
    | param => exact settingsOwing_of_same h rfl rfl rfl rfl rfl rfl rfl
    | release => exact settingsOwing_of_same h rfl rfl rfl rfl rfl rfl rfl
    | reset => exact (settingsOwing_nothing_iff _).2 (resetBlocks_settingsSound s)

/-! ### The statement -/

/-- Settles O58: a row of the queue makes one operation, which keeps every range; a CLKIN period may bring a count to
its end, and pays it with the row that is then due. -/
theorem settingsStayInRange : Obligations.SettingsStayInRange := fun _ _ h hstep =>
  settingsSound_keptByOperations.step (fun _ => clkinPeriod_settingsSound)
    (fun _ _ hs => (settingsOwing_nothing_iff _).1
      (settingsOwing_of_same ((settingsOwing_nothing_iff _).2 hs) rfl rfl rfl rfl rfl rfl rfl)) h hstep

end Sys2Proof.Machine
end

