-- ==== Sys2Proof/Proofs/LineFrames.lean ====
section
/-!
SUPPORT and CERTIFICATES. What the operations of one line leave alone: the other line (R15, R36, R79), the head of the
store (R57, R74), PARAM (R153) and the queue of commands.
-/

namespace Sys2Proof.Machine

open Sys2Proof.Safety

/-! ### The head of the store and the entries of the other line -/

/-- The head of the store, where there is one, stays the head. -/
def HeadStays (s t : State) : Prop := ∀ head rest, s.store = head :: rest → ∃ rest', t.store = head :: rest'

section
variable {s t u : State}

theorem headStays_of_store (h : t.store = s.store) : HeadStays s t := fun _ rest hs => ⟨rest, h.trans hs⟩

theorem HeadStays.trans (h : HeadStays s t) (g : HeadStays t u) : HeadStays s u := fun head rest hs =>
  let ⟨rest', ht⟩ := h head rest hs
  g head rest' ht

theorem HeadStays.after (h : HeadStays t u) (ht : t.store = s.store) : HeadStays s u := by
  unfold HeadStays
  rwa [← ht]

theorem headStays_of_append {r : List Record} (h : t.store = s.store ++ r) : HeadStays s t := fun head rest hs =>
  ⟨rest ++ r, by rw [h, hs, List.cons_append]⟩

end

/-- How far the operations of a line reach into the store and the table: the head stays, and so do the entries of other
lines (R15). -/
structure LineReach (l : Line) (s t : State) : Prop where
  head : HeadStays s t
  entry : ∀ i : Fin 32, s.table[i].line ≠ l → t.table[i] = s.table[i]

section
variable {l : Line} {s t u : State}

theorem lineReach_of_same (ht : t.table = s.table) (hs : t.store = s.store) : LineReach l s t :=
  ⟨headStays_of_store hs, fun i _ => by rw [ht]⟩

theorem LineReach.refl (l : Line) (s : State) : LineReach l s s := lineReach_of_same rfl rfl

theorem LineReach.trans (h : LineReach l s t) (g : LineReach l t u) : LineReach l s u := by
  refine ⟨h.head.trans g.head, fun i hi => ?_⟩
  have ht := h.entry i hi
  exact (g.entry i (by rwa [ht])).trans ht

end

/-! ### Rounds and the choice -/

section
variable (l : Line) (s : State)

theorem updController_reach (f : Controller → Controller) : LineReach l s (s.updController l f) :=
  lineReach_of_same rfl rfl

theorem setEngine_reach (e : Engine) : LineReach l s (s.setEngine l e) := lineReach_of_same rfl rfl

theorem updEngine_reach (f : Engine → Engine) : LineReach l s (s.updEngine l f) := lineReach_of_same rfl rfl

theorem setLatched_reach (f : Latched → Latched) : LineReach l s (setLatched f s) := lineReach_of_same rfl rfl

theorem enterRoundState_reach (r : RoundState) : LineReach l s (enterRoundState l r s) :=
  lineReach_of_same (enterRoundState_table l r s) (enterRoundState_store l r s)

theorem endRound_reach : LineReach l s (endRound l s) :=
  ((updController_reach l s _).trans (setLatched_reach l _ _)).trans (enterRoundState_reach l _ _)

/-- A visit steps the phase of its entry only where the entry is of the line (R28). -/
theorem visitEntry_reach (i : Fin 32) : LineReach l s (visitEntry l i s).1 := by
  refine ⟨headStays_of_store (visitEntry_same l i s).2.2.2.1, fun j hj => ?_⟩
  have hset (e : Entry) (hl : s.table[i].line = l) : (s.table.set i e)[j] = s.table[j] := by
    have hne : i.val ≠ j.val := fun h => hj (Fin.ext h ▸ hl)
    simp [hne]
  unfold visitEntry
  dsimp only
  split
  · next h =>
    split
    · split
      · exact hset _ h.2
      · simp only [offlineQuery_table]
        exact hset _ h.2
    · exact hset _ h.2
  · rfl

theorem scanEntries_reach (is : List (Fin 32)) : LineReach l s (scanEntries l is s).1 := by
  induction is generalizing s with
  | nil => exact LineReach.refl l s
  | cons i rest ih =>
    have hvisited := visitEntry_reach l s i
    unfold scanEntries
    split
    · next hv => rwa [hv] at hvisited
    · next hv =>
      rw [hv] at hvisited
      exact hvisited.trans (ih _)

theorem askWalker_reach : LineReach l s (askWalker l s).1 := by
  unfold askWalker
  split
  · have hscanned := scanEntries_reach l s (entriesFrom (s.controller l).cursor)
    split
    · next hs =>
      rw [hs] at hscanned
      exact hscanned.trans (lineReach_of_same rfl rfl)
    · next hs =>
      rw [hs] at hscanned
      exact hscanned.trans (endRound_reach l _)
  · exact LineReach.refl l s

theorem takeUrgent_reach : LineReach l s (takeUrgent l s) := by
  unfold takeUrgent
  split <;> exact lineReach_of_same rfl rfl

theorem makeChoice_reach : LineReach l s (makeChoice l s) := by
  unfold makeChoice
  split
  · split
    · exact takeUrgent_reach l s
    · have hasked := askWalker_reach l s
      split
      · next ha =>
        rw [ha] at hasked
        exact hasked.trans (lineReach_of_same rfl rfl)
      · next ha =>
        rw [ha] at hasked
        exact hasked.trans (takeUrgent_reach l _)
  · exact LineReach.refl l s

theorem startRoundAndChoose_reach : LineReach l s (startRoundAndChoose l s) :=
  (updController_reach l s _).trans (makeChoice_reach l _)

theorem trigger_reach : LineReach l s (trigger l s) := by
  unfold trigger
  dsimp only
  split
  · split
    · exact (updController_reach l s _).trans (startRoundAndChoose_reach l _)
    · exact startRoundAndChoose_reach l s
  · split <;> exact lineReach_of_same rfl rfl
  · exact LineReach.refl l s
  · exact LineReach.refl l s

theorem expireTimer_reach : LineReach l s (expireTimer l s) := by
  unfold expireTimer
  split
  · exact LineReach.refl l s
  · exact (updController_reach l s _).trans (trigger_reach l _)

theorem tickTimer_reach : LineReach l s (tickTimer l s) := by
  unfold tickTimer
  split
  · exact LineReach.refl l s
  · split
    · exact expireTimer_reach l s
    · exact updController_reach l s _

theorem endGap_reach : LineReach l s (endGap l s) := by
  unfold endGap
  split
  · exact LineReach.refl l s
  · exact startRoundAndChoose_reach l s

theorem syncTrigger_reach (v : Level) : LineReach l s (syncTrigger l v s) := by
  unfold syncTrigger
  dsimp only
  split
  · exact trigger_reach l s
  · exact LineReach.refl l s

theorem halt_reach : LineReach l s (halt l s) := by
  unfold halt
  split
  · exact LineReach.refl l s
  · exact LineReach.refl l s
  · exact (enterRoundState_reach l s _).trans (lineReach_of_same rfl rfl)
  · split
    · exact enterRoundState_reach l s _
    · exact (updController_reach l s _).trans ((enterRoundState_reach l _ _).trans (lineReach_of_same rfl rfl))

theorem beginRounds_reach : LineReach l s (beginRounds l s) := by
  unfold beginRounds
  split
  · exact startRoundAndChoose_reach l s
  · exact updController_reach l s _
  · exact updController_reach l s _

/-! ### Exchanges end -/

theorem appendKeepAll_reach (i : Fin 32) (make : Nat → Record) : LineReach l s (appendKeepAll i make s) := by
  unfold appendKeepAll
  split
  · exact ⟨headStays_of_append rfl, fun _ _ => rfl⟩
  · exact lineReach_of_same rfl rfl

/-- Coalescing removes records behind the head only (R68). -/
theorem appendRoutine_reach (i : Fin 32) (p : Policy) (make : Nat → Record) :
    LineReach l s (appendRoutine i p make s) := by
  unfold appendRoutine
  split
  · exact appendKeepAll_reach l s i make
  · split
    · exact appendKeepAll_reach l s i make
    · refine ⟨fun head rest hs => ?_, fun _ _ => rfl⟩
      simp [withoutCandidates, hs]

theorem deliverRecord_reach (x : Exchange) (o : OutcomeCode) (y : Option Reply) :
    LineReach l s (deliverRecord l x o y s) := by
  unfold deliverRecord
  split
  · exact appendRoutine_reach l s _ _ _
  · exact ⟨headStays_of_append rfl, fun _ _ => rfl⟩

theorem updateNode_reach (a : Byte) (o : OutcomeCode) : LineReach l s (updateNode l a o s) := by
  obtain ⟨-, -, -, hstore, htable, -⟩ := updateNode_same l a o s
  exact lineReach_of_same htable hstore

theorem reportOf_reach (w : Work) : LineReach l s (reportOf l w s) := by
  unfold reportOf reportCompletion
  split
  · dsimp only
    split
    · exact (updController_reach l s _).trans ((enterRoundState_reach l _ _).trans (lineReach_of_same rfl rfl))
    · exact updController_reach l s _
  · exact LineReach.refl l s

theorem completeExchange_reach (x : Exchange) (o : OutcomeCode) (y : Option Reply) :
    LineReach l s (completeExchange l x o y s) :=
  (deliverRecord_reach l s x o y).trans
    ((updateNode_reach l _ _ _).trans ((reportOf_reach l _ _).trans (updEngine_reach l _ _)))

theorem endAttempt_reach (o : OutcomeCode) (y : Option Reply) : LineReach l s (endAttempt l o y s) := by
  unfold endAttempt
  split
  · exact LineReach.refl l s
  · split
    · exact updEngine_reach l s _
    · exact completeExchange_reach l s _ o y

theorem abortExchange_reach : LineReach l s (abortExchange l s) := by
  unfold abortExchange
  split
  · exact LineReach.refl l s
  · exact (deliverRecord_reach l s _ _ _).trans (updEngine_reach l _ _)

theorem forceStop_reach : LineReach l s (forceStop l s) := by
  unfold forceStop
  split
  · exact LineReach.refl l s
  · exact (updController_reach l s _).trans ((enterRoundState_reach l _ _).trans (lineReach_of_same rfl rfl))

theorem cancelQueued_headStays (selected : Line → Bool) : HeadStays s (cancelQueued selected s) :=
  headStays_of_append rfl

theorem disable_headStays : HeadStays s (disable l s) :=
  ((((updEngine_reach l s _).trans (abortExchange_reach l _)).trans (forceStop_reach l _)).head.trans
    (cancelQueued_headStays _ _)).trans (updEngine_reach l _ _).head

/-! ### The rows of a line -/

theorem quietGapDone_reach : LineReach l s (quietGapDone l s) := by
  unfold quietGapDone
  dsimp only
  split
  · split
    · exact lineReach_of_same rfl rfl
    · exact (setEngine_reach l s _).trans (makeChoice_reach l _)
  · exact LineReach.refl l s

theorem leadDone_reach : LineReach l s (leadDone l s) := by
  unfold leadDone
  split
  · exact updEngine_reach l s _
  · exact LineReach.refl l s

theorem releaseDe_reach : LineReach l s (releaseDe l s) := by
  unfold releaseDe
  split
  · exact LineReach.refl l s
  · dsimp only
    split
    · exact (updEngine_reach l s _).trans (endAttempt_reach l _ _ _)
    · exact updEngine_reach l s _

theorem sendingDone_reach : LineReach l s (sendingDone l s) := by
  unfold sendingDone
  split
  · split
    · exact releaseDe_reach l s
    · exact updEngine_reach l s _
  · exact LineReach.refl l s

theorem lagDone_reach : LineReach l s (lagDone l s) := by
  unfold lagDone
  split
  · exact releaseDe_reach l s
  · exact LineReach.refl l s

theorem replyTimeoutDone_reach : LineReach l s (replyTimeoutDone l s) := by
  unfold replyTimeoutDone
  split
  · exact endAttempt_reach l s _ _
  · exact LineReach.refl l s

theorem gapLimitDone_reach : LineReach l s (gapLimitDone l s) := by
  unfold gapLimitDone
  split
  · exact endAttempt_reach l s _ _
  · exact LineReach.refl l s

theorem discardDone_reach : LineReach l s (discardDone l s) := by
  unfold discardDone
  split
  · split
    · exact LineReach.refl l s
    · exact endAttempt_reach l s _ _
  · exact LineReach.refl l s

theorem judgeReply_reach (d : Byte) (error : Bool) : LineReach l s (judgeReply l d error s) := by
  unfold judgeReply
  split
  · exact LineReach.refl l s
  · split
    · exact updEngine_reach l s _
    · exact updEngine_reach l s _
    · exact endAttempt_reach l s _ _

theorem deliverCharacter_reach (d : Byte) (p : Bool) (v : Level) : LineReach l s (deliverCharacter l d p v s) := by
  have hended : LineReach l s (s.setEngine l ((s.engine l).endCharacter v)) := lineReach_of_same rfl rfl
  unfold deliverCharacter
  dsimp only
  split
  · split
    · exact hended.trans (lineReach_of_same rfl rfl)
    · exact hended.trans (lineReach_of_same rfl rfl)
    · exact hended.trans (judgeReply_reach l _ _ _)
    all_goals exact hended
  · exact LineReach.refl l s

/-- A row of a line, as a CLKIN period may bring it about, reaches no further than its line. -/
theorem happen_reach {c : Instr} (hc : rowKey c = (2, some l) ∨ rowKey c = (3, some l) ∨ rowKey c = (4, some l)) :
    LineReach l s (happen s c) := by
  have hline {m : Line} {k : Nat}
      (h : (k, some m) = (2, some l) ∨ (k, some m) = (3, some l) ∨ (k, some m) = (4, some l)) : m = l := by
    rcases h with h | h | h <;> exact Option.some.inj (Prod.ext_iff.1 h).2
  cases c
  case leadEnd m => exact hline hc ▸ leadDone_reach m s
  case sendingEnd m => exact hline hc ▸ sendingDone_reach m s
  case lagEnd m => exact hline hc ▸ lagDone_reach m s
  case replyTimeout m => exact hline hc ▸ replyTimeoutDone_reach m s
  case quietGapEnd m => exact hline hc ▸ quietGapDone_reach m s
  case truncated m => exact hline hc ▸ gapLimitDone_reach m s
  case discardEnd m => exact hline hc ▸ discardDone_reach m s
  case continuousGapEnd m => exact hline hc ▸ endGap_reach m s
  case midStartSample m v => exact hline hc ▸ updEngine_reach m s _
  case characterDelivered m d b v => exact hline hc ▸ deliverCharacter_reach m s d b v
  case tick | clearWalkVisit => simp [rowKey] at hc
  all_goals exact LineReach.refl l s

end

/-! ### What every operation leaves alone -/

theorem deliverTick_headStays (s : State) : HeadStays s (deliverTick s) :=
  ((tickTimer_reach .a _).head.trans (tickTimer_reach .b _).head).after rfl

theorem walkStep_headStays (s : State) : HeadStays s (walkStep s) := by
  obtain ⟨-, -, -, hstore⟩ := walkStep_same s
  exact headStays_of_store hstore

theorem happen_headStays (c : Instr) (s : State) : HeadStays s (happen s c) := by
  cases c
  case tick => exact deliverTick_headStays s
  case clearWalkVisit => exact walkStep_headStays s
  case leadEnd l | sendingEnd l | lagEnd l | replyTimeout l | quietGapEnd l | truncated l | discardEnd l =>
    exact (happen_reach l s (.inl rfl)).head
  case midStartSample l v | characterDelivered l d b v => exact (happen_reach l s (.inr (.inl rfl))).head
  case continuousGapEnd l => exact (happen_reach l s (.inr (.inr rfl))).head
  all_goals exact headStays_of_store rfl

theorem syncLevelHeld_headStays (v : Level) (s : State) : HeadStays s (syncLevelHeld v s) := by
  unfold syncLevelHeld
  split
  · exact headStays_of_store rfl
  · split
    · exact headStays_of_store rfl
    · exact ((syncTrigger_reach .a _ v).head.trans (syncTrigger_reach .b _ v).head).after rfl

/-- No operation but a release and the resets takes the head of the store (R74). -/
theorem operation_headStays {k : OperationKind} {s t : State} (hop : Operation k s t) (hk : k ≠ .release)
    (hk' : k ≠ .reset) : HeadStays s t := by
  cases hop with
  | disable l => exact disable_headStays l s
  | beginRounds => exact (beginRounds_reach _ s).head
  | halt l => exact (halt_reach l s).head
  | enqueue => exact (makeChoice_reach _ _).head.after rfl
  | flush selected => exact cancelQueued_headStays s selected
  | happen c => exact happen_headStays c s
  | expireTimer l => exact (expireTimer_reach l s).head
  | syncLevelHeld v => exact syncLevelHeld_headStays v s
  | release => exact absurd rfl hk
  | reset => exact absurd rfl hk'
  | _ => exact headStays_of_store rfl

/-- The queue of commands, and PARAM where the operation is none that writes it. -/
structure PortReach (k : OperationKind) (s t : State) : Prop where
  pending : t.pending = s.pending
  param : k ≠ .param → k ≠ .reset → t.port.param = s.port.param

theorem LineStep.portReach {k : OperationKind} {l : Line} {s t : State} (h : LineStep l s t) : PortReach k s t :=
  ⟨h.pending, fun _ _ => by rw [h.port]⟩

theorem walkStep_port (s : State) : (walkStep s).port = { s.port with decoder := (walkStep s).port.decoder } := by
  unfold walkStep
  split
  · rfl
  · unfold walkVisit
    dsimp only
    split <;> rfl

theorem deliverTick_port (s : State) : (deliverTick s).port = s.port :=
  (tickTimer_lineStep .b _).port.trans (tickTimer_lineStep .a _).port

theorem happen_param (c : Instr) (s : State) : (happen s c).port.param = s.port.param := by
  cases c
  case tick => exact congrArg HostPort.param (deliverTick_port s)
  case clearWalkVisit => exact (congrArg HostPort.param (walkStep_port s) :)
  case leadEnd l | sendingEnd l | lagEnd l | replyTimeout l | quietGapEnd l | truncated l | discardEnd l =>
    exact congrArg HostPort.param (happen_lineStep l s (.inl rfl)).port
  case midStartSample l v | characterDelivered l d b v =>
    exact congrArg HostPort.param (happen_lineStep l s (.inr (.inl rfl))).port
  case continuousGapEnd l => exact congrArg HostPort.param (happen_lineStep l s (.inr (.inr rfl))).port
  all_goals rfl

theorem syncLevelHeld_portReach (v : Level) (s : State) : PortReach .ordinary s (syncLevelHeld v s) := by
  unfold syncLevelHeld
  split
  · exact ⟨rfl, fun _ _ => rfl⟩
  · split
    · exact ⟨rfl, fun _ _ => rfl⟩
    · have ha := syncTrigger_lineStep .a v (s.setSyncLevel (some v))
      have hb := syncTrigger_lineStep .b v (syncTrigger .a v (s.setSyncLevel (some v)))
      exact ⟨hb.pending.trans ha.pending, fun _ _ => congrArg HostPort.param (hb.port.trans ha.port)⟩

/-- No operation touches the queue of commands, and none but a write to it and the resets touches PARAM (R153). -/
theorem operation_portReach {k : OperationKind} {s t : State} (hop : Operation k s t) : PortReach k s t := by
  cases hop with
  | disable l => exact (disable_lineStep l s).portReach
  | beginRounds => exact (beginRounds_lineStep _ s).portReach
  | halt l => exact (halt_lineStep l s).portReach
  | enqueue =>
    exact ⟨(makeChoice_lineStep _ _).pending, fun _ _ => congrArg HostPort.param (makeChoice_lineStep _ _).port⟩
  | happen c =>
    obtain ⟨-, -, hpending⟩ := happen_gates c s
    exact ⟨hpending, fun _ _ => happen_param c s⟩
  | expireTimer l => exact (expireTimer_lineStep l s).portReach
  | syncLevelHeld v => exact syncLevelHeld_portReach v s
  | param => exact ⟨rfl, fun hk => absurd rfl hk⟩
  | reset => exact ⟨rfl, fun _ hk => absurd rfl hk⟩
  | _ => exact ⟨rfl, fun _ _ => rfl⟩

/-! ### The statements -/

/-- Settles O1: a step on a queue that holds a command is the command. -/
theorem stepRunsTheFrontCommand : Obligations.StepRunsTheFrontCommand := by
  intro c rest s h
  unfold step
  rw [h]
  rfl

/-- Settles O2: every row makes one operation, and none touches the queue. -/
theorem everyCommandCompletes : Obligations.EveryCommandCompletes := by
  intro c s
  obtain ⟨k, t, ht, ⟨u, v, hu, hop, hv⟩, -⟩ := exec_rowDoes c s
  exact ⟨t, ht, hv.pending.trans ((operation_portReach hop).pending.trans hu.pending)⟩

/-- Settles O41: an operation that takes the head of the store is a release or a reset, and the row is then one of those
excepted. -/
theorem headOfTheStoreStays : Obligations.HeadOfTheStoreStays := by
  intro c s t head rest hw hrelease hpart hpin hrefused hstore hexec
  obtain ⟨k, t', ht, ⟨u, v, hu, hop, hv⟩, hfits⟩ := exec_rowDoes c s
  obtain rfl : t' = t := Host.Outcome.next.inj (ht.symm.trans hexec)
  have hkind : k ≠ .release ∧ k ≠ .reset := by
    refine ⟨fun hk => ?_, fun hk => ?_⟩ <;> subst hk
    · rcases hfits hw with hc | ⟨code, hc, hidle⟩
      · exact hrelease hc
      · exact hrefused code hc hidle
    · exact (hfits hw).elim hpart hpin
  have hstays := operation_headStays hop hkind.1 hkind.2 head rest (hu.store.trans hstore)
  rwa [hv.store]

theorem working_keeps {P : State → State → Prop} {f : State → State} {s : State} (refl : P s s) (h : P s (f s)) :
    P s (working f s) := by
  rcases working_cases f s with hw | ⟨-, -, hw⟩ <;> rw [hw]
  · exact refl
  · exact h

theorem clocked_keeps {P : State → State → Prop} {f : State → State} {s : State} (refl : P s s) (h : P s (f s)) :
    P s (clocked f s) := by
  rcases clocked_cases f s with hw | ⟨-, hw⟩ <;> rw [hw]
  · exact refl
  · exact h

@[simp] theorem Engine.fall_config (e : Engine) : e.fall.config = e.config := by
  unfold Engine.fall
  split <;> rfl

/-- An event of a line: a step of it that reaches no further. -/
abbrev LineEvent (l : Line) (s t : State) : Prop := LineStep l s t ∧ LineReach l s t

theorem LineEvent.refl (l : Line) (s : State) : LineEvent l s s := ⟨LineStep.refl l s, LineReach.refl l s⟩

theorem happen_lineEvent {c : Instr} {l : Line} (s : State)
    (hc : rowKey c = (2, some l) ∨ rowKey c = (3, some l) ∨ rowKey c = (4, some l)) : LineEvent l s (happen s c) :=
  ⟨happen_lineStep l s hc, happen_reach l s hc⟩

/-- The rows of a line. -/
abbrev LineRow (l : Line) (c : Instr) : Prop :=
  c ∈ [.roundTimerExpiry l, .continuousGapEnd l, .quietGapEnd l, .leadEnd l, .sendingEnd l, .lagEnd l,
      .replyTimeout l, .truncated l, .discardEnd l, .rxdFall l, .rxdReturnToMark l] ∨
    (∃ v, c = .midStartSample l v) ∨ ∃ d p v, c = .characterDelivered l d p v

theorem exec_lineEvent {l : Line} {c : Instr} {s t : State} (hc : LineRow l c) (h : exec c s = .next t) :
    LineEvent l s t := by
  have row {f : State → State} (hrow : exec c s = .next (working f s)) (hf : LineEvent l s (f s)) :
      LineEvent l s t := by
    obtain rfl := Host.Outcome.next.inj (hrow.symm.trans h)
    exact working_keeps (LineEvent.refl l s) hf
  have count (hrow : exec c s = .next (working (fun s => happen s c) s))
      (hk : rowKey c = (2, some l) ∨ rowKey c = (3, some l) ∨ rowKey c = (4, some l)) : LineEvent l s t :=
    row hrow (happen_lineEvent s hk)
  have pin {f : Engine → Engine} (hrow : exec c s = .next (clocked (fun s => s.updEngine l f) s))
      (hf : (f (s.engine l)).config = (s.engine l).config) : LineEvent l s t := by
    obtain rfl := Host.Outcome.next.inj (hrow.symm.trans h)
    exact clocked_keeps (LineEvent.refl l s) ⟨updEngine_lineStep l s f hf, updEngine_reach l s f⟩
  rcases hc with hc | ⟨v, rfl⟩ | ⟨d, p, v, rfl⟩
  · simp only [List.mem_cons, List.not_mem_nil, or_false] at hc
    rcases hc with rfl | rfl | rfl | rfl | rfl | rfl | rfl | rfl | rfl | rfl | rfl
    · exact row rfl ⟨expireTimer_lineStep l s, expireTimer_reach l s⟩
    · exact count rfl (.inr (.inr rfl))
    iterate 7 · exact count rfl (.inl rfl)
    · exact pin rfl (Engine.fall_config _)
    · exact pin rfl (Engine.returnToMark_config _)
  · exact pin rfl (Engine.midStart_config v _)
  · exact count rfl (.inr (.inl rfl))

/-- Settles O60: a row of a line steps its line and reaches no further. -/
theorem lineEventsLeaveTheOtherLine : Obligations.LineEventsLeaveTheOtherLine := by
  intro l m c s t hm hc hexec
  obtain ⟨hstep, hreach⟩ := exec_lineEvent hc hexec
  refine ⟨hstep.engine m hm, hstep.controller m hm, fun i => hstep.node m i hm, ?_, fun i hi => hreach.entry i ?_,
    hstep.port, hstep.timeBase, hstep.burstLimit, hstep.health, hstep.config, hstep.settings⟩
  · simpa only [beq_eq_decide] using hstep.slots m hm
  · rwa [hi]

end Sys2Proof.Machine
end

