-- ==== Sys2Proof/Proofs/Status.lean ====
section
/-!
SUPPORT and CERTIFICATES. What the window shows of the part: pending bytes, enables, IRQ, STATUS, URGENT COUNT, RESULT
and the line status bytes, bit by bit (R138 to R148, R158).
-/

namespace Sys2Proof.Machine

open Sys2Proof.Safety

/-! ### Bits -/

theorem sixBits_getLsbD (b0 b1 b2 b3 b4 b5 : Bool) (k : Nat) :
    (sixBits b0 b1 b2 b3 b4 b5).getLsbD k = [b0, b1, b2, b3, b4, b5].getD k false := by
  by_cases hk : k < 6
  · interval_cases k <;> revert b0 b1 b2 b3 b4 b5 <;> decide
  · rw [BitVec.getLsbD_of_ge _ _ (by omega), List.getD_eq_default _ _ (by simpa using hk)]

/-- Six flags shown in a byte have their bits 6 and 7 at 0. -/
theorem setWidth_getLsbD_of_six (x : BitVec 6) (k : Nat) : (x.setWidth 8).getLsbD k = x.getLsbD k := by
  rw [BitVec.getLsbD_setWidth]
  by_cases hk : k < 8
  · simp [hk]
  · simp [hk, BitVec.getLsbD_of_ge x k (by omega)]

theorem ne_zero_iff_bit (x : BitVec 6) : (x != 0) = true ↔ ∃ k, k < 6 ∧ x.getLsbD k = true := by
  rw [bne_iff_ne]
  constructor
  · intro hx
    by_contra hnone
    refine hx (BitVec.eq_of_getLsbD_eq fun k hk => ?_)
    simpa using fun hbit => hnone ⟨k, hk, hbit⟩
  · rintro ⟨k, -, hbit⟩ rfl
    simp at hbit

theorem masked_ne_zero_iff (x y : BitVec 6) :
    (x &&& y != 0) = true ↔ ∃ k, k < 6 ∧ x.getLsbD k = true ∧ y.getLsbD k = true := by
  simp only [ne_zero_iff_bit, BitVec.getLsbD_and, Bool.and_eq_true]

/-! ### Sources and conditions -/

theorem anyChanged_iff (v : Vector NodeRecord 126) : anyChanged v = true ↔ ∃ i : Fin 126, v[i].changed = true := by
  unfold anyChanged
  rw [List.any_eq_true]
  constructor
  · rintro ⟨r, hr, hchanged⟩
    obtain ⟨i, hi, rfl⟩ := List.getElem_of_mem hr
    exact ⟨⟨i, by simpa using hi⟩, by simpa using hchanged⟩
  · rintro ⟨i, hchanged⟩
    exact ⟨v[i], by simp, hchanged⟩

theorem changePending_iff (s : State) : s.changePending = true ↔ ∃ l i, (s.node l i).changed = true := by
  unfold State.changePending
  rw [Bool.or_eq_true, anyChanged_iff, anyChanged_iff]
  constructor
  · rintro (⟨i, h⟩ | ⟨i, h⟩)
    · exact ⟨.a, i, h⟩
    · exact ⟨.b, i, h⟩
  · rintro ⟨l, i, h⟩
    cases l
    · exact .inl ⟨i, h⟩
    · exact .inr ⟨i, h⟩

theorem pendingLow_getLsbD (s : State) (k : Nat) :
    s.pendingLow.getLsbD k =
      [s.replyPending, s.changePending, s.interrupts.latched.overrun, s.interrupts.latched.commandDone,
        s.interrupts.latched.stray.a, s.interrupts.latched.stray.b].getD k false := sixBits_getLsbD _ _ _ _ _ _ k

theorem pendingHigh_getLsbD (s : State) (k : Nat) :
    s.pendingHigh.getLsbD k =
      [s.interrupts.latched.roundEnd.a, s.interrupts.latched.late.a, s.interrupts.latched.halted.a,
        s.interrupts.latched.roundEnd.b, s.interrupts.latched.late.b, s.interrupts.latched.halted.b].getD k false :=
  sixBits_getLsbD _ _ _ _ _ _ k

theorem irq_iff (s : State) :
    s.irq = true ↔
      ∃ k, k < 6 ∧ (s.pendingLow.getLsbD k = true ∧ s.interrupts.enableLow.getLsbD k = true ∨
        s.pendingHigh.getLsbD k = true ∧ s.interrupts.enableHigh.getLsbD k = true) := by
  unfold State.irq
  rw [Bool.or_eq_true, masked_ne_zero_iff, masked_ne_zero_iff, ← exists_or]
  simp only [← and_or_left]

theorem statusByte_getLsbD (s : State) (k : Nat) :
    s.statusByte.getLsbD k =
      [s.busy, s.port.refusedBusy, s.irq, s.replyPending, s.changePending, s.urgent.length == 4].getD k false :=
  (setWidth_getLsbD_of_six _ k).trans (sixBits_getLsbD _ _ _ _ _ _ k)

/-! ### Writes to the Interrupt Unit -/

section
variable {s : State} (h : Awake s)
include h

theorem exec_acknowledge (half : Half) (v : Byte) :
    exec (.acknowledge half v) s = .next (acknowledgeSources half v s) := by
  rw [← working_runs (acknowledgeSources half v) h.1 h.2]
  rfl

theorem exec_interruptEnableWrite (half : Half) (v : Byte) :
    exec (.interruptEnableWrite half v) s = .next (writeEnables half v s) := by
  rw [← working_runs (writeEnables half v) h.1 h.2]
  rfl

end

theorem ackLow_pendingLow (s : State) (v : Byte) {k : Nat} (hk : k < 6) :
    (acknowledgeSources .low v s).pendingLow.getLsbD k =
      if k < 2 then s.pendingLow.getLsbD k else (s.pendingLow.getLsbD k && !v.getLsbD k) := by
  rw [pendingLow_getLsbD, pendingLow_getLsbD]
  interval_cases k <;> rfl

theorem ackHigh_pendingHigh (s : State) (v : Byte) {k : Nat} (hk : k < 6) :
    (acknowledgeSources .high v s).pendingHigh.getLsbD k = (s.pendingHigh.getLsbD k && !v.getLsbD k) := by
  rw [pendingHigh_getLsbD, pendingHigh_getLsbD]
  interval_cases k <;> rfl

/-- Six flags taken from a byte read back as its bits 0 to 5. -/
theorem setWidth_six_eight (v : Byte) : ((v.setWidth 6).setWidth 8 : Byte) = v &&& 0x3F := by
  refine BitVec.eq_of_getLsbD_eq fun k hk => ?_
  rw [setWidth_getLsbD_of_six, BitVec.getLsbD_setWidth, BitVec.getLsbD_and]
  interval_cases k <;> simp

/-- Settles O15: an acknowledge changes the latched flags only, and those where the byte has a 1. -/
theorem acknowledgeClearsWrittenSources : Obligations.AcknowledgeClearsWrittenSources := fun s v h =>
  ⟨⟨_, exec_acknowledge h .low v, rfl, rfl, fun _ => ackLow_pendingLow s v⟩,
    ⟨_, exec_acknowledge h .high v, rfl, rfl, fun _ => ackHigh_pendingHigh s v⟩⟩

/-- Settles O16: a write to an enable byte touches nothing that a pending byte shows. -/
theorem enableWriteReplacesTheFlags : Obligations.EnableWriteReplacesTheFlags := by
  intro s v h
  have hread (half : Half) : (writeEnables half v s).resetHeld = false := by cases half <;> exact h.2
  refine ⟨⟨_, exec_interruptEnableWrite h .low v, rfl, ?_, rfl, rfl⟩,
    ⟨_, exec_interruptEnableWrite h .high v, rfl, ?_, rfl, rfl⟩⟩
  · unfold State.windowRead
    rw [hread]
    exact setWidth_six_eight v
  · unfold State.windowRead
    rw [hread]
    exact setWidth_six_eight v

/-! ### The window -/

/-- What a read returns of a part whose RESET is not held. -/
theorem windowRead_released {s : State} (h : s.resetHeld = false) :
    s.windowRead 0 = s.statusByte ∧ s.windowRead 1 = s.port.result.code ∧
      s.windowRead 3 = BitVec.ofNat 8 s.urgent.length ∧ s.windowRead 4 = s.pendingLow.setWidth 8 ∧
      s.windowRead 5 = s.pendingHigh.setWidth 8 ∧ s.windowRead 6 = s.interrupts.enableLow.setWidth 8 ∧
      s.windowRead 7 = s.interrupts.enableHigh.setWidth 8 ∧ s.windowRead 13 = s.lineStatusByte .a ∧
      s.windowRead 14 = s.lineStatusByte .b := by
  unfold State.windowRead
  rw [h]
  exact ⟨rfl, rfl, rfl, rfl, rfl, rfl, rfl, rfl, rfl⟩

/-- The conditions of STATUS, of IRQ and of the pending bytes. -/
theorem conditions_shown {s : State} (h : s.resetHeld = false) {changed : Bool}
    (hchanged : changed = true ↔ ∃ l i, (s.node l i).changed = true) :
    (∀ k, (s.windowRead 4).getLsbD k =
      ([!s.store.isEmpty, changed, s.interrupts.latched.overrun, s.interrupts.latched.commandDone,
        s.interrupts.latched.stray.a, s.interrupts.latched.stray.b].getD k false)) ∧
    (∀ k, (s.windowRead 5).getLsbD k =
      ([s.interrupts.latched.roundEnd.a, s.interrupts.latched.late.a, s.interrupts.latched.halted.a,
        s.interrupts.latched.roundEnd.b, s.interrupts.latched.late.b, s.interrupts.latched.halted.b].getD k false)) ∧
    (s.irq = true ↔ ∃ k, k < 6 ∧
      ((s.windowRead 4).getLsbD k = true ∧ (s.windowRead 6).getLsbD k = true ∨
        (s.windowRead 5).getLsbD k = true ∧ (s.windowRead 7).getLsbD k = true)) ∧
    ∀ k, (s.windowRead 0).getLsbD k =
      ([decide (s.port.decoder ≠ .idle), s.port.refusedBusy, s.irq, !s.store.isEmpty, changed,
        decide (s.urgent.length = 4)].getD k false) := by
  obtain ⟨h0, -, -, h4, h5, h6, h7, -, -⟩ := windowRead_released h
  have hchange : s.changePending = changed := Bool.eq_iff_iff.2 ((changePending_iff s).trans hchanged.symm)
  have hbusy : s.busy = decide (s.port.decoder ≠ .idle) := Bool.eq_iff_iff.2 (by rw [busy_iff, decide_eq_true_iff])
  refine ⟨fun k => ?_, fun k => ?_, ?_, fun k => ?_⟩
  · rw [h4, setWidth_getLsbD_of_six, pendingLow_getLsbD, hchange]
    rfl
  · rw [h5, setWidth_getLsbD_of_six, pendingHigh_getLsbD]
  · simp only [h4, h5, h6, h7, setWidth_getLsbD_of_six]
    exact irq_iff s
  · rw [h0, statusByte_getLsbD, hchange, hbusy, beq_eq_decide]
    rfl

/-! ### The line status bytes -/

section
variable (s : State) (l : Line)

/-- The three fields of a line status byte (R148). -/
theorem lineStatusByte_fields :
    (s.lineStatusByte l).toNat % 16 = (s.engine l).state.code ∧
      (s.lineStatusByte l).toNat / 16 % 4 = (s.controller l).state.code ∧
      (s.lineStatusByte l).toNat / 64 = exchangeCode (s.engine l).exchange := by
  have hline : (s.engine l).state.code ≤ 8 := by cases (s.engine l).state <;> decide
  have hround : (s.controller l).state.code ≤ 3 := by cases (s.controller l).state <;> decide
  have hexchange : exchangeCode (s.engine l).exchange ≤ 2 := by
    unfold exchangeCode
    split
    · decide
    · split <;> decide
  unfold State.lineStatusByte
  rw [toNat_ofNat_byte (by omega)]
  omega

theorem windowRead_lineStatus {s : State} (h : s.resetHeld = false) (l : Line) :
    s.windowRead (if l = .a then 13 else 14) = s.lineStatusByte l := by
  obtain ⟨-, -, -, -, -, -, -, ha, hb⟩ := windowRead_released h
  cases l
  · exact ha
  · exact hb

theorem LineState.code_eq_zero_iff (v : LineState) : v.code = 0 ↔ v = .disabled := by cases v <;> decide

theorem exchangeCode_eq_one_iff (e : Engine) : exchangeCode e.exchange = 1 ↔ routineOn e = true := by
  unfold exchangeCode routineOn
  cases e.exchange with
  | none => decide
  | some x => cases hw : x.work <;> simp [hw]

/-- The codes agree: nothing in a byte of a DISABLED line, and no routine exchange out of RUNNING and HALTING. -/
theorem lineStatusByte_agrees {s : State} (h : LinesSound s) (l : Line) :
    ((s.lineStatusByte l).toNat % 16 = 0 → (s.lineStatusByte l).toNat = 0) ∧
      ((s.lineStatusByte l).toNat / 64 = 1 → 2 ≤ (s.lineStatusByte l).toNat / 16 % 4) := by
  obtain ⟨hline, hround, hexchange⟩ := lineStatusByte_fields s l
  have hsound := (ok_of_linesSound h l).line
  rw [hline, hround, hexchange]
  refine ⟨fun hcode => ?_, fun hcode => ?_⟩
  · have hstate := (LineState.code_eq_zero_iff _).1 hcode
    obtain ⟨hstopped, hnone, -⟩ := hsound.disabled hstate
    rw [hstate] at hline
    rw [hstopped] at hround
    rw [hnone] at hexchange
    simp only [LineState.code, RoundState.code, exchangeCode] at hline hround hexchange
    omega
  · have hroutine := (exchangeCode_eq_one_iff _).1 hcode
    rcases hsound.running (hsound.routine.trans hroutine) with hr | hr <;> rw [hr] <;> decide

end

/-- Settles O18: the byte is the sum of its three fields, each too small to reach the next. -/
theorem lineStatusShowsTheLine : Obligations.LineStatusShowsTheLine := by
  intro s l h
  obtain ⟨hline, hround, hexchange⟩ := lineStatusByte_fields s l
  rw [windowRead_lineStatus h]
  refine ⟨?_, ?_, fun hnone => ?_, fun x e p r hx hw => ?_, fun x tag hx hw => ?_, fun hsound =>
    lineStatusByte_agrees hsound l⟩
  · exact hline
  · exact hround
  · rw [hexchange, hnone]
    rfl
  · rw [hexchange, hx, exchangeCode, hw]
  · rw [hexchange, hx, exchangeCode, hw]

end Sys2Proof.Machine
end

