-- ==== Sys2Proof/Proofs/Resets.lean ====
section
/-!
SUPPORT and CERTIFICATES. The two resets: what RESET PART and a hardware reset leave (R166 to R168) and what the window
reads then; and the accesses of the window's pointers and of PARAM (R73, R153, R155).
-/

namespace Sys2Proof.Machine

open Sys2Proof.Safety

/-! ### The rows of the resets -/

theorem exec_resetPart_of_awake {s : State} (h : Awake s) : exec .resetPart s = .next (resetPart s) := by
  rw [← working_runs resetPart h.1 h.2]
  rfl

theorem exec_resetPart_of_held {s : State} (h : s.resetHeld = true) : exec .resetPart s = .next s := by
  conv_rhs => rw [← working_held resetPart h]
  rfl

theorem exec_hardwareReset_of_running {s : State} (h : s.clkinRunning = true) :
    exec .hardwareReset s = .next (beginHardwareReset s) := by
  rw [← clocked_running beginHardwareReset h]
  rfl

theorem exec_hardwareResetEnd_of_running {s : State} (h : s.clkinRunning = true) :
    exec .hardwareResetEnd s = .next (endHardwareReset s) := by
  rw [← clocked_running endHardwareReset h]
  rfl

/-- A state right after either reset. -/
abbrev JustReset (s t : State) : Prop :=
  Awake s ∧ exec .resetPart s = .next t ∨ s.clkinRunning = true ∧ exec .hardwareReset s = .next t

theorem justReset_cases {s t : State} (h : JustReset s t) :
    (Awake s ∧ t = resetPart s) ∨ t = beginHardwareReset s := by
  rcases h with ⟨hawake, h⟩ | ⟨hclock, h⟩
  · exact .inl ⟨hawake, Host.Outcome.next.inj (h.symm.trans (exec_resetPart_of_awake hawake))⟩
  · exact .inr (Host.Outcome.next.inj (h.symm.trans (exec_hardwareReset_of_running hclock)))

/-! ### Every block at its reset value -/

theorem reset_pendingLow {s : State} (hstore : s.store = []) (hnodes : ∀ l i, (s.node l i).changed = false)
    (hlatched : s.interrupts.latched = InterruptUnit.reset.latched) : s.pendingLow = 0 := by
  have hchange : s.changePending = false := by
    rw [Bool.eq_false_iff, Ne, changePending_iff]
    rintro ⟨l, i, h⟩
    rw [hnodes] at h
    cases h
  refine BitVec.eq_of_getLsbD_eq fun k hk => ?_
  rw [pendingLow_getLsbD, replyPending_of_store_empty hstore, hchange, hlatched]
  interval_cases k <;> rfl

theorem reset_pendingHigh {s : State} (hlatched : s.interrupts.latched = InterruptUnit.reset.latched) :
    s.pendingHigh = 0 := by
  refine BitVec.eq_of_getLsbD_eq fun k hk => ?_
  rw [pendingHigh_getLsbD, hlatched]
  interval_cases k <;> rfl

theorem blocksReset_resetBlocks (s : State) : BlocksReset (resetBlocks s) := by
  have hengine (l : Line) : (resetBlocks s).engine l = Engine.reset (s.engine l).rxd := by cases l <;> rfl
  have hnode (l : Line) (i : Fin 126) : (resetBlocks s).node l i = NodeRecord.reset := by
    cases l <;> simp [State.node, resetBlocks, State.reset, PerLine.get]
  refine
    { table := fun i => by simp [resetBlocks, State.reset, Entry.reset]
      rounds := fun l => by cases l <;> rfl
      timeBase := rfl
      urgent := rfl
      engines := fun l => by rw [hengine]; exact ⟨rfl, rfl, rfl, rfl, rfl, rfl, rfl⟩
      pins := fun l => by rw [hengine]; exact ⟨rfl, rfl⟩
      burst := rfl
      store := rfl
      missed := fun i => by simp [resetBlocks, State.reset]
      nodes := hnode
      health := rfl
      interrupts := rfl
      irq := ?_ }
  rw [State.irq, reset_pendingLow rfl (fun l i => by rw [hnode]; rfl) rfl, reset_pendingHigh rfl]
  simp

/-- The blocks are not the Host Port, the pins or the hold. -/
theorem blocksReset_of_same {s t : State} (h : BlocksReset s)
    (ht : t = { s with port := t.port, syncLevel := t.syncLevel, resetHeld := t.resetHeld }) : BlocksReset t := by
  rw [ht]
  exact ⟨h.table, h.rounds, h.timeBase, h.urgent, h.engines, h.pins, h.burst, h.store, h.missed, h.nodes, h.health,
    h.interrupts, h.irq⟩

theorem resetPart_blocksReset (s : State) : BlocksReset (resetPart s) :=
  blocksReset_of_same (blocksReset_resetBlocks s) rfl

theorem beginHardwareReset_blocksReset (s : State) : BlocksReset (beginHardwareReset s) :=
  blocksReset_of_same (blocksReset_resetBlocks s) rfl

/-- Settles O8: RESET PART is the reset of the blocks with its own result and cause, and a hardware reset after it or
around it leaves the same. -/
theorem resetPartResetsEveryBlock : Obligations.ResetPartResetsEveryBlock := by
  intro s
  refine ⟨fun h => ⟨_, exec_resetPart_of_awake h, resetPart_blocksReset s, h, rfl, rfl, rfl⟩,
    fun _ => exec_resetPart_of_held, fun h => ?_⟩
  have hfirst : execAll [.resetPart, .hardwareReset, .hardwareResetEnd] s =
      some (endHardwareReset (beginHardwareReset (resetPart s))) := by
    simp only [execAll, exec_resetPart_of_awake h, exec_hardwareReset_of_running (s := resetPart s) h.1,
      exec_hardwareResetEnd_of_running (s := beginHardwareReset (resetPart s)) h.1]
  have hwithin : execAll [.hardwareReset, .resetPart, .hardwareResetEnd] s =
      some (endHardwareReset (beginHardwareReset s)) := by
    simp only [execAll, exec_hardwareReset_of_running h.1, exec_resetPart_of_held (s := beginHardwareReset s) rfl,
      exec_hardwareResetEnd_of_running (s := beginHardwareReset s) h.1]
  rw [hfirst, hwithin]
  rfl

/-- Settles O9: a hardware reset is the reset of the blocks with the part held and no level of SYNC. -/
theorem hardwareResetHoldsThePart : Obligations.HardwareResetHoldsThePart := by
  intro s h
  refine ⟨⟨_, exec_hardwareReset_of_running h, beginHardwareReset_blocksReset s, rfl, rfl, rfl, rfl, rfl, rfl, rfl, rfl,
    rfl, exec_hardwareResetEnd_of_running h⟩, fun hheld => ?_⟩
  rw [exec_hardwareResetEnd_of_running h, endHardwareReset, hheld]
  rfl

/-! ### The window after a reset -/

/-- The Host Port registers that either reset clears. -/
structure PortCleared (p : HostPort) : Prop where
  staging : p.staging = Vector.replicate 32 0
  stagePointer : p.stagePointer = 0
  replyPointer : p.replyPointer = 0
  param : p.param = 0
  decoder : p.decoder = .idle
  refusedBusy : p.refusedBusy = false

theorem reset_statusByte {s : State} (h : BlocksReset s) (hp : PortCleared s.port) : s.statusByte = 0 := by
  refine BitVec.eq_of_getLsbD_eq fun k hk => ?_
  have hlow := reset_pendingLow h.store (fun l i => by rw [h.nodes]) (congrArg InterruptUnit.latched h.interrupts)
  have hreply : s.replyPending = false := replyPending_of_store_empty h.store
  have hchange : s.changePending = false := by
    have hbit := pendingLow_getLsbD s 1
    rw [hlow] at hbit
    exact hbit.symm
  rw [statusByte_getLsbD, busy_of_idle hp.decoder, hp.refusedBusy, h.irq, hreply, hchange, h.urgent]
  interval_cases k <;> rfl

theorem reset_lineStatusByte {s : State} (h : BlocksReset s) (l : Line) : s.lineStatusByte l = 0 := by
  obtain ⟨hstate, -, hexchange, -⟩ := h.engines l
  rw [State.lineStatusByte, hstate, hexchange, h.rounds]
  rfl

/-- Every register but RESULT and RESET CAUSE reads 0x00 (R168). -/
theorem windowRead_of_reset {s : State} (h : BlocksReset s) (hp : PortCleared s.port) (hheld : s.resetHeld = false)
    (a : Fin 16) (h1 : a ≠ 1) (h15 : a ≠ 15) : s.windowRead a = 0 := by
  have hlatched := congrArg InterruptUnit.latched h.interrupts
  have hlow := reset_pendingLow h.store (fun l i => by rw [h.nodes]) hlatched
  unfold State.windowRead
  rw [hheld]
  fin_cases a
  · exact reset_statusByte h hp
  · exact absurd rfl h1
  · exact hp.param
  · simp [h.urgent]
  · simp [hlow]
  · simp [reset_pendingHigh hlatched]
  · simp [h.interrupts]
  · simp [h.interrupts]
  · simp [hp.stagePointer]
  · simp [hp.staging]
  · simp [hp.replyPointer]
  · simp [h.store, replyByte]
  · simp [h.store]
  · exact reset_lineStatusByte h .a
  · exact reset_lineStatusByte h .b
  · exact absurd rfl h15

theorem resetPart_portCleared (s : State) : PortCleared (resetPart s).port := ⟨rfl, rfl, rfl, rfl, rfl, rfl⟩

theorem beginHardwareReset_portCleared (s : State) : PortCleared (beginHardwareReset s).port :=
  ⟨rfl, rfl, rfl, rfl, rfl, rfl⟩

theorem justReset_portCleared {s t : State} (h : JustReset s t) : PortCleared t.port := by
  rcases justReset_cases h with ⟨-, rfl⟩ | rfl
  · exact resetPart_portCleared s
  · exact beginHardwareReset_portCleared s

theorem exec_resetCauseRead_of_awake {s : State} (h : Awake s) : exec .resetCauseRead s = .next (readResetCause s) := by
  have hread : readAccess readResetCause s = readResetCause s := by
    rw [readAccess, clocked_running _ h.1, h.2]
    rfl
  rw [← hread]
  rfl

/-- What the window reads of a part that has been reset. -/
theorem shows_reset {u : State} (h : BlocksReset u) (hp : PortCleared u.port) (hawake : Awake u) {result cause : Byte}
    (hresult : u.port.result.code = result) (hcause : u.port.resetCause.code = cause) :
    (∀ a : Fin 16, a ≠ 1 → a ≠ 15 → u.windowRead a = 0) ∧ (∀ p, replyByte u.store p = 0) ∧
      u.port.staging = Vector.replicate 32 0 ∧ u.windowRead 1 = result ∧ u.windowRead 15 = cause ∧
      ∃ v, exec .resetCauseRead u = .next v ∧ v.port.lastRead = cause ∧ v.windowRead 15 = 0 := by
  refine ⟨windowRead_of_reset h hp hawake.2, fun p => by rw [h.store]; rfl, hp.staging, ?_, ?_, _,
    exec_resetCauseRead_of_awake hawake, hcause, ?_⟩
  · simp [State.windowRead, hawake.2, hresult]
  · simp [State.windowRead, hawake.2, hcause]
  · simp [State.windowRead, readResetCause, driveData, ResetCause.code]

/-- Settles O10: both resets clear the registers, and differ in RESULT and the reset cause. -/
theorem resetsShowInTheWindow : Obligations.ResetsShowInTheWindow := by
  refine ⟨fun s h => ?_, fun s h => ?_, fun s h => ⟨?_, fun v => rfl⟩⟩
  · exact ⟨_, exec_resetPart_of_awake h, shows_reset (resetPart_blocksReset s) (resetPart_portCleared s) h rfl rfl⟩
  · refine ⟨_, endHardwareReset (beginHardwareReset s), exec_hardwareReset_of_running h,
      exec_hardwareResetEnd_of_running h, ?_⟩
    have hawake : Awake (endHardwareReset (beginHardwareReset s)) := ⟨h, rfl⟩
    exact shows_reset (blocksReset_of_same (beginHardwareReset_blocksReset s) rfl) ⟨rfl, rfl, rfl, rfl, rfl, rfl⟩
      hawake rfl rfl
  · rw [exec_resetCauseRead_of_awake h]
    unfold readResetCause driveData
    cases hcause : s.port.resetCause <;> simp [State.setPort, ResetCause.code]

/-- Settles O17: every bit shown is a condition of the part, and after a reset none holds. -/
theorem statusAndIrqShowTheirConditions : Obligations.StatusAndIrqShowTheirConditions := by
  refine ⟨fun s h => ?_, fun s t h => ?_⟩
  · intro p changed hchanged
    obtain ⟨-, hresult, hcount, -⟩ := windowRead_released h
    obtain ⟨hlow, hhigh, hirq, hstatus⟩ := conditions_shown h hchanged
    refine ⟨hlow, hhigh, hirq, hstatus, hcount, ?_⟩
    rw [hresult]
    cases s.port.result <;> rfl
  · have hport := justReset_portCleared h
    rcases justReset_cases h with ⟨hawake, rfl⟩ | rfl
    · have hblocks := resetPart_blocksReset s
      exact ⟨hblocks.irq, windowRead_of_reset hblocks hport hawake.2 0 (by decide) (by decide)⟩
    · exact ⟨(beginHardwareReset_blocksReset s).irq, rfl⟩

/-- Settles O14: only the write of PARAM and the resets are operations that touch it. -/
theorem windowWriteSetsParam : Obligations.WindowWriteSetsParam := by
  refine ⟨fun s v hawake => ?_, fun c s t hw hpart hpin hparam hexec => ?_, fun s t h => ?_⟩
  · have hwrite (a : Fin 16) (f : State → State) (hf : windowWrite a v s = working f s) :
        exec (.windowWrite a v) s = .next (f s) := by
      rw [← working_runs f hawake.1 hawake.2, ← hf]
      rfl
    have hset := hwrite 1 (writeParam v) rfl
    refine ⟨hset, fun t ht => ?_, fun a ha => ?_⟩
    · obtain rfl := Host.Outcome.next.inj (hset.symm.trans ht)
      simp [State.windowRead, writeParam, hawake.2]
    · simp only [List.mem_cons, List.not_mem_nil, or_false] at ha
      rcases ha with rfl | rfl | rfl | rfl | rfl | rfl | rfl <;> rfl
  · obtain ⟨k, t', ht, ⟨u, v, hu, hop, hv⟩, hfits⟩ := exec_rowDoes c s
    obtain rfl := Host.Outcome.next.inj (ht.symm.trans hexec)
    have hkeeps := (operation_portReach hop).param (fun hk => ?_) fun hk => ?_
    · exact hv.param.trans (hkeeps.trans hu.param)
    · subst hk
      obtain ⟨v, hc⟩ := hfits
      exact hparam v hc
    · subst hk
      exact (hfits hw).elim hpart hpin
  · exact (justReset_portCleared h).param

/-- Settles O55: the machine starts where the reset of its own blocks leaves it. -/
theorem resetStateIsSound : Obligations.ResetStateIsSound := by
  have hreset : resetBlocks State.reset = State.reset := rfl
  exact ⟨hreset ▸ resetBlocks_linesSound _, hreset ▸ resetBlocks_nodesSound _, hreset ▸ resetBlocks_settingsSound _,
    hreset ▸ resetBlocks_recordsSound _, hreset ▸ blocksReset_resetBlocks _, ⟨rfl, rfl⟩, rfl, rfl⟩

/-! ### The window's pointers -/

section
variable {s : State} (h : Awake s)
include h

/-- A write that the part takes. -/
theorem exec_of_working {c : Instr} {f : State → State} (hc : exec c s = .next (working f s)) :
    exec c s = .next (f s) := by rw [hc, working_runs f h.1 h.2]

/-- A read that the part answers. -/
theorem exec_of_read {c : Instr} {f : State → State} (hc : exec c s = .next (readAccess f s)) :
    exec c s = .next (f s) := by
  rw [hc, readAccess, clocked_running _ h.1, h.2]
  rfl

end

/-- The staging buffer takes the bytes written one after another, and its pointer has gone round after 32 (R155). -/
theorem execAll_stageDataWrite {s : State} (h : Awake s) (bytes : List Byte) :
    ∃ t, execAll (bytes.map Instr.stageDataWrite) s = some t ∧
      t.port.stagePointer.val = (s.port.stagePointer.val + bytes.length) % 32 := by
  induction bytes generalizing s with
  | nil => exact ⟨s, rfl, (Nat.mod_eq_of_lt s.port.stagePointer.isLt).symm⟩
  | cons v rest ih =>
    have hwritten := exec_of_working h (c := .stageDataWrite v) (f := writeStageData v) rfl
    obtain ⟨t, ht, hpointer⟩ := ih (s := writeStageData v s) h
    refine ⟨t, by rw [List.map_cons, execAll, hwritten]; exact ht, ?_⟩
    rw [hpointer, List.length_cons]
    change ((s.port.stagePointer.val + 1) % 32 + rest.length) % 32 = _
    omega

/-- Settles O11: each access moves the pointer by itself, and 32 of them bring it round. -/
theorem stagingPortAccess : Obligations.StagingPortAccess := by
  refine ⟨fun s h => ⟨fun v => ?_, fun v => ?_, ?_, ?_, ?_⟩, fun s t h => ?_, fun s bytes h hlength => ?_⟩
  · exact ⟨_, exec_of_working h (f := writeStagePointer v) rfl, rfl, rfl⟩
  · refine ⟨_, exec_of_working h (f := writeStageData v) rfl, rfl, fun k => ?_, rfl⟩
    simp [writeStageData, Vector.getElem_set, Fin.ext_iff, eq_comm]
  · exact ⟨_, exec_of_read h (f := readStageData) rfl, rfl, rfl⟩
  · simp [State.windowRead, h.2]
  · simp [State.windowRead, h.2]
  · have hcleared := justReset_portCleared h
    exact ⟨hcleared.staging, hcleared.stagePointer⟩
  · obtain ⟨t, ht, hpointer⟩ := execAll_stageDataWrite h bytes
    refine ⟨t, ht, Fin.ext ?_⟩
    have hlt := s.port.stagePointer.isLt
    omega

theorem advanceStopping_val (p : Fin 32) : (advanceStopping p).val = if p.val = 31 then 31 else p.val + 1 := by
  have hlt := p.isLt
  unfold advanceStopping
  split
  · rw [if_neg (by omega)]
  · rw [if_pos (by omega)]
    omega

/-- Settles O12: a read returns the byte at the pointer of the head's image, and the pointer stops at 31. -/
theorem replyPortAccess : Obligations.ReplyPortAccess := by
  refine fun s h => ⟨fun v => ?_, ?_, ?_, ?_⟩
  · exact ⟨_, exec_of_working h (f := writeReplyPointer v) rfl, rfl, rfl⟩
  · refine ⟨_, exec_of_read h (f := readReplyData) rfl, advanceStopping_val _, fun hstore => ?_,
      fun head rest hstore => ⟨fun hlt => ?_, fun hle => ?_⟩, rfl⟩
    · simp [readReplyData, driveData, replyByte, hstore]
    · simp [readReplyData, driveData, replyByte, hstore, hlt]
    · simp [readReplyData, driveData, replyByte, hstore, hle]
  · simp [State.windowRead, h.2]
  · simp [State.windowRead, h.2]

end Sys2Proof.Machine
end

