-- ==== Sys2Proof/Proofs/Holds.lean ====
section
/-!
SUPPORT and CERTIFICATES. The gates of the rows: what reaches a part whose clock stands still (R171), one whose RESET is
held (R166), and one whose decoder is EXECUTING (R159).
-/

namespace Sys2Proof.Machine

open Sys2Proof.Safety

/-! ### The gate of each row -/

/-- The rows that pass the clock's gate and not the hold's: the reads, the resets and the level of RXD. -/
abbrev PassesHold (c : Instr) : Prop :=
  c ∈ [Instr.stageDataRead, .replyDataRead, .resetCauseRead, .hardwareReset, .hardwareResetEnd] ∨
    ∃ l, c = .rxdFall l ∨ c = .rxdReturnToMark l ∨ ∃ v, c = .midStartSample l v

/-- Through which gate a row passes. -/
inductive Gate (c : Instr) (s : State) : Prop
  | working (f : State → State) (h : exec c s = .next (working f s))
  | clocked (f : State → State) (h : exec c s = .next (clocked f s)) (hc : PassesHold c)

section
variable {c : Instr} {s : State}

theorem working_id (s : State) : working id s = s := (working_cases id s).elim id fun ⟨_, _, h⟩ => h

theorem gate_of_nothing (h : exec c s = .next s) : Gate c s := .working id (by rw [working_id, h])

theorem gate_of_writeCommand (code : Byte) (h : exec c s = .next (writeCommand code s)) : Gate c s := by
  unfold writeCommand at h
  split at h
  · exact .working _ h
  · exact .working _ h

theorem windowWrite_gate (a : Fin 16) (v : Byte) (s : State) : Gate (.windowWrite a v) s := by
  have h : exec (.windowWrite a v) s = .next (windowWrite a v s) := rfl
  unfold windowWrite at h
  split at h
  · exact gate_of_writeCommand v h
  iterate 8 exact .working _ h
  · exact gate_of_nothing h

/-- Every row but the two of the clock passes a gate. -/
theorem exec_gate (hstop : c ≠ .clkinStop) (hrestart : c ≠ .clkinRestart) (s : State) : Gate c s := by
  cases c with
  | clkinStop => exact absurd rfl hstop
  | clkinRestart => exact absurd rfl hrestart
  | windowWrite a v => exact windowWrite_gate a v s
  | unknownCommand code | refusedBusy code => exact gate_of_writeCommand code rfl
  | stageDataRead | replyDataRead | resetCauseRead | hardwareReset | hardwareResetEnd =>
    exact .clocked _ rfl (.inl (by decide))
  | rxdFall l => exact .clocked _ rfl (.inr ⟨l, .inl rfl⟩)
  | rxdReturnToMark l => exact .clocked _ rfl (.inr ⟨l, .inr (.inl rfl)⟩)
  | midStartSample l v => exact .clocked _ rfl (.inr ⟨l, .inr (.inr ⟨v, rfl⟩)⟩)
  | _ => exact .working _ rfl

theorem Gate.stopped (hg : Gate c s) (h : s.clkinRunning = false) : exec c s = .next s := by
  cases hg with
  | working f hc => rw [hc, working_stopped f h]
  | clocked f hc _ => rw [hc, clocked_stopped f h]

theorem Gate.held (hg : Gate c s) (h : s.resetHeld = true) (hc : ¬PassesHold c) : exec c s = .next s := by
  cases hg with
  | working f hc => rw [hc, working_held f h]
  | clocked _ _ hpasses => exact absurd hpasses hc

end

/-! ### The two holds -/

/-- Settles O4: every row but the restart passes the clock's gate, or stops a clock that stands. -/
theorem stoppedClockFreezesThePart : Obligations.StoppedClockFreezesThePart := by
  intro s
  refine ⟨rfl, rfl, fun h c hrestart => ?_⟩
  by_cases hstop : c = .clkinStop
  · subst hstop
    change Host.Outcome.next { s with clkinRunning := false } = .next s
    rw [← h]
  · exact (exec_gate hstop hrestart s).stopped h

/-- A read of a held part drives 0x00 (R152, R166). -/
theorem exec_of_heldRead {c : Instr} {f : State → State} {s : State} (hclock : s.clkinRunning = true)
    (hheld : s.resetHeld = true) (hc : exec c s = .next (readAccess f s)) :
    exec c s = .next { s with port := { s.port with lastRead := 0 } } := by
  rw [hc, readAccess, clocked_running _ hclock, if_pos hheld]
  rfl

/-- Settles O5: every row not excepted passes the gate of a working part. -/
theorem heldResetTakesNoEvent : Obligations.HeldResetTakesNoEvent := by
  intro s hclock hheld
  refine ⟨fun a => by simp [State.windowRead, hheld], fun c hc => ?_, fun c hrows hpins => ?_⟩
  · simp only [List.mem_cons, List.not_mem_nil, or_false] at hc
    rcases hc with rfl | rfl | rfl <;> exact exec_of_heldRead hclock hheld rfl
  · by_cases hrestart : c = .clkinRestart
    · rw [if_pos hrestart, hrestart]
      rfl
    · rw [if_neg hrestart]
      simp only [List.mem_cons, List.not_mem_nil, or_false, not_or] at hrows
      obtain ⟨hstage, hreply, hcause, hreset, hend, hstop⟩ := hrows
      refine (exec_gate hstop hrestart s).held hheld ?_
      rintro (hc | ⟨l, hc | hc | ⟨v, hc⟩⟩)
      · simp [hstage, hreply, hcause, hreset, hend] at hc
      · exact (hpins l).1 hc
      · exact (hpins l).2.1 hc
      · exact (hpins l).2.2 v hc

/-! ### The command decoder -/

/-- A command leaves REFUSED_BUSY as it finds it. -/
def KeepsRefusedBusy (f : State → State) : Prop := ∀ s, (f s).port.refusedBusy = s.port.refusedBusy

theorem LineStep.refusedBusy {l : Line} {s t : State} (h : LineStep l s t) :
    t.port.refusedBusy = s.port.refusedBusy := congrArg HostPort.refusedBusy h.port

theorem giveResult_refusedBusy (r : ResultCode) (s : State) :
    (giveResult r s).port.refusedBusy = s.port.refusedBusy := rfl

theorem loaded_refusedBusy (r : ResultCode) (v : Vector Byte 32) (s : State) :
    (giveResult r (loadStaging v s)).port.refusedBusy = s.port.refusedBusy := rfl

theorem configureLine_keepsRefusedBusy : KeepsRefusedBusy configureLine := fun s => by
  unfold configureLine
  (repeat' split) <;> rfl

theorem readLineConfig_keepsRefusedBusy : KeepsRefusedBusy readLineConfig := fun s => by
  unfold readLineConfig
  split
  · rfl
  · exact loaded_refusedBusy _ _ s

theorem enableLine_keepsRefusedBusy : KeepsRefusedBusy enableLine := fun s => by
  unfold enableLine
  (repeat' split) <;> rfl

theorem disableLine_keepsRefusedBusy : KeepsRefusedBusy disableLine := fun s => by
  unfold disableLine
  split
  · rfl
  · next l _ =>
    rw [giveResult_refusedBusy]
    split
    · rfl
    · exact (disable_lineStep l s).refusedBusy

theorem writeEntry_keepsRefusedBusy : KeepsRefusedBusy writeEntry := fun s => by
  unfold writeEntry
  (repeat' split) <;> rfl

theorem readEntry_keepsRefusedBusy : KeepsRefusedBusy readEntry := fun s => by
  unfold readEntry
  split
  · rfl
  · exact loaded_refusedBusy _ _ s

theorem setRoundMode_keepsRefusedBusy : KeepsRefusedBusy setRoundMode := fun s => by
  unfold setRoundMode
  (repeat' split) <;> rfl

theorem startRounds_keepsRefusedBusy : KeepsRefusedBusy startRounds := fun s => by
  unfold startRounds
  split
  · rfl
  · next l _ =>
    split
    · rfl
    · split
      · exact (beginRounds_lineStep l s).refusedBusy
      · rfl

theorem haltRounds_keepsRefusedBusy : KeepsRefusedBusy haltRounds := fun s => by
  unfold haltRounds
  split
  · rfl
  · exact (halt_lineStep _ s).refusedBusy

theorem setTiming_keepsRefusedBusy : KeepsRefusedBusy setTiming := fun s => by
  unfold setTiming
  (repeat' split) <;> rfl

theorem enqueueUrgent_keepsRefusedBusy : KeepsRefusedBusy enqueueUrgent := fun s => by
  unfold enqueueUrgent
  split
  · rfl
  · next slot _ =>
    (repeat' split)
    · rfl
    · rfl
    · rfl
    · exact (makeChoice_lineStep slot.line (s.setUrgent (s.urgent ++ [slot]))).refusedBusy

theorem flushUrgent_keepsRefusedBusy : KeepsRefusedBusy flushUrgent := fun s => by
  unfold flushUrgent
  split <;> rfl

theorem setBurst_keepsRefusedBusy : KeepsRefusedBusy setBurst := fun s => by
  unfold setBurst
  split <;> rfl

theorem releaseReply_keepsRefusedBusy : KeepsRefusedBusy releaseReply := fun s => by
  unfold releaseReply
  split <;> rfl

theorem setHealth_keepsRefusedBusy : KeepsRefusedBusy setHealth := fun s => by
  unfold Machine.setHealth
  split <;> rfl

theorem readNode_keepsRefusedBusy : KeepsRefusedBusy readNode := fun s => by
  unfold readNode
  split
  · rfl
  · exact loaded_refusedBusy _ _ s

theorem takeChange_keepsRefusedBusy : KeepsRefusedBusy takeChange := fun s => by
  unfold takeChange
  split
  · rfl
  · exact loaded_refusedBusy _ _ (s.setNode _ _ _)

theorem clearNodeMap_keepsRefusedBusy : KeepsRefusedBusy clearNodeMap := fun _ => rfl

/-- Each row of a command is an access to COMMAND, by an operation that leaves REFUSED_BUSY. -/
theorem commandRow_access {c : Instr} (h : c ∈ commandRows) :
    ∃ f, KeepsRefusedBusy f ∧ ∀ s, exec c s = .next (commandAccess f s) := by
  simp only [commandRows, List.mem_cons, List.not_mem_nil, or_false] at h
  rcases h with rfl | rfl | rfl | rfl | rfl | rfl | rfl | rfl | rfl | rfl | rfl | rfl | rfl | rfl | rfl | rfl | rfl |
    rfl
  · exact ⟨_, configureLine_keepsRefusedBusy, fun _ => rfl⟩
  · exact ⟨_, readLineConfig_keepsRefusedBusy, fun _ => rfl⟩
  · exact ⟨_, enableLine_keepsRefusedBusy, fun _ => rfl⟩
  · exact ⟨_, disableLine_keepsRefusedBusy, fun _ => rfl⟩
  · exact ⟨_, writeEntry_keepsRefusedBusy, fun _ => rfl⟩
  · exact ⟨_, readEntry_keepsRefusedBusy, fun _ => rfl⟩
  · exact ⟨_, setRoundMode_keepsRefusedBusy, fun _ => rfl⟩
  · exact ⟨_, startRounds_keepsRefusedBusy, fun _ => rfl⟩
  · exact ⟨_, haltRounds_keepsRefusedBusy, fun _ => rfl⟩
  · exact ⟨_, setTiming_keepsRefusedBusy, fun _ => rfl⟩
  · exact ⟨_, enqueueUrgent_keepsRefusedBusy, fun _ => rfl⟩
  · exact ⟨_, flushUrgent_keepsRefusedBusy, fun _ => rfl⟩
  · exact ⟨_, setBurst_keepsRefusedBusy, fun _ => rfl⟩
  · exact ⟨_, releaseReply_keepsRefusedBusy, fun _ => rfl⟩
  · exact ⟨_, setHealth_keepsRefusedBusy, fun _ => rfl⟩
  · exact ⟨_, readNode_keepsRefusedBusy, fun _ => rfl⟩
  · exact ⟨_, takeChange_keepsRefusedBusy, fun _ => rfl⟩
  · exact ⟨_, clearNodeMap_keepsRefusedBusy, fun _ => rfl⟩

theorem writeCommand_of_ne {code : Byte} (h : code ≠ 0xA5) (s : State) :
    writeCommand code s = commandAccess (commandOf code) s := if_neg h

/-- Settles O6: a write to COMMAND passes the decoder's gate, which a reset opens. -/
theorem busyDecoderRefusesCommands : Obligations.BusyDecoderRefusesCommands := by
  refine ⟨fun c hc => ?_, fun code hcode => ⟨?_, ?_⟩, fun s v t h _ hexec => ?_, fun c hc s t h hexec => ?_,
    fun s h => ⟨_, exec_hardwareReset_of_running h, rfl⟩, fun s h => ⟨_, exec_resetPart_of_awake h, rfl, rfl, rfl, rfl⟩⟩
  · obtain ⟨f, -, hf⟩ := commandRow_access hc
    exact refusedWhileBusy_of_access f hf
  · exact refusedWhileBusy_of_access _ fun s => congrArg Host.Outcome.next (writeCommand_of_ne hcode s)
  · exact refusedWhileBusy_of_access _ fun s => congrArg Host.Outcome.next (writeCommand_of_ne hcode s)
  · obtain rfl := Host.Outcome.next.inj ((exec_of_working h (f := walkStep) rfl).symm.trans hexec)
    rw [walkStep_port]
  · obtain ⟨f, hkeeps, hf⟩ := commandRow_access hc
    obtain rfl := Host.Outcome.next.inj ((exec_of_access hf h).symm.trans hexec)
    exact hkeeps _

end Sys2Proof.Machine
end

