-- ==== Sys2Proof/Proofs/Periods.lean ====
section
/-!
SUPPORT and CERTIFICATES. A CLKIN period is its counts and then the rows that are due (R19, R98); the walk of CLEAR NODE
MAP is its 252 visits (R93).
-/

namespace Sys2Proof.Machine

open Sys2Proof.Safety

/-! ### Commands one after another -/

theorem execAll_cons {c : Instr} {rest : List Instr} {s t : State} (h : exec c s = .next t) :
    execAll (c :: rest) s = execAll rest t := by rw [execAll, h]

theorem execAll_append {first rest : List Instr} {s t : State} (h : execAll first s = some t) :
    execAll (first ++ rest) s = execAll rest t := by
  induction first generalizing s with
  | nil =>
    obtain rfl := Option.some.inj h
    rfl
  | cons c first ih =>
    cases hc : exec c s with
    | next u =>
      rw [execAll_cons hc] at h
      rw [List.cons_append, execAll_cons hc, ih h]
    | fault r => cases r
    | refused r => simp [execAll, hc] at h

theorem awake_happen {s : State} (h : Awake s) (c : Instr) : Awake (happen s c) := by
  obtain ⟨hclock, hheld, -⟩ := happen_gates c s
  exact ⟨hclock.trans h.1, hheld.trans h.2⟩

/-- Rows that were due in one state happen one after another from any state of a part that works. -/
theorem execAll_of_due {s t : State} (rows : List Instr) (ht : Awake t) (hrows : ∀ c ∈ rows, Due s c) :
    execAll rows t = some (rows.foldl happen t) := by
  induction rows generalizing t with
  | nil => rfl
  | cons c rest ih =>
    rw [execAll_cons (exec_of_due ht (hrows c List.mem_cons_self))]
    exact ih (awake_happen ht c) fun d hd => hrows d (List.mem_cons_of_mem c hd)

/-! ### The period -/

theorem step_of_empty {s : State} (h : s.pending = []) : step s = .next (clkinPeriod s) := by rw [step, h]

theorem rowsDue_perm (s : State) : (rowsDue s).Perm (dueRows (countsMoved s)) := arrange_perm _ _ _ (Nat.le_refl _)

theorem mem_rowsDue (s : State) (c : Instr) : c ∈ rowsDue s ↔ Due (countsMoved s) c :=
  (rowsDue_perm s).mem_iff.trans (due_iff _ c).symm

theorem rowsDue_nodup (s : State) : (rowsDue s).Nodup := (rowsDue_perm s).nodup_iff.2 (dueRows_nodup _)

theorem clkinPeriod_of_awake {s : State} (h : Awake s) :
    clkinPeriod s = (rowsDue s).foldl happen (countsMoved s) :=
  ((clkinPeriod_cases s).resolve_left fun hc => hc.1 h).2

theorem clkinPeriod_of_not_awake {s : State} (h : ¬Awake s) : clkinPeriod s = s :=
  ((clkinPeriod_cases s).resolve_right fun hc => h hc.1).2

theorem eq_singleton_of_nodup {α : Type} {xs : List α} {x : α} (hn : xs.Nodup) (hx : x ∈ xs) (h : ∀ y ∈ xs, y = x) :
    xs = [x] := by
  rw [List.eq_replicate_of_mem h] at hn ⊢
  have hlength : xs.length = 1 := by
    have hle := List.nodup_replicate.1 hn
    have hpos := List.length_pos_of_mem hx
    omega
  rw [hlength]
  rfl

/-- Settles O3: the counts move, and the rows that are due happen in the order picked. -/
theorem idleStepIsOneClkinPeriod : Obligations.IdleStepIsOneClkinPeriod := by
  intro s hempty
  rw [step_of_empty hempty]
  refine ⟨fun h => by rw [clkinPeriod_of_not_awake h], fun h => ⟨countsMoved s, counted_advanceCounts s,
    fun hnone => ?_, fun c hc hunique => ?_, rowsDue s, _, rowsDue_nodup s, mem_rowsDue s, ?_, rfl⟩⟩
  · have hrows : rowsDue s = [] := List.eq_nil_iff_forall_not_mem.2 fun c hc => hnone c ((mem_rowsDue s c).1 hc)
    rw [clkinPeriod_of_awake h, hrows]
    rfl
  · have hrows : rowsDue s = [c] := eq_singleton_of_nodup (rowsDue_nodup s) ((mem_rowsDue s c).2 hc) fun d hd =>
      hunique d ((mem_rowsDue s d).1 hd)
    rw [clkinPeriod_of_awake h, hrows]
    exact (exec_of_due (t := countsMoved s) h hc).symm
  · rw [clkinPeriod_of_awake h]
    exact execAll_of_due _ h fun c hc => (mem_rowsDue s c).1 hc

/-! ### The walk -/

theorem exec_clearWalkVisit {s : State} (h : Awake s) : exec .clearWalkVisit s = .next (walkStep s) :=
  exec_of_working h rfl

theorem exec_clearNodeMap {s : State} (h : TakesCommands s) :
    exec .clearNodeMap s = .next (answered .done { s with port := { s.port with decoder := .executing 0 } }) :=
  exec_of_access (f := clearNodeMap) (fun _ => rfl) h

/-- The place of a record in key order (R87). -/
theorem walkKey_eq_iff (v : Fin 252) (l : Line) (k : Fin 126) :
    l = (walkKey v).1 ∧ k = (walkKey v).2 ↔ v.val = k.val + 126 * lineIndex l := by
  have hk := k.isLt
  unfold walkKey
  split <;> cases l <;> simp only [lineIndex, Fin.ext_iff, reduceCtorEq, true_and, false_and, false_iff] <;> omega

theorem walkVisit_node (v : Fin 252) (s : State) (l : Line) (k : Fin 126) :
    (walkVisit v s).node l k = if v.val = k.val + 126 * lineIndex l then NodeRecord.reset else s.node l k := by
  have hset : (walkVisit v s).node l k = (s.setNode (walkKey v).1 (walkKey v).2 NodeRecord.reset).node l k := by
    unfold walkVisit
    dsimp only
    split <;> rfl
  rw [hset, State.setNode_node]
  simp only [walkKey_eq_iff]

theorem walkVisit_frame (v : Fin 252) (s : State) :
    walkVisit v s = { s with
      nodes := (walkVisit v s).nodes
      port := { s.port with decoder := if h : v.val + 1 < 252 then .executing ⟨v.val + 1, h⟩ else .idle }
      interrupts :=
        { s.interrupts with
          latched :=
            { s.interrupts.latched with
              commandDone := s.interrupts.latched.commandDone || decide (v.val = 251) } } } := by
  have hv := v.isLt
  unfold walkVisit
  dsimp only
  split
  · next h =>
    have hlast : ¬v.val = 251 := by omega
    simp [hlast, State.setPort, State.setNode]
  · next h =>
    have hlast : v.val = 251 := by omega
    simp [hlast, State.setPort, State.setNode, setCommandDone, setLatched, State.setInterrupts]

/-- How far a walk has come after some visits: what it has reset, and where the decoder stands. -/
structure Walked (s : State) (n : Nat) (t : State) : Prop where
  awake : Awake t
  result : t.port.result = s.port.result
  nodes : ∀ l (k : Fin 126), k.val + 126 * lineIndex l < n → t.node l k = NodeRecord.reset
  executing : ∀ h : n < 252, t.port.decoder = .executing ⟨n, h⟩
  done : n = 252 → t.port.decoder = .idle ∧ t.interrupts.latched.commandDone = true

theorem walked_succ {s t : State} {n : Nat} (hn : n < 252) (h : Walked s n t) : Walked s (n + 1) (walkStep t) := by
  have hstep : walkStep t = walkVisit ⟨n, hn⟩ t := by rw [walkStep, h.executing hn]
  have hframe := walkVisit_frame ⟨n, hn⟩ t
  rw [hstep]
  refine ⟨?_, ?_, fun l k hk => ?_, fun hlt => ?_, fun hlast => ?_⟩
  · rw [hframe]
    exact h.awake
  · rw [hframe]
    exact h.result
  · rw [walkVisit_node]
    split
    · rfl
    · next hne => exact h.nodes l k (by dsimp only at hne; omega)
  · rw [hframe]
    exact dif_pos hlt
  · rw [hframe]
    have hnot : ¬n + 1 < 252 := by omega
    have heq : n = 251 := by omega
    exact ⟨dif_neg hnot, by simp [heq]⟩

/-- From the start of a walk, any number of its visits. -/
theorem execAll_visits {s : State} (h : Awake s) (hd : s.port.decoder = .executing 0) (n : Nat) (hn : n ≤ 252) :
    ∃ t, execAll (List.replicate n .clearWalkVisit) s = some t ∧ Walked s n t := by
  induction n with
  | zero => exact ⟨s, rfl, h, rfl, nofun, fun _ => hd, nofun⟩
  | succ n ih =>
    obtain ⟨t, ht, hwalked⟩ := ih (Nat.le_of_succ_le hn)
    refine ⟨walkStep t, ?_, walked_succ hn hwalked⟩
    rw [List.replicate_succ', execAll_append ht, execAll_cons (exec_clearWalkVisit hwalked.awake)]
    rfl

/-- Settles O45: each visit resets the record whose turn it is, and 252 of them reset all. -/
theorem clearWalkResetsEveryRecord : Obligations.ClearWalkResetsEveryRecord := by
  refine ⟨refusedWhileBusy_of_access clearNodeMap fun _ => rfl, fun s h => exec_clearNodeMap h, fun s h hd => ?_,
    fun s v h hd => ⟨walkVisit v s, ?_, walkVisit_frame v s, walkVisit_node v s⟩, fun s h => ?_⟩
  · rw [exec_clearWalkVisit h, walkStep, hd]
  · rw [exec_clearWalkVisit h, walkStep, hd]
  · have hwalk (n : Nat) (hn : n ≤ 252) := execAll_visits
      (s := answered .done { s with port := { s.port with decoder := .executing 0 } }) h.1 rfl n hn
    obtain ⟨t, ht, hwalked⟩ := hwalk 252 (Nat.le_refl _)
    have hreset (l : Line) (k : Fin 126) : t.node l k = NodeRecord.reset := by
      refine hwalked.nodes l k ?_
      have hk := k.isLt
      cases l <;> simp only [lineIndex] <;> omega
    obtain ⟨hidle, hdone⟩ := hwalked.done rfl
    refine ⟨t, by rw [execAll_cons (exec_clearNodeMap h)]; exact ht, hreset, hidle, hwalked.result, hdone, ?_,
      fun n hn => ?_⟩
    · rw [pendingLow_getLsbD]
      change t.changePending = false
      rw [Bool.eq_false_iff, Ne, changePending_iff]
      rintro ⟨l, k, hk⟩
      rw [hreset] at hk
      cases hk
    · obtain ⟨u, hu, hwalkedTo⟩ := hwalk n (Nat.le_of_lt hn)
      refine ⟨u, by rw [execAll_cons (exec_clearNodeMap h)]; exact hu, ?_⟩
      rw [hwalkedTo.executing hn]
      exact nofun

end Sys2Proof.Machine
end

