-- ==== Sys2Proof/Proofs/Triggers.lean ====
section
/-!
SUPPORT and CERTIFICATES. The Round Controllers: triggers from the timer, from SYNC and from the continuous gap (R19 to
R24, R32), and HALT ROUNDS (R33).
-/

namespace Sys2Proof.Machine

open Sys2Proof.Safety

section
variable {l : Line} {s : State}

/-! ### Rounds -/

theorem startRoundAndChoose_eq (l : Line) (s : State) :
    startRoundAndChoose l s = makeChoice l (withController s l (roundStarted (s.controller l))) := rfl

@[simp] theorem withController_controller (s : State) (l : Line) (c : Controller) :
    (withController s l c).controller l = c := PerLine.get_set_same _ _ _

theorem withController_again (s : State) (l : Line) (c d : Controller) :
    withController (withController s l c) l d = withController s l d := by
  simp only [withController, PerLine.set_set]

theorem withController_self (s : State) (l : Line) : withController s l (s.controller l) = s := by
  simp only [withController, State.controller, PerLine.set_get_self]

/-- From ARMED a trigger starts a round; CONTINUOUS with TIMER stops the round timer (R24). -/
theorem trigger_of_armed (h : (s.controller l).state = .armed) :
    trigger l s =
      makeChoice l
        (withController s l
          (roundStarted
            (if (s.controller l).settings.mode = .continuous ∧ (s.controller l).settings.source = .timer then
              { s.controller l with timer := none }
            else s.controller l))) := by
  unfold trigger
  rw [h]
  dsimp only
  rw [startRoundAndChoose_eq]
  split
  · change makeChoice l
      (withController (withController s l _) l (roundStarted ((withController s l _).controller l))) = _
    rw [withController_again, withController_controller]
  · rfl

/-- In RUNNING with SINGLE a trigger is too early (R24). -/
theorem trigger_of_late (h : (s.controller l).state = .running) (hm : (s.controller l).settings.mode = .single) :
    trigger l s = withLatched s { s.interrupts.latched with late := s.interrupts.latched.late.set l true } := by
  unfold trigger
  rw [h]
  exact if_pos hm

/-- In every other state a trigger is lost (R23, R24). -/
theorem trigger_of_lost (h : (s.controller l).state ≠ .armed)
    (hm : ¬((s.controller l).state = .running ∧ (s.controller l).settings.mode = .single)) : trigger l s = s := by
  unfold trigger
  dsimp only
  split
  · next hs => exact absurd hs h
  · next hs => exact if_neg fun hsingle => hm ⟨hs, hsingle⟩
  · rfl
  · rfl

theorem expireTimer_stopped (h : (s.controller l).timer = none) : expireTimer l s = s := by rw [expireTimer, h]

theorem expireTimer_running (h : (s.controller l).timer ≠ none) :
    expireTimer l s =
      trigger l (withController s l { s.controller l with timer := some (s.controller l).settings.period }) := by
  obtain ⟨n, hn⟩ := Option.ne_none_iff_exists'.1 h
  rw [expireTimer, hn]
  rfl

end

/-- Settles O29: the expiry is a reload and then a trigger, by the state of the controller. -/
theorem roundTimerExpiryIsATrigger : Obligations.RoundTimerExpiryIsATrigger := by
  intro s l h
  have hexec : exec (.roundTimerExpiry l) s = .next (expireTimer l s) := exec_of_working h rfl
  refine ⟨fun hnone => by rw [hexec, expireTimer_stopped hnone], fun hsome => ?_⟩
  rw [hexec, expireTimer_running hsome]
  refine ⟨fun harmed => ?_, fun hrunning hsingle => ?_, fun harmed hlate => ?_⟩
  · rw [trigger_of_armed (by rw [withController_controller]; exact harmed), withController_controller,
      withController_again]
  · rw [trigger_of_late (by rw [withController_controller]; exact hrunning)
      (by rw [withController_controller]; exact hsingle)]
  · rw [trigger_of_lost (by rw [withController_controller]; exact harmed)
      (by rw [withController_controller]; exact hlate)]

/-! ### Ticks -/

/-- What a tick does to one round timer that does not stand at 0 (R21). -/
theorem tickTimer_reached {l : Line} {u : State} (h : Awake u) (h0 : (u.controller l).timer ≠ some 0) :
    if (u.controller l).timer = some 1 then exec (.roundTimerExpiry l) u = .next (tickTimer l u)
    else tickTimer l u = withController u l { u.controller l with timer := (u.controller l).timer.map (· - 1) } := by
  have hexec : exec (.roundTimerExpiry l) u = .next (expireTimer l u) := exec_of_working h rfl
  unfold tickTimer
  cases ht : (u.controller l).timer with
  | none =>
    rw [if_neg nofun]
    dsimp only
    rw [Option.map_none, ← ht]
    exact (withController_self u l).symm
  | some n =>
    dsimp only
    rw [ht] at h0
    split
    · next h1 =>
      obtain rfl := Option.some.inj h1
      rw [hexec]
      rfl
    · next h1 =>
      have hn : ¬n ≤ 1 := fun hle => by
        interval_cases n
        · exact h0 rfl
        · exact h1 rfl
      rw [if_neg hn]
      rfl

/-- Settles O30: a tick reaches Line A's timer and then Line B's, and neither touches the other. -/
theorem tickCountsBothTimers : Obligations.TickCountsBothTimers := by
  intro s h h0
  have hexec : exec .tick s = .next (deliverTick s) := exec_of_working h rfl
  have ha := tickTimer_lineStep .a (s.setTimeBase { s.timeBase with prescaler := 0 })
  have hb := tickTimer_lineStep .b (tickTimer .a (s.setTimeBase { s.timeBase with prescaler := 0 }))
  have hcontroller := ha.controller .b (by decide)
  have hawake : Awake (tickTimer .a (s.setTimeBase { s.timeBase with prescaler := 0 })) :=
    ⟨ha.clkinRunning.trans h.1, ha.resetHeld.trans h.2⟩
  refine ⟨_, _, tickTimer_reached h (h0 .a), tickTimer_reached hawake ?_, hcontroller, hb.controller .a (by decide),
    hexec⟩
  exact fun hzero => h0 .b ((congrArg Controller.timer hcontroller).symm.trans hzero)

/-! ### SYNC -/

/-- The controller is set to SYNC, is not STOPPED, and selects the edge that ends at a level (R22). -/
abbrev SeesEdge (c : Controller) (v : Level) : Prop :=
  c.settings.source = .sync ∧ c.state ≠ .stopped ∧
    (c.settings.edge = .both ∨ c.settings.edge = .rising ∧ v = .high ∨ c.settings.edge = .falling ∧ v = .low)

theorem selects_iff (e : SyncEdge) (v : Level) :
    e.selects v = true ↔ e = .both ∨ e = .rising ∧ v = .high ∨ e = .falling ∧ v = .low := by
  cases e <;> cases v <;> decide

/-- What an edge of SYNC does to one controller (R22 to R24). -/
theorem syncTrigger_eq (l : Line) (v : Level) (u : State) :
    syncTrigger l v u =
      if SeesEdge (u.controller l) v then
        if (u.controller l).state = .armed then makeChoice l (withController u l (roundStarted (u.controller l)))
        else if (u.controller l).state = .running ∧ (u.controller l).settings.mode = .single then
          withLatched u { u.interrupts.latched with late := u.interrupts.latched.late.set l true }
        else u
      else u := by
  unfold syncTrigger SeesEdge
  simp only [selects_iff]
  split
  · next hsees =>
    split
    · next harmed =>
      rw [trigger_of_armed harmed, if_neg (by rw [hsees.1]; simp)]
    · next harmed =>
      split
      · next hlate => exact trigger_of_late hlate.1 hlate.2
      · next hlate => exact trigger_of_lost harmed hlate
  · rfl

/-- Settles O31: a new stable level is a trigger to each controller in turn, which the other's does not touch. -/
theorem syncEdgeIsATrigger : Obligations.SyncEdgeIsATrigger := by
  intro s v h
  have hexec : exec (.syncEdge v) s = .next (syncLevelHeld v s) := exec_of_working h rfl
  have hfirst : exec (.syncFirstStableLevel v) s = .next (takeFirstLevel v s) := exec_of_working h rfl
  refine ⟨hfirst, fun hnone => ?_, fun hsame => ?_, fun hsome hother => ?_⟩
  · rw [hexec, syncLevelHeld, hnone]
    rfl
  · rw [hexec, syncLevelHeld, hsame]
    exact congrArg Host.Outcome.next (if_pos rfl)
  · obtain ⟨old, hold⟩ := Option.ne_none_iff_exists'.1 hsome
    have hne : old ≠ v := fun heq => hother (heq ▸ hold)
    have hcontroller : (syncTrigger .a v (s.setSyncLevel (some v))).controller .b = s.controller .b :=
      (syncTrigger_lineStep .a v _).controller .b (by decide)
    rw [hexec, syncLevelHeld, hold]
    dsimp only
    rw [if_neg hne, syncTrigger_eq .b, hcontroller, syncTrigger_eq .a]
    rfl

/-! ### The continuous gap -/

/-- Settles O32: with the gap running, its end starts a round. -/
theorem continuousGapEndStartsTheNextRound : Obligations.ContinuousGapEndStartsTheNextRound := by
  intro s l h
  have hexec : exec (.continuousGapEnd l) s = .next (endGap l s) := exec_of_working h rfl
  refine ⟨fun hnone => by rw [hexec, endGap, hnone], fun hsome => ?_⟩
  obtain ⟨n, hn⟩ := Option.ne_none_iff_exists'.1 hsome
  rw [hexec, endGap, hn]
  rfl

/-! ### HALT ROUNDS -/

section
variable {l : Line} {s : State}

theorem halt_of_rest (h : (s.controller l).state = .stopped ∨ (s.controller l).state = .halting) : halt l s = s := by
  unfold halt
  rcases h with h | h <;> rw [h]

theorem enterRoundState_of_not_running (r : RoundState) (h : (s.controller l).state ≠ .running) :
    enterRoundState l r s =
      withController s l
        { s.controller l with state := r, timer := if r = .stopped then none else (s.controller l).timer } := by
  unfold enterRoundState
  exact if_neg fun hc => h hc.1

/-- A controller that leaves RUNNING sets the consecutive-urgent count to 0 (R123). -/
theorem enterRoundState_of_running {r : RoundState} (h : (s.controller l).state = .running) (hr : r ≠ .running) :
    enterRoundState l r s =
      withEngine
        (withController s l
          { s.controller l with state := r, timer := if r = .stopped then none else (s.controller l).timer })
        l { s.engine l with urgentCount := 0 } := by
  unfold enterRoundState
  exact if_pos ⟨h, hr⟩

theorem halt_of_armed (h : (s.controller l).state = .armed) :
    halt l s =
      withLatched (withController s l { s.controller l with state := .stopped, timer := none })
        { s.interrupts.latched with halted := s.interrupts.latched.halted.set l true } := by
  unfold halt
  rw [h]
  dsimp only
  rw [enterRoundState_of_not_running .stopped (by rw [h]; decide)]
  rfl

theorem halt_of_running_idle (h : (s.controller l).state = .running) (hr : (s.controller l).routineInFlight = false) :
    halt l s =
      withEngine
        (withLatched (withController s l { s.controller l with state := .stopped, timer := none, gap := none })
          { s.interrupts.latched with halted := s.interrupts.latched.halted.set l true })
        l { s.engine l with urgentCount := 0 } := by
  unfold halt
  rw [h]
  dsimp only
  rw [if_neg (by rw [hr]; decide)]
  have hrunning : ((withController s l { s.controller l with gap := none }).controller l).state = .running := by
    rw [withController_controller]
    exact h
  change setHalted l (enterRoundState l .stopped (withController s l { s.controller l with gap := none })) = _
  rw [enterRoundState_of_running hrunning (by decide), withController_controller, withController_again]
  rfl

theorem halt_of_running_busy (h : (s.controller l).state = .running) (hr : (s.controller l).routineInFlight = true) :
    halt l s =
      withEngine (withController s l { s.controller l with state := .halting }) l
        { s.engine l with urgentCount := 0 } := by
  unfold halt
  rw [h]
  dsimp only
  rw [if_pos hr, enterRoundState_of_running h (by decide)]
  rfl

theorem exec_haltRounds_of_index (h : TakesCommands s) (hp : s.port.param.toNat = lineIndex l) :
    exec .haltRounds s =
      .next (giveResult .done (halt l { s with port := { s.port with refusedBusy := false } })) := by
  rw [exec_of_access (f := haltRounds) (fun _ => rfl) h, haltRounds]
  dsimp only
  rw [lineOfParam_of_index hp]

theorem exec_haltRounds_of_param_out_of_range (h : TakesCommands s) (hp : 2 ≤ s.port.param.toNat) :
    exec .haltRounds s = .next (answered .range s) := by
  rw [exec_of_access (f := haltRounds) (fun _ => rfl) h, haltRounds]
  dsimp only
  rw [lineOfParam_out_of_range hp]
  rfl

end

/-- Settles O28: the five rows of the table, by the round state and by the routine in flight item. -/
theorem haltRoundsStopsTheController : Obligations.HaltRoundsStopsTheController := by
  refine ⟨refusedWhileBusy_of_access haltRounds fun _ => rfl, fun s h =>
    ⟨exec_haltRounds_of_param_out_of_range h, fun l hp => ?_⟩⟩
  rw [exec_haltRounds_of_index h hp]
  refine ⟨fun hrest => ?_, fun harmed => ?_, fun hrunning hidle => ?_, fun hrunning hbusy => ?_⟩
  · rw [halt_of_rest (by exact hrest)]
    rfl
  · rw [halt_of_armed (by exact harmed)]
    rfl
  · rw [halt_of_running_idle (by exact hrunning) (by exact hidle)]
    rfl
  · rw [halt_of_running_busy (by exact hrunning) (by exact hbusy)]
    rfl

end Sys2Proof.Machine
end

