-- ==== Sys2Proof/Proofs/Choices.lean ====
section
/-!
SUPPORT and CERTIFICATES. The walker's visits (R6, R28, R85), the end of the quiet gap (R119) and the choice of a READY
engine (R121, R122).
-/

namespace Sys2Proof.Machine

open Sys2Proof.Safety

/-! ### Visits -/

section
variable {l : Line} {i : Fin 32} {s : State}

theorem visitEntry_untouched (h : s.table[i].enabled = false ∨ s.table[i].line ≠ l) :
    visitEntry l i s = (s, false) := by
  unfold visitEntry
  refine if_neg fun ⟨henabled, hline⟩ => ?_
  rcases h with h | h
  · rw [h] at henabled
    cases henabled
  · exact h hline

theorem visitEntry_not_due (he : s.table[i].enabled = true) (hl : s.table[i].line = l) (hp : s.table[i].phase ≠ 0) :
    visitEntry l i s =
      ({ s with table := s.table.set i { s.table[i] with phase := s.table[i].phase - 1 } }, false) := by
  unfold visitEntry
  dsimp only
  rw [if_pos ⟨he, hl⟩, if_neg hp]
  rfl

/-- The record of an address is the only one that can refuse its probe (R85). -/
theorem probeRefused_iff {k : Fin 126} (hk : s.table[i].request.address.toNat = k.val + 1) :
    ProbeRefused l i s ↔ (s.node l k).state = .offline ∧ (s.node l k).countdown ≠ 0 := by
  constructor
  · rintro ⟨k', hk', hstate, hcount⟩
    obtain rfl : k' = k := Fin.ext (by omega)
    exact ⟨hstate, hcount⟩
  · rintro ⟨hstate, hcount⟩
    exact ⟨k, hk, hstate, hcount⟩

/-- The broadcast address has no node record (R79). -/
theorem not_probeRefused_broadcast (h : s.table[i].request.address = 0x7F) : ¬ProbeRefused l i s := by
  rintro ⟨k, hk, -, -⟩
  have hlt := k.isLt
  rw [h] at hk
  simp at hk
  omega

theorem passedOver_refused (he : s.table[i].enabled = true) (hl : s.table[i].line = l) (hp : s.table[i].phase = 0)
    {k : Fin 126} (hk : s.table[i].request.address.toNat = k.val + 1) :
    passedOver l i s =
      { s with
        table := s.table.set i { s.table[i] with phase := s.table[i].divisor - 1 }
        nodes :=
          s.nodes.set l ((s.nodes.get l).set k { s.node l k with countdown := (s.node l k).countdown - 1 }) } := by
  have hrange : 1 ≤ s.table[i].request.address.toNat ∧ s.table[i].request.address.toNat ≤ 126 := by
    have hlt := k.isLt
    omega
  have hval : s.table[i].request.address.toNat - 1 = k.val := by omega
  have hindex : (⟨s.table[i].request.address.toNat - 1, by omega⟩ : Fin 126) = k := Fin.ext hval
  unfold passedOver
  dsimp only
  rw [if_pos ⟨he, hl⟩, if_pos hp, dif_pos hrange, hindex]
  simp only [hval]

end

/-- Settles O25: a visit passes over or yields, by the entry and by the node's record. -/
theorem walkerVisitStepsTheEntry : Obligations.WalkerVisitStepsTheEntry := by
  intro l i s
  refine ⟨visitEntry_untouched, fun he hl => ⟨visitEntry_not_due he hl, fun hp => ⟨fun hbroadcast => ?_, fun k hk =>
    ⟨fun hallowed => ?_, fun hoffline hcount => ?_⟩⟩⟩⟩
  · exact visitEntry_yields l i s ⟨he, hl, hp, not_probeRefused_broadcast hbroadcast⟩
  · refine visitEntry_yields l i s ⟨he, hl, hp, fun hrefused => ?_⟩
    obtain ⟨hstate, hcount⟩ := (probeRefused_iff hk).1 hrefused
    exact hallowed.elim (fun h => h hstate) hcount
  · have hnot : ¬Yields l i s := fun ⟨_, _, _, hallowed⟩ => hallowed ((probeRefused_iff hk).2 ⟨hoffline, hcount⟩)
    rw [visitEntry_passed l i s hnot, passedOver_refused he hl hp hk]

/-! ### The end of the quiet gap -/

section
variable {l : Line} {s : State}

theorem quietGapDone_of_not (h : ¬((s.engine l).state = .quiet ∧ (s.engine l).quietMayEnd = true)) :
    quietGapDone l s = s := if_neg h

end

/-- Settles O33: on a line that may end its gap, a retry begins or the engine is READY. -/
theorem quietGapEndRetriesOrChooses : Obligations.QuietGapEndRetriesOrChooses := by
  intro s l h
  have hexec : exec (.quietGapEnd l) s = .next (quietGapDone l s) := exec_of_working h rfl
  refine ⟨fun hstate => ?_, fun hbusy => ?_, fun hquiet hidle => ⟨fun x hx => ?_, fun hnone => ?_⟩⟩
  · rw [hexec, quietGapDone_of_not fun hc => hstate hc.1]
  · rw [hexec, quietGapDone_of_not fun hc => hbusy ((Engine.quietMayEnd_iff _).1 hc.2)]
  · rw [hexec, quietGapDone]
    dsimp only
    rw [if_pos ⟨hquiet, (Engine.quietMayEnd_iff _).2 hidle⟩, hx]
    dsimp only
    rw [enterLead_eq]
    rfl
  · rw [hexec, quietGapDone]
    dsimp only
    rw [if_pos ⟨hquiet, (Engine.quietMayEnd_iff _).2 hidle⟩, hnone]
    rfl

/-! ### The choice -/

section
variable {l : Line} {s : State}

/-- An exchange starts (R125). -/
theorem startExchange_eq (l : Line) (w : Work) (q : Request) (s : State) :
    startExchange l w q s =
      withEngine s l (exchangeStarted (s.engine l) w q (urgentCountAfter w (s.engine l).urgentCount)) :=
  congrArg (withEngine s l) (enterLead_eq _)

/-- The oldest QUEUED request of the line is taken, wherever it stands in the queue (R47). -/
theorem takeUrgent_of_split {before after : List Slot} {x : Slot} (hq : s.urgent = before ++ x :: after)
    (hx : QueuedOn l x) (hb : ∀ y ∈ before, ¬QueuedOn l y) :
    takeUrgent l s =
      withEngine { s with urgent := before ++ { x with state := .inFlight } :: after } l
        (exchangeStarted (s.engine l) (.urgent x.tag) x.request
          (if (s.engine l).urgentCount + 1 ≤ 4 then (s.engine l).urgentCount + 1 else 4)) := by
  obtain ⟨hnext, hmark⟩ := nextQueued_split l before x after hx hb
  have hcount : urgentCountAfter (.urgent x.tag) (s.engine l).urgentCount =
      if (s.engine l).urgentCount + 1 ≤ 4 then (s.engine l).urgentCount + 1 else 4 := Nat.min_def
  unfold takeUrgent
  rw [hq, hnext]
  dsimp only
  rw [hmark, startExchange_eq]
  change withEngine _ l
    (exchangeStarted (s.engine l) _ _ (urgentCountAfter (.urgent x.tag) (s.engine l).urgentCount)) = _
  rw [hcount]
  rfl

theorem makeChoice_urgent (h : (s.engine l).state = .ready) (hq : (nextQueued l s.urgent).isSome = true)
    (hn : (s.engine l).urgentCount < s.burstLimit) : makeChoice l s = takeUrgent l s := by
  unfold makeChoice
  rw [if_pos h, if_pos ⟨hq, hn⟩]

end

/-- Settles O34: below the burst limit the choice is urgent by its first step, and with no routine work by its third. -/
theorem choiceTakesTheOldestUrgentRequest : Obligations.ChoiceTakesTheOldestUrgentRequest := by
  intro s l before x after hq hx hb hready n hwhy
  have hchoice : makeChoice l s = takeUrgent l s := by
    rcases hwhy with hn | hidle
    · refine makeChoice_urgent hready ?_ hn
      rw [hq, (nextQueued_split l before x after hx hb).1]
      rfl
    · exact makeChoice_idle hready hidle
  rw [hchoice, takeUrgent_of_split hq hx hb]

/-- A state that differs in the table and the node map only. -/
theorem passesOver_blocks {l : Line} {is : List (Fin 32)} {s u : State} (h : PassesOver l is s u) :
    u.engines = s.engines ∧ u.rounds = s.rounds ∧ u.urgent = s.urgent ∧ u.interrupts = s.interrupts := by
  rw [passesOver_frame h]
  exact ⟨rfl, rfl, rfl, rfl⟩

theorem passesOver_engine {l : Line} {is : List (Fin 32)} {s u : State} (h : PassesOver l is s u) (m : Line) :
    u.engine m = s.engine m := by
  rw [State.engine, (passesOver_blocks h).1]
  rfl

theorem passesOver_controller {l : Line} {is : List (Fin 32)} {s u : State} (h : PassesOver l is s u) (m : Line) :
    u.controller m = s.controller m := by
  rw [State.controller, (passesOver_blocks h).2.1]
  rfl

/-- The walker hands over the entry that yields, with the cursor behind it (R30). -/
theorem askWalker_yields {l : Line} {s u : State} {i : Fin 32} (hrunning : (s.controller l).state = .running)
    (hgap : (s.controller l).gap = none) (hcursor : (s.controller l).cursor ≤ i.val)
    (hpasses : PassesOver l ((entriesAbove (s.controller l).cursor).filter fun j => j < i) s u)
    (hyields : Yields l i u) :
    askWalker l s =
      (withController
          { u with table := u.table.set i { u.table[i] with phase := u.table[i].divisor - 1 } } l
          { s.controller l with cursor := i.val + 1, routineInFlight := true },
        some i) := by
  obtain ⟨rest, hrest⟩ := entriesFrom_split_at (s.controller l).cursor i hcursor
  rw [askWalker, if_pos ⟨hrunning, hgap⟩, hrest, scanEntries_yields l _ i rest s u hpasses hyields,
    ← passesOver_controller hpasses]
  rfl

/-- Settles O35: the scan passes over what stands below the entry and ends there. -/
theorem choiceTakesTheDueEntry : Obligations.ChoiceTakesTheDueEntry := by
  intro s u l i c e hready hq hrunning hgap hcursor hpasses hyields
  rw [makeChoice_asks hready hq, askWalker_yields hrunning hgap hcursor hpasses hyields]
  dsimp only
  rw [takeRoutine, startExchange_eq, withController_controller]
  have hengine := passesOver_engine hpasses l
  change withEngine _ l (exchangeStarted (u.engine l) _ _ _) = _
  rw [hengine]
  simp [urgentCountAfter, c, e]

theorem endRound_urgent (l : Line) (s : State) : (endRound l s).urgent = s.urgent := by
  rw [endRound, enterRoundState_urgent]
  rfl

theorem endRound_engine_state (l : Line) (s : State) : ((endRound l s).engine l).state = (s.engine l).state := by
  rw [endRound, enterRoundState_engine_state]
  rfl

/-- A round that has ended leaves nothing to walk: the controller is out of RUNNING, or its gap runs (R31, R32). -/
theorem endRound_idle (l : Line) (s : State) :
    ((endRound l s).controller l).state ≠ .running ∨ ((endRound l s).controller l).gap ≠ none := by
  rw [endRound, enterRoundState_controller]
  cases hm : (s.controller l).settings.mode with
  | single => cases hs : (s.controller l).settings.source <;> simp [stateAfterRound, hm, hs]
  | continuous => simp [setRoundEnd]

/-- The scan that passes over every entry left ends the round (R28). -/
theorem askWalker_passes {l : Line} {s u : State} (hrunning : (s.controller l).state = .running)
    (hgap : (s.controller l).gap = none) (hpasses : PassesOver l (entriesAbove (s.controller l).cursor) s u) :
    askWalker l s = (endRound l u, none) := by
  rw [askWalker, if_pos ⟨hrunning, hgap⟩, entriesFrom_eq, scanEntries_passes l _ s u hpasses]

/-- Settles O36: a scan that yields nothing ends the round, and what is left to choose is urgent. -/
theorem choiceWithoutWorkEndsTheRound : Obligations.ChoiceWithoutWorkEndsTheRound := by
  intro s l c
  refine ⟨fun hnot => if_neg hnot, fun hready => ⟨fun hnone hidle => ?_, fun u hrunning hgap hpasses => ?_⟩⟩
  · rw [makeChoice_idle hready hidle, takeUrgent_none hnone]
  · obtain ⟨-, -, hurgent, hinterrupts⟩ := passesOver_blocks hpasses
    have hengine := passesOver_engine hpasses l
    have hcontroller := passesOver_controller hpasses l
    have hended := endRound_eq (l := l) (s := u) (by rw [hcontroller]; exact hrunning) (by rw [hcontroller]; exact hgap)
    rw [hengine, hcontroller, hinterrupts] at hended
    dsimp only at hended ⊢
    rw [← hended]
    have hchoice (hq : (∀ x ∈ s.urgent, ¬QueuedOn l x) ∨ s.burstLimit ≤ (s.engine l).urgentCount) :
        makeChoice l s = takeUrgent l (endRound l u) := by
      rw [makeChoice_asks hready hq, askWalker_passes hrunning hgap hpasses]
    refine ⟨fun hnone => ?_, fun hburst => ?_⟩
    · rw [hchoice (.inl hnone), takeUrgent_none]
      rwa [endRound_urgent, hurgent]
    · rw [hchoice (.inr hburst), makeChoice_idle ?_ (endRound_idle l u)]
      rw [endRound_engine_state, hengine, hready]

end Sys2Proof.Machine
end

