-- ==== Sys2Proof/Proofs/Attempts.lean ====
section
/-!
SUPPORT and CERTIFICATES. An attempt from its lead to its end (R103, R126, R129), the completion of an exchange (R130)
and what the receiver hears (R100, R111, R120, R127).
-/

namespace Sys2Proof.Machine

open Sys2Proof.Safety

/-! ### One engine replaced -/

section
variable {l : Line} {s : State}

@[simp] theorem withEngine_engine (s : State) (l : Line) (e : Engine) : (withEngine s l e).engine l = e :=
  PerLine.get_set_same _ _ _

theorem withEngine_self (s : State) (l : Line) : withEngine s l (s.engine l) = s := by
  simp only [withEngine, State.engine, PerLine.set_get_self]

theorem withEngine_again (s : State) (l : Line) (e g : Engine) :
    withEngine (withEngine s l e) l g = withEngine s l g := by
  simp only [withEngine, PerLine.set_set]

/-- An event of the receiver that CLKIN lets through. -/
theorem exec_of_clocked {c : Instr} {f : State → State} (h : s.clkinRunning = true)
    (hc : exec c s = .next (clocked f s)) : exec c s = .next (f s) := by rw [hc, clocked_running f h]

/-! ### Attempts end -/

theorem endAttempt_of_none {o : OutcomeCode} {y : Option Reply} (h : (s.engine l).exchange = none) :
    endAttempt l o y s = s := by rw [endAttempt, h]

/-- A retryable outcome with attempts left (R129). -/
theorem endAttempt_retries {o : OutcomeCode} {y : Option Reply} {x : Exchange} (hx : (s.engine l).exchange = some x)
    (ho : o.retryable = true) (ha : x.attempts ≤ x.request.retryLimit) :
    endAttempt l o y s =
      withEngine s l
        (quietAfter (s.engine l) (some { x with pendingOutcome := none, assembly := Assembly.empty })) := by
  rw [endAttempt, hx]
  exact if_pos ⟨ho, ha⟩

/-- A final outcome (R129). -/
theorem endAttempt_completes {o : OutcomeCode} {y : Option Reply} {x : Exchange} (hx : (s.engine l).exchange = some x)
    (h : o.retryable = false ∨ x.request.retryLimit < x.attempts) :
    endAttempt l o y s = completeExchange l x o y s := by
  rw [endAttempt, hx]
  refine if_neg fun ⟨ho, ha⟩ => ?_
  rcases h with h | h
  · rw [h] at ho
    cases ho
  · omega

/-- A failure ends its attempt with a retryable outcome. -/
theorem exec_of_attemptFails {x : Exchange} {c : Instr} {o : OutcomeCode} (h : Awake s)
    (hf : AttemptFails l s x c o) : exec c s = .next (endAttempt l o none s) ∧ o.retryable = true := by
  obtain ⟨hx, hf⟩ := hf
  rcases hf with ⟨rfl, rfl, hstate, hreceiver⟩ | ⟨rfl, rfl, hstate, hidle⟩ | ⟨rfl, ho, hpending, hstate, hidle⟩
  · refine ⟨?_, rfl⟩
    rw [exec_of_working h (f := replyTimeoutDone l) rfl, replyTimeoutDone, if_pos ⟨hstate, hreceiver⟩]
  · refine ⟨?_, rfl⟩
    rw [exec_of_working h (f := gapLimitDone l) rfl, gapLimitDone, if_pos ⟨hstate, (Engine.idle_iff _).2 hidle⟩]
  · refine ⟨?_, by rcases ho with rfl | rfl | rfl <;> rfl⟩
    rw [exec_of_working h (f := discardDone l) rfl, discardDone, if_pos ⟨hstate, (Engine.idle_iff _).2 hidle⟩, hx]
    dsimp only [Option.bind_some]
    rw [hpending]

end

/-- Settles O47: a failed attempt ends, and attempts left decide what follows. -/
theorem failedAttemptRetriesOrCompletes : Obligations.FailedAttemptRetriesOrCompletes := by
  intro s l x c o h hf
  obtain ⟨hexec, ho⟩ := exec_of_attemptFails h hf
  rw [hexec]
  refine ⟨fun hleft => ?_, fun hnone => ?_⟩
  · rw [endAttempt_retries hf.1 ho hleft]
  · rw [endAttempt_completes hf.1 (.inr hnone)]

/-! ### Sending -/

section
variable {l : Line} {s : State} {x : Exchange}

/-- An engine whose receiver has come on as DE was released (R102). -/
abbrev receiverOn (e : Engine) : Engine := { e with receiver := .waiting, idleCount := BitCount.zero }

theorem releaseDe_eq (hx : (s.engine l).exchange = some x) :
    releaseDe l s =
      if x.request.address = 0x7F then
        completeExchange l x .sent none (withEngine s l (receiverOn (s.engine l)))
      else
        withEngine s l
          { receiverOn (s.engine l) with state := .awaiting, timeCount := some BitCount.zero } := by
  rw [releaseDe, hx]
  dsimp only
  split
  · exact endAttempt_completes (s := withEngine s l (receiverOn (s.engine l))) (by rw [withEngine_engine]; exact hx)
      (.inl rfl)
  · rfl

end

/-- TXD is at the bit in progress of the request frame (R103). -/
theorem txd_sending {e : Engine} {x : Exchange} (hs : e.state = .sending) (hx : e.exchange = some x) :
    e.txd = (frameLevels e.config x.request).getD e.bitsSent.bits .high := by rw [Engine.txd, hs, hx]

theorem de_iff (e : Engine) : e.de = true ↔ e.state = .lead ∨ e.state = .sending ∨ e.state = .lag := by
  unfold Engine.de
  cases e.state <;> decide

theorem txd_high {e : Engine} (h : e.state ≠ .sending) : e.txd = .high := by
  unfold Engine.txd
  split
  · next hs _ => exact absurd hs h
  · rfl

/-- Settles O46: each count's row leads to the next state, and the frame's levels are its characters' in turn. -/
theorem sendingDrivesTheLine : Obligations.SendingDrivesTheLine := by
  refine ⟨fun s l x h hx => ⟨fun hs => ?_, fun hs hlag => ?_, fun hs hlag => ?_, fun hs => ?_⟩,
    fun e => ⟨de_iff e, txd_high, fun x hs hx place byte bit hbyte hbit hsent => ?_⟩⟩
  · rw [exec_of_working h (f := leadDone l) rfl, leadDone, if_pos hs]
    rfl
  · rw [exec_of_working h (f := sendingDone l) rfl, sendingDone, if_pos hs, if_neg hlag]
    rfl
  · rw [exec_of_working h (f := sendingDone l) rfl, sendingDone, if_pos hs, if_pos hlag, releaseDe_eq hx]
    rfl
  · rw [exec_of_working h (f := lagDone l) rfl, lagDone, if_pos hs, releaseDe_eq hx]
    rfl
  · have hlevel := frameLevels_getElem? e.config x.request place bit byte hbyte hbit
    have hlt : bit < (characterLevels e.config byte).length := by rwa [characterLevels_length]
    rw [txd_sending hs hx, hsent, List.getD_eq_getElem?_getD, hlevel, List.getElem?_eq_getElem hlt]
    rfl

/-! ### Completion -/

section
variable {l : Line} {s : State} {x : Exchange} {o : OutcomeCode} {y : Option Reply}

/-- The node map with the record of an address updated, where the address has one (R81). -/
abbrev nodesUpdated (l : Line) (a : Byte) (o : OutcomeCode) (t : Thresholds)
    (nodes : PerLine (Vector NodeRecord 126)) : PerLine (Vector NodeRecord 126) :=
  if h : 1 ≤ a.toNat ∧ a.toNat ≤ 126 then
    nodes.set l
      ((nodes.get l).set (a.toNat - 1) (((nodes.get l)[a.toNat - 1]'(by omega)).update t o) (by omega))
  else nodes

theorem updateNode_eq (l : Line) (a : Byte) (o : OutcomeCode) (s : State) :
    updateNode l a o s = { s with nodes := nodesUpdated l a o s.health s.nodes } := by
  unfold updateNode nodeIndex nodesUpdated
  by_cases h : 1 ≤ a.toNat ∧ a.toNat ≤ 126
  · rw [dif_pos h, dif_pos h]
    rfl
  · rw [dif_neg h, dif_neg h]

theorem recordOf_urgent {tag : Byte} (hw : x.work = .urgent tag) (missed : Nat) :
    recordOf l x o y missed =
      { source := .urgent
        line := l
        id := tag
        address := x.request.address
        command := x.request.command
        outcome := o
        attempts := x.attempts
        reply := y
        round := 0
        missed := 0 } := by rw [recordOf, hw]

theorem recordOf_routine {i : Fin 32} {p : Policy} {r : Byte} (hw : x.work = .routine i p r) :
    recordOf l x o y = fun missed =>
      { source := .routine
        line := l
        id := BitVec.ofNat 8 i.val
        address := x.request.address
        command := x.request.command
        outcome := o
        attempts := x.attempts
        reply := y
        round := r
        missed := missed } := by
  funext missed
  rw [recordOf, hw]

theorem deliverRecord_of_urgent {tag : Byte} (hw : x.work = .urgent tag) :
    deliverRecord l x o y s =
      { s with store := s.store ++ [recordOf l x o y 0], urgent := removeInFlight l s.urgent } := by
  rw [deliverRecord, hw]
  rfl

theorem deliverRecord_of_routine {i : Fin 32} {p : Policy} {r : Byte} (hw : x.work = .routine i p r) :
    deliverRecord l x o y s = appendRoutine i p (recordOf l x o y) s := by rw [deliverRecord, hw]

/-- A completion reported to a controller that is not HALTING (R30). -/
theorem reportCompletion_of_not_halting (h : (s.controller l).state ≠ .halting) :
    reportCompletion l s = withController s l { s.controller l with routineInFlight := false } := by
  unfold reportCompletion
  refine if_neg ?_
  rw [State.updController_controller_same]
  exact h

/-- A completion ends a halt (R34). -/
theorem reportCompletion_of_halting (h : (s.controller l).state = .halting) :
    reportCompletion l s =
      withLatched
        (withController s l { s.controller l with routineInFlight := false, state := .stopped, timer := none })
        { s.interrupts.latched with halted := s.interrupts.latched.halted.set l true } := by
  have hstate :
      ((withController s l { s.controller l with routineInFlight := false }).controller l).state = .halting := by
    rw [withController_controller]
    exact h
  unfold reportCompletion
  change (if ((withController s l { s.controller l with routineInFlight := false }).controller l).state = .halting then
    setHalted l (enterRoundState l .stopped (withController s l { s.controller l with routineInFlight := false }))
    else _) = _
  rw [if_pos hstate, enterRoundState_of_not_running .stopped (by rw [hstate]; decide), withController_controller,
    withController_again]
  rfl

end

/-- What a routine append may write (R63 to R67). -/
theorem appendRoutine_writes (i : Fin 32) (p : Policy) (make : Nat → Record) (s : State) :
    ∃ store missed interrupts,
      appendRoutine i p make s = { s with store := store, missed := missed, interrupts := interrupts } :=
  ⟨_, _, _, appendRoutine_frame i p make s⟩

/-- Settles O48: the three neighbours are told in turn, each of what the ones before it left. -/
theorem completionReachesItsNeighbours : Obligations.CompletionReachesItsNeighbours := by
  intro s l x o y
  refine ⟨fun tag before z after hw hq hz hb => ?_, fun i p r hw => ?_⟩
  · rw [completeExchange, deliverRecord_of_urgent hw, recordOf_urgent hw, hq,
      removeInFlight_split l before z after hz hb, hw, reportOf, updateNode_eq]
    rfl
  · obtain ⟨store, missed, interrupts, hoffered⟩ := appendRoutine_writes i p (recordOf l x o y) s
    rw [completeExchange, deliverRecord_of_routine hw, hw, reportOf, hoffered, updateNode_eq]
    rw [recordOf_routine hw] at hoffered
    dsimp only
    rw [hoffered]
    refine ⟨fun hrest => ?_, fun hhalting => ?_⟩
    · rw [reportCompletion_of_not_halting (by exact hrest)]
      rfl
    · rw [reportCompletion_of_halting (by exact hhalting)]
      rfl

/-! ### The receiver -/

section
variable {e : Engine}

theorem midStart_low (h : e.receiver = .fallSeen) : e.midStart .low = e.confirmStart := if_pos h

/-- An engine whose start bit is confirmed, its state apart (R100, R101). -/
abbrev characterBegun (e : Engine) : Engine :=
  { e with
    receiver := .character
    sampleCount := 0
    samples := []
    rxd := .low
    idleCount := { bits := 0, periods := 0 } }

theorem confirmStart_of_awaiting (h : e.state = .awaiting) :
    e.confirmStart = { characterBegun e with state := .receiving, timeCount := none } := by
  unfold Engine.confirmStart
  simp only [h]
  rfl

theorem confirmStart_of_waiting (h : e.state = .ready ∨ e.state = .quiet) :
    e.confirmStart =
      { characterBegun e with
        state := .quiet
        quietCount := { bits := 0, periods := 0 }
        timeCount := none } := by
  unfold Engine.confirmStart
  rcases h with h | h <;> simp only [h] <;> rfl

theorem confirmStart_of_reply (h : e.state = .receiving ∨ e.state = .discarding) :
    e.confirmStart = characterBegun e := by
  unfold Engine.confirmStart
  rcases h with h | h
  · simp only [h]
    rw [← h]
    rfl
  · simp only [h]
    rw [← h]
    rfl

end

/-- Settles O49: falls, samples and returns are updates of one engine. -/
theorem receiverFollowsTheLine : Obligations.ReceiverFollowsTheLine := by
  intro s l h
  have hfall : exec (.rxdFall l) s = .next (withEngine s l (s.engine l).fall) :=
    exec_of_clocked h (f := fun s => s.updEngine l Engine.fall) rfl
  have hmid (v : Level) : exec (.midStartSample l v) s = .next (withEngine s l ((s.engine l).midStart v)) :=
    exec_of_clocked h (f := fun s => s.updEngine l (Engine.midStart v)) rfl
  have hmark : exec (.rxdReturnToMark l) s = .next (withEngine s l (s.engine l).returnToMark) :=
    exec_of_clocked h (f := fun s => s.updEngine l Engine.returnToMark) rfl
  refine ⟨fun hr => ?_, fun hr => ?_, fun hr v => ?_, fun hr => ⟨?_, fun hs => ?_, fun hs => ?_, fun hs => ?_⟩,
    fun hr => ?_, fun hr => ?_⟩
  · rw [hfall, Engine.fall, if_pos hr]
  · rw [hfall, Engine.fall, if_neg hr]
  · have hstill : (s.engine l).midStart v = s.engine l := if_neg hr
    rw [hmid, hstill, withEngine_self]
  · rw [hmid, Engine.midStart, if_pos hr]
  · rw [hmid, midStart_low hr, confirmStart_of_awaiting hs]
  · rw [hmid, midStart_low hr, confirmStart_of_waiting hs]
  · rw [hmid, midStart_low hr, confirmStart_of_reply hs]
  · rw [hmark, Engine.returnToMark, if_pos hr]
    split <;> rfl
  · rw [hmark, Engine.returnToMark, if_neg hr]

section
variable {s : State} {l : Line} {data : Byte} {parityBit : Bool} {stop : Level}

/-- The engine once a character has ended on a line that is not QUIET (R100, R101). -/
theorem endCharacter_of_not_quiet {e : Engine} (h : e.state ≠ .quiet) (v : Level) :
    e.endCharacter v =
      { e with
        receiver := if v = .low then .held else .waiting
        rxd := v
        idleCount := { bits := 0, periods := 0 } } := by
  rw [Engine.endCharacter, if_neg h]
  rfl

theorem endCharacter_of_quiet {e : Engine} (h : e.state = .quiet) (v : Level) :
    e.endCharacter v =
      { e with
        receiver := if v = .low then .held else .waiting
        rxd := v
        idleCount := { bits := 0, periods := 0 }
        quietCount := { bits := 0, periods := 0 } } := by
  rw [Engine.endCharacter, if_pos h]
  rfl

theorem deliverCharacter_of_quiet (hr : (s.engine l).receiver = .character) (hs : (s.engine l).state = .quiet) :
    deliverCharacter l data parityBit stop s = setStray l (withEngine s l ((s.engine l).endCharacter stop)) := by
  unfold deliverCharacter
  dsimp only
  rw [if_pos hr, hs]
  rfl

theorem deliverCharacter_of_discarding (hr : (s.engine l).receiver = .character)
    (hs : (s.engine l).state = .discarding) :
    deliverCharacter l data parityBit stop s = withEngine s l ((s.engine l).endCharacter stop) := by
  unfold deliverCharacter
  dsimp only
  rw [if_pos hr, hs]
  rfl

theorem deliverCharacter_of_receiving (hr : (s.engine l).receiver = .character)
    (hs : (s.engine l).state = .receiving) :
    deliverCharacter l data parityBit stop s =
      judgeReply l data (characterError (s.engine l).config data parityBit stop)
        (withEngine s l ((s.engine l).endCharacter stop)) := by
  unfold deliverCharacter
  dsimp only
  rw [if_pos hr, hs]
  rfl

/-! A judgement moves the exchange on, fails it or completes it (R127). -/

section
variable {t : State} {x : Exchange} {error : Bool} (hx : (t.engine l).exchange = some x)
include hx

theorem judgeReply_goesOn {a : Assembly} (h : judge x.request x.assembly data error = .goesOn a) :
    judgeReply l data error t = withEngine t l { t.engine l with exchange := some { x with assembly := a } } := by
  rw [judgeReply, hx]
  dsimp only
  rw [h]
  rfl

theorem judgeReply_fails {o : OutcomeCode} (h : judge x.request x.assembly data error = .fails o) :
    judgeReply l data error t =
      withEngine t l
        { t.engine l with
          state := .discarding
          exchange := some { x with pendingOutcome := some o, assembly := grown x.assembly data } } := by
  rw [judgeReply, hx]
  dsimp only
  rw [h, ← Assembly.grow_eq]
  rfl

theorem judgeReply_valid {y : Reply} (h : judge x.request x.assembly data error = .valid y) :
    judgeReply l data error t = completeExchange l x (if y.status = 0 then .ok else .nodeFault) (some y) t := by
  rw [judgeReply, hx]
  dsimp only
  rw [h]
  refine endAttempt_completes hx (.inl ?_)
  split <;> rfl

end

end

/-- Settles O50: the character ends, and the line state says what becomes of it. -/
theorem characterDeliveredIsJudged : Obligations.CharacterDeliveredIsJudged := by
  intro s l data parityBit stop h
  have hexec : exec (.characterDelivered l data parityBit stop) s = .next (deliverCharacter l data parityBit stop s) :=
    exec_of_working h rfl
  dsimp only
  rw [hexec]
  refine ⟨fun hr => ?_, fun hr => ⟨fun hs => ?_, fun hs => ?_, fun x hs hx => ?_⟩⟩
  · rw [deliverCharacter]
    exact congrArg Host.Outcome.next (if_neg hr)
  · rw [deliverCharacter_of_quiet hr hs, endCharacter_of_quiet hs]
    rfl
  · rw [deliverCharacter_of_discarding hr hs, endCharacter_of_not_quiet (by rw [hs]; decide)]
  · have hx' : ((withEngine s l ((s.engine l).endCharacter stop)).engine l).exchange = some x := by
      rw [withEngine_engine]
      exact hx
    have hended := endCharacter_of_not_quiet (e := s.engine l) (by rw [hs]; decide) stop
    rw [deliverCharacter_of_receiving hr hs]
    refine ⟨fun a ha => ?_, fun o ho => ?_, fun y hy => ?_⟩
    · rw [judgeReply_goesOn hx' ha, withEngine_engine, withEngine_again, hended]
    · rw [judgeReply_fails hx' ho, withEngine_engine, withEngine_again, hended]
    · rw [judgeReply_valid hx' hy, hended]

end Sys2Proof.Machine
end

