-- ==== Sys2Proof/Proofs/LineDisabling.lean ====
section
/-!
SUPPORT and CERTIFICATES. DISABLE LINE (R132): the exchange aborted (R133), the controller forced to STOPPED (R35), the
QUEUED requests cancelled (R54), in this order.
-/

namespace Sys2Proof.Machine

open Sys2Proof.Safety

/-! ### The abort -/

section
variable {l : Line} {s : State} {x : Exchange}

/-- A routine append touches no interrupt but OVERRUN (R77). -/
theorem appendRoutine_overrun (i : Fin 32) (p : Policy) (make : Nat → Record) (s : State) :
    ∃ store missed overrun,
      appendRoutine i p make s =
        { s with
          store := store
          missed := missed
          interrupts := { s.interrupts with latched := { s.interrupts.latched with overrun := overrun } } } := by
  have hkeep : ∃ store missed overrun,
      appendKeepAll i make s =
        { s with
          store := store
          missed := missed
          interrupts := { s.interrupts with latched := { s.interrupts.latched with overrun := overrun } } } := by
    unfold appendKeepAll
    split
    · exact ⟨_, _, _, rfl⟩
    · exact ⟨_, _, true, rfl⟩
  unfold appendRoutine
  split
  · exact hkeep
  · split
    · exact hkeep
    · exact ⟨_, _, _, rfl⟩

/-- A routine append reads neither the Host Port nor the engines. -/
theorem appendRoutine_beside (i : Fin 32) (policy : Policy) (make : Nat → Record) (s : State) (p : HostPort)
    (e : PerLine Engine) :
    appendRoutine i policy make { s with port := p, engines := e } =
      { appendRoutine i policy make s with port := p, engines := e } := by
  have hkeep : appendKeepAll i make { s with port := p, engines := e } =
      { appendKeepAll i make s with port := p, engines := e } := by
    unfold appendKeepAll
    by_cases hroom : s.storeSum < 16
    · rw [if_pos hroom, if_pos (by exact hroom)]
      rfl
    · rw [if_neg hroom, if_neg (by exact hroom)]
      rfl
  unfold appendRoutine
  cases policy with
  | keepAll => exact hkeep
  | latest =>
    dsimp only
    cases hc : candidates i s.store with
    | nil => exact hkeep
    | cons r rest => rfl

theorem abortExchange_of_none (h : (s.engine l).exchange = none) : abortExchange l s = s := by rw [abortExchange, h]

theorem abortExchange_of_some (h : (s.engine l).exchange = some x) :
    abortExchange l s = (deliverRecord l x .aborted none s).updEngine l fun e => { e with exchange := none } := by
  rw [abortExchange, h]

/-- What an abort may write (R133). -/
theorem abortExchange_writes (l : Line) (s : State) :
    ∃ urgent store missed overrun,
      abortExchange l s =
        { s with
          engines := s.engines.set l { s.engine l with exchange := none }
          urgent := urgent
          store := store
          missed := missed
          interrupts := { s.interrupts with latched := { s.interrupts.latched with overrun := overrun } } } := by
  cases hx : (s.engine l).exchange with
  | none =>
    have hengine : { s.engine l with exchange := none } = s.engine l := by rw [← hx]
    refine ⟨s.urgent, s.store, s.missed, s.interrupts.latched.overrun, ?_⟩
    rw [abortExchange_of_none hx, hengine, State.engine, PerLine.set_get_self]
  | some x =>
    rw [abortExchange_of_some hx]
    cases hw : x.work with
    | urgent tag => exact ⟨_, _, _, _, by rw [deliverRecord_of_urgent hw]; rfl⟩
    | routine i p r =>
      obtain ⟨store, missed, overrun, happended⟩ := appendRoutine_overrun i p (recordOf l x .aborted none) s
      exact ⟨_, store, missed, overrun, by rw [deliverRecord_of_routine hw, happended]; rfl⟩

theorem removeInFlight_filter_of (p : Slot → Bool) (hp : ∀ x, Slot.onLine l x = true → p x = false) (q : List Slot) :
    (removeInFlight l q).filter p = q.filter p := by
  induction q with
  | nil => rfl
  | cons x rest ih =>
    unfold removeInFlight
    split
    · next hx => rw [List.filter_cons_of_neg (by rw [hp x hx]; decide)]
    · simp only [List.filter_cons, ih]

/-- An abort takes no slot but the line's IN_FLIGHT one (R49). -/
theorem abortExchange_filter (p : Slot → Bool) (hp : ∀ x, Slot.onLine l x = true → p x = false) :
    (abortExchange l s).urgent.filter p = s.urgent.filter p := by
  cases hx : (s.engine l).exchange with
  | none => rw [abortExchange_of_none hx]
  | some x =>
    rw [abortExchange_of_some hx, State.updEngine_urgent, Machine.deliverRecord_urgent]
    cases x.work with
    | routine => rfl
    | urgent => exact removeInFlight_filter_of p hp s.urgent

end

/-! ### The five parts of a disable -/

section
variable {l : Line} {s : State}

/-- The exchange in flight aborted, with the receiver off: the first two parts of a disable (R132). -/
abbrev letGone (l : Line) (s : State) : State := abortExchange l (withEngine s l (s.engine l).letGo)

/-- What a disable leaves, by what its abort has left. -/
theorem disable_eq (l : Line) (s : State) :
    disable l s =
      { s with
        rounds :=
          if (s.controller l).state = .stopped then s.rounds
          else
            s.rounds.set l
              { s.controller l with state := .stopped, timer := none, gap := none, routineInFlight := false }
        urgent := (letGone l s).urgent.filter fun x => ¬QueuedOn l x
        engines :=
          s.engines.set l
            { s.engine l with
              state := .disabled
              exchange := none
              urgentCount := 0
              timeCount := none
              receiver := .off }
        store := (letGone l s).store ++ ((letGone l s).urgent.filter fun x => QueuedOn l x).map cancelledRecord
        missed := (letGone l s).missed
        interrupts :=
          { s.interrupts with
            latched :=
              { s.interrupts.latched with
                overrun := (letGone l s).interrupts.latched.overrun
                halted :=
                  if (s.controller l).state = .stopped then s.interrupts.latched.halted
                  else s.interrupts.latched.halted.set l true } } } := by
  have hselects (x : Slot) : QueuedOn l x ↔ ((fun m => m == l) x.line) = true ∧ x.state = .queued := by simp
  obtain ⟨urgent, store, missed, overrun, habort⟩ := abortExchange_writes l (withEngine s l (s.engine l).letGo)
  unfold disable letGone
  change (cancelQueued _ (forceStop l (abortExchange l (withEngine s l (s.engine l).letGo)))).updEngine l _ = _
  rw [habort, cancelQueued_eq hselects, forceStop_eq]
  by_cases hstopped : (s.controller l).state = .stopped
  · simp only [if_pos hstopped]
    rw [if_pos (by exact hstopped)]
    cases l <;> rfl
  · simp only [if_neg hstopped]
    rw [if_neg (by exact hstopped)]
    split <;> cases l <;> rfl

/-- No slot of the line is IN_FLIGHT after the abort. -/
theorem letGone_no_inFlight (h : Ok l s) {x : Slot} (hx : x ∈ (letGone l s).urgent) : ¬Slot.onLine l x = true := by
  obtain ⟨-, -, hcount⟩ := abortExchange_rest (h.quiet_update Engine.letGo rfl rfl)
  exact List.countP_eq_zero.1 hcount x hx

/-- A disable leaves the slots of the other line. -/
theorem letGone_stay (h : Ok l s) :
    (letGone l s).urgent.filter (fun x => ¬QueuedOn l x) = s.urgent.filter fun x => x.line ≠ l := by
  have hstay : (letGone l s).urgent.filter (fun x => ¬QueuedOn l x) =
      (letGone l s).urgent.filter fun x => x.line ≠ l := by
    refine List.filter_congr fun x hx => decide_eq_decide.2 ⟨fun hnot hline => ?_, fun hne hqueued => hne hqueued.1⟩
    have hflight := letGone_no_inFlight h hx
    cases hs : x.state with
    | queued => exact hnot ⟨hline, hs⟩
    | inFlight => exact hflight (by simp [Slot.onLine, hline, hs])
  rw [hstay]
  refine abortExchange_filter _ fun x hx => ?_
  simp only [Slot.onLine, Bool.and_eq_true, beq_iff_eq] at hx
  simp [hx.1]

/-- The requests cancelled are those that waited before the abort. -/
theorem letGone_cancelled (l : Line) (s : State) :
    ((letGone l s).urgent.filter fun x => QueuedOn l x).map cancelledRecord =
      (s.urgent.filter fun x => x.line = l ∧ x.state = .queued).map fun x =>
        { source := .urgent
          line := l
          id := x.tag
          address := x.request.address
          command := x.request.command
          outcome := .cancelled
          attempts := 0
          reply := none
          round := 0
          missed := 0 } := by
  have hsame : (letGone l s).urgent.filter (fun x => QueuedOn l x) = s.urgent.filter fun x => QueuedOn l x := by
    refine abortExchange_filter _ fun x hx => ?_
    simp only [Slot.onLine, Bool.and_eq_true, beq_iff_eq] at hx
    simp [hx.2]
  rw [hsame]
  refine List.map_congr_left fun x hx => ?_
  obtain ⟨-, hqueued⟩ := List.mem_filter.1 hx
  obtain ⟨hline, -⟩ := of_decide_eq_true hqueued
  rw [cancelledRecord, hline]

/-! #### What the abort gives to the store -/

theorem letGone_of_none (h : (s.engine l).exchange = none) :
    letGone l s = withEngine s l (s.engine l).letGo := by
  refine abortExchange_of_none ?_
  rw [withEngine_engine]
  exact h

theorem letGone_of_some {x : Exchange} (h : (s.engine l).exchange = some x) :
    letGone l s =
      (deliverRecord l x .aborted none (withEngine s l (s.engine l).letGo)).updEngine l
        fun e => { e with exchange := none } := by
  refine abortExchange_of_some ?_
  rw [withEngine_engine]
  exact h

/-- The state a command that is taken acts on: REFUSED_BUSY is cleared (R157). -/
abbrev taken (s : State) : State := { s with port := { s.port with refusedBusy := false } }

theorem exec_disableLine_of_index (h : TakesCommands s) (hp : s.port.param.toNat = lineIndex l) :
    exec .disableLine s =
      .next
        (giveResult .done
          (if (s.engine l).state = .disabled then taken s else disable l (taken s))) := by
  rw [exec_of_access (f := disableLine) (fun _ => rfl) h, disableLine]
  dsimp only
  rw [lineOfParam_of_index hp]
  rfl

theorem exec_disableLine_of_param_out_of_range (h : TakesCommands s) (hp : 2 ≤ s.port.param.toNat) :
    exec .disableLine s = .next (answered .range s) := by
  rw [exec_of_access (f := disableLine) (fun _ => rfl) h, disableLine]
  dsimp only
  rw [lineOfParam_out_of_range hp]
  rfl

end

/-- Settles O22: the disable's parts are read off one after another, the abort's by the work of its exchange. -/
theorem disableLineTakesTheLineOut : Obligations.DisableLineTakesTheLineOut := by
  refine ⟨refusedWhileBusy_of_access disableLine fun _ => rfl, fun s h =>
    ⟨exec_disableLine_of_param_out_of_range h, fun l hp => ⟨fun hdisabled => ?_, fun hused hsound => ?_⟩⟩⟩
  · rw [exec_disableLine_of_index h hp, if_pos hdisabled]
    rfl
  · have htaken : LinesSound (taken s) := linesSound_of_same hsound rfl rfl rfl rfl
    have hdisable := disable_eq l (taken s)
    rw [letGone_stay (ok_of_linesSound htaken l), letGone_cancelled] at hdisable
    refine ⟨_, by rw [exec_disableLine_of_index h hp, if_neg hused], ?_⟩
    rw [hdisable]
    refine ⟨rfl, ?_, ?_, fun m hm => ⟨?_, ?_⟩, fun hx => ?_, fun x tag hx hw => ?_, fun x i p r hx hw => ?_⟩
    · exact PerLine.get_set_same _ _ _
    · change (if (s.controller l).state = .stopped then s.rounds else _).get l = _
      split
      · rfl
      · exact PerLine.get_set_same _ _ _
    · exact PerLine.get_set_ne _ _ hm
    · change (if (s.controller l).state = .stopped then s.rounds else _).get m = _
      split
      · rfl
      · exact PerLine.get_set_ne _ _ hm
    · rw [letGone_of_none (by exact hx)]
      exact ⟨rfl, rfl, rfl⟩
    · rw [letGone_of_some (by exact hx), deliverRecord_of_urgent hw, recordOf_urgent hw]
      exact ⟨rfl, rfl, rfl⟩
    · rw [letGone_of_some (by exact hx), deliverRecord_of_routine hw, recordOf_routine hw]
      dsimp only [withEngine]
      rw [appendRoutine_beside]
      exact ⟨rfl, rfl, rfl⟩

end Sys2Proof.Machine
end

