-- ==== Sys2Proof/Proofs/Replies.lean ====
section
/-!
SUPPORT and CERTIFICATES. The bytes of a reply record's image (R165), the characters on the wire (R99, R100), and the
checks on a reply from its first character to its last (R105, R107, R109, R112, R127).
-/

namespace Sys2Proof.Machine

open Sys2Proof.Safety

/-! ### The image of a record -/

section
variable (r : Record)

theorem recordImage_length : (recordImage r).length = 10 + r.payload.length := by
  simp only [recordImage, List.length_append, List.length_cons, List.length_nil]

theorem recordImage_payload (k : Nat) : (recordImage r)[10 + k]? = r.payload[k]? := by
  rw [recordImage, List.getElem?_append_right (by simp)]
  simp

/-- The source, the line and the presence of a reply each have a bit of byte 0 (R165). -/
theorem recordFlags_bits (source : RecordSource) (l : Line) (present : Bool) :
    let b : Byte := BitVec.ofNat 8 (128 * source.bit + 64 * lineBit l + present.toNat)
    (b.getLsbD 7 = true ↔ source = .urgent) ∧ (b.getLsbD 6 = true ↔ l = .b) ∧
      (b.getLsbD 0 = true ↔ present = true) ∧ ∀ k, 1 ≤ k → k ≤ 5 → b.getLsbD k = false := by
  have hbits : ∀ (source : RecordSource) (l : Line) (present : Bool) (k : Nat), 1 ≤ k → k ≤ 5 →
      (BitVec.ofNat 8 (128 * source.bit + 64 * lineBit l + present.toNat) : Byte).getLsbD k = false := by
    intro source l present k h1 h5
    interval_cases k <;> cases source <;> cases l <;> cases present <;> rfl
  refine ⟨?_, ?_, ?_, hbits source l present⟩ <;> cases source <;> cases l <;> cases present <;> decide

theorem payload_of_none {r : Record} (h : r.reply = none) : r.payload = [] := by rw [Record.payload, h]

theorem payload_of_some {r : Record} {y : Reply} (h : r.reply = some y) : r.payload = y.payload := by
  rw [Record.payload, h]

end

/-- Settles O13: ten bytes of fields in their order, and then the payload. -/
theorem recordImageLayout : Obligations.RecordImageLayout := by
  intro r h
  obtain ⟨hsource, hline, hpresent, hrest⟩ := recordFlags_bits r.source r.line r.reply.isSome
  have hattempts := h.attempts
  have hmissed := h.missed
  have hpayload := h.payload
  refine ⟨recordImage_length r, ⟨_, rfl, hsource, hline, hpresent.trans Option.isSome_iff_exists, hrest⟩, rfl, rfl, rfl,
    ?_, ⟨_, rfl, toNat_ofNat_byte (by omega)⟩, ?_, rfl, ⟨_, rfl, toNat_ofNat_byte (by omega)⟩,
    ⟨_, rfl, toNat_ofNat_byte (by omega)⟩, fun k _ => recordImage_payload r k, fun hnone => ?_,
    fun y => payload_of_some⟩
  · change some r.outcome.code = _
    cases r.outcome <;> rfl
  · change some r.statusByte = _
    unfold Record.statusByte
    cases r.reply <;> rfl
  · rw [recordImage_length, payload_of_none hnone]
    rfl

/-! ### The checks on a reply -/

section
variable {q : Request} {a : Assembly} {d : Byte}

theorem judge_error (q : Request) (a : Assembly) (d : Byte) : judge q a d true = .fails .charError := rfl

theorem judge_lead (h : a.position = 0) :
    judge q a d false = if d = 0xC3 then .goesOn { a with position := 1 } else .fails .badFrame := by
  simp only [judge, h, Assembly.grow_eq]
  simp [grown, h]

/-- A character that the CRC covers and no field keeps (R105). -/
theorem judge_address (h : a.position = 1) :
    judge q a d false = if d = q.address then .goesOn (a.cover d) else .fails .badFrame := by
  simp only [judge, h, Assembly.grow]
  rfl

theorem judge_command (h : a.position = 2) :
    judge q a d false = if d = q.command then .goesOn (a.cover d) else .fails .badFrame := by
  simp only [judge, h, Assembly.grow]
  rfl

theorem judge_status (h : a.position = 3) : judge q a d false = .goesOn { a.cover d with status := d } := by
  simp only [judge, h, Assembly.grow]
  rfl

theorem judge_length (h : a.position = 4) :
    judge q a d false =
      if d.toNat ≤ 16 ∧ q.expectation.accepts d.toNat = true then .goesOn { a.cover d with length := d.toNat }
      else .fails .badFrame := by
  simp only [judge, h, Assembly.grow]
  rfl

/-- The CHECK, once the payload is complete (R109, R112). -/
theorem judge_check (h : 5 ≤ a.position) (hl : 5 + a.length ≤ a.position) :
    judge q a d false =
      if d = a.crc then .valid { status := a.status, payload := a.payload } else .fails .checkError := by
  unfold judge
  rw [if_neg (by decide)]
  split
  iterate 5 · omega
  · rw [if_neg (by omega)]

theorem judge_payload (h : 5 ≤ a.position) (hl : a.position < 5 + a.length) :
    judge q a d false = .goesOn { a.cover d with payload := a.payload ++ [d] } := by
  have hgrown : a.grow d = { a.cover d with payload := a.payload ++ [d] } := by
    have hcovered : 1 ≤ a.position := by omega
    have hstatus : a.position ≠ 3 := by omega
    have hlength : a.position ≠ 4 := by omega
    rw [Assembly.grow_eq]
    simp only [grown, Assembly.cover, if_neg hstatus, if_neg hlength, h, hl, hcovered, and_self, if_true]
  unfold judge
  rw [if_neg (by decide)]
  split
  iterate 5 · omega
  · rw [if_pos hl, hgrown]

theorem accepts_iff (x : ReplyExpectation) (n : Nat) : x.accepts n = true ↔ x = .any ∨ x = .exactly n := by
  cases x with
  | any => simp [ReplyExpectation.accepts]
  | exactly m =>
    simp only [ReplyExpectation.accepts, beq_iff_eq, reduceCtorEq, false_or, ReplyExpectation.exactly.injEq]
    exact eq_comm

end

/-- Settles O51: one check for each position, in the order of the table. -/
theorem replyChecksDecideTheOutcome : Obligations.ReplyChecksDecideTheOutcome := by
  refine fun q a d => ⟨judge_error q a d, judge_lead, judge_address, judge_command, judge_status,
    fun h => ⟨fun hlong => ?_, fun n hx hn => ?_, fun hd hx => ?_⟩, judge_payload, judge_check⟩
  · rw [judge_length h, if_neg fun hc => absurd hc.1 (by omega)]
  · refine (judge_length h).trans (if_neg fun hc => ?_)
    rcases (accepts_iff _ _).1 hc.2 with hany | hexactly
    · rw [hx] at hany
      cases hany
    · rw [hx] at hexactly
      cases hexactly
      exact hn rfl
  · exact (judge_length h).trans (if_pos ⟨hd, (accepts_iff _ _).2 hx⟩)

/-! ### A whole reply -/

theorem judgeAll_cons {q : Request} {d : Byte} {rest : List Byte} {a b : Assembly}
    (h : judge q a d false = .goesOn b) : judgeAll q (d :: rest) a = judgeAll q rest b := by
  rw [judgeAll, h]

/-- Payload bytes within LEN are all taken (R109). -/
theorem judgeAll_payload (q : Request) (bytes : List Byte) (a : Assembly) (h : 5 ≤ a.position)
    (hl : a.position + bytes.length ≤ 5 + a.length) :
    judgeAll q bytes a =
      some
        { a with
          position := a.position + bytes.length
          crc := bytes.foldl crcByte a.crc
          payload := a.payload ++ bytes } := by
  induction bytes generalizing a with
  | nil => simp [judgeAll]
  | cons d rest ih =>
    rw [List.length_cons] at hl
    rw [judgeAll_cons (judge_payload h (by omega)), ih _ (Nat.le_succ_of_le h) (by simp only [Assembly.cover]; omega)]
    simp only [Assembly.cover, List.length_cons, List.foldl_cons, List.append_assoc, List.singleton_append]
    congr 2
    omega

/-- Settles O54: the head of the frame passes its checks, the payload is taken as a whole, and the CRC is over both. -/
theorem wholeReplyFrameIsValid : Obligations.WholeReplyFrameIsValid := by
  intro q status payload hlength hx body
  have hlen : (BitVec.ofNat 8 payload.length : Byte).toNat = payload.length := toNat_ofNat_byte (by omega)
  have haccepts : (BitVec.ofNat 8 payload.length : Byte).toNat ≤ 16 ∧
      q.expectation.accepts (BitVec.ofNat 8 payload.length : Byte).toNat = true := by
    rw [hlen]
    exact ⟨hlength, (accepts_iff _ _).2 hx⟩
  let whole : Assembly :=
    { position := 5 + payload.length, crc := crc8 body, status := status, length := payload.length, payload := payload }
  have hall : judgeAll q (0xC3 :: body) Assembly.empty = some whole := by
    change judgeAll q (0xC3 :: q.address :: q.command :: status :: BitVec.ofNat 8 payload.length :: payload) _ = _
    rw [judgeAll_cons ((judge_lead rfl).trans (if_pos rfl)), judgeAll_cons ((judge_address rfl).trans (if_pos rfl)),
      judgeAll_cons ((judge_command rfl).trans (if_pos rfl)), judgeAll_cons (judge_status rfl),
      judgeAll_cons ((judge_length rfl).trans (if_pos haccepts)), judgeAll_payload]
    · simp only [hlen, whole]
      rfl
    · exact Nat.le_refl 5
    · simp only [hlen]
      exact Nat.le_refl _
  have hcheck (d : Byte) : judge q whole d false =
      if d = crc8 body then .valid { status := status, payload := payload } else .fails .checkError :=
    judge_check (Nat.le_add_right 5 _) (Nat.le_refl _)
  exact ⟨whole, hall, (hcheck _).trans (if_pos rfl), fun d hd => (hcheck d).trans (if_neg hd)⟩

/-! ### Characters -/

section
variable (c : LineConfig) (b : Byte)

theorem characterLevels_start : (characterLevels c b)[0]? = some .low := by
  rw [characterLevels_eq]
  rfl

theorem characterLevels_data {k : Nat} (hk : k < 8) :
    (characterLevels c b)[1 + k]? = some (if b.getLsbD k then .high else .low) := by
  rw [characterLevels_eq]
  interval_cases k <;> rfl

theorem characterLevels_parity {p : Bool} (hp : parityBitOf c.parity b = some p) :
    (characterLevels c b)[9]? = some (levelOf p) := by
  rw [characterLevels_eq, hp]
  rfl

theorem parityBitOf_none_iff (p : Parity) : parityBitOf p b = none ↔ p = .none := by cases p <;> simp [parityBitOf]

/-- The stop bits are the last levels of a character (R99). -/
theorem characterLevels_stop {k : Nat} (hk : k < c.stopBits) :
    (characterLevels c b)[characterLength c - c.stopBits + k]? = some .high := by
  have hlength := characterLevels_length c b
  unfold characterLevels at hlength ⊢
  rw [List.length_append, List.length_replicate] at hlength
  rw [List.getElem?_append_right (by omega), List.getElem?_replicate]
  exact if_pos (by omega)

/-- The parity bit of a character makes the count of ones what the setting asks for (R99). -/
theorem parityRight_of_parityBitOf {p : Parity} {bit : Bool} (h : parityBitOf p b = some bit) :
    ParityRight p b bit := by
  have hwrong := parityWrong_iff p b bit
  rw [h] at hwrong
  by_contra hnot
  exact hwrong.2 hnot rfl

theorem parityRight_none (bit : Bool) : ParityRight .none b bit := trivial

/-- A character's samples, with its parity bit where the setting has one, give back its byte (R100). -/
theorem sampleCharacter_characterLevels {bit : Bool} (hs : 1 ≤ c.stopBits)
    (hb : (parityBitOf c.parity b).toList = if c.parity = .none then [] else [bit])
    (hnone : c.parity = .none → bit = false) :
    sampleCharacter c.parity (characterLevels c b) = some (b, bit, .high) := by
  obtain ⟨n, hn⟩ := Nat.exists_eq_add_of_le' hs
  have hlevels : characterLevels c b = .low :: ((List.range 8).map (fun k => levelOf (b.getLsbD k)) ++
      (if c.parity = .none then [] else [levelOf bit]) ++ .high :: List.replicate n .high) := by
    unfold characterLevels
    rw [hb, hn, List.replicate_succ]
    split <;> rfl
  rw [hlevels]
  exact (sampleCharacter_iff _ _ _ _ _).2 ⟨⟨_, rfl⟩, hnone⟩

/-- An error is a stop bit at space or a wrong parity bit (R100). -/
theorem characterError_iff (p : Bool) (v : Level) :
    characterError c b p v = true ↔ v = .low ∨ ¬ParityRight c.parity b p := by
  have hwrong := parityWrong_iff c.parity b p
  unfold characterError
  rw [Bool.or_eq_true, beq_iff_eq, ← hwrong]
  cases parityBitOf c.parity b with
  | none => simp
  | some e => simp

end

/-- Settles O53: the levels are read off in their order, and their samples are the levels themselves. -/
theorem charactersCarryTheirByte : Obligations.CharactersCarryTheirByte := by
  intro c b
  refine ⟨characterLevels_length c b, characterLevels_start c b, fun k => characterLevels_data c b, fun hparity => ?_,
    fun k => characterLevels_stop c b, fun hstop => ?_, characterError_iff c b⟩
  · obtain ⟨p, hp⟩ := Option.ne_none_iff_exists'.1 (mt (parityBitOf_none_iff b c.parity).1 hparity)
    exact ⟨p, characterLevels_parity c b hp, parityRight_of_parityBitOf b hp⟩
  · cases hp : parityBitOf c.parity b with
    | none =>
      have hnone := (parityBitOf_none_iff b c.parity).1 hp
      refine ⟨false, sampleCharacter_characterLevels c b hstop ?_ fun _ => rfl, ?_⟩
      · rw [hp, if_pos hnone]
        rfl
      · rw [hnone]
        exact parityRight_none b false
    | some p =>
      have hsome : c.parity ≠ .none := fun hnone => by rw [(parityBitOf_none_iff b c.parity).2 hnone] at hp; cases hp
      refine ⟨p, sampleCharacter_characterLevels c b hstop ?_ fun hnone => absurd hnone hsome,
        parityRight_of_parityBitOf b hp⟩
      rw [hp, if_neg hsome]
      rfl

end Sys2Proof.Machine
end
